-- ==== Sys2Proof/Word.lean ====
section
/-! DEFINITION. The words the Dolvena DV4 handles as bits: the byte of the line, the serial number, the
32-bit content word of an upstream half. Every other quantity of the manual is counted, not masked, and is
a Nat. -/

namespace Sys2Proof

/-- A byte of the grounds line (R174). -/
abbrev Byte := BitVec 8

/-- The 32-bit number each node carries from manufacture (R19). -/
abbrev Serial := BitVec 32

/-- The four content bytes of an upstream half taken as one 32-bit word (12_formats.md, Node slot halves). -/
abbrev Content := BitVec 32

end Sys2Proof
end

