-- ==== Sys2Proof/Syntax.lean ====
section
/-! DEFINITION. The commands of the DV4: one constructor of `Instr` per row of spec/opcode_table.json, with the
operands each carries. Fields are plain numbers, so that a value outside its range can be written down and is
then clamped or refused by the rule of its table. -/

namespace Sys2Proof

/-- One byte of an upstream half as the three samples of each of its bits (R10): bit i of `a`, `b` and `c` are the
first, second and third sample of bit i. -/
structure Sampled where
  a : Byte
  b : Byte
  c : Byte
  deriving DecidableEq, Repr

/-- The 38 arbitration bits of a management slot, address then serial, as the three samples of each (R10, R12). -/
structure PairSampled where
  a : BitVec 38
  b : BitVec 38
  c : BitVec 38
  deriving DecidableEq, Repr

/-- One bidder of a management slot (R12): the address and serial it drives in the arbitration field, the samples
taken of that field where this bidder is its winner, and those of the fragment it drives after it (R10). -/
structure Bid where
  address : Nat
  serial : Serial
  arbitration : PairSampled
  fragment : List Sampled
  deriving DecidableEq, Repr

/-- Where a completed request comes from (R153): the sender's line address, its serial, the message number. -/
structure Origin where
  address : Nat
  serial : Serial
  number : Nat
  deriving DecidableEq, Repr

/-- The four levels of a step (R100). -/
structure Levels where
  l0 : Nat
  l1 : Nat
  l2 : Nat
  l3 : Nat
  deriving DecidableEq, Repr

/-- A placement as written (R8). -/
structure SlotWrite where
  slot : Nat
  divisor : Nat
  phase : Nat
  node : Nat
  deriving DecidableEq, Repr

/-- A node record as written (R20). -/
structure NodeWrite where
  address : Nat
  serial : Serial
  kind : Nat
  deriving DecidableEq, Repr

/-- A loop record as written (R38). -/
structure LoopWrite where
  n1 : Nat
  tolerance : Nat
  jump : Nat
  body : Nat
  dock : Nat
  dockPreset : Bool
  persist : Bool
  verify : Bool
  spacing : Nat
  spacingTol : Nat
  deriving DecidableEq, Repr

/-- A mower record as written (R41). -/
structure MowerWrite where
  node : Option Nat
  loop : Nat
  deriving DecidableEq, Repr

/-- A zone record as written (R71). -/
structure ZoneWrite where
  kind : Nat
  loop : Nat
  first : Nat
  last : Nat
  lookahead : Nat
  assume : Bool
  activeWhen : Nat
  filter : Nat
  showIx : Nat
  channels : List Nat
  cap : Nat
  groups : List Nat
  deriving DecidableEq, Repr

/-- A channel record as written (R89). -/
structure ChannelWrite where
  kind : Nat
  node : Option Nat
  minLevel : Nat
  maxLevel : Nat
  day : Nat
  night : Nat
  nightStart : Nat
  nightEnd : Nat
  clog : Nat
  clear : Nat
  auto : Bool
  valve : Nat
  backwash : Nat
  rinse : Nat
  stopFrames : Nat
  washFrames : Nat
  rinseFrames : Nat
  discharge : Nat
  deriving DecidableEq, Repr

/-- A show record as written (R101). -/
structure ShowWrite where
  channels : List Nat
  first : Nat
  loopCount : Nat
  startMin : Option Nat
  stopMin : Option Nat
  deriving DecidableEq, Repr

/-- A step as written (R101). `next` none is END. -/
structure StepWrite where
  levels : Levels
  duration : Nat
  next : Option Nat
  deriving DecidableEq, Repr

/-- A light group record as written (R124). -/
structure LightWrite where
  node : Option Nat
  mode : Nat
  onLevel : Nat
  lateLevel : Nat
  lateMin : Nat
  offMin : Nat
  presLevel : Nat
  presHold : Nat
  motion : List Nat
  upInt : Nat
  upFrac : Nat
  downInt : Nat
  downFrac : Nat
  deriving DecidableEq, Repr

/-- A load record as written (R139). -/
structure LoadWrite where
  cls : Nat
  minDraw : Nat
  fullDraw : Nat
  node : Option Nat
  deriving DecidableEq, Repr

/-- The site record as written (R159). -/
structure SiteWrite where
  privileged : List Nat
  budget : Nat
  weather : Option Nat
  level : Option Nat
  supply : Option Nat
  dusk : Nat
  dawn : Nat
  staleLimit : Nat
  dropLimit : Nat
  deriving DecidableEq, Repr

/-- The commands, one constructor per row of the opcode table. -/
inductive Instr where
  /-- R17 -/
  | resetAsserted
  /-- R173 -/
  | startUp
  /-- R1 -/
  | frameStart
  /-- R15 -/
  | lineBreak
  /-- R16 -/
  | lineResume
  /-- R11. What is heard in the upstream half of `slot`: nothing, or a half. -/
  | nodeSlotEnd (slot : Nat) (heard : Option (List Sampled))
  /-- R13. The bids of management slot `slot`. -/
  | managementSlotEnd (slot : Nat) (bids : List Bid)
  /-- R165 -/
  | readStatus (o : Origin)
  /-- R156 -/
  | readEntries (o : Origin) (space table first count : Nat)
  /-- R29 -/
  | readNodeChanges (o : Origin) (record count : Nat)
  /-- R157 -/
  | continueRead (o : Origin) (count : Nat)
  /-- R158 -/
  | writeEntries (o : Origin) (space table first count : Nat) (bytes : List Byte)
  /-- R8. `none` makes the entry free. -/
  | writeSlotmap (o : Origin) (index : Nat) (w : Option SlotWrite)
  /-- R20. `none` is the empty value. -/
  | writeNodes (o : Origin) (index : Nat) (w : Option NodeWrite)
  /-- R25. `blank` says whether the value written is the empty value. -/
  | writeJoiners (o : Origin) (index : Nat) (blank : Bool)
  /-- R38 -/
  | writeLoops (o : Origin) (index : Nat) (w : Option LoopWrite)
  /-- R41 -/
  | writeMowers (o : Origin) (index : Nat) (w : MowerWrite)
  /-- R71 -/
  | writeZones (o : Origin) (index : Nat) (w : Option ZoneWrite)
  /-- R89 -/
  | writeChannels (o : Origin) (index : Nat) (w : Option ChannelWrite)
  /-- R101 -/
  | writeShows (o : Origin) (index : Nat) (w : Option ShowWrite)
  /-- R101 -/
  | writeSteps (o : Origin) (index : Nat) (w : StepWrite)
  /-- R124 -/
  | writeLights (o : Origin) (index : Nat) (w : Option LightWrite)
  /-- R139 -/
  | writeLoads (o : Origin) (index : Nat) (w : Option LoadWrite)
  /-- R159 -/
  | writeSite (o : Origin) (index : Nat) (w : Option SiteWrite)
  /-- R164 -/
  | takeNotices (o : Origin)
  /-- R162 -/
  | setClock (o : Origin) (minute : Nat)
  /-- R169 -/
  | saveTables (o : Origin)
  /-- R172 -/
  | loadTables (o : Origin)
  /-- R67 -/
  | presetPosition (o : Origin) (mower target : Nat)
  /-- R60 -/
  | releaseCapture (o : Origin) (mower : Nat)
  /-- R83 -/
  | dockAll (o : Origin)
  /-- R83 -/
  | resumeAll (o : Origin)
  /-- R103 -/
  | startShow (o : Origin) (ix : Nat)
  /-- R104 -/
  | stopShow (o : Origin) (ix : Nat)
  /-- R119 -/
  | startBackwash (o : Origin) (channel : Nat)
  /-- R120 -/
  | stopBackwash (o : Origin) (channel : Nat)
  /-- R92 -/
  | clearFault (o : Origin) (channel : Nat)
  /-- R147 -/
  | restoreSupply (o : Origin)
  /-- R165 -/
  | restartLine (o : Origin)
  /-- R160 -/
  | forward (o : Origin) (node : Nat) (payload : List Byte)
  /-- R151. A refusal queued for a sender without privilege, with the request kind it carried. -/
  | notPermittedRefusal (o : Origin) (kind : Byte)
  /-- R155. A request of unknown kind, or a JOIN from a sender other than 63. -/
  | unknownRequest (o : Origin) (kind : Byte)
  /-- R161 -/
  | forwardTimeout
  /-- R61 -/
  | dockDebounceExpiry (mower : Nat)
  /-- R102 -/
  | showStepEnd (ix : Nat)
  /-- R129 -/
  | holdTimerExpiry (group : Nat)
  /-- R162 -/
  | minuteAdvance
  /-- R112 -/
  | backwashStopping (channel : Nat)
  /-- R112 -/
  | stoppingEnd (channel : Nat)
  /-- R113 -/
  | valveBackwashPos (channel : Nat)
  /-- R113 -/
  | valveTimeout (channel : Nat)
  /-- R114 -/
  | washingEnd (channel : Nat)
  /-- R114 -/
  | rinsingEnd (channel : Nat)
  /-- R115 -/
  | restoreNormalPos (channel : Nat)
  /-- R115 -/
  | restoringTimeout (channel : Nat)
  /-- R117 -/
  | abortNormalPos (channel : Nat)
  /-- R117 -/
  | abortingTimeout (channel : Nat)
  /-- R168. Whether the store reports its write good. -/
  | storeCompletion (good : Bool)
  /-- R167 -/
  | lossOfSupply
  deriving DecidableEq, Repr

end Sys2Proof
end

