-- ==== Sys2Proof/Config.lean ====
section
/-! DEFINITION. What the manual leaves to the implementation: the fixed value that marks an image (chosen,
log 2) and the free values, which have no body, so nothing can be proved about which value they are (log 14). -/

namespace Sys2Proof

/-- The identity part of an image (R167 gives neither its value nor its width). DESIGN CHOICE, log 2. -/
def Config.imageIdentity : List Byte := [0x44#8, 0x56#8, 0x34#8, 0x20#8]

/-- The byte that stands for the validity mark, set, in the image's check code (R167 gives no layout).
DESIGN CHOICE, log 2. -/
def Config.markSetByte : Byte := 0x01#8

/-- The byte that stands for the validity mark, clear, in the image's check code. DESIGN CHOICE, log 2. -/
def Config.markClearByte : Byte := 0x00#8

/-- Free value: a byte the spec does not state, fresh for each index (log 14). -/
opaque Config.freeByte : Nat → Byte

/-- Free value: a 16-bit detail value the spec does not state, fresh for each index (log 14). -/
opaque Config.freeDetail : Nat → BitVec 16

/-- Free value: the byte GRANTS entry 28 sends for a shed cause of none (R148 gives "none", 12_formats.md gives
no byte for it; log 14). -/
opaque Config.noShedCauseByte : Byte

/-- Free value: the byte CHANNEL_STATE sends for a cap that does not hold (12_formats.md gives none; log 14). -/
opaque Config.noCapByte : Byte

end Sys2Proof
end

