-- ==== Sys2Proof/Machine/State.lean ====
section
/-! DEFINITION. The state of the DV4, block by block (00_scope.md, Block diagram), as plain data, and its value
right after start-up with a table store that has never been saved (log 1). Two names for one quantity have one
home (log 26): a channel's grant is its load's, the caps and flags the Zone Monitor hands on are held once, and
the pending list is the difference of the next map from the active map. -/

namespace Sys2Proof.Machine

/-! ### The part -/

/-- Whether the part runs, is held by the reset input, or has lost its supply (R17, R173). -/
inductive Mode where
  | on
  | held
  | off
  deriving DecidableEq, Repr

/-! ### Line Unit (chapter 1) -/

/-- R15. -/
inductive LineState where
  | running
  | inBreak
  deriving DecidableEq, Repr

/-- A placement of the slot map (Placements and the slot map). -/
structure Placement where
  slot : Nat
  divisor : Nat
  phase : Nat
  node : Nat
  deriving DecidableEq, Repr

/-- The receive state of the slot in progress (R10). -/
structure Receive where
  node : Option Nat
  bytes : List Byte
  noisy : Bool
  deriving DecidableEq, Repr

/-- The Line Unit's state (R18). `next` is the next map; `restartDue` says that a line restart has been caused
and BREAK is entered where the next frame would begin (R15). `header`, `field` and `down` are what was last
sent. -/
structure Line where
  frame : Nat
  state : LineState
  breakCount : Option Nat
  restartDue : Bool
  active : List (Option Placement)
  next : List (Option Placement)
  rx : Option Receive
  attention : Bool
  field : List Byte
  header : List Byte
  down : Option (Nat × List Byte)
  fragCount : Nat
  checkErrCount : Nat
  deriving DecidableEq, Repr

/-! ### Node Table (chapter 2) -/

/-- The ten kinds, in the order of their numbers (12_formats.md). -/
inductive NodeKind where
  | gateway
  | mower
  | pump
  | valve
  | light
  | dock
  | weather
  | level
  | motion
  | supply
  deriving DecidableEq, Repr

/-- R19. -/
inductive NodeState where
  | empty
  | provisioned
  | active
  | stale
  | dropped
  deriving DecidableEq, Repr

/-- The written part of a node record. -/
structure NodeIdent where
  address : Nat
  serial : Serial
  kind : NodeKind
  deriving DecidableEq, Repr

/-- A confirmed change not yet read (R19, R29). -/
structure Change where
  old : Option Nat
  new : Nat
  frame : Nat
  deriving DecidableEq, Repr

/-- A node record (R19). `answeredNow` marks the frame whose header carried the record's JOIN ANSWER (R23). -/
structure Node where
  ident : Option NodeIdent
  state : NodeState
  answerPending : Bool
  answeredNow : Bool
  code : Option Nat
  cand : Option Nat
  changes : List Change
  missed : Nat
  noise : Nat
  checkErr : Nat
  rejoin : Nat
  sample : Option Content
  lastFrame : Option Nat
  deriving DecidableEq, Repr

/-- An entry of the unknown-joiner list (R24). -/
structure Joiner where
  serial : Serial
  kind : Nat
  first : Nat
  latest : Nat
  deriving DecidableEq, Repr

structure NodeTable where
  recs : List Node
  joiners : List Joiner
  overflow : Nat
  deriving DecidableEq, Repr

/-! ### Position Engine (chapters 3 and 4) -/

/-- A loop record in use (R37). -/
structure LoopRec where
  n1 : Nat
  tolerance : Nat
  jump : Nat
  body : Nat
  dock : Nat
  dockPreset : Bool
  persist : Bool
  verify : Bool
  spacing : Nat
  spacingTol : Nat
  deriving DecidableEq, Repr

/-- R42. -/
inductive MowerState where
  | unused
  | unreferenced
  | acquiring
  | tracked
  | slipping
  | lost
  | stale
  deriving DecidableEq, Repr

/-- R40. -/
inductive Direction where
  | forward
  | backward
  deriving DecidableEq, Repr

/-- A mower record (R40, R56). A debounce timer of 0 is stopped. -/
structure Mower where
  node : Option Nat
  loop : Nat
  offset : Nat
  offsetValid : Bool
  unsaved : Bool
  state : MowerState
  raw : Option Nat
  computed : Option Nat
  reported : Nat
  lastFrame : Option Nat
  dir : Direction
  slip : Nat
  acquire : Nat
  capA : Option Nat
  capB : Option Nat
  locked : Bool
  verified : Bool
  debounce : Nat
  slips : Nat
  missedMarkers : Nat
  mismatches : Nat
  lastMarker : Bool
  lastDock : Bool
  deriving DecidableEq, Repr

structure Position where
  loops : List (Option LoopRec)
  mowers : List Mower
  deriving DecidableEq, Repr

/-! ### Zone Monitor (chapter 5) -/

/-- R70. -/
inductive ZoneKind where
  | spray
  | keepout
  | slow
  | light
  deriving DecidableEq, Repr

/-- R70. -/
inductive ActiveWhen where
  | always
  | duringBackwash
  | duringShow
  deriving DecidableEq, Repr

/-- A zone record in use (R70). -/
structure ZoneRec where
  kind : ZoneKind
  loop : Nat
  first : Nat
  last : Nat
  lookahead : Nat
  assume : Bool
  activeWhen : ActiveWhen
  filter : Nat
  showIx : Nat
  channels : List Nat
  cap : Nat
  groups : List Nat
  deriving DecidableEq, Repr

/-- R84. -/
inductive Permit where
  | mow
  | slow
  | dock
  | hold
  deriving DecidableEq, Repr

structure ZoneMon where
  zones : List (Option ZoneRec)
  occ : List (List Nat)
  counts : List Nat
  keep : List (List Nat)
  permits : List (Option Permit)
  dockAll : Bool
  sprayCaps : List (Option Nat)
  presence : List Bool
  deriving DecidableEq, Repr

/-! ### Water Controller (chapters 6 and 7) -/

/-- R88. -/
inductive ChannelKind where
  | filter
  | fountain
  | valve
  deriving DecidableEq, Repr

/-- A channel record in use, its written fields (R88). -/
structure ChannelRec where
  kind : ChannelKind
  node : Option Nat
  minLevel : Nat
  maxLevel : Nat
  day : Nat
  night : Nat
  nightStart : Nat
  nightEnd : Nat
  clog : Nat
  clear : Nat
  auto : Bool
  valve : Nat
  backwash : Nat
  rinse : Nat
  stopFrames : Nat
  washFrames : Nat
  rinseFrames : Nat
  discharge : Nat
  deriving DecidableEq, Repr

/-- R90, in the order its table lists them. -/
inductive ChannelState where
  | off
  | fault
  | held
  | backwash
  | running
  deriving DecidableEq, Repr

/-- R110. -/
inductive Stage where
  | idle
  | requested
  | stopping
  | reversing
  | washing
  | rinsing
  | restoring
  | aborting
  deriving DecidableEq, Repr

/-- A channel: its record, what the Water Controller keeps for it (R88), its filter monitor (`filt` is F, none is
unset; R108, R109) and its backwash cycle (R110; a timer of 0 is stopped, a cause of 0 is none). -/
structure Channel where
  cfg : Option ChannelRec
  state : ChannelState
  latch : Bool
  requested : Nat
  output : Nat
  reqLevel : Nat
  reqDraw : Nat
  filt : Option Nat
  clogged : Bool
  stage : Stage
  timer : Nat
  cause : Nat
  count : Nat
  deriving DecidableEq, Repr

/-- The written fields of a show record in use (R100). -/
structure ShowRec where
  channels : List Nat
  first : Nat
  loopCount : Nat
  startMin : Option Nat
  stopMin : Option Nat
  deriving DecidableEq, Repr

/-- R100. -/
inductive ShowState where
  | idle
  | playing
  | paused
  deriving DecidableEq, Repr

/-- A show: its record and its player (R100). `next` none is END. -/
structure Player where
  cfg : Option ShowRec
  state : ShowState
  step : Option Nat
  levels : Levels
  next : Option Nat
  remaining : Nat
  loopsDone : Nat
  deriving DecidableEq, Repr

/-- A step (R100). `next` none is END. -/
structure Step where
  levels : Levels
  duration : Nat
  next : Option Nat
  deriving DecidableEq, Repr

/-- `pond` none is unknown (R98). -/
structure Water where
  channels : List Channel
  shows : List Player
  steps : List Step
  pond : Option Nat
  rain : Bool
  dry : Bool
  deriving DecidableEq, Repr

/-! ### Lighting Controller (chapter 8) -/

/-- R123. -/
inductive LightMode where
  | off
  | duskToTime
  | duskToDawn
  | always
  deriving DecidableEq, Repr

/-- A light group record in use (R123). -/
structure LightRec where
  node : Option Nat
  mode : LightMode
  onLevel : Nat
  lateLevel : Nat
  lateMin : Nat
  offMin : Nat
  presLevel : Nat
  presHold : Nat
  motion : List Nat
  upInt : Nat
  upFrac : Nat
  downInt : Nat
  downFrac : Nat
  deriving DecidableEq, Repr

/-- R127. -/
inductive Evening where
  | early
  | late
  | done
  deriving DecidableEq, Repr

/-- R128. -/
inductive Presence where
  | inactive
  | active
  | holding
  deriving DecidableEq, Repr

/-- A light group: its record and what the controller keeps for it (R123). A hold timer of 0 is stopped. -/
structure LightGroup where
  cfg : Option LightRec
  online : Bool
  dark : Bool
  evening : Evening
  presence : Presence
  hold : Nat
  scheduled : Nat
  target : Nat
  aim : Nat
  current : Nat
  acc : Nat
  reqDraw : Nat
  cap : Nat
  deriving DecidableEq, Repr

/-! ### Power Allocator (chapter 9) -/

/-- A load record (R137). -/
structure Load where
  cls : Nat
  minDraw : Nat
  fullDraw : Nat
  node : Option Nat
  request : Nat
  grant : Nat
  deriving DecidableEq, Repr

/-- R146. -/
inductive ShedCause where
  | overrun
  | foldback
  deriving DecidableEq, Repr

structure Power where
  loads : List Load
  remainder : Nat
  shed : Bool
  cause : Option ShedCause
  run : Nat
  measured : Option Nat
  deriving DecidableEq, Repr

/-! ### Management Unit (chapter 10) -/

/-- The site record (R159). -/
structure Site where
  privileged : List Nat
  budget : Nat
  weather : Option Nat
  level : Option Nat
  supply : Option Nat
  dusk : Nat
  dawn : Nat
  staleLimit : Nat
  dropLimit : Nat
  deriving DecidableEq, Repr

/-- The fields of an assembling context (R150). An empty context is `none`. -/
structure Assembly where
  address : Nat
  serial : Serial
  number : Nat
  next : Nat
  payload : List Byte
  deriving DecidableEq, Repr

/-- The statuses, in the order of their numbers (12_formats.md). -/
inductive Status where
  | done
  | doneClamped
  | accepted
  | busy
  | noSuchTable
  | outOfRange
  | conflict
  | wrongState
  | notPermitted
  | noReply
  | malformed
  deriving DecidableEq, Repr

/-- One entry of a WRITE ENTRIES, with the table it is for (R158). -/
inductive EntryWrite where
  | slotmap (index : Nat) (w : Option SlotWrite)
  | nodes (index : Nat) (w : Option NodeWrite)
  | joiners (index : Nat) (blank : Bool)
  | loops (index : Nat) (w : Option LoopWrite)
  | mowers (index : Nat) (w : MowerWrite)
  | zones (index : Nat) (w : Option ZoneWrite)
  | channels (index : Nat) (w : Option ChannelWrite)
  | shows (index : Nat) (w : Option ShowWrite)
  | steps (index : Nat) (w : StepWrite)
  | lights (index : Nat) (w : Option LightWrite)
  | loads (index : Nat) (w : Option LoadWrite)
  | site (index : Nat) (w : Option SiteWrite)
  deriving DecidableEq, Repr

/-- What a request asks for (12_formats.md, Messages). `refusal` is the refusal queued for a sender without
privilege (R151), `malformed` a request answered MALFORMED (R155), `write` a WRITE ENTRIES whose entries are
already read. -/
inductive Body where
  | readStatus
  | readEntries (space table first count : Nat)
  | continueRead (count : Nat)
  | writeEntries (space table first count : Nat) (bytes : List Byte)
  | write (entries : List EntryWrite)
  | takeNotices
  | setClock (minute : Nat)
  | saveTables
  | loadTables
  | presetPosition (mower target : Nat)
  | releaseCapture (mower : Nat)
  | dockAll
  | resumeAll
  | startShow (ix : Nat)
  | stopShow (ix : Nat)
  | startBackwash (channel : Nat)
  | stopBackwash (channel : Nat)
  | clearFault (channel : Nat)
  | restoreSupply
  | restartLine
  | forward (node : Nat) (payload : List Byte)
  | refusal
  | malformed
  deriving DecidableEq, Repr

/-- A completed request (R152, R153). `kind` is the kind byte a response echoes; a message of no bytes has none. -/
structure Request where
  origin : Origin
  kind : Option Byte
  body : Body
  deriving DecidableEq, Repr

/-- A downstream management fragment (12_formats.md, Fragments). -/
structure Fragment where
  dest : Nat
  number : Nat
  index : Nat
  last : Bool
  payload : List Byte
  deriving DecidableEq, Repr

/-- The FORWARD under way: its request, the target address, its reply assembly, and a reply completed before the
wait began (R160). -/
structure Forwarding where
  request : Request
  target : Nat
  reply : Option Assembly
  kept : Option (List Byte)
  deriving DecidableEq, Repr

/-- The request processor (R153). The fragments still to go stand in order, the one offered first. -/
inductive Processor where
  | idle
  | sending (frags : List Fragment)
  | forwarding (f : Forwarding) (frags : List Fragment)
  | waiting (f : Forwarding) (timer : Nat)
  deriving DecidableEq, Repr

/-- An entry of the JOIN ANSWER list (R154). `address` none is REFUSED. -/
structure JoinAnswer where
  serial : Serial
  address : Option Nat
  deriving DecidableEq, Repr

/-- The read pointer (R157). -/
structure ReadPtr where
  space : Nat
  table : Nat
  next : Nat
  deriving DecidableEq, Repr

/-- The clock (R162). -/
structure Clock where
  minute : Nat
  valid : Bool
  count : Nat
  deriving DecidableEq, Repr

structure Mgmt where
  site : Site
  ctx1 : Option Assembly
  ctx2 : Option Assembly
  joinCtx : Option Assembly
  queue : List Request
  heldReq : Option Request
  proc : Processor
  restartAnswer : Option Fragment
  answers : List JoinAnswer
  readPtr : Option ReadPtr
  clock : Clock
  discarded : Nat
  overrun : Nat
  notPermitted : Nat
  deriving DecidableEq, Repr

/-- The notice kinds, in the order of their numbers from 1 (12_formats.md, R163). -/
inductive NoticeKind where
  | nodeJoined
  | joinRefused
  | unknownJoiner
  | mowerLost
  | mowerStuck
  | referenceMismatch
  | keepoutEntry
  | pumpFault
  | pondLow
  | levelUnknown
  | filterClogged
  | backwashDone
  | backwashAborted
  | valveJammed
  | lampFault
  | overloadShed
  | queueOverrun
  | storeDone
  | storeFailed
  | storeInvalid
  deriving DecidableEq, Repr

/-- A notice (R163). -/
structure Notice where
  kind : NoticeKind
  subject : Option Nat
  minute : Option Nat
  frame : Nat
  detail : Nat
  deriving DecidableEq, Repr

/-- The notice list and its overflow count (R163). -/
structure Notices where
  list : List Notice
  overflow : Nat
  deriving DecidableEq, Repr

/-! ### Table Store (chapter 11) -/

/-- What the image keeps of a mower record (R167). -/
structure MowerImage where
  node : Option Nat
  loop : Nat
  offset : Nat
  offsetValid : Bool
  deriving DecidableEq, Repr

/-- What the image keeps of a load record (R167). -/
structure LoadImage where
  cls : Nat
  minDraw : Nat
  fullDraw : Nat
  node : Option Nat
  deriving DecidableEq, Repr

/-- The tables the image holds (R167). -/
structure Tables where
  site : Site
  slots : List (Option Placement)
  nodes : List (Option NodeIdent)
  loops : List (Option LoopRec)
  mowers : List MowerImage
  zones : List (Option ZoneRec)
  channels : List (Option ChannelRec)
  shows : List (Option ShowRec)
  steps : List Step
  lights : List (Option LightRec)
  loads : List LoadImage
  deriving DecidableEq, Repr

/-- The stored image (R167). -/
structure Image where
  identity : List Byte
  mark : Bool
  tables : Tables
  saveCount : Nat
  checkCode : Byte
  deriving DecidableEq, Repr

/-- The write in progress: SAVE TABLES with its copy and the save count it will hold (R169), or an offset write
with the offsets copied (R64). -/
inductive StoreWrite where
  | save (copy : Tables) (count : Nat)
  | offsets (copy : List (Nat × Bool))
  deriving DecidableEq, Repr

/-- The store. It is IDLE when no write is in progress (R168). -/
structure Store where
  image : Image
  imageValid : Bool
  writing : Option StoreWrite
  busyCount : Nat
  deriving DecidableEq, Repr

/-! ### The whole machine -/

/-- The DV4. `free` counts the free values used (log 14); `pending` is the queue of commands waiting. -/
structure State where
  mode : Mode
  line : Line
  nodes : NodeTable
  pos : Position
  zone : ZoneMon
  water : Water
  light : List LightGroup
  power : Power
  mgmt : Mgmt
  notices : Notices
  store : Store
  free : Nat
  pending : List Instr
  deriving DecidableEq, Repr

/-- The spec names no fault that stops the machine. -/
inductive Fault where
  deriving DecidableEq, Repr

/-- The only refusal: a command that has no meaning yet. No arm of exec gives it, so it is safe. -/
inductive Refusal where
  /-- A command of the opcode table without a meaning. Safe: the machine stops. -/
  | notModelled (mnemonic : String)
  deriving DecidableEq, Repr

/-! ### Empty and default values -/

def Node.blank : Node :=
  { ident := none, state := .empty, answerPending := false, answeredNow := false, code := none, cand := none,
    changes := [], missed := 0, noise := 0, checkErr := 0, rejoin := 0, sample := none, lastFrame := none }

/-- How an empty loop record reads to the blocks that look at it (R37). -/
def LoopRec.blank : LoopRec :=
  { n1 := 4, tolerance := 1024, jump := 0, body := 0, dock := 0, dockPreset := false, persist := false,
    verify := false, spacing := 0, spacingTol := 0 }

def Mower.blank : Mower :=
  { node := none, loop := 0, offset := 0, offsetValid := false, unsaved := false, state := .unused, raw := none,
    computed := none, reported := 0, lastFrame := none, dir := .forward, slip := 0, acquire := 0, capA := none,
    capB := none, locked := false, verified := false, debounce := 0, slips := 0, missedMarkers := 0,
    mismatches := 0, lastMarker := false, lastDock := false }

def Channel.blank : Channel :=
  { cfg := none, state := .off, latch := false, requested := 0, output := 0, reqLevel := 0, reqDraw := 0,
    filt := none, clogged := false, stage := .idle, timer := 0, cause := 0, count := 0 }

def Levels.zero : Levels := ⟨0, 0, 0, 0⟩

def Player.blank : Player :=
  { cfg := none, state := .idle, step := none, levels := Levels.zero, next := none, remaining := 0, loopsDone := 0 }

/-- A step of an invalid image (R107). -/
def Step.blank : Step := { levels := Levels.zero, duration := 1, next := none }

def LightGroup.blank : LightGroup :=
  { cfg := none, online := false, dark := false, evening := .early, presence := .inactive, hold := 0,
    scheduled := 0, target := 0, aim := 0, current := 0, acc := 0, reqDraw := 0, cap := 255 }

/-- A load of an invalid image (R148). -/
def Load.blank : Load := { cls := 3, minDraw := 0, fullDraw := 0, node := none, request := 0, grant := 0 }

/-- The site record of an invalid image (R166). -/
def Site.blank : Site :=
  { privileged := [], budget := 0, weather := none, level := none, supply := none, dusk := 0, dawn := 0,
    staleLimit := 8, dropLimit := 250 }

/-- Every table at its empty or default value (R173, step 2 with the image invalid). -/
def Tables.blank : Tables :=
  { site := Site.blank
    slots := List.replicate 64 none
    nodes := List.replicate 48 none
    loops := List.replicate 4 none
    mowers := List.replicate 4 { node := none, loop := 0, offset := 0, offsetValid := false }
    zones := List.replicate 32 none
    channels := List.replicate 8 none
    shows := List.replicate 4 none
    steps := List.replicate 96 Step.blank
    lights := List.replicate 16 none
    loads := List.replicate 28 { cls := 3, minDraw := 0, fullDraw := 0, node := none } }

/-- A store that has never been saved. DESIGN CHOICE, log 1. -/
def Image.blank : Image :=
  { identity := [], mark := false, tables := Tables.blank, saveCount := 0, checkCode := 0#8 }

/-- The DV4 right after start-up following power-on with a store never saved (R173 and the reset tables R18, R36,
R55, R68, R87, R107, R122, R136, R148, R166; log 1). -/
def State.reset : State :=
  { mode := .on
    line :=
      { frame := 0, state := .inBreak, breakCount := some 4, restartDue := false, active := List.replicate 64 none,
        next := List.replicate 64 none, rx := none, attention := false, field := [0x00#8], header := [], down := none,
        fragCount := 0, checkErrCount := 0 }
    nodes := { recs := List.replicate 48 Node.blank, joiners := [], overflow := 0 }
    pos := { loops := List.replicate 4 none, mowers := List.replicate 4 Mower.blank }
    zone :=
      { zones := List.replicate 32 none, occ := List.replicate 4 [], counts := List.replicate 32 0,
        keep := List.replicate 4 [], permits := List.replicate 4 none, dockAll := false,
        sprayCaps := List.replicate 8 none, presence := List.replicate 16 false }
    water :=
      { channels := List.replicate 8 Channel.blank, shows := List.replicate 4 Player.blank,
        steps := List.replicate 96 Step.blank, pond := none, rain := false, dry := false }
    light := List.replicate 16 LightGroup.blank
    power :=
      { loads := List.replicate 28 Load.blank, remainder := 0, shed := false, cause := none, run := 0, measured := none }
    mgmt :=
      { site := Site.blank, ctx1 := none, ctx2 := none, joinCtx := none, queue := [], heldReq := none, proc := .idle,
        restartAnswer := none, answers := [], readPtr := none, clock := { minute := 0, valid := false, count := 0 },
        discarded := 0, overrun := 0, notPermitted := 0 }
    notices :=
      { list := [{ kind := .storeInvalid, subject := none, minute := none, frame := 0, detail := 1 }], overflow := 0 }
    store := { image := Image.blank, imageValid := false, writing := none, busyCount := 0 }
    free := 0
    pending := [] }

end Sys2Proof.Machine
end

