-- ==== Sys2Proof/Machine/Ops.lean ====
section
/-! DEFINITION. The named operations every block uses: tables read and written by index, saturating counters,
circular arithmetic on a loop, the draw of a level and the cap level of a grant, posting a notice, taking a free
value. -/

namespace Sys2Proof.Machine

/-! ### Tables by index -/

/-- `f` applied to every entry of a list together with its index, counted from the number given. -/
def mapIx {α β : Type} (f : Nat → α → β) : Nat → List α → List β
  | _, [] => []
  | i, a :: l => f i a :: mapIx f (i + 1) l

/-- `f 0`, `f 1`, …, `f (n - 1)` done one after another. -/
def eachIx (f : Nat → State → State) (n : Nat) (s : State) : State :=
  (List.range n).foldl (fun t i => f i t) s

def nodeAt (s : State) (i : Nat) : Node := s.nodes.recs.getD i Node.blank

def setNode (i : Nat) (f : Node → Node) (s : State) : State :=
  { s with nodes := { s.nodes with recs := s.nodes.recs.modify i f } }

def mowerAt (s : State) (i : Nat) : Mower := s.pos.mowers.getD i Mower.blank

def setMower (i : Nat) (f : Mower → Mower) (s : State) : State :=
  { s with pos := { s.pos with mowers := s.pos.mowers.modify i f } }

/-- The loop record a mower or a zone names; an empty one reads as R37 gives. -/
def loopAt (s : State) (i : Nat) : LoopRec := (s.pos.loops.getD i none).getD LoopRec.blank

/-- L, the loop length in ticks (R37). -/
def LoopRec.length (l : LoopRec) : Nat := l.n1 * 4096

def channelAt (s : State) (i : Nat) : Channel := s.water.channels.getD i Channel.blank

def setChannel (i : Nat) (f : Channel → Channel) (s : State) : State :=
  { s with water := { s.water with channels := s.water.channels.modify i f } }

def playerAt (s : State) (i : Nat) : Player := s.water.shows.getD i Player.blank

def setPlayer (i : Nat) (f : Player → Player) (s : State) : State :=
  { s with water := { s.water with shows := s.water.shows.modify i f } }

def stepAt (s : State) (i : Nat) : Step := s.water.steps.getD i Step.blank

def zoneAt (s : State) (i : Nat) : Option ZoneRec := s.zone.zones.getD i none

def groupAt (s : State) (i : Nat) : LightGroup := s.light.getD i LightGroup.blank

def setGroup (i : Nat) (f : LightGroup → LightGroup) (s : State) : State :=
  { s with light := s.light.modify i f }

def loadAt (s : State) (i : Nat) : Load := s.power.loads.getD i Load.blank

/-! ### Numbers -/

/-- A 16-bit counter counts; at 65535 it stays (00_scope.md, Conventions). -/
def inc16 (n : Nat) : Nat := if n < 65535 then n + 1 else 65535

/-- (a − b) mod L (00_scope.md, Conventions). -/
def circSub (L a b : Nat) : Nat := (a + (L - b % L)) % L

/-- The circular distance between two positions (00_scope.md, Conventions). -/
def circDist (L a b : Nat) : Nat := min (circSub L a b) (circSub L b a)

/-- A minute m lies in the period from a to b when (m − a) mod 1440 is less than (b − a) mod 1440 (R93, R126). -/
def inPeriod (m a b : Nat) : Bool := circSub 1440 m a < circSub 1440 b a

/-- The draw at a level: ceil(full × v / 255) (R138). -/
def drawAt (full v : Nat) : Nat := (full * v + 254) / 255

/-- The cap level from a grant: floor(g × 255 / full), limited to 255; 255 for a full draw of 0 (R138). -/
def capLevel (full g : Nat) : Nat := if full = 0 then 255 else min (g * 255 / full) 255

/-- A level above 0 and below the minimum level becomes 0 (R95). -/
def floorLevel (minLevel v : Nat) : Nat := if v < minLevel then 0 else v

/-! ### Notices and free values -/

/-- A notice joins the tail while the list holds fewer than 16; otherwise it is dropped and counted (R163). -/
def Notices.join (n : Notice) (l : Notices) : Notices :=
  if l.list.length < 16 then { l with list := l.list ++ [n] } else { l with overflow := inc16 l.overflow }

/-- The minute stamp of a notice: the minute of day, or none while the clock is invalid (R163). -/
def minuteStamp (s : State) : Option Nat := if s.mgmt.clock.valid then some s.mgmt.clock.minute else none

/-- Post a notice (R163). -/
def post (kind : NoticeKind) (subject : Option Nat) (detail : Nat) (s : State) : State :=
  { s with
    notices :=
      s.notices.join
        { kind := kind, subject := subject, minute := minuteStamp s, frame := s.line.frame, detail := detail } }

/-- Post a notice whose detail value the spec may leave unstated: a free value then (log 14). -/
def postDetail (kind : NoticeKind) (subject : Option Nat) (detail : Option Nat) (s : State) : State :=
  match detail with
  | some d => post kind subject d s
  | none => { post kind subject (Config.freeDetail s.free).toNat s with free := s.free + 1 }

end Sys2Proof.Machine
end

