-- ==== Sys2Proof/Machine/Operands.lean ====
section
/-! DEFINITION. The byte layouts of 12_formats.md as they are received: the check code, the majority of three
samples, the fields of upstream halves and fragments, requests and the written forms of table entries. -/

namespace Sys2Proof.Machine

/-! ### Check code -/

/-- One bit of the CRC-8 with generator x^8 + x^2 + x + 1 (R175). -/
def crcBit (c : Byte) : Byte := if c.msb then (c <<< 1) ^^^ 0x07#8 else c <<< 1

/-- One byte of the CRC-8, most significant bit first. -/
def crcByte (c b : Byte) : Byte :=
  crcBit (crcBit (crcBit (crcBit (crcBit (crcBit (crcBit (crcBit (c ^^^ b))))))))

/-- The CRC-8 of a run of bytes: initial value 0, no final inversion (R175). -/
def crc8 (bs : List Byte) : Byte := bs.foldl crcByte 0x00#8

/-! ### Received bytes -/

/-- Each bit is the value given by two or more of its three samples (R10). -/
def Sampled.value (x : Sampled) : Byte := (x.a &&& x.b) ||| (x.a &&& x.c) ||| (x.b &&& x.c)

/-- The three samples of some bit were not all equal (R10). -/
def Sampled.noisy (x : Sampled) : Bool := !(x.a == x.b && x.b == x.c)

/-- A byte received without noise. -/
def Sampled.clean (b : Byte) : Sampled := ⟨b, b, b⟩

/-- Each arbitration bit is the value given by two or more of its three samples (R10). -/
def PairSampled.value (x : PairSampled) : BitVec 38 := (x.a &&& x.b) ||| (x.a &&& x.c) ||| (x.b &&& x.c)

/-- The receive state of a slot once its half has ended (R10). -/
def receive (node : Option Nat) (half : List Sampled) : Receive :=
  { node := node, bytes := half.map Sampled.value, noisy := half.any Sampled.noisy }

/-- The lead mark: bits 7 and 6 are 1 then 0 (R174). -/
def hasLeadMark (b : Byte) : Bool := b >>> 6 == 2#8

/-- The line address of a lead byte: bits 5 to 0 (R174). -/
def leadAddress (b : Byte) : Nat := (b &&& 0x3F#8).toNat

/-- The lead byte for a line address (R174). -/
def leadByte (address : Nat) : Byte := 0x80#8 ||| (BitVec.ofNat 8 address &&& 0x3F#8)

/-- Bytes as one number, most significant byte first (R174). -/
def beNat (bs : List Byte) : Nat := bs.foldl (fun n b => n * 256 + b.toNat) 0

/-- A number in n bytes, most significant byte first (R174). -/
def beBytes : Nat → Nat → List Byte
  | 0, _ => []
  | n + 1, v => beBytes n (v / 256) ++ [BitVec.ofNat 8 v]

/-- The byte at a place, 0 beyond the end. -/
def byteAt (bs : List Byte) (i : Nat) : Nat := (bs.getD i 0#8).toNat

/-- A field of n bytes from a place. -/
def fieldAt (bs : List Byte) (i n : Nat) : Nat := beNat ((bs.drop i).take n)

/-- Bit i of the byte at a place, as a flag. -/
def flagAt (bs : List Byte) (i bit : Nat) : Bool := (byteAt bs i).testBit bit

/-- A one-byte index: FFH means none (R176). -/
def indexAt (bs : List Byte) (i : Nat) : Option Nat := if byteAt bs i = 255 then none else some (byteAt bs i)

/-- A list of n places: it ends at its first FFH place (12_formats.md, Table entries). -/
def listAt (bs : List Byte) (i n : Nat) : List Nat :=
  (((bs.drop i).take n).map BitVec.toNat).takeWhile (fun v => v != 255)

/-- A minute of two bytes: FFFFH means none (R176). -/
def minuteAt (bs : List Byte) (i : Nat) : Option Nat :=
  if fieldAt bs i 2 = 65535 then none else some (fieldAt bs i 2)

/-- Every byte FFH: the empty value of a table (R176). -/
def allFF (bs : List Byte) : Bool := bs.all (· == 0xFF#8)

/-- The bits of a content word from `hi` down to `lo`. -/
def contentField (w : Content) (hi lo : Nat) : Nat := w.toNat / 2 ^ lo % 2 ^ (hi + 1 - lo)

/-! ### Fragments received -/

/-- The fields of an upstream fragment (12_formats.md, Fragments). -/
structure UpFragment where
  number : Nat
  index : Nat
  last : Bool
  length : Nat
  payload : List Byte
  deriving DecidableEq, Repr

/-- The fragment of a management slot, if it passes its check: it carries the lead mark, the address of the
arbitration field, as many payload bytes as it says, and the check code of all before it (R13, R174). A fragment
of another length fails (log 18). -/
def readFragment (address : Nat) (bs : List Byte) : Option UpFragment :=
  let len := byteAt bs 2 / 16
  if bs.length = len + 4 && hasLeadMark (bs.getD 0 0#8) && leadAddress (bs.getD 0 0#8) == address
      && crc8 (bs.take (len + 3)) == bs.getD (len + 3) 0#8 then
    some
      { number := byteAt bs 1 / 16, index := byteAt bs 1 / 2 % 8, last := byteAt bs 1 % 2 == 1, length := len,
        payload := (bs.drop 3).take len }
  else
    none

/-! ### Written forms of table entries -/

/-- The tables and views, by number (12_formats.md, Table entries). -/
inductive Table where
  | site
  | slotmap
  | nodes
  | joiners
  | nodeChanges
  | loops
  | mowers
  | zones
  | channels
  | shows
  | steps
  | lights
  | loads
  | mowerState
  | zoneState
  | channelState
  | lightState
  | grants
  | counters
  deriving DecidableEq, Repr

def Table.ofNumber : Nat → Option Table
  | 0 => some .site
  | 1 => some .slotmap
  | 2 => some .nodes
  | 3 => some .joiners
  | 4 => some .nodeChanges
  | 5 => some .loops
  | 6 => some .mowers
  | 7 => some .zones
  | 8 => some .channels
  | 9 => some .shows
  | 10 => some .steps
  | 11 => some .lights
  | 12 => some .loads
  | 16 => some .mowerState
  | 17 => some .zoneState
  | 18 => some .channelState
  | 19 => some .lightState
  | 20 => some .grants
  | 21 => some .counters
  | _ => none

/-- The sizes of the tables and views (R156). -/
def Table.size : Table → Nat
  | .site => 1
  | .slotmap => 64
  | .nodes => 48
  | .joiners => 4
  | .nodeChanges => 48
  | .loops => 4
  | .mowers => 4
  | .zones => 32
  | .channels => 8
  | .shows => 4
  | .steps => 96
  | .lights => 16
  | .loads => 28
  | .mowerState => 4
  | .zoneState => 32
  | .channelState => 8
  | .lightState => 16
  | .grants => 29
  | .counters => 1

/-- The length of a written entry (12_formats.md); none for a view and for NODE_CHANGES, which cannot be written. -/
def Table.written : Table → Option Nat
  | .site => some 13
  | .slotmap => some 4
  | .nodes => some 6
  | .joiners => some 9
  | .nodeChanges => none
  | .loops => some 16
  | .mowers => some 2
  | .zones => some 23
  | .channels => some 25
  | .shows => some 11
  | .steps => some 7
  | .lights => some 15
  | .loads => some 6
  | .mowerState => none
  | .zoneState => none
  | .channelState => none
  | .lightState => none
  | .grants => none
  | .counters => none

/-- The image holds the table (R167): the views, JOINERS and NODE_CHANGES it does not (R156). -/
def Table.inImage (t : Table) : Bool := t.written.isSome && t != .joiners

def levelsAt (bs : List Byte) (i : Nat) : Levels :=
  ⟨byteAt bs i, byteAt bs (i + 1), byteAt bs (i + 2), byteAt bs (i + 3)⟩

def readSlot (bs : List Byte) : SlotWrite := ⟨byteAt bs 0, byteAt bs 1, byteAt bs 2, byteAt bs 3⟩

def readNode (bs : List Byte) : NodeWrite := ⟨byteAt bs 0, BitVec.ofNat 32 (fieldAt bs 1 4), byteAt bs 5⟩

def readLoop (bs : List Byte) : LoopWrite :=
  { n1 := byteAt bs 0, tolerance := fieldAt bs 1 2, jump := fieldAt bs 3 2, body := fieldAt bs 5 2,
    dock := fieldAt bs 7 3, dockPreset := flagAt bs 10 0, persist := flagAt bs 10 1, verify := flagAt bs 10 2,
    spacing := fieldAt bs 11 3, spacingTol := fieldAt bs 14 2 }

def readMower (bs : List Byte) : MowerWrite := ⟨indexAt bs 0, byteAt bs 1⟩

def readZone (bs : List Byte) : ZoneWrite :=
  { kind := byteAt bs 0, loop := byteAt bs 1, first := fieldAt bs 2 3, last := fieldAt bs 5 3,
    lookahead := fieldAt bs 8 2, assume := flagAt bs 10 0, activeWhen := byteAt bs 11, filter := byteAt bs 12,
    showIx := byteAt bs 13, channels := listAt bs 14 4, cap := byteAt bs 18, groups := listAt bs 19 4 }

def readChannel (bs : List Byte) : ChannelWrite :=
  { kind := byteAt bs 0, node := indexAt bs 1, minLevel := byteAt bs 2, maxLevel := byteAt bs 3, day := byteAt bs 4,
    night := byteAt bs 5, nightStart := fieldAt bs 6 2, nightEnd := fieldAt bs 8 2, clog := fieldAt bs 10 2,
    clear := fieldAt bs 12 2, auto := flagAt bs 14 0, valve := byteAt bs 15, backwash := byteAt bs 16,
    rinse := byteAt bs 17, stopFrames := fieldAt bs 18 2, washFrames := fieldAt bs 20 2,
    rinseFrames := fieldAt bs 22 2, discharge := byteAt bs 24 }

def readShow (bs : List Byte) : ShowWrite :=
  { channels := listAt bs 0 4, first := byteAt bs 4, loopCount := fieldAt bs 5 2, startMin := minuteAt bs 7,
    stopMin := minuteAt bs 9 }

def readStep (bs : List Byte) : StepWrite := ⟨levelsAt bs 0, fieldAt bs 4 2, indexAt bs 6⟩

def readLight (bs : List Byte) : LightWrite :=
  { node := indexAt bs 0, mode := byteAt bs 1, onLevel := byteAt bs 2, lateLevel := byteAt bs 3,
    lateMin := fieldAt bs 4 2, offMin := fieldAt bs 6 2, presLevel := byteAt bs 8, presHold := fieldAt bs 9 2,
    motion := listAt bs 11 2, upInt := byteAt bs 13 / 16, upFrac := byteAt bs 13 % 16, downInt := byteAt bs 14 / 16,
    downFrac := byteAt bs 14 % 16 }

def readLoad (bs : List Byte) : LoadWrite := ⟨byteAt bs 0, fieldAt bs 1 2, fieldAt bs 3 2, indexAt bs 5⟩

def readSite (bs : List Byte) : SiteWrite :=
  { privileged := listAt bs 0 2, budget := fieldAt bs 2 2, weather := indexAt bs 4, level := indexAt bs 5,
    supply := indexAt bs 6, dusk := fieldAt bs 7 2, dawn := fieldAt bs 9 2, staleLimit := byteAt bs 11,
    dropLimit := byteAt bs 12 }

/-- A value that the empty value of its table makes absent. -/
def unlessFF {α : Type} (f : List Byte → α) (bs : List Byte) : Option α := if allFF bs then none else some (f bs)

/-- One written entry of a table (R158). MOWERS and STEPS have no empty value (12_formats.md; log 28). -/
def readEntry (t : Table) (i : Nat) (bs : List Byte) : Option EntryWrite :=
  match t with
  | .site => some (.site i (unlessFF readSite bs))
  | .slotmap => some (.slotmap i (unlessFF readSlot bs))
  | .nodes => some (.nodes i (unlessFF readNode bs))
  | .joiners => some (.joiners i (allFF bs))
  | .loops => some (.loops i (unlessFF readLoop bs))
  | .mowers => some (.mowers i (readMower bs))
  | .zones => some (.zones i (unlessFF readZone bs))
  | .channels => some (.channels i (unlessFF readChannel bs))
  | .shows => some (.shows i (unlessFF readShow bs))
  | .steps => some (.steps i (readStep bs))
  | .lights => some (.lights i (unlessFF readLight bs))
  | .loads => some (.loads i (unlessFF readLoad bs))
  | .nodeChanges => none
  | .mowerState => none
  | .zoneState => none
  | .channelState => none
  | .lightState => none
  | .grants => none
  | .counters => none

/-- The entries of a WRITE ENTRIES in entry order: `count` of them, each `len` bytes long, from index `i`. -/
def readWritten (t : Table) (len : Nat) : Nat → Nat → List Byte → List EntryWrite
  | 0, _, _ => []
  | n + 1, i, bs => (readEntry t i (bs.take len)).toList ++ readWritten t len n (i + 1) (bs.drop len)

/-! ### Requests -/

/-- The fields after the kind byte of a request: MALFORMED if their length does not match (R155, R165, R176). -/
def readBody (kind : Nat) (bs : List Byte) : Body :=
  let exactly := fun (n : Nat) (b : Body) => if bs.length = n then b else .malformed
  match kind with
  | 1 => exactly 0 .readStatus
  | 2 => exactly 4 (.readEntries (byteAt bs 0) (byteAt bs 1) (byteAt bs 2) (byteAt bs 3))
  | 3 => exactly 1 (.continueRead (byteAt bs 0))
  | 4 =>
    if bs.length < 4 then .malformed
    else .writeEntries (byteAt bs 0) (byteAt bs 1) (byteAt bs 2) (byteAt bs 3) (bs.drop 4)
  | 5 => exactly 0 .takeNotices
  | 6 => exactly 2 (.setClock (fieldAt bs 0 2))
  | 7 => exactly 0 .saveTables
  | 8 => exactly 0 .loadTables
  | 9 => exactly 4 (.presetPosition (byteAt bs 0) (fieldAt bs 1 3))
  | 10 => exactly 1 (.releaseCapture (byteAt bs 0))
  | 11 => exactly 0 .dockAll
  | 12 => exactly 0 .resumeAll
  | 13 => exactly 1 (.startShow (byteAt bs 0))
  | 14 => exactly 1 (.stopShow (byteAt bs 0))
  | 15 => exactly 1 (.startBackwash (byteAt bs 0))
  | 16 => exactly 1 (.stopBackwash (byteAt bs 0))
  | 17 => exactly 1 (.clearFault (byteAt bs 0))
  | 18 => exactly 0 .restoreSupply
  | 19 => exactly 0 .restartLine
  | 20 => if bs.length < 1 then .malformed else .forward (byteAt bs 0) (bs.drop 1)
  | _ => .malformed

/-- A completed message as a request (12_formats.md, Messages). -/
def readRequest (o : Origin) (message : List Byte) : Request :=
  match message with
  | [] => { origin := o, kind := none, body := .malformed }
  | k :: rest => { origin := o, kind := some k, body := readBody k.toNat rest }

/-- The node kind of a JOIN message, if the message is one (kind 32 and one byte; log 20). -/
def readJoin (message : List Byte) : Option Nat :=
  match message with
  | [k, nodeKind] => if k.toNat = 32 then some nodeKind.toNat else none
  | _ => none

end Sys2Proof.Machine
end

