-- ==== Sys2Proof/Machine/Flags.lean ====
section
/-! DEFINITION. The conditions the blocks form from node records and from one another: a node read by its kind and
state, rain and dry, the pond level, darkness, discharge activity, the open state, the attention flag. -/

namespace Sys2Proof.Machine

/-! ### Nodes as other blocks read them -/

def Node.kindIs (n : Node) (k : NodeKind) : Bool := n.ident.any (fun x => x.kind == k)

/-- The record is ACTIVE or STALE: its upstream half is received (R4). -/
def Node.served (n : Node) : Bool := n.state == .active || n.state == .stale

/-- The node record a block names is of the kind it expects and ACTIVE; in every other case it is treated as not
ACTIVE (R32, R33). -/
def activeOf (s : State) (ix : Option Nat) (k : NodeKind) : Bool :=
  match ix with
  | none => false
  | some i => (nodeAt s i).kindIs k && (nodeAt s i).state == .active

/-- The confirmed code of the node record a block names, if it is of the kind it expects. -/
def codeOf (s : State) (ix : Option Nat) (k : NodeKind) : Option Nat :=
  match ix with
  | none => none
  | some i => if (nodeAt s i).kindIs k then (nodeAt s i).code else none

/-- The confirmed code, while the node is ACTIVE: how channels, conditions and sources read it (R21). -/
def liveCode (s : State) (ix : Option Nat) (k : NodeKind) : Option Nat :=
  if activeOf s ix k then codeOf s ix k else none

/-! ### Weather, pond, darkness -/

/-- DAY_RAIN, DUSK_RAIN and DARK_RAIN are the RAIN codes (R27). -/
def isRainCode (c : Nat) : Bool := c == 3 || c == 4 || c == 5

/-- DAY_DRY, DUSK_DRY and DARK_DRY are the DRY codes (R27). -/
def isDryCode (c : Nat) : Bool := c == 0 || c == 1 || c == 2

/-- DUSK_DRY, DARK_DRY, DUSK_RAIN and DARK_RAIN are the dark codes (R27). -/
def isDarkCode (c : Nat) : Bool := c == 1 || c == 2 || c == 4 || c == 5

/-- The rain condition (R82, R99). -/
def rainNow (s : State) : Bool := (liveCode s s.mgmt.site.weather .weather).any isRainCode

/-- The dry condition (R99). -/
def dryNow (s : State) : Bool := (liveCode s s.mgmt.site.weather .weather).any isDryCode

/-- The pond level, none while unknown (R98). -/
def pondNow (s : State) : Option Nat := liveCode s s.mgmt.site.level .level

/-- While unknown, the pond level is taken as NORMAL (R98). -/
def pondLevel (s : State) : Nat := s.water.pond.getD 0

/-- Darkness for a group, its mode being OFF or not (R126). -/
def darkNow (s : State) (modeOff : Bool) : Bool :=
  match liveCode s s.mgmt.site.weather .weather with
  | some c => isDarkCode c
  | none =>
    if s.mgmt.clock.valid then inPeriod s.mgmt.clock.minute s.mgmt.site.dusk s.mgmt.site.dawn else !modeOff

/-! ### Channels and cycles -/

def Channel.kindIs (c : Channel) (k : ChannelKind) : Bool := c.cfg.any (fun r => r.kind == k)

/-- The node kind a channel expects (R88). -/
def ChannelKind.nodeKind : ChannelKind → NodeKind
  | .filter => .pump
  | .fountain => .pump
  | .valve => .valve

/-- The channel's node is ACTIVE and of the expected kind (R90). -/
def channelNodeActive (s : State) (c : Channel) : Bool :=
  match c.cfg with
  | none => false
  | some r => activeOf s r.node r.kind.nodeKind

/-- The stages in which the cycle holds the channel in BACKWASH (R90, R110). -/
def Stage.inCycle : Stage → Bool
  | .stopping | .reversing | .washing | .rinsing | .restoring => true
  | .idle | .requested | .aborting => false

/-- The stages that abort on causes 1 to 7 (R116). -/
def Stage.abortable : Stage → Bool
  | .stopping | .reversing | .washing | .rinsing => true
  | .idle | .requested | .restoring | .aborting => false

/-- The stages in which the cycle commands BACKWASH to its valve (R110, R111). -/
def Stage.commandsValve : Stage → Bool
  | .reversing | .washing | .rinsing => true
  | .idle | .requested | .stopping | .restoring | .aborting => false

/-- The stages in which discharge is active (R77, R110). -/
def Stage.discharging : Stage → Bool
  | .washing | .rinsing => true
  | .idle | .requested | .stopping | .reversing | .restoring | .aborting => false

/-- A FILTER channel reports discharge active in WASHING and RINSING (R77). -/
def dischargeActive (s : State) (c : Nat) : Bool :=
  (channelAt s c).kindIs .filter && (channelAt s c).stage.discharging

/-- The channel and node of a cycle's valve, if it is usable: in use, of kind VALVE, naming a node of kind VALVE
(R111). -/
def usableValve (s : State) (r : ChannelRec) : Option (Nat × Nat) :=
  match (channelAt s r.valve).cfg with
  | none => none
  | some v =>
    match v.kind, v.node with
    | .valve, some n => if (nodeAt s n).kindIs .valve then some (r.valve, n) else none
    | _, _ => none

/-- The confirmed code of the cycle's valve node. -/
def valveCode (s : State) (r : ChannelRec) : Option Nat :=
  match usableValve s r with
  | none => none
  | some (_, n) => (nodeAt s n).code

/-- The minute of day lies in the filter's night period, the clock being valid (R93). -/
def isNight (s : State) (r : ChannelRec) : Bool :=
  s.mgmt.clock.valid && inPeriod s.mgmt.clock.minute r.nightStart r.nightEnd

/-! ### Management and line -/

/-- The DV4 is open while the site record names no privileged address (R149). -/
def isOpen (s : State) : Bool := s.mgmt.site.privileged.isEmpty

/-- The attention flag as formed with a header (R2). -/
def attentionNow (s : State) : Bool := !s.notices.list.isEmpty || s.notices.overflow != 0

/-- The number of node records that are ACTIVE (R165). -/
def activeCount (s : State) : Nat := s.nodes.recs.countP (fun n => n.state == .active)

/-- The supply node is usable while its record is of kind SUPPLY and ACTIVE (R145). -/
def supplyUsable (s : State) : Bool := activeOf s s.mgmt.site.supply .supply

/-- The usable supply node holds FOLDBACK as its confirmed code (R146, R147). -/
def foldback (s : State) : Bool := liveCode s s.mgmt.site.supply .supply == some 2

end Sys2Proof.Machine
end

