-- ==== Sys2Proof/Machine/Zones.lean ====
section
/-! DEFINITION. The Zone Monitor's forming of its results (chapter 5): occupancy sets and counts, keepout sets and
their notices, permits, spray caps and presence flags. -/

namespace Sys2Proof.Machine

/-! ### Intervals -/

/-- A tick lies in the circular interval of first tick s and length n (R72). -/
def inInterval (L s n x : Nat) : Bool := circSub L x s < n

/-- Two intervals intersect when the first tick of either lies in the other (R72). -/
def intersects (L s n s' n' : Nat) : Bool := inInterval L s n s' || inInterval L s' n' s

/-- The length of a zone's interval (R72). -/
def zoneLength (L : Nat) (z : ZoneRec) : Nat :=
  if z.first = z.last then L else circSub L z.last z.first + 1

/-- The length of a mower's span toward a zone, limited to L (R73). -/
def spanLength (l : LoopRec) (lookahead : Nat) : Nat := min (2 * l.body + lookahead + 1) l.length

/-- The first tick of a mower's span toward a zone (R73). -/
def spanFirst (l : LoopRec) (m : Mower) (lookahead : Nat) : Nat :=
  match m.dir with
  | .forward => circSub l.length m.reported l.body
  | .backward => circSub l.length m.reported (l.body + lookahead)

/-- The zone's interval intersects the mower's span toward it (R73, R74). -/
def spanMeets (l : LoopRec) (m : Mower) (z : ZoneRec) : Bool :=
  intersects l.length z.first (zoneLength l.length z) (spanFirst l m z.lookahead) (spanLength l z.lookahead)

/-! ### Occupancy -/

/-- The mower is in TRACKED or SLIPPING: its position is valid (R42). -/
def Mower.positionValid (m : Mower) : Bool := m.state == .tracked || m.state == .slipping

/-- The mower occupies the zone (R74). -/
def occupies (l : LoopRec) (m : Mower) (z : ZoneRec) : Bool :=
  z.loop == m.loop
    && match m.state with
      | .tracked | .slipping => spanMeets l m z
      | .unreferenced | .acquiring | .lost | .stale => z.assume
      | .unused => false

/-- The occupancy set of a mower, in increasing zone index (R74). -/
def occupancySet (s : State) (m : Mower) : List Nat :=
  (List.range 32).filter (fun z => (zoneAt s z).any (occupies (loopAt s m.loop) m))

/-- The occupancy sets of the four mowers. -/
def occupancySets (s : State) : List (List Nat) := (List.range 4).map (fun i => occupancySet s (mowerAt s i))

/-- The occupant count of a zone: the number of sets that contain it (R75). -/
def countIn (occ : List (List Nat)) (z : Nat) : Nat := occ.countP (fun o => o.contains z)

/-- The lowest of a list of cap levels, none if there is none. -/
def lowest : List Nat → Option Nat
  | [] => none
  | a :: l =>
    match lowest l with
    | none => some a
    | some b => some (min a b)

/-- The spray cap of a channel: the lowest cap level among the occupied SPRAY zones that list it (R79). -/
def sprayCapOf (s : State) (counts : List Nat) (c : Nat) : Option Nat :=
  lowest
    ((List.range 32).filterMap
      (fun z =>
        match zoneAt s z with
        | none => none
        | some r =>
          if r.kind == .spray && r.channels.contains c && decide (1 ≤ counts.getD z 0) then some r.cap else none))

/-- The zone presence flag of a light group: some occupied LIGHT zone lists it (R80). -/
def presenceOf (s : State) (counts : List Nat) (g : Nat) : Bool :=
  (List.range 32).any
    (fun z =>
      (zoneAt s z).any (fun r => r.kind == .light && r.groups.contains g && decide (1 ≤ counts.getD z 0)))

/-- A zone presence flag is handed to a group whose record is empty: with no motion list and a presence hold of 0 its
presence is ACTIVE from the flag's setting and INACTIVE from its reset (R123, R128, R136; log 23). A group in use
takes the flag with its other sources. -/
def LightGroup.handed (before after : Bool) (g : LightGroup) : LightGroup :=
  if g.cfg.isSome then g
  else if !after then { g with presence := .inactive, hold := 0 }
  else if before then g
  else { g with presence := .active }

/-- Steps 1 and 2 of R86, with the results that follow from the counts (R79, R80). -/
def formOccupancy (s : State) : State :=
  let occ := occupancySets s
  let counts := (List.range 32).map (countIn occ)
  let presence := (List.range 16).map (presenceOf s counts)
  { s with
    zone :=
      { s.zone with
        occ := occ
        counts := counts
        sprayCaps := (List.range 8).map (sprayCapOf s counts)
        presence := presence }
    light := mapIx (fun i g => g.handed (s.zone.presence.getD i false) (presence.getD i false)) 0 s.light }

/-! ### Keepouts and permits -/

/-- The zone is named as the discharge zone of a filter channel that reports discharge active (R77). -/
def dischargesOver (s : State) (z : Nat) : Bool :=
  (List.range 8).any
    (fun c => dischargeActive s c && (channelAt s c).cfg.any (fun r => r.discharge == z))

/-- A KEEPOUT zone's own active-when condition (R77). -/
def ownActive (s : State) (r : ZoneRec) : Bool :=
  match r.activeWhen with
  | .always => true
  | .duringBackwash => dischargeActive s r.filter
  | .duringShow => (playerAt s r.showIx).state != .idle

/-- The zone is active (R77). An empty record, which is of none of the four kinds, is not active (log 48). -/
def zoneActive (s : State) (z : Nat) : Bool :=
  match zoneAt s z with
  | none => false
  | some r => if r.kind == .keepout then ownActive s r || dischargesOver s z else true

/-- The zone is an active KEEPOUT zone. -/
def activeKeepout (s : State) (z : Nat) : Bool := (zoneAt s z).any (fun r => r.kind == .keepout) && zoneActive s z

/-- The keepout set of a mower, from its occupancy set (R78). -/
def keepoutSet (s : State) (m : Mower) (occ : List Nat) : List Nat :=
  if m.positionValid then occ.filter (activeKeepout s) else []

def keepoutSets (s : State) : List (List Nat) :=
  (List.range 4).map (fun i => keepoutSet s (mowerAt s i) (s.zone.occ.getD i []))

/-- The occupancy set contains a SLOW zone. -/
def inSlowZone (s : State) (occ : List Nat) : Bool := occ.any (fun z => (zoneAt s z).any (fun r => r.kind == .slow))

/-- The permit of a mower, from its keepout set and occupancy set (R84). -/
def permitOf (s : State) (m : Mower) (keep occ : List Nat) : Option Permit :=
  match m.state with
  | .unused => none
  | .unreferenced => some .dock
  | .acquiring | .lost | .stale => some .hold
  | .tracked | .slipping =>
    if !keep.isEmpty then some .hold
    else if s.water.rain || s.zone.dockAll then some .dock
    else if inSlowZone s occ || ((loopAt s m.loop).verify && !m.verified) then some .slow
    else some .mow

def permitsOf (s : State) (keep : List (List Nat)) : List (Option Permit) :=
  (List.range 4).map (fun i => permitOf s (mowerAt s i) (keep.getD i []) (s.zone.occ.getD i []))

/-- KEEPOUT_ENTRY for each zone that joins a mower's keepout set, in increasing zone index (R78; for one zone and
several mowers in mower order, log 34). -/
def postEntries (before after : List (List Nat)) (s : State) : State :=
  eachIx
    (fun z t =>
      eachIx
        (fun m u =>
          if (after.getD m []).contains z && !(before.getD m []).contains z then
            post .keepoutEntry (some m) z u
          else u)
        4 t)
    32 s

/-- Steps 3 and 4 of R86. Several reports of activity that reach the Zone Monitor in one round are taken together (R77;
log 49). -/
def formKeepouts (s : State) : State :=
  let keep := keepoutSets s
  let t := postEntries s.zone.keep keep s
  { t with zone := { s.zone with keep := keep, permits := permitsOf s keep } }

end Sys2Proof.Machine
end

