-- ==== Sys2Proof/Machine/Water.lean ====
section
/-! DEFINITION. The Water Controller's forming of its results (chapters 6 and 7): weather and pond conditions,
channel states, levels and caps, the show players' moves, the filter monitor and the moves of the backwash cycle
that a condition makes. -/

namespace Sys2Proof.Machine

/-! ### Rain, dry and pond conditions -/

/-- The beginning of rain pauses every PLAYING show, the beginning of the dry condition resumes every PAUSED one
(R106). -/
def Player.weather (rainBegins dryBegins : Bool) (p : Player) : Player :=
  if rainBegins && p.state == .playing then { p with state := .paused }
  else if dryBegins && p.state == .paused then { p with state := .playing }
  else p

/-- LEVEL_UNKNOWN on a change of the pond level from known to unknown (R98). -/
def postUnknown (before after : Option Nat) (s : State) : State :=
  match before, after with
  | some c, none => post .levelUnknown s.mgmt.site.level c s
  | _, _ => s

/-- The rain and dry conditions and the pond level, formed again (R82, R98, R99, R106). -/
def formConditions (s : State) : State :=
  let rain := rainNow s
  let dry := dryNow s
  let pond := pondNow s
  let t := postUnknown s.water.pond pond s
  { t with
    water :=
      { s.water with
        rain := rain
        dry := dry
        pond := pond
        shows := s.water.shows.map (Player.weather (rain && !s.water.rain) (dry && !s.water.dry)) } }

/-! ### Channel states, levels and caps -/

/-- The state of a channel, by the first row of R90 that holds. -/
def channelStateOf (s : State) (c : Channel) : ChannelState :=
  match c.cfg with
  | none => .off
  | some r =>
    if r.node.isNone then .off
    else if c.latch then .fault
    else if !(channelNodeActive s c) || (codeOf s r.node r.kind.nodeKind).isNone then .held
    else if r.kind == .filter && c.stage.inCycle then .backwash
    else .running

/-- The level of a step for a position of the show's channel list. -/
def levelAt (l : Levels) : Nat → Nat
  | 0 => l.l0
  | 1 => l.l1
  | 2 => l.l2
  | 3 => l.l3
  | _ => 0

/-- The loaded level a PLAYING show gives a channel it lists (R93, R100). -/
def Player.levelFor (p : Player) (c : Nat) : Option Nat :=
  match p.cfg, p.state with
  | some r, .playing => (r.channels.findIdx? (· == c)).map (levelAt p.levels)
  | _, _ => none

/-- The level the shows give a FOUNTAIN channel: 0 when no PLAYING show lists it (R93). -/
def showLevel (s : State) (c : Nat) : Nat := (s.water.shows.findSome? (fun p => p.levelFor c)).getD 0

/-- The pump level a stage gives in place of the day or night level, from STOPPING to RESTORING (R110). -/
def stageLevel (r : ChannelRec) : Stage → Nat
  | .washing => r.backwash
  | .rinsing => r.rinse
  | .idle | .requested | .stopping | .reversing | .restoring | .aborting => 0

/-- Some FILTER channel's cycle commands BACKWASH to the valve channel `c` (R93, R111). -/
def valveCommanded (s : State) (c : Nat) : Bool :=
  s.water.channels.any (fun f => f.stage.commandsValve && f.cfg.any (fun r => r.kind == .filter && r.valve == c))

/-- The requested level of channel `c`, or its requested position: 0 NORMAL, 1 BACKWASH (R93). -/
def requestedOf (s : State) (c : Nat) (ch : Channel) : Nat :=
  match ch.cfg with
  | none => 0
  | some r =>
    match r.kind with
    | .filter => if ch.stage.inCycle then stageLevel r ch.stage else if isNight s r then r.night else r.day
    | .fountain => showLevel s c
    | .valve => if valveCommanded s c then 1 else 0

/-- The spray cap, the rain cap and the pond cap that hold for a channel (R94). -/
def sprayCapHolds (s : State) (c : Nat) (r : ChannelRec) : Option Nat :=
  if r.kind == .fountain then s.zone.sprayCaps.getD c none else none

def rainCapHolds (s : State) (r : ChannelRec) : Bool := r.kind == .fountain && s.water.rain

def pondCapHolds (s : State) (r : ChannelRec) : Bool :=
  match r.kind with
  | .fountain => pondLevel s == 1 || pondLevel s == 2
  | .filter => pondLevel s == 2
  | .valve => false

/-- The lowest of the requested level, the maximum level and the caps other than the grant cap (R95). -/
def levelBeforeGrant (s : State) (c : Nat) (r : ChannelRec) (requested : Nat) : Nat :=
  let spray := match sprayCapHolds s c r with
    | none => min requested r.maxLevel
    | some cap => min (min requested r.maxLevel) cap
  if rainCapHolds s r || pondCapHolds s r then 0 else spray

/-- The washing level (R111). -/
def washingLevel (r : ChannelRec) : Nat := floorLevel r.minLevel (min r.backwash r.maxLevel)

/-- The washing draw of channel `c` (R111). -/
def washingDraw (s : State) (c : Nat) (r : ChannelRec) : Nat := drawAt (loadAt s c).fullDraw (washingLevel r)

/-- The grant cap of channel `c` (R94). -/
def grantCap (s : State) (c : Nat) : Nat := capLevel (loadAt s c).fullDraw (loadAt s c).grant

/-- The level handling of one channel (R90, R93, R95, R96, R111). A VALVE channel has no level (R93, R118): its output and
request level are held and shown as 0 in every state (log 45). -/
def formLevel (s : State) (c : Nat) (ch : Channel) : Channel :=
  let st := channelStateOf s ch
  let requested := requestedOf s c ch
  match ch.cfg with
  | none => { ch with state := st, requested := requested, output := 0, reqLevel := 0, reqDraw := 0 }
  | some r =>
    if (st == .running || st == .backwash) && r.kind != .valve then
      let free := levelBeforeGrant s c r requested
      let plain := floorLevel r.minLevel free
      let level := if ch.stage == .requested && r.kind == .filter then max plain (washingLevel r) else plain
      { ch with
        state := st
        requested := requested
        output := floorLevel r.minLevel (min free (grantCap s c))
        reqLevel := level
        reqDraw := drawAt (loadAt s c).fullDraw level }
    else { ch with state := st, requested := requested, output := 0, reqLevel := 0, reqDraw := 0 }

/-- The level handling of every channel (R96). -/
def formLevels (s : State) : State :=
  { s with water := { s.water with channels := mapIx (formLevel s) 0 s.water.channels } }

/-! ### Shows -/

/-- Load a step: the current step becomes its index, its levels and next step are copied, frames remaining becomes
its duration (R102). -/
def Player.load (s : State) (ix : Nat) (p : Player) : Player :=
  let st := stepAt s ix
  { p with step := some ix, levels := st.levels, next := st.next, remaining := st.duration }

/-- A show becomes IDLE (R102). -/
def Player.stop (p : Player) : Player := { p with state := .idle, step := none, remaining := 0 }

/-- STOP SHOW on a show in any state (R104). -/
def Player.halt (p : Player) : Player := if p.state == .idle then p else p.stop

/-- An IDLE show starts: PAUSED if the rain condition holds, PLAYING otherwise (R103). -/
def Player.start (s : State) (r : ShowRec) (p : Player) : Player :=
  { (p.load s r.first) with state := if s.water.rain then .paused else .playing, loopsDone := 0 }

/-- The step of a PLAYING show ends: it loads the next step, loops, or becomes IDLE (R102). -/
def Player.moveOn (s : State) (r : ShowRec) (p : Player) : Player :=
  match p.next with
  | some n => p.load s n
  | none =>
    let q := { p with loopsDone := inc16 p.loopsDone }
    if r.loopCount = 0 ∨ q.loopsDone < r.loopCount then q.load s r.first else q.stop

/-- A PLAYING show takes one frame from frames remaining and moves on at 0 (R102). -/
def Player.frame (s : State) (p : Player) : Player :=
  match p.cfg, p.state with
  | some r, .playing =>
    if p.remaining ≤ 1 then Player.moveOn s r { p with remaining := 0 } else { p with remaining := p.remaining - 1 }
  | _, _ => p

/-- A change of the minute of day is judged against a show's schedule (R105). -/
def Player.schedule (s : State) (minute : Nat) (p : Player) : Player :=
  match p.cfg with
  | none => p
  | some r =>
    if r.stopMin == some minute && p.state != .idle then p.stop
    else if r.startMin == some minute && p.state == .idle then p.start s r
    else p

/-! ### Filter monitor -/

/-- The clear threshold in use (R109). -/
def clearInUse (r : ChannelRec) : Nat := min r.clear r.clog

/-- The smoothed differential: 0 while F is unset (R108). -/
def Channel.smoothed (c : Channel) : Nat := c.filt.getD 0 / 16

/-- The clogged flag formed from F and the thresholds (R109). -/
def cloggedOf (r : ChannelRec) (c : Channel) : Bool :=
  match c.filt with
  | none => false
  | some f => if c.clogged then !(f / 16 < clearInUse r) else r.clog ≤ f / 16

/-- Form the clogged flag of channel `i` again; a setting posts FILTER_CLOGGED (R109). -/
def formClogged (i : Nat) (s : State) : State :=
  let c := channelAt s i
  match c.cfg with
  | none => setChannel i (fun c => { c with filt := none, clogged := false }) s
  | some r =>
    let on := cloggedOf r c
    let t := setChannel i (fun c => { c with clogged := on }) s
    if on && !c.clogged then post .filterClogged (some i) c.smoothed t else t

/-- F after a sample of differential d (R108). -/
def smooth (f : Option Nat) (d : Nat) : Nat :=
  match f with
  | none => 16 * d
  | some f => f - f / 16 + d

/-- The differential of a PUMP sample: inlet minus outlet pressure, a negative result taken as 0 (R108). -/
def differential (w : Content) : Nat := contentField w 31 22 - contentField w 21 12

/-- The monitor takes a PUMP sample only while the FILTER channel is RUNNING and its cycle IDLE or REQUESTED
(R108). -/
def filterSample (i : Nat) (w : Content) (s : State) : State :=
  let c := channelAt s i
  if c.kindIs .filter && channelStateOf s c == .running && (c.stage == .idle || c.stage == .requested) then
    formClogged i (setChannel i (fun c => { c with filt := some (smooth c.filt (differential w)) }) s)
  else s

/-- F is unset and the clogged flag reset while the channel is no FILTER channel or its pump node is not ACTIVE
(R108, R109). -/
def Channel.monitored (s : State) (c : Channel) : Channel :=
  if c.kindIs .filter && channelNodeActive s c then c else { c with filt := none, clogged := false }

/-- A clogged FILTER channel with auto backwash set requests a backwash as soon as its cycle is IDLE (R109; log 15). -/
def Channel.autoRequest (c : Channel) : Channel :=
  match c.cfg with
  | none => c
  | some r =>
    if r.kind == .filter && c.clogged && r.auto && c.stage == .idle then { c with stage := .requested, cause := 0 }
    else c

/-- The filter monitors, and the automatic requests unless a load defers them (R108, R109; log 16). -/
def formMonitors (deferred : Bool) (s : State) : State :=
  { s with
    water :=
      { s.water with
        channels :=
          s.water.channels.map
            (fun c => if deferred then c.monitored s else (c.monitored s).autoRequest) } }

/-! ### Backwash cycle -/

/-- The cycle enters ABORTING with a cause (R116). -/
def Channel.abort (cause : Nat) (c : Channel) : Channel := { c with stage := .aborting, timer := 250, cause := cause }

/-- The cycle becomes IDLE and its timer stops (R110). -/
def Channel.idle (c : Channel) : Channel := { c with stage := .idle, timer := 0 }

/-- Condition 3 of R112: the cycle's valve is usable, is not in FAULT, and its node is ACTIVE. -/
def valveReady (s : State) (r : ChannelRec) : Bool :=
  match usableValve s r with
  | none => false
  | some (v, n) => !(channelAt s v).latch && (nodeAt s n).state == .active

/-- The conditions under which a REQUESTED cycle moves to STOPPING (R112). -/
def mayStop (s : State) (i : Nat) (c : Channel) (r : ChannelRec) : Bool :=
  s.zone.counts.getD r.discharge 0 == 0 && pondLevel s == 0 && valveReady s r && channelStateOf s c == .running
    && decide (washingDraw s i r ≤ (loadAt s i).grant)

/-- Causes 1 to 5 of R116, the first that holds. -/
def abortCause (s : State) (c : Channel) (r : ChannelRec) : Option Nat :=
  if pondLevel s == 1 || pondLevel s == 2 then some 1
  else if c.latch then some 2
  else if !(channelNodeActive s c) then some 3
  else
    match usableValve s r with
    | none => some 4
    | some (v, n) =>
      if !((nodeAt s n).state == .active) then some 4 else if (channelAt s v).latch then some 5 else none

/-- The cycle enters STOPPING: the timer is set, F becomes unset and the clogged flag is reset (R112). -/
def Channel.enterStopping (r : ChannelRec) (c : Channel) : Channel :=
  { c with stage := .stopping, timer := r.stopFrames, filt := none, clogged := false }

/-- The cycle enters REVERSING (R113). -/
def Channel.enterReversing (c : Channel) : Channel := { c with stage := .reversing, timer := 250 }

/-- The cycle enters WASHING (R114). -/
def Channel.enterWashing (r : ChannelRec) (c : Channel) : Channel :=
  { c with stage := .washing, timer := r.washFrames }

/-- The cycle enters RINSING (R114). -/
def Channel.enterRinsing (r : ChannelRec) (c : Channel) : Channel :=
  { c with stage := .rinsing, timer := r.rinseFrames }

/-- The cycle enters RESTORING (R115). -/
def Channel.enterRestoring (c : Channel) : Channel := { c with stage := .restoring, timer := 250 }

/-- A cycle ends from RESTORING with NORMAL_POS: the count increments and BACKWASH_DONE is posted (R115). -/
def cycleDone (i : Nat) (s : State) : State :=
  post .backwashDone (some i) (inc16 (channelAt s i).count)
    (setChannel i (fun c => { c.idle with count := inc16 c.count }) s)

/-- A cycle ends from ABORTING: BACKWASH_ABORTED with its cause (R117). -/
def cycleAborted (i : Nat) (s : State) : State :=
  post .backwashAborted (some i) (channelAt s i).cause (setChannel i Channel.idle s)

/-- RESTORING times out: the cycle becomes IDLE, the fault latches are set and VALVE_JAMMED is posted (R115). -/
def cycleJammed (i : Nat) (r : ChannelRec) (s : State) : State :=
  let t := setChannel i (fun c => { c.idle with latch := true }) s
  let u := if (usableValve s r).isSome then setChannel r.valve (fun c => { c with latch := true }) t else t
  post .valveJammed (some r.valve) 2 u

/-- The move a condition makes of one cycle that has left REQUESTED, if any: R113, R115, R116, R117. -/
def cycleStep (i : Nat) (s : State) : State :=
  let c := channelAt s i
  match c.cfg with
  | none => s
  | some r =>
    match c.stage with
    | .idle | .requested => s
    | .restoring => if valveCode s r == some 0 then cycleDone i s else s
    | .aborting => if valveCode s r == some 0 then cycleAborted i s else s
    | .stopping | .reversing | .washing | .rinsing =>
      match abortCause s c r with
      | some k => setChannel i (Channel.abort k) s
      | none =>
        if c.stage == .reversing && valveCode s r == some 1 then setChannel i (Channel.enterWashing r) s else s

/-- Every cycle's move, in increasing channel index. -/
def formCycles (s : State) : State := eachIx cycleStep 8 s

/-- The test of R112: a cycle in REQUESTED enters STOPPING when its conditions hold together. -/
def cycleStart (i : Nat) (s : State) : State :=
  let c := channelAt s i
  match c.cfg with
  | none => s
  | some r => if c.stage == .requested && mayStop s i c r then setChannel i (Channel.enterStopping r) s else s

/-- The test of R112 of every cycle, in increasing channel index. -/
def formStarts (s : State) : State := eachIx cycleStart 8 s

/-- The stage timer of a cycle has run out: the stage ends as its rule gives (R112 to R117). -/
def stageEnd (i : Nat) (s : State) : State :=
  let c := channelAt s i
  match c.cfg with
  | none => s
  | some r =>
    match c.stage with
    | .idle | .requested => s
    | .stopping => setChannel i Channel.enterReversing s
    | .reversing => setChannel i (Channel.abort 7) s
    | .washing => setChannel i (Channel.enterRinsing r) s
    | .rinsing => setChannel i Channel.enterRestoring s
    | .restoring => cycleJammed i r s
    | .aborting => cycleAborted i s

/-- A running stage timer decreases by one; at 0 its stage ends in that handling (R110). -/
def stageFrame (i : Nat) (s : State) : State :=
  let c := channelAt s i
  if c.timer = 0 then s
  else
    let t := setChannel i (fun c => { c with timer := c.timer - 1 }) s
    if c.timer = 1 then stageEnd i t else t

end Sys2Proof.Machine
end

