-- ==== Sys2Proof/Machine/Lighting.lean ====
section
/-! DEFINITION. The Lighting Controller's forming of its results (chapter 8): online, darkness, evening phase,
presence, levels, the aim and the ramp. -/

namespace Sys2Proof.Machine

/-- The group is online (R125). -/
def onlineOf (s : State) (g : LightGroup) : Bool :=
  match g.cfg with
  | none => false
  | some r => activeOf s r.node .light

/-- The mode of a group: an empty record reads OFF (R123). -/
def LightGroup.mode (g : LightGroup) : LightMode :=
  match g.cfg with
  | none => .off
  | some r => r.mode

/-- Some presence source of group `i` holds (R128). -/
def sourceHolds (s : State) (i : Nat) (r : LightRec) : Bool :=
  s.zone.presence.getD i false || r.motion.any (fun n => liveCode s (some n) .motion == some 1)

/-- The presence state and the hold timer move on the sources (R128). -/
def presenceMove (source : Bool) (presHold : Nat) (g : LightGroup) : LightGroup :=
  match g.presence, source with
  | .inactive, true => { g with presence := .active }
  | .inactive, false => g
  | .active, true => g
  | .active, false =>
    if presHold = 0 then { g with presence := .inactive, hold := 0 }
    else { g with presence := .holding, hold := presHold }
  | .holding, true => { g with presence := .active, hold := 0 }
  | .holding, false => g

/-- Online, the dark condition, the evening phase and presence, formed again. The presence of a group whose record is
empty moves with its zone presence flag alone, as the flag is handed (R124 to R128, `LightGroup.handed`). -/
def formInputs (s : State) (i : Nat) (g : LightGroup) : LightGroup :=
  let dark := darkNow s (g.mode == .off)
  let g' := { g with online := onlineOf s g, dark := dark, evening := if dark && !g.dark then .early else g.evening }
  match g.cfg with
  | none => g'
  | some r => presenceMove (sourceHolds s i r) r.presHold g'

/-- The scheduled level (R127). -/
def scheduledOf (s : State) (g : LightGroup) : Nat :=
  match g.cfg with
  | none => 0
  | some r =>
    match r.mode with
    | .off => 0
    | .always => r.onLevel
    | .duskToDawn => if g.dark then r.onLevel else 0
    | .duskToTime =>
      if !g.dark then 0
      else if !s.mgmt.clock.valid then r.onLevel
      else
        match g.evening with
        | .early => r.onLevel
        | .late => r.lateLevel
        | .done => 0

/-- The target: presence counts while the group is dark and its presence state is ACTIVE or HOLDING (R130). -/
def targetOf (scheduled : Nat) (g : LightGroup) : Nat :=
  match g.cfg with
  | none => scheduled
  | some r => if g.dark && g.presence != .inactive then max scheduled r.presLevel else scheduled

/-- The aim changed sides of the current level, or reached it (R132). -/
def senseLost (old new current : Nat) : Bool :=
  (decide (current < old) && decide (new < current)) || (decide (old < current) && decide (current < new))
    || new == current

/-- A new aim is reached at once: an immediate rate serves the sense in which the aim moves away from the current level
(R132), or the group has come online and its up rate is immediate (R125; log 11). -/
def LightGroup.leaps (fresh : Bool) (aim : Nat) (r : LightRec) (g : LightGroup) : Bool :=
  (r.upInt == 0 && r.upFrac == 0 && decide (g.current < aim) && (fresh || decide (g.aim < aim)))
    || (r.downInt == 0 && r.downFrac == 0 && decide (aim < g.current) && decide (aim < g.aim))

/-- A new aim: the accumulator is cleared by a reversal or on meeting the current level, and an immediate rate
carries the current level to the aim at once (R131, R132). `fresh` says that the group has come online in this
handling. -/
def LightGroup.reaim (fresh : Bool) (aim : Nat) (g : LightGroup) : LightGroup :=
  let g' := { g with aim := aim, acc := if senseLost g.aim aim g.current then 0 else g.acc }
  match g.cfg with
  | none => g'
  | some r => if g.online && g.leaps fresh aim r then { g' with current := aim, acc := 0 } else g'

/-- An offline group holds level 0, accumulator 0 and request draw 0; an online one requests the draw at its target
(R125, R130). -/
def LightGroup.settleOnline (full : Nat) (g : LightGroup) : LightGroup :=
  if g.online then { g with reqDraw := drawAt full g.target } else { g with current := 0, acc := 0, reqDraw := 0 }

/-- One group's results before any grant is delivered (R124 to R132). -/
def formGroup (s : State) (i : Nat) (g : LightGroup) : LightGroup :=
  let g1 := formInputs s i g
  let scheduled := scheduledOf s g1
  let target := targetOf scheduled g1
  let g2 := { g1 with scheduled := scheduled, target := target }
  (g2.settleOnline (loadAt s (8 + i)).fullDraw).reaim (g2.online && !g.online) (min target g2.cap)

def formGroups (s : State) : State := { s with light := mapIx (formGroup s) 0 s.light }

/-- A grant is delivered: the cap level is formed, a current level above it falls to it at once, and the aim is
formed again (R133). -/
def deliverGroup (s : State) (i : Nat) (g : LightGroup) : LightGroup :=
  let cap := capLevel (loadAt s (8 + i)).fullDraw (loadAt s (8 + i)).grant
  let g1 := { g with cap := cap }
  (if cap < g.current then { g1 with current := cap, acc := 0 } else g1).reaim false (min g.target cap)

def deliverGroups (s : State) : State := { s with light := mapIx (deliverGroup s) 0 s.light }

/-- The late minute of a group: an empty record's reads 0 (R123). -/
def LightGroup.lateMin (g : LightGroup) : Nat := (g.cfg.map LightRec.lateMin).getD 0

/-- The off minute of a group: an empty record's reads 0 (R123). -/
def LightGroup.offMin (g : LightGroup) : Nat := (g.cfg.map LightRec.offMin).getD 0

/-- A change of the minute of day moves a dark group's evening phase, that of an empty record too (R123, R127). -/
def LightGroup.judgeMinute (minute : Nat) (g : LightGroup) : LightGroup :=
  if !g.dark then g
  else if minute = g.offMin then { g with evening := .done }
  else if minute = g.lateMin ∧ g.evening = .early then { g with evening := .late }
  else g

/-- A running hold timer decreases by one; at 0 presence becomes INACTIVE (R129). -/
def LightGroup.holdFrame (g : LightGroup) : LightGroup :=
  if g.hold = 0 then g
  else if g.hold = 1 then { g with hold := 0, presence := .inactive }
  else { g with hold := g.hold - 1 }

/-- One ramp step of an online group (R131). -/
def LightGroup.ramp (g : LightGroup) : LightGroup :=
  match g.cfg with
  | none => g
  | some r =>
    if !g.online || g.current == g.aim then g
    else
      let up := decide (g.current < g.aim)
      let acc := g.acc + if up then r.upFrac else r.downFrac
      let whole := if up then r.upInt else r.downInt
      let step := if 16 ≤ acc then whole + 1 else whole
      let level := if up then min g.aim (g.current + step) else max g.aim (g.current - step)
      { g with current := level, acc := if level = g.aim then 0 else if 16 ≤ acc then acc - 16 else acc }

end Sys2Proof.Machine
end

