-- ==== Sys2Proof/Machine/Power.lean ====
section
/-! DEFINITION. The Power Allocator (chapter 9): the requests taken from the owners, the allocation pass, the shed
state. -/

namespace Sys2Proof.Machine

/-- The request of a dock load: the demand of the node's last good sample, clamped to the full draw; 0 while the node
is not ACTIVE, while it holds FAULT, or with no sample yet (R141; log 30). -/
def dockRequest (s : State) (l : Load) : Nat :=
  match l.node with
  | none => 0
  | some n =>
    if activeOf s (some n) .dock && (nodeAt s n).code != some 2 then
      match (nodeAt s n).sample with
      | none => 0
      | some w => min (contentField w 31 20) l.fullDraw
    else 0

/-- The request the owner of load `i` hands over (R137, R140, R141). -/
def requestOf (s : State) (i : Nat) (l : Load) : Nat :=
  if i < 8 then (channelAt s i).reqDraw else if i < 24 then (groupAt s (i - 8)).reqDraw else dockRequest s l

def takeRequests (s : State) : State :=
  { s with power := { s.power with loads := mapIx (fun i l => { l with request := requestOf s i l }) 0 s.power.loads } }

/-- A request is eligible when it is at least 1 and at least the load's minimum draw (R140). -/
def Load.eligible (l : Load) : Bool := decide (1 ≤ l.request) && decide (l.minDraw ≤ l.request)

/-- The sum of the requests of the loads that satisfy a condition. -/
def sumRequests (p : Load → Bool) (loads : List Load) : Nat := ((loads.filter p).map Load.request).sum

/-- The load takes part in class k (R143). -/
def Load.inClass (k : Nat) (l : Load) : Bool := l.cls == k && l.eligible

/-- The first share of a load of class k (R144). -/
def firstShare (R S : Nat) (l : Load) : Nat := l.request * R / S

/-- The load's first share reaches its minimum draw (R144). -/
def included (k R S : Nat) (l : Load) : Bool := l.inClass k && decide (l.minDraw ≤ firstShare R S l)

/-- The second share of an included load (R144). -/
def secondShare (R S' : Nat) (l : Load) : Nat :=
  let v := min l.request (l.request * R / S')
  if v < l.minDraw then 0 else v

/-- The grant of a load of class k from the remainder R (R143, R144). -/
def classGrant (shed : Bool) (loads : List Load) (R k : Nat) (l : Load) : Nat :=
  let S := sumRequests (Load.inClass k) loads
  let S' := sumRequests (included k R S) loads
  if shed && decide (2 ≤ k) then 0
  else if !(l.inClass k) then 0
  else if S ≤ R then l.request
  else if S' = S then firstShare R S l
  else if included k R S l then secondShare R S' l
  else 0

/-- The loads after class k has been served from the remainder R. -/
def serveClass (shed : Bool) (R k : Nat) (loads : List Load) : List Load :=
  loads.map (fun l => if l.cls = k then { l with grant := classGrant shed loads R k l } else l)

/-- The sum of the grants of a class. -/
def classSum (k : Nat) (loads : List Load) : Nat := ((loads.filter (fun l => l.cls == k)).map Load.grant).sum

/-- One class of a pass: the remainder and the loads after it (R143). -/
def passClass (shed : Bool) (k : Nat) (x : Nat × List Load) : Nat × List Load :=
  let ls := serveClass shed x.1 k x.2
  (x.1 - classSum k ls, ls)

/-- An allocation pass over the loads from a budget: the remainder after class 3 and the loads (R143). -/
def passLoads (shed : Bool) (budget : Nat) (loads : List Load) : Nat × List Load :=
  passClass shed 3
    (passClass shed 2
      (passClass shed 1 (passClass shed 0 (budget, loads.map (fun l => { l with grant := 0 })))))

/-- An allocation pass (R142, R143). -/
def allocate (s : State) : State :=
  let x := passLoads s.power.shed s.mgmt.site.budget s.power.loads
  { s with power := { s.power with loads := x.2, remainder := x.1 } }

/-- The shed state is set with a cause, if it is reset, and OVERLOAD_SHED is posted (R146). -/
def setShed (cause : ShedCause) (s : State) : State :=
  if s.power.shed then s
  else
    postDetail .overloadShed s.mgmt.site.supply s.power.measured
      { s with power := { s.power with shed := true, cause := some cause } }

/-- The overload run is 0 while the supply node is not usable (R145). -/
def dropRun (s : State) : State :=
  { s with power := { s.power with run := if supplyUsable s then s.power.run else 0 } }

/-- The overload run while the supply node is not usable, and the shed state on FOLDBACK (R145, R146), within a load of the
tables too (log 53). -/
def formShed (s : State) : State :=
  let t := dropRun s
  if foldback t then setShed .foldback t else t

/-- A good sample of the usable supply node (R145). -/
def supplySample (w : Content) (s : State) : State :=
  let draw := contentField w 31 19
  let run := if s.mgmt.site.budget < draw then min 3 (s.power.run + 1) else 0
  let t := { s with power := { s.power with measured := some draw, run := run } }
  if run = 3 then setShed .overrun t else t

end Sys2Proof.Machine
end

