-- ==== Sys2Proof/Machine/Settle.lean ====
section
/-! DEFINITION. What follows from a change within its handling: every result of the Zone Monitor, the Water and
Lighting Controllers and the Power Allocator is formed again, round after round, until no stage and no grant moves. Each
round ends with the allocation pass and its deliveries, and the cycles in REQUESTED are tested after it (R76, R86, R96,
R112, R130, R142; log 9, log 10). -/

namespace Sys2Proof.Machine

/-- The results formed in one round before the allocation pass. A load of the tables defers the automatic requests to its
step 9 (log 16). -/
def formResults (deferred : Bool) (s : State) : State :=
  formShed (formGroups (formLevels (formKeepouts (formCycles (formMonitors deferred (formOccupancy (formConditions s)))))))

/-- The pass and the delivery of its grants (R142). -/
def formGrants (s : State) : State := formLevels (deliverGroups (allocate (takeRequests s)))

/-- One round of a handling. A load of the tables defers the pass to its step 9 (R172). -/
def round (deferred : Bool) (s : State) : State :=
  if deferred then formResults true s else formGrants (formResults false s)

/-- The stages of the cycles. -/
def stages (s : State) : List Stage := s.water.channels.map Channel.stage

/-- The grants of the loads. -/
def grants (s : State) : List Nat := s.power.loads.map Load.grant

/-- The test of R112 after a round: it finds the grants that the pass over the requests of this handling has delivered
(R112, R119, R139). Within a load of the tables it waits for step 9 (log 16). -/
def startTest (deferred : Bool) (s : State) : State := if deferred then s else formStarts s

/-- Rounds, each followed by the test of R112, until one moves no stage and no grant, at most `n + 1` of them (log 10). -/
def rounds (deferred : Bool) : Nat → State → State
  | 0, s => round deferred s
  | n + 1, s =>
    let t := round deferred s
    let u := startTest deferred t
    if stages u = stages s ∧ grants u = grants s then t else rounds deferred n u

/-- Everything that follows from a change, within its handling. -/
def settle (s : State) : State := rounds false 40 s

/-- The same within a load of the tables, before its step 9: no pass, no automatic request (R172; log 16). -/
def settleDeferred (s : State) : State := rounds true 40 s

end Sys2Proof.Machine
end

