-- ==== Sys2Proof/Machine/Position.lean ====
section
/-! DEFINITION. The Position Engine (chapters 3 and 4): the vernier computation, the judgment of a sample by the
mower's tracking state, marker and dock events, presets and the offset write they ask for. -/

namespace Sys2Proof.Machine

/-! ### The vernier computation -/

/-- The residual and the computed position of a sample (R43, R44). -/
structure Vernier where
  residual : Int
  computed : Nat
  deriving DecidableEq, Repr

/-- The beat phase (R43, step 1). -/
def beatPhase (p1 p2 : Nat) : Nat := circSub 4096 p1 p2

/-- The difference d = c - p1 (R43, step 3). -/
def vernierDiff (n1 p1 p2 : Nat) : Int := (beatPhase p1 p2 * n1 : Nat) - (p1 : Nat)

/-- The period count: d divided by 4096, rounded to nearest with halves up (R43, step 4). -/
def periodCount (d : Int) : Int := (d + 2048) / 4096

/-- The vernier computation (R43, R44). -/
def vernier (n1 p1 p2 : Nat) : Vernier :=
  let d := vernierDiff n1 p1 p2
  let k := periodCount d
  { residual := d - k * 4096, computed := (k % (n1 : Int)).toNat * 4096 + p1 }

/-- The residual test: a size above the tolerance is a slip, a size equal to it passes (R44). -/
def residualSlip (l : LoopRec) (v : Vernier) : Bool := decide (l.tolerance < v.residual.natAbs)

/-- The elapsed frames E (R45). -/
def elapsed (frame last : Nat) : Nat := if circSub 65536 frame last = 0 then 1 else circSub 65536 frame last

/-- The comparison of R45 against the raw position: it passes when D is at most the jump limit times E. -/
def withinJump (l : LoopRec) (frame computed : Nat) (m : Mower) : Bool :=
  match m.raw, m.lastFrame with
  | some raw, some last => decide (circDist l.length computed raw ≤ l.jump * elapsed frame last)
  | _, _ => true

/-- The direction found from a raw position and the computed one (R51, step 1). -/
def directionOf (L raw computed : Nat) (dir : Direction) : Direction :=
  let g := circSub L computed raw
  if g = 0 then dir else if g < L / 2 then .forward else .backward

/-- A sample is accepted (R51). -/
def Mower.accept (l : LoopRec) (frame computed : Nat) (m : Mower) : Mower :=
  { m with
    dir := match m.raw with
      | none => m.dir
      | some raw => directionOf l.length raw computed m.dir
    raw := some computed
    lastFrame := some frame
    reported := if m.offsetValid then (computed + m.offset) % l.length else m.reported }

/-- Entry to LOST (R53), but for its notice. -/
def Mower.lose (m : Mower) : Mower := { m with state := .lost, verified := false, slip := 0, acquire := 0 }

/-- A slip counts (R47 to R50). -/
def Mower.countSlip (m : Mower) : Mower := { m with slips := inc16 m.slips }

/-- A sample judged: the mower after step 2 of R46, whether the sample was a slip, whether the mower became LOST. -/
structure Judged where
  mower : Mower
  slip : Bool
  lost : Bool
  deriving DecidableEq, Repr

/-- Step 2 of R46 for a mower whose last computed position is already set (R47 to R50). -/
def judge (l : LoopRec) (frame : Nat) (v : Vernier) (m : Mower) : Judged :=
  let bad := residualSlip l v
  let near := withinJump l frame v.computed m
  let taken := m.accept l frame v.computed
  match m.state with
  | .tracked =>
    if !bad && near then { mower := taken, slip := false, lost := false }
    else { mower := { m.countSlip with slip := 1, state := .slipping }, slip := true, lost := false }
  | .slipping =>
    if !bad && near then { mower := { taken with slip := 0, state := .tracked }, slip := false, lost := false }
    else if m.slip ≤ 1 then { mower := { m.countSlip with slip := m.slip + 1 }, slip := true, lost := false }
    else { mower := m.countSlip.lose, slip := true, lost := true }
  | .acquiring =>
    if bad then { mower := { m.countSlip with acquire := 0 }, slip := true, lost := false }
    else if m.acquire = 0 then { mower := { taken with acquire := 1 }, slip := false, lost := false }
    else if near then { mower := { taken with acquire := 0, state := .tracked }, slip := false, lost := false }
    else { mower := taken, slip := false, lost := false }
  | .lost =>
    if bad then { mower := m.countSlip, slip := true, lost := false }
    else { mower := { taken with state := .acquiring, acquire := 1 }, slip := false, lost := false }
  | .unreferenced =>
    if bad then { mower := m.countSlip, slip := true, lost := false } else { mower := taken, slip := false, lost := false }
  | .stale | .unused => { mower := m, slip := true, lost := false }

/-! ### The capture pair -/

/-- The difference of two numbers, taken plain. -/
def absDiff (a b : Nat) : Nat := a - b + (b - a)

/-- The smaller of the two differences of the spacing check (R59). -/
def spacingError (l : LoopRec) (a b : Nat) : Nat :=
  let measured := circSub l.length b a
  min (absDiff measured l.spacing) (absDiff measured (l.length - l.spacing))

/-- The spacing check of mower `i`, its captures being `a` and `b` (R59). -/
def spacingCheck (i : Nat) (l : LoopRec) (a b : Nat) (s : State) : State :=
  if spacingError l a b ≤ l.spacingTol then setMower i (fun m => { m with verified := true }) s
  else
    let t :=
      post .referenceMismatch (some i) (min (spacingError l a b) 65535)
        (setMower i (fun m => { m with mismatches := inc16 m.mismatches, verified := false }) s)
    match (mowerAt s i).state with
    | .tracked | .slipping | .acquiring => post .mowerLost (some i) 2 (setMower i Mower.lose t)
    | .unreferenced | .lost | .stale | .unused => t

/-- A marker event (R58). -/
def markerEvent (i : Nat) (l : LoopRec) (slip : Bool) (s : State) : State :=
  let m := mowerAt s i
  if slip then setMower i (fun m => { m with missedMarkers := inc16 m.missedMarkers }) s
  else if m.locked then s
  else
    match m.capA, m.raw with
    | none, raw => setMower i (fun m => { m with capA := raw }) s
    | some a, some b => spacingCheck i l a b (setMower i (fun m => { m with capB := some b, locked := true }) s)
    | some _, none => s

/-! ### Presets and the offset write -/

/-- The offsets of the four mowers as an offset write copies them (R64). -/
def offsetsOf (s : State) : List (Nat × Bool) := s.pos.mowers.map (fun m => (m.offset, m.offsetValid))

/-- A store write begins: the validity mark is cleared before anything else changes (R167; log 24). -/
def beginWrite (w : StoreWrite) (s : State) : State :=
  { s with
    store :=
      { s.store with
        image := { s.store.image with identity := Config.imageIdentity, mark := false }
        writing := some w } }

/-- The offset write a preset on a persisting loop asks for (R64). -/
def askOffsetWrite (i : Nat) (l : LoopRec) (s : State) : State :=
  if !l.persist then s
  else if s.store.writing.isNone then beginWrite (.offsets (offsetsOf s)) s
  else setMower i (fun m => { m with unsaved := true }) s

/-- The offset is set so that base `b` reads as `target`, and the state moves (R63, R67). -/
def Mower.preset (L b target : Nat) (m : Mower) : Mower :=
  let offset := circSub L target b
  { m with
    offset := offset
    offsetValid := true
    reported := match m.raw with
      | none => m.reported
      | some raw => (raw + offset) % L
    state := if m.state = .unreferenced ∨ m.state = .lost then .acquiring else m.state
    acquire := if m.state = .unreferenced ∨ m.state = .lost then 0 else m.acquire }

/-- A dock event (R62, R63). -/
def dockEvent (i : Nat) (l : LoopRec) (slip : Bool) (s : State) : State :=
  let m := mowerAt s i
  match m.raw with
  | none => s
  | some raw =>
    if m.debounce != 0 || !l.dockPreset || slip then s
    else askOffsetWrite i l (setMower i (fun m => { m.preset l.length raw l.dock with debounce := 50 }) s)

/-! ### Samples and node reports -/

/-- A good sample handed to mower `i` (R46, steps 1 to 3, and the last flags of R56). -/
def mowerSample (i : Nat) (w : Content) (s : State) : State :=
  let m := mowerAt s i
  let l := loopAt s m.loop
  let v := vernier l.n1 (contentField w 31 20) (contentField w 19 8)
  let j := judge l s.line.frame v { m with computed := some v.computed }
  let marker := contentField w 7 7 == 1
  let dock := contentField w 6 6 == 1
  let s1 := setMower i (fun _ => j.mower) s
  let s2 := if j.lost then post .mowerLost (some i) 1 s1 else s1
  let s3 := if marker && !m.lastMarker then markerEvent i l j.slip s2 else s2
  let s4 := if dock && !m.lastDock then dockEvent i l j.slip s3 else s3
  setMower i (fun m => { m with lastMarker := marker, lastDock := dock }) s4

/-- The mower takes samples: it is bound and its tracking state is not STALE (R46). -/
def Mower.samples (m : Mower) : Bool := m.state != .stale && m.state != .unused

/-- A good sample of MOWER node `n` for each mower bound to it, in increasing mower index, with the report of each
to the Zone Monitor (R46). -/
def mowerSamples (n : Nat) (w : Content) (s : State) : State :=
  eachIx
    (fun i t =>
      if (mowerAt t i).node == some n && (mowerAt t i).samples then settle (mowerSample i w t) else t)
    4 s

/-- What makes the raw position absent makes the last computed position absent and the last flags clear too (R39,
R41, R52, R56). -/
def Mower.forget (m : Mower) : Mower :=
  { m with raw := none, computed := none, slip := 0, acquire := 0, lastMarker := false, lastDock := false }

/-- The bound node leaves ACTIVE (R52). -/
def Mower.nodeLost (m : Mower) : Mower :=
  if m.state = .stale ∨ m.state = .unused then m else { m.forget with state := .stale }

/-- The bound node becomes ACTIVE (R52). -/
def Mower.nodeFound (m : Mower) : Mower :=
  if m.state = .stale then
    { m with state := if m.offsetValid then .acquiring else .unreferenced, acquire := 0 }
  else m

/-- The Node Table's report of a record's change reaches the mowers bound to it (R21, R52). -/
def reportToMowers (n : Nat) (before after : Node) (s : State) : State :=
  { s with
    pos :=
      { s.pos with
        mowers :=
          s.pos.mowers.map
            (fun m =>
              if m.node = some n then
                if before.kindIs .mower && before.state == .active && after.state != .active then m.nodeLost
                else if after.kindIs .mower && before.state != .active && after.state == .active then m.nodeFound
                else m
              else m) } }

/-- The captures, the lock and verified are cleared (R39, R41, R172). -/
def Mower.dropPair (m : Mower) : Mower := { m with capA := none, capB := none, locked := false, verified := false }

/-- A loop change (R39). -/
def Mower.loopChange (m : Mower) : Mower :=
  { m.forget.dropPair with
    offset := 0
    offsetValid := false
    reported := 0
    lastFrame := none
    state := if m.state = .stale ∨ m.state = .unused then m.state else .unreferenced }

/-! ### PRESET POSITION and RELEASE CAPTURE -/

/-- The base position of a PRESET POSITION (R66, step 3). -/
def Mower.base (m : Mower) : Option Nat :=
  match m.state with
  | .tracked | .slipping | .acquiring => m.raw
  | .unreferenced | .lost => m.computed
  | .stale | .unused => none

/-- RELEASE CAPTURE on a mower (R60). -/
def Mower.release (m : Mower) : Mower := { m with capA := none, capB := none, locked := false }

/-- A running dock debounce timer decreases by one (R61). -/
def Mower.debounceFrame (m : Mower) : Mower := { m with debounce := m.debounce - 1 }

end Sys2Proof.Machine
end

