-- ==== Sys2Proof/Machine/NodeTable.lean ====
section
/-! DEFINITION. The Node Table (chapter 2): good and missed samples, confirmation of codes, joining, the
unknown-joiner list, and the reports that follow. -/

namespace Sys2Proof.Machine

/-! ### Reports -/

/-- The number of the last code of a kind (R27). -/
def NodeKind.lastCode : NodeKind → Nat
  | .gateway => 0
  | .mower => 4
  | .pump => 3
  | .valve => 3
  | .light => 2
  | .dock => 2
  | .weather => 5
  | .level => 2
  | .motion => 1
  | .supply => 2

/-- A confirmed change of a MOWER node's code to STUCK (R54), for the mower records that name the node in increasing
index (log 34). -/
def mowerStuck (n : Nat) (old : Option Nat) (s : State) : State :=
  eachIx (fun i t => if (mowerAt t i).node == some n then postDetail .mowerStuck (some i) old t else t) 4 s

/-- The fault latch of channel `i` is set with a notice, if its record is of a kind in `kinds` and names node `n`. -/
def latchFault (kinds : List ChannelKind) (kind : NoticeKind) (detail : Nat) (n i : Nat) (s : State) : State :=
  if (channelAt s i).cfg.any (fun r => kinds.contains r.kind && r.node == some n) then
    post kind (some i) detail (setChannel i (fun c => { c with latch := true }) s)
  else s

/-- LAMP_FAULT for each group whose record names the node (R134), in increasing group index (log 34). -/
def lampFault (n code : Nat) (s : State) : State :=
  eachIx
    (fun g t => if (groupAt t g).cfg.any (fun r => r.node == some n) then post .lampFault (some g) code t else t)
    16 s

/-- What the blocks do on a confirmation of code `new` by record `n` besides forming their results again: R54, R91,
R98, R118, R134. Several channels that name the node post in increasing channel index (log 34). -/
def codeReport (n : Nat) (kind : NodeKind) (old : Option Nat) (new : Nat) (s : State) : State :=
  match kind with
  | .mower => if new = 4 then mowerStuck n old s else s
  | .pump => if new = 0 then s else eachIx (latchFault [.filter, .fountain] .pumpFault new n) 8 s
  | .valve => if new = 3 then eachIx (latchFault [.valve] .valveJammed 1 n) 8 s else s
  | .light => if new = 0 then s else lampFault n new s
  | .level => if new ≠ 0 ∧ s.mgmt.site.level = some n then post .pondLow (some n) new s else s
  | .gateway | .dock | .weather | .motion | .supply => s

/-- A record changes: the state change is reported to the mowers bound to it, and every block takes what follows
(R21). -/
def changeNode (n : Nat) (f : Node → Node) (s : State) : State :=
  settle (reportToMowers n (nodeAt s n) (f (nodeAt s n)) (setNode n f s))

/-! ### Good samples -/

/-- A change is entered in the change list (R29). -/
def enterChange (c : Change) : List Change → List Change
  | [] => [c]
  | a :: _ :: _ => [a, c]
  | [a] => [a, c]

/-- Confirmation of a code (R28). -/
def Node.confirm (code frame : Nat) (n : Node) : Node :=
  if n.code = some code then { n with cand := none }
  else if n.cand = some code then
    { n with code := some code, cand := none, changes := enterChange { old := n.code, new := code, frame := frame } n.changes }
  else { n with cand := some code }

/-- The code a sample is taken as carrying: beyond the last code of the kind, the first (R27). -/
def codeTaken (kind : NodeKind) (w : Content) : Nat :=
  if kind.lastCode < contentField w 3 0 then 0 else contentField w 3 0

/-- The lowest bit of the content word above the code that the kind's layout names; the layout names every bit from it to
bit 31 (12_formats.md, Node slot halves). -/
def NodeKind.lowBit : NodeKind → Nat
  | .mower => 6
  | .pump => 12
  | .dock => 20
  | .supply => 19
  | .gateway | .valve | .light | .weather | .level | .motion => 32

/-- The sample kept, with its code after R27 (R19). The bits that the kind's layout gives as sent 0 are disregarded,
whatever their value (R176): the word holds 0 there (log 38). -/
def sampleTaken (kind : NodeKind) (w : Content) : Content :=
  BitVec.ofNat 32 (w.toNat / 2 ^ kind.lowBit * 2 ^ kind.lowBit + codeTaken kind w)

/-- Steps 1 to 5 of R26, with the noise count of R11 and the check error count of R27. -/
def Node.takeSample (kind : NodeKind) (noisy : Bool) (w : Content) (frame : Nat) (n : Node) : Node :=
  ({ n with
      state := .active
      missed := 0
      answerPending := false
      noise := if noisy then inc16 n.noise else n.noise
      checkErr := if kind.lastCode < contentField w 3 0 then inc16 n.checkErr else n.checkErr
      sample := some (sampleTaken kind w)
      lastFrame := some frame }).confirm (codeTaken kind w) frame

/-- The sample handed to the block that owns the node's kind (R32). -/
def handOver (n : Nat) (kind : NodeKind) (w : Content) (s : State) : State :=
  match kind with
  | .mower => mowerSamples n w s
  | .pump =>
    settle
      (eachIx (fun i t => if (channelAt t i).cfg.any (fun r => r.node == some n) then filterSample i w t else t) 8 s)
  | .supply => if s.mgmt.site.supply = some n then settle (supplySample w s) else s
  | .valve | .light | .dock | .weather | .level | .motion | .gateway => s

/-- A good sample of a served record (R26). A dock load reads its demand from the last sample (R141), so its
request is formed with the reports. -/
def goodSample (n : Nat) (noisy : Bool) (w : Content) (s : State) : State :=
  match (nodeAt s n).ident with
  | none => s
  | some x =>
    let old := nodeAt s n
    let new := old.takeSample x.kind noisy w s.line.frame
    let s1 := reportToMowers n old new (setNode n (fun _ => new) s)
    let s2 :=
      match new.code with
      | none => s1
      | some c => if new.code = old.code then s1 else codeReport n x.kind old.code c s1
    handOver n x.kind w (settle s2)

/-! ### Missed samples -/

/-- The record's state after a missed sample (R30). -/
def missedState (st : NodeState) (missed : Nat) : NodeState :=
  match st with
  | .active => if 8 ≤ missed then .stale else .active
  | .stale => if 250 ≤ missed then .dropped else .stale
  | .empty | .provisioned | .dropped => st

/-- A missed sample (R30), unless R23 holds it back; a check error counts in either case (R11). -/
def Node.miss (checkError : Bool) (n : Node) : Node :=
  let n1 := { n with checkErr := if checkError then inc16 n.checkErr else n.checkErr }
  if n.answerPending || n.answeredNow then n1
  else { n1 with cand := none, missed := n.missed + 1, state := missedState n.state (n.missed + 1) }

/-- A missed sample of record `n` (R11, R23, R30). -/
def missedSample (n : Nat) (checkError : Bool) (s : State) : State := changeNode n (Node.miss checkError) s

/-! ### Joining -/

/-- An answer joins the JOIN ANSWER list: in the place of one for the same serial, else at the end, else dropped
(R154). -/
def giveAnswer (a : JoinAnswer) (s : State) : State :=
  { s with
    mgmt :=
      { s.mgmt with
        answers :=
          if s.mgmt.answers.any (fun b => b.serial == a.serial) then
            s.mgmt.answers.map (fun b => if b.serial = a.serial then a else b)
          else if s.mgmt.answers.length < 8 then s.mgmt.answers ++ [a]
          else s.mgmt.answers } }

/-- The index of the record that holds a serial (R22). -/
def findSerial (serial : Serial) (s : State) : Option Nat :=
  s.nodes.recs.findIdx? (fun n => n.ident.any (fun x => x.serial == serial))

/-- A JOIN that matches no record (R24). -/
def unknownJoin (serial : Serial) (kind : Nat) (s : State) : State :=
  let list := s.nodes.joiners
  if list.any (fun j => j.serial == serial) then
    { s with
      nodes :=
        { s.nodes with
          joiners :=
            list.map (fun j => if j.serial = serial then { j with kind := kind, latest := s.line.frame } else j) } }
  else if list.length < 4 then
    post .unknownJoiner (some list.length) (serial.toNat % 65536)
      { s with
        nodes :=
          { s.nodes with
            joiners := list ++ [{ serial := serial, kind := kind, first := s.line.frame, latest := s.line.frame }] } }
  else { s with nodes := { s.nodes with overflow := inc16 s.nodes.overflow } }

/-- The record a JOIN makes ACTIVE (R22). -/
def Node.join (rejoin : Bool) (n : Node) : Node :=
  { n with
    state := .active
    answerPending := true
    missed := 0
    cand := none
    code := none
    rejoin := if rejoin then inc16 n.rejoin else n.rejoin }

/-- A JOIN that makes record `i` ACTIVE: the answer is given, NODE_JOINED is posted, the change is reported (R22). The
notices that the other blocks post on the report join after NODE_JOINED (R163; log 9). -/
def joinRecord (i : Nat) (x : NodeIdent) (rejoin : Bool) (s : State) : State :=
  let s1 := giveAnswer { serial := x.serial, address := some x.address } s
  let s2 := post .nodeJoined (some i) ((nodeAt s i).join rejoin).rejoin s1
  changeNode i (Node.join rejoin) s2

/-- A JOIN answered REFUSED (R22). -/
def refuseJoin (serial : Serial) (subject : Option Nat) (kind : Nat) (s : State) : State :=
  post .joinRefused subject kind (giveAnswer { serial := serial, address := none } s)

/-- The node kind of a number (12_formats.md, Messages). -/
def NodeKind.ofNumber : Nat → Option NodeKind
  | 0 => some .gateway
  | 1 => some .mower
  | 2 => some .pump
  | 3 => some .valve
  | 4 => some .light
  | 5 => some .dock
  | 6 => some .weather
  | 7 => some .level
  | 8 => some .motion
  | 9 => some .supply
  | _ => none

/-- The number of a node kind (12_formats.md, Messages). -/
def NodeKind.number : NodeKind → Nat
  | .gateway => 0
  | .mower => 1
  | .pump => 2
  | .valve => 3
  | .light => 4
  | .dock => 5
  | .weather => 6
  | .level => 7
  | .motion => 8
  | .supply => 9

/-- A JOIN with a serial and the kind value it carries (R22). -/
def joinNode (serial : Serial) (kind : Nat) (s : State) : State :=
  match NodeKind.ofNumber kind with
  | none => refuseJoin serial none kind s
  | some k =>
    match findSerial serial s with
    | none => unknownJoin serial kind s
    | some i =>
      match (nodeAt s i).ident with
      | none => s
      | some x =>
        if x.kind ≠ k then refuseJoin serial (some i) kind s
        else
          match (nodeAt s i).state with
          | .active | .stale =>
            if (nodeAt s i).answerPending then giveAnswer { serial := serial, address := some x.address } s
            else joinRecord i x true s
          | .provisioned | .dropped | .empty => joinRecord i x false s

/-- A JOIN ANSWER has gone: it leaves the list and its record's answer pending is reset; missed samples of the frame
it went in are not yet counted (R23, R154), if answer pending was still set when it went (log 39). -/
def answerGone (serial : Serial) (s : State) : State :=
  { s with
    mgmt := { s.mgmt with answers := s.mgmt.answers.filter (fun a => a.serial != serial) }
    nodes :=
      { s.nodes with
        recs :=
          s.nodes.recs.map
            (fun n =>
              if n.ident.any (fun x => x.serial == serial) then
                { n with answerPending := false, answeredNow := n.answeredNow || n.answerPending }
              else n) } }

/-- An entry with a serial now held by a record leaves the unknown-joiner list (R25). -/
def dropJoiner (serial : Serial) (s : State) : State :=
  { s with nodes := { s.nodes with joiners := s.nodes.joiners.filter (fun j => j.serial != serial) } }

/-! ### Line break -/

/-- The record on the line break event (R34). -/
def Node.lineBreak (n : Node) : Node :=
  match n.state with
  | .active | .stale | .dropped =>
    { n with state := .provisioned, code := none, cand := none, missed := 0, answerPending := false }
  | .empty | .provisioned => n

/-- The record has joined: the line break makes it PROVISIONED (R34). -/
def Node.joined (n : Node) : Bool := n.state == .active || n.state == .stale || n.state == .dropped

/-- The line break makes every mower STALE whose MOWER node leaves ACTIVE, STALE or DROPPED: after a load of the tables
such a mower can stand in another state than STALE while its node is STALE or DROPPED (R52, R55). -/
def breakMowers (n : Nat) (before : Node) (s : State) : State :=
  { s with
    pos :=
      { s.pos with
        mowers :=
          s.pos.mowers.map
            (fun m => if before.kindIs .mower && before.joined && m.node == some n then m.nodeLost else m) } }

/-- The line break event in the Node Table, with its report to the mowers of each record moved (R34, R52). What
the other blocks form from it follows with the settling of the break. -/
def nodesBreak (s : State) : State :=
  eachIx (fun i t => breakMowers i (nodeAt t i) (setNode i Node.lineBreak t)) 48 s

end Sys2Proof.Machine
end

