-- ==== Sys2Proof/Machine/Tables.lean ====
section
/-! DEFINITION. The write rule of each table (R158 names them): each judges one entry and answers the state after
it and its status. -/

namespace Sys2Proof.Machine

/-- DONE_CLAMPED if something was clamped, DONE if not (R155). -/
def doneIf (clamped : Bool) : Status := if clamped then .doneClamped else .done

/-- A number limited to a range. -/
def clampTo (lo hi n : Nat) : Nat := min (max n lo) hi

/-! ### SLOTMAP -/

/-- A divisor of 0 becomes 1, of 3 becomes 4, of 5 or more becomes 8 (R8). -/
def clampDivisor (d : Nat) : Nat :=
  match d with
  | 0 => 1
  | 1 => 1
  | 2 => 2
  | 3 => 4
  | 4 => 4
  | _ => 8

/-- The clamped placement (R8, step 2). -/
def clampPlacement (w : SlotWrite) : Placement :=
  let d := clampDivisor w.divisor
  { slot := clampTo 1 28 w.slot, divisor := d, phase := min w.phase (d - 1), node := w.node }

/-- Two placements overlap: the same slot, and phases congruent modulo the smaller divisor (R7). -/
def overlap (p q : Placement) : Bool :=
  p.slot == q.slot && p.phase % min p.divisor q.divisor == q.phase % min p.divisor q.divisor

/-- A placement overlaps some entry of a map other than entry `i` (R8, step 3). -/
def overlapsOther (i : Nat) (p : Placement) (map : List (Option Placement)) : Bool :=
  (List.range map.length).any (fun j => j != i && (map.getD j none).any (overlap p))

/-- The next map with entry `i` replaced. The pending list follows, being its difference from the active map. -/
def setNext (i : Nat) (p : Option Placement) (s : State) : State :=
  { s with line := { s.line with next := s.line.next.set i p } }

/-- R8. -/
def writeSlot (i : Nat) (w : Option SlotWrite) (s : State) : State × Status :=
  if 63 < i then (s, .outOfRange)
  else
    match w with
    | none => (setNext i none s, .done)
    | some w =>
      if 47 < w.node then (s, .outOfRange)
      else
        let p := clampPlacement w
        if overlapsOther i p s.line.next then (s, .conflict)
        else
          (setNext i (some p) s, doneIf (!(p.slot == w.slot && p.divisor == w.divisor && p.phase == w.phase)))

/-! ### NODES and JOINERS -/

/-- A record as an accepted write that changes it leaves it (R20). -/
def Node.provision (x : Option NodeIdent) : Node :=
  { Node.blank with ident := x, state := if x.isSome then .provisioned else .empty }

/-- Some other record that is not EMPTY holds the serial or the line address (R20, step 5). -/
def identTaken (i : Nat) (x : NodeIdent) (s : State) : Bool :=
  (List.range 48).any
    (fun j => j != i && (nodeAt s j).ident.any (fun y => y.serial == x.serial || y.address == x.address))

/-- R20. -/
def writeNode (i : Nat) (w : Option NodeWrite) (s : State) : State × Status :=
  if 47 < i then (s, .outOfRange)
  else
    match w with
    | none =>
      if (nodeAt s i).served then (s, .wrongState)
      else (changeNode i (fun _ => Node.provision none) s, .done)
    | some w =>
      match NodeKind.ofNumber w.kind with
      | none => (s, .malformed)
      | some kind =>
        let x : NodeIdent := { address := clampTo 1 62 w.address, serial := w.serial, kind := kind }
        let same := (nodeAt s i).ident == some x
        if (nodeAt s i).served && !same then (s, .wrongState)
        else if identTaken i x s then (s, .conflict)
        else
          let t := dropJoiner x.serial s
          (if same then t else changeNode i (fun _ => Node.provision (some x)) t, doneIf (x.address != w.address))

/-- R25. An index that names no position is refused before the value is looked at (log 29). -/
def writeJoiner (i : Nat) (blank : Bool) (s : State) : State × Status :=
  if 3 < i then (s, .outOfRange)
  else if !blank then (s, .notPermitted)
  else ({ s with nodes := { s.nodes with joiners := s.nodes.joiners.eraseIdx i } }, .done)

/-! ### LOOPS and MOWERS -/

/-- The clamped loop record: N1 first, the positions with the L it gives (R38, step 3). -/
def clampLoop (w : LoopWrite) : LoopRec :=
  let n1 := clampTo 4 64 w.n1
  let top := n1 * 4096 - 1
  { n1 := n1
    tolerance := if w.tolerance = 0 then 1024 else clampTo 64 1536 w.tolerance
    jump := clampTo 1 1023 w.jump
    body := min w.body 4095
    dock := min w.dock top
    dockPreset := w.dockPreset
    persist := w.persist
    verify := w.verify
    spacing := clampTo 1 top w.spacing
    spacingTol := min w.spacingTol 4095 }

/-- Some field was clamped; a tolerance written as 0 does not count (R38). -/
def loopClamped (w : LoopWrite) (l : LoopRec) : Bool :=
  !(l.n1 == w.n1 && (l.tolerance == w.tolerance || w.tolerance == 0) && l.jump == w.jump && l.body == w.body
    && l.dock == w.dock && l.spacing == w.spacing && l.spacingTol == w.spacingTol)

def setLoop (i : Nat) (l : Option LoopRec) (s : State) : State :=
  { s with pos := { s.pos with loops := s.pos.loops.set i l } }

/-- The loop change for every mower record naming the loop (R38, R39). -/
def changeLoop (i : Nat) (s : State) : State :=
  { s with
    pos := { s.pos with mowers := s.pos.mowers.map (fun m => if m.loop = i then m.loopChange else m) } }

/-- The bounds of every zone on the loop limited to the new L - 1 (R76). -/
def limitZones (i L : Nat) (s : State) : State :=
  { s with
    zone :=
      { s.zone with
        zones :=
          s.zone.zones.map
            (fun z =>
              z.map (fun r => if r.loop = i then { r with first := min r.first (L - 1), last := min r.last (L - 1) } else r)) } }

/-- A bound mower record or a zone record names the loop (R38, step 2). -/
def loopNamed (i : Nat) (s : State) : Bool :=
  s.pos.mowers.any (fun m => m.node.isSome && m.loop == i) || s.zone.zones.any (fun z => z.any (fun r => r.loop == i))

/-- R38. -/
def writeLoop (i : Nat) (w : Option LoopWrite) (s : State) : State × Status :=
  if 3 < i then (s, .outOfRange)
  else
    match w with
    | none =>
      if loopNamed i s then (s, .wrongState) else (settle (changeLoop i (setLoop i none s)), .done)
    | some w =>
      let l := clampLoop w
      let st := doneIf (loopClamped w l)
      match s.pos.loops.getD i none with
      | none => (settle (setLoop i (some l) s), st)
      | some old =>
        if old = l then (s, st)
        else (settle (changeLoop i (setLoop i (some l) (if old.n1 = l.n1 then s else limitZones i l.length s))), st)

/-- A write of the node index (R41). -/
def Mower.bind (nodeActive : Bool) (node : Option Nat) (m : Mower) : Mower :=
  if node = m.node then m
  else
    match node with
    | none => { m.forget with node := none, state := .unused }
    | some n =>
      { m.forget.dropPair with
        node := some n
        state := if nodeActive then (if m.offsetValid then .acquiring else .unreferenced) else .stale }

/-- R41. -/
def writeMower (i : Nat) (w : MowerWrite) (s : State) : State × Status :=
  if 3 < i ∨ w.node.any (fun n => decide (47 < n)) = true then (s, .outOfRange)
  else if 3 < w.loop ∨ (s.pos.loops.getD w.loop none).isNone = true then (s, .outOfRange)
  else
    let moved := fun (m : Mower) => if m.loop = w.loop then m else { m.loopChange with loop := w.loop }
    (settle (setMower i (fun m => (moved m).bind (activeOf s w.node .mower) w.node) s), .done)

/-! ### ZONES -/

def ZoneKind.ofNumber : Nat → Option ZoneKind
  | 0 => some .spray
  | 1 => some .keepout
  | 2 => some .slow
  | 3 => some .light
  | _ => none

def ZoneKind.number : ZoneKind → Nat
  | .spray => 0
  | .keepout => 1
  | .slow => 2
  | .light => 3

def ActiveWhen.ofNumber : Nat → Option ActiveWhen
  | 0 => some .always
  | 1 => some .duringBackwash
  | 2 => some .duringShow
  | _ => none

def ActiveWhen.number : ActiveWhen → Nat
  | .always => 0
  | .duringBackwash => 1
  | .duringShow => 2

/-- The zone is the discharge zone of a filter channel whose cycle is not IDLE (R71, step 2). -/
def zoneInUse (i : Nat) (s : State) : Bool :=
  s.water.channels.any
    (fun c => c.stage != .idle && c.cfg.any (fun r => r.kind == .filter && r.discharge == i))

def setZone (i : Nat) (z : Option ZoneRec) (s : State) : State :=
  { s with zone := { s.zone with zones := s.zone.zones.set i z } }

/-- The references of a zone write that name nothing (R71, step 5). -/
def zoneRefsBad (w : ZoneWrite) (s : State) : Bool :=
  decide (3 < w.loop) || (s.pos.loops.getD w.loop none).isNone || w.channels.any (fun c => decide (7 < c))
    || decide (7 < w.filter) || w.groups.any (fun g => decide (15 < g)) || decide (3 < w.showIx)

/-- R71. A zone whose cycle is REQUESTED is refused by step 2, though R81 speaks of a zone write that releases a waiting
cycle (log 40). -/
def writeZone (i : Nat) (w : Option ZoneWrite) (s : State) : State × Status :=
  if 31 < i then (s, .outOfRange)
  else if zoneInUse i s then (s, .wrongState)
  else
    match w with
    | none => (settle (setZone i none s), .done)
    | some w =>
      match ZoneKind.ofNumber w.kind, ActiveWhen.ofNumber w.activeWhen with
      | some kind, some activeWhen =>
        if zoneRefsBad w s then (s, .outOfRange)
        else
          let top := (loopAt s w.loop).length - 1
          let z : ZoneRec :=
            { kind := kind, loop := w.loop, first := min w.first top, last := min w.last top
              lookahead := min w.lookahead 16383, assume := w.assume, activeWhen := activeWhen, filter := w.filter
              showIx := w.showIx, channels := w.channels, cap := w.cap, groups := w.groups }
          (settle (setZone i (some z) s),
            doneIf (!(z.first == w.first && z.last == w.last && z.lookahead == w.lookahead)))
      | _, _ => (s, .malformed)

/-! ### CHANNELS -/

def ChannelKind.ofNumber : Nat → Option ChannelKind
  | 0 => some .filter
  | 1 => some .fountain
  | 2 => some .valve
  | _ => none

def ChannelKind.number : ChannelKind → Nat
  | .filter => 0
  | .fountain => 1
  | .valve => 2

/-- The channel's own cycle, or that of a FILTER channel that names it as its valve channel, is not IDLE (R89). -/
def channelInUse (i : Nat) (s : State) : Bool :=
  (channelAt s i).stage != .idle
    || s.water.channels.any (fun c => c.stage != .idle && c.cfg.any (fun r => r.kind == .filter && r.valve == i))

/-- The clamped channel record (R89, step 6). -/
def clampChannel (kind : ChannelKind) (w : ChannelWrite) : ChannelRec :=
  let top := min w.maxLevel 255
  { kind := kind
    node := w.node
    minLevel := min w.minLevel top
    maxLevel := top
    day := min w.day 255
    night := min w.night 255
    nightStart := min w.nightStart 1439
    nightEnd := min w.nightEnd 1439
    clog := min w.clog 1023
    clear := min w.clear 1023
    auto := w.auto
    valve := w.valve
    backwash := min w.backwash 255
    rinse := min w.rinse 255
    stopFrames := clampTo 1 65535 w.stopFrames
    washFrames := clampTo 1 65535 w.washFrames
    rinseFrames := clampTo 1 65535 w.rinseFrames
    discharge := w.discharge }

def channelClamped (w : ChannelWrite) (r : ChannelRec) : Bool :=
  !(r.minLevel == w.minLevel && r.maxLevel == w.maxLevel && r.day == w.day && r.night == w.night
    && r.nightStart == w.nightStart && r.nightEnd == w.nightEnd && r.clog == w.clog && r.clear == w.clear
    && r.backwash == w.backwash && r.rinse == w.rinse && r.stopFrames == w.stopFrames
    && r.washFrames == w.washFrames && r.rinseFrames == w.rinseFrames)

/-- A channel takes a record. A change of the kind or the node index resets the fault latch and unsets F (R89,
R108). -/
def Channel.rewrite (r : Option ChannelRec) (c : Channel) : Channel :=
  if c.cfg.map (fun x => (x.kind, x.node)) = r.map (fun x => (x.kind, x.node)) then { c with cfg := r }
  else { c with cfg := r, latch := false, filt := none, clogged := false }

/-- R89. The clogged flag is formed again with the new thresholds where F stays set (R109). -/
def writeChannel (i : Nat) (w : Option ChannelWrite) (s : State) : State × Status :=
  if 7 < i then (s, .outOfRange)
  else if channelInUse i s then (s, .wrongState)
  else
    match w with
    | none => (settle (setChannel i (Channel.rewrite none) s), .done)
    | some w =>
      match ChannelKind.ofNumber w.kind with
      | none => (s, .malformed)
      | some kind =>
        if w.node.any (fun n => decide (47 < n)) || decide (7 < w.valve) || decide (31 < w.discharge) then
          (s, .outOfRange)
        else
          let r := clampChannel kind w
          (settle (formClogged i (setChannel i (Channel.rewrite (some r)) s)), doneIf (channelClamped w r))

/-! ### SHOWS and STEPS -/

/-- A channel of the list is listed twice, or listed by another show in use (R101, step 5). -/
def showConflict (i : Nat) (channels : List Nat) (s : State) : Bool :=
  !(decide channels.Nodup)
    || (List.range 4).any
        (fun j => j != i && (playerAt s j).cfg.any (fun r => r.channels.any (fun c => channels.contains c)))

/-- R101, show records. A write replaces the written fields alone: an emptied record holds and reads the loaded levels, the
loaded next and the loops done that its player had (R100; log 51). -/
def writeShow (i : Nat) (w : Option ShowWrite) (s : State) : State × Status :=
  if 3 < i then (s, .outOfRange)
  else if (playerAt s i).state != .idle then (s, .wrongState)
  else
    match w with
    | none => (settle (setPlayer i (fun p => { p with cfg := none }) s), .done)
    | some w =>
      if w.channels.any (fun c => decide (7 < c)) || decide (95 < w.first) then (s, .outOfRange)
      else if showConflict i w.channels s then (s, .conflict)
      else
        let r : ShowRec :=
          { channels := w.channels, first := w.first, loopCount := min w.loopCount 65535
            startMin := w.startMin.map (fun m => min m 1439), stopMin := w.stopMin.map (fun m => min m 1439) }
        (settle (setPlayer i (fun p => { p with cfg := some r }) s),
          doneIf (!(r.loopCount == w.loopCount && r.startMin == w.startMin && r.stopMin == w.stopMin)))

/-- R101, steps. -/
def writeStep (i : Nat) (w : StepWrite) (s : State) : State × Status :=
  if 95 < i ∨ w.next.any (fun n => decide (95 < n)) = true then (s, .outOfRange)
  else
    let l := w.levels
    let t : Step :=
      { levels := ⟨min l.l0 255, min l.l1 255, min l.l2 255, min l.l3 255⟩
        duration := clampTo 1 65535 w.duration, next := w.next }
    ({ s with water := { s.water with steps := s.water.steps.set i t } },
      doneIf (!(t.levels == l && t.duration == w.duration)))

/-! ### LIGHTS -/

def LightMode.ofNumber : Nat → Option LightMode
  | 0 => some .off
  | 1 => some .duskToTime
  | 2 => some .duskToDawn
  | 3 => some .always
  | _ => none

def LightMode.number : LightMode → Nat
  | .off => 0
  | .duskToTime => 1
  | .duskToDawn => 2
  | .always => 3

/-- The clamped group record (R124, step 5). -/
def clampLight (mode : LightMode) (w : LightWrite) : LightRec :=
  { node := w.node
    mode := mode
    onLevel := min w.onLevel 255
    lateLevel := min w.lateLevel 255
    lateMin := min w.lateMin 1439
    offMin := min w.offMin 1439
    presLevel := min w.presLevel 255
    presHold := min w.presHold 65535
    motion := w.motion
    upInt := min w.upInt 15
    upFrac := min w.upFrac 15
    downInt := min w.downInt 15
    downFrac := min w.downFrac 15 }

def lightClamped (w : LightWrite) (r : LightRec) : Bool :=
  !(r.onLevel == w.onLevel && r.lateLevel == w.lateLevel && r.lateMin == w.lateMin && r.offMin == w.offMin
    && r.presLevel == w.presLevel && r.presHold == w.presHold && r.upInt == w.upInt && r.upFrac == w.upFrac
    && r.downInt == w.downInt && r.downFrac == w.downFrac)

/-- A group takes a record. A change of the node index sets the current level and the accumulator to 0, and the online
state is formed anew, the group coming online from level 0 where the new node is ACTIVE. The empty value does so always,
and makes presence INACTIVE with the timer stopped and the evening phase EARLY (R124, R125). -/
def LightGroup.rewrite (r : Option LightRec) (g : LightGroup) : LightGroup :=
  if r.isNone then
    { g with cfg := none, online := false, current := 0, acc := 0, presence := .inactive, hold := 0, evening := .early }
  else if g.cfg.map (·.node) = r.map (·.node) then { g with cfg := r }
  else { g with cfg := r, online := false, current := 0, acc := 0 }

/-- R124. -/
def writeLight (i : Nat) (w : Option LightWrite) (s : State) : State × Status :=
  if 15 < i then (s, .outOfRange)
  else
    match w with
    | none => (settle (setGroup i (LightGroup.rewrite none) s), .done)
    | some w =>
      match LightMode.ofNumber w.mode with
      | none => (s, .malformed)
      | some mode =>
        if w.node.any (fun n => decide (47 < n)) || w.motion.any (fun n => decide (47 < n)) then (s, .outOfRange)
        else
          let r := clampLight mode w
          (settle (setGroup i (LightGroup.rewrite (some r)) s), doneIf (lightClamped w r))

/-! ### LOADS -/

/-- R139. -/
def writeLoad (i : Nat) (w : Option LoadWrite) (s : State) : State × Status :=
  if 27 < i then (s, .outOfRange)
  else
    match w with
    | none => (s, .malformed)
    | some w =>
      if w.node.any (fun n => decide (47 < n)) then (s, .outOfRange)
      else
        let cls := min w.cls 3
        let full := min w.fullDraw 4000
        let low := min (min w.minDraw 4000) full
        let put := fun (l : Load) => { l with cls := cls, minDraw := low, fullDraw := full, node := w.node }
        (settle { s with power := { s.power with loads := s.power.loads.modify i put } },
          doneIf (!(cls == w.cls && full == w.fullDraw && low == w.minDraw)))

/-! ### SITE -/

/-- What context 1 serves: everything in the open state (none), else the first named address (R149). -/
def servedFirst (privileged : List Nat) : Option Nat := privileged.head?

/-- What context 2 serves: the second named address, unless it is the first again or there is none (R149). -/
def servedSecond : List Nat → Option Nat
  | a :: b :: _ => if a = b then none else some b
  | _ => none

/-- The site record replaced, with the effects of a site write on each field that changed (R159, R145, R150). A context
whose address changed becomes empty; the beginning and the end of the open state change the address of context 1, whoever
holds its partial message (log 46). The conditions that read the site follow with the settling. -/
def replaceSite (x : Site) (s : State) : State :=
  let old := s.mgmt.site
  let run := if old.budget = x.budget ∧ old.supply = x.supply then s.power.run else 0
  { s with
    power := { s.power with run := run }
    mgmt :=
      { s.mgmt with
        site := x
        ctx1 := if servedFirst old.privileged = servedFirst x.privileged then s.mgmt.ctx1 else none
        ctx2 := if servedSecond old.privileged = servedSecond x.privileged then s.mgmt.ctx2 else none } }

/-- The clamped site record (R159). -/
def clampSite (w : SiteWrite) : Site :=
  { privileged := w.privileged.map (clampTo 1 62)
    budget := min w.budget 8000
    weather := w.weather
    level := w.level
    supply := w.supply
    dusk := min w.dusk 1439
    dawn := min w.dawn 1439
    staleLimit := 8
    dropLimit := 250 }

def siteClamped (w : SiteWrite) (x : Site) : Bool :=
  !(x.privileged == w.privileged && x.budget == w.budget && x.dusk == w.dusk && x.dawn == w.dawn
    && w.staleLimit == 8 && w.dropLimit == 250)

/-- R159. -/
def writeSite (i : Nat) (w : Option SiteWrite) (s : State) : State × Status :=
  if 0 < i then (s, .outOfRange)
  else
    match w with
    | none => (s, .malformed)
    | some w =>
      if w.weather.any (fun n => decide (47 < n)) || w.level.any (fun n => decide (47 < n))
          || w.supply.any (fun n => decide (47 < n)) then (s, .outOfRange)
      else
        let x := clampSite w
        (settle (replaceSite x s), doneIf (siteClamped w x))

/-! ### Any entry -/

/-- Each entry is handled by the write rule of its table (R158). -/
def writeEntry (e : EntryWrite) (s : State) : State × Status :=
  match e with
  | .slotmap i w => writeSlot i w s
  | .nodes i w => writeNode i w s
  | .joiners i blank => writeJoiner i blank s
  | .loops i w => writeLoop i w s
  | .mowers i w => writeMower i w s
  | .zones i w => writeZone i w s
  | .channels i w => writeChannel i w s
  | .shows i w => writeShow i w s
  | .steps i w => writeStep i w s
  | .lights i w => writeLight i w s
  | .loads i w => writeLoad i w s
  | .site i w => writeSite i w s

/-- Entries one after another in entry order, a refused one not stopping those after it (R155). -/
def writeAll : List EntryWrite → State → State × List Status
  | [], s => (s, [])
  | e :: es, s =>
    let x := writeEntry e s
    let y := writeAll es x.1
    (y.1, x.2 :: y.2)

/-- DONE or DONE_CLAMPED: the entry was accepted (R155). -/
def Status.taken (st : Status) : Bool := st == .done || st == .doneClamped

/-- The overall status: that of the first entry refused, else DONE_CLAMPED if one was clamped, else DONE (R155). -/
def overall (sts : List Status) : Status :=
  match sts.find? (fun st => !st.taken) with
  | some st => st
  | none => doneIf (sts.contains .doneClamped)

end Sys2Proof.Machine
end

