-- ==== Sys2Proof/Machine/Layout.lean ====
section
/-! DEFINITION. The byte layouts of 12_formats.md as they are sent: written forms, kept fields, views, notices,
statuses, fragments, the image's parts under its check code. -/

namespace Sys2Proof.Machine

/-! ### Fields -/

/-- One byte. -/
def b1 (v : Nat) : List Byte := beBytes 1 v

def b2 (v : Nat) : List Byte := beBytes 2 v

def b3 (v : Nat) : List Byte := beBytes 3 v

/-- n bytes of FFH. -/
def ffs (n : Nat) : List Byte := List.replicate n 0xFF#8

/-- A one-byte index, code, state, step or permit; FFH for none (R176). -/
def opt1 (v : Option Nat) : List Byte :=
  match v with
  | none => ffs 1
  | some v => b1 v

/-- A minute or stamp; FFFFH for none (R176). -/
def opt2 (v : Option Nat) : List Byte :=
  match v with
  | none => ffs 2
  | some v => b2 v

/-- A position, FFFFFFH when absent; a frame number that may be none, in the two low bytes (12_formats.md). -/
def opt3 (v : Option Nat) : List Byte :=
  match v with
  | none => ffs 3
  | some v => b3 v

/-- A flags byte: the flags named from bit 0 up (12_formats.md). -/
def flagsByte (fs : List Bool) : List Byte := b1 (fs.foldr (fun f n => f.toNat + 2 * n) 0)

def flag (f : Bool) : List Byte := b1 f.toNat

/-- A list of n places: FFH in the places left over (12_formats.md). -/
def listBytes (n : Nat) (l : List Nat) : List Byte := ((l ++ List.replicate n 255).take n).flatMap b1

def levelsBytes (l : Levels) : List Byte := b1 l.l0 ++ b1 l.l1 ++ b1 l.l2 ++ b1 l.l3

/-- A record in its written form, the empty value when it is empty (R176; log 13). -/
def orEmpty {α : Type} (n : Nat) (f : α → List Byte) (r : Option α) : List Byte :=
  match r with
  | none => ffs n
  | some x => f x

/-! ### Written forms (12_formats.md, Table entries) -/

def siteForm (x : Site) : List Byte :=
  listBytes 2 x.privileged ++ b2 x.budget ++ opt1 x.weather ++ opt1 x.level ++ opt1 x.supply ++ b2 x.dusk ++ b2 x.dawn
    ++ b1 x.staleLimit ++ b1 x.dropLimit

def slotForm (p : Placement) : List Byte := b1 p.slot ++ b1 p.divisor ++ b1 p.phase ++ b1 p.node

def nodeForm (x : NodeIdent) : List Byte := b1 x.address ++ beBytes 4 x.serial.toNat ++ b1 x.kind.number

def joinerForm (j : Joiner) : List Byte := beBytes 4 j.serial.toNat ++ b1 j.kind ++ b2 j.first ++ b2 j.latest

def loopForm (l : LoopRec) : List Byte :=
  b1 l.n1 ++ b2 l.tolerance ++ b2 l.jump ++ b2 l.body ++ b3 l.dock ++ flagsByte [l.dockPreset, l.persist, l.verify]
    ++ b3 l.spacing ++ b2 l.spacingTol

def mowerForm (node : Option Nat) (loop : Nat) : List Byte := opt1 node ++ b1 loop

def zoneForm (z : ZoneRec) : List Byte :=
  b1 z.kind.number ++ b1 z.loop ++ b3 z.first ++ b3 z.last ++ b2 z.lookahead ++ flagsByte [z.assume]
    ++ b1 z.activeWhen.number ++ b1 z.filter ++ b1 z.showIx ++ listBytes 4 z.channels ++ b1 z.cap ++ listBytes 4 z.groups

def channelForm (r : ChannelRec) : List Byte :=
  b1 r.kind.number ++ opt1 r.node ++ b1 r.minLevel ++ b1 r.maxLevel ++ b1 r.day ++ b1 r.night ++ b2 r.nightStart
    ++ b2 r.nightEnd ++ b2 r.clog ++ b2 r.clear ++ flagsByte [r.auto] ++ b1 r.valve ++ b1 r.backwash ++ b1 r.rinse
    ++ b2 r.stopFrames ++ b2 r.washFrames ++ b2 r.rinseFrames ++ b1 r.discharge

def showForm (r : ShowRec) : List Byte :=
  listBytes 4 r.channels ++ b1 r.first ++ b2 r.loopCount ++ opt2 r.startMin ++ opt2 r.stopMin

def stepForm (t : Step) : List Byte := levelsBytes t.levels ++ b2 t.duration ++ opt1 t.next

def lightForm (r : LightRec) : List Byte :=
  opt1 r.node ++ b1 r.mode.number ++ b1 r.onLevel ++ b1 r.lateLevel ++ b2 r.lateMin ++ b2 r.offMin ++ b1 r.presLevel
    ++ b2 r.presHold ++ listBytes 2 r.motion ++ b1 (r.upInt * 16 + r.upFrac) ++ b1 (r.downInt * 16 + r.downFrac)

def loadForm (cls minDraw fullDraw : Nat) (node : Option Nat) : List Byte :=
  b1 cls ++ b2 minDraw ++ b2 fullDraw ++ opt1 node

/-! ### Numbers of states (12_formats.md: in the order their rules list them, from 0) -/

def NodeState.number : NodeState → Nat
  | .empty => 0
  | .provisioned => 1
  | .active => 2
  | .stale => 3
  | .dropped => 4

def MowerState.number : MowerState → Nat
  | .unused => 0
  | .unreferenced => 1
  | .acquiring => 2
  | .tracked => 3
  | .slipping => 4
  | .lost => 5
  | .stale => 6

def Permit.number : Permit → Nat
  | .mow => 0
  | .slow => 1
  | .dock => 2
  | .hold => 3

def ChannelState.number : ChannelState → Nat
  | .off => 0
  | .fault => 1
  | .held => 2
  | .backwash => 3
  | .running => 4

def Stage.number : Stage → Nat
  | .idle => 0
  | .requested => 1
  | .stopping => 2
  | .reversing => 3
  | .washing => 4
  | .rinsing => 5
  | .restoring => 6
  | .aborting => 7

def ShowState.number : ShowState → Nat
  | .idle => 0
  | .playing => 1
  | .paused => 2

def Evening.number : Evening → Nat
  | .early => 0
  | .late => 1
  | .done => 2

def Presence.number : Presence → Nat
  | .inactive => 0
  | .active => 1
  | .holding => 2

def ShedCause.number : ShedCause → Nat
  | .overrun => 0
  | .foldback => 1

def Status.number : Status → Nat
  | .done => 0
  | .doneClamped => 1
  | .accepted => 2
  | .busy => 3
  | .noSuchTable => 4
  | .outOfRange => 5
  | .conflict => 6
  | .wrongState => 7
  | .notPermitted => 8
  | .noReply => 9
  | .malformed => 10

/-- Notice kinds, 1 to 20 (12_formats.md). -/
def NoticeKind.number : NoticeKind → Nat
  | .nodeJoined => 1
  | .joinRefused => 2
  | .unknownJoiner => 3
  | .mowerLost => 4
  | .mowerStuck => 5
  | .referenceMismatch => 6
  | .keepoutEntry => 7
  | .pumpFault => 8
  | .pondLow => 9
  | .levelUnknown => 10
  | .filterClogged => 11
  | .backwashDone => 12
  | .backwashAborted => 13
  | .valveJammed => 14
  | .lampFault => 15
  | .overloadShed => 16
  | .queueOverrun => 17
  | .storeDone => 18
  | .storeFailed => 19
  | .storeInvalid => 20

def noticeBytes (n : Notice) : List Byte :=
  b1 n.kind.number ++ opt1 n.subject ++ opt2 n.minute ++ b2 n.frame ++ b2 n.detail

/-! ### Kept fields and views -/

/-- The pending mark of a slot-map entry: its next value differs from its active value (Placements and the slot
map). -/
def pendingMark (s : State) (i : Nat) : Bool := s.line.next.getD i none != s.line.active.getD i none

def nodeKept (n : Node) : List Byte :=
  b1 n.state.number ++ flagsByte [n.answerPending] ++ opt1 n.code ++ opt1 n.cand ++ b1 n.missed ++ b2 n.noise
    ++ b2 n.checkErr ++ b2 n.rejoin ++ beBytes 4 (n.sample.getD 0#32).toNat ++ opt3 n.lastFrame

def showKept (p : Player) : List Byte :=
  b1 p.state.number ++ opt1 p.step ++ levelsBytes p.levels ++ opt1 p.next ++ b2 p.remaining ++ b2 p.loopsDone

def changeBytes (c : Change) : List Byte := opt1 c.old ++ b1 c.new ++ b2 c.frame

def mowerView (s : State) (i : Nat) : List Byte :=
  let m := mowerAt s i
  mowerForm m.node m.loop ++ b1 m.state.number
    ++ flagsByte
        [m.offsetValid, m.unsaved, m.positionValid, m.locked, m.verified, m.dir == .backward, m.acquire == 1]
    ++ b3 m.offset ++ opt3 m.raw ++ opt3 m.computed ++ b3 m.reported ++ opt3 m.lastFrame ++ b1 m.slip ++ opt3 m.capA
    ++ opt3 m.capB ++ b1 m.debounce ++ b2 m.slips ++ b2 m.missedMarkers ++ b2 m.mismatches
    ++ opt1 ((s.zone.permits.getD i none).map Permit.number)

def zoneView (s : State) (z : Nat) : List Byte :=
  let bits := fun (sets : List (List Nat)) => flagsByte ((List.range 4).map (fun m => (sets.getD m []).contains z))
  b1 (s.zone.counts.getD z 0) ++ flagsByte [zoneActive s z] ++ bits s.zone.occ ++ bits s.zone.keep

/-- The byte of a cap, a free value when it does not hold (log 14). -/
def capByte (v : Option Nat) : List Byte :=
  match v with
  | none => [Config.noCapByte]
  | some v => b1 v

/-- CHANNEL_STATE. A cap the Zone Monitor hands to a channel that is no FOUNTAIN is kept and not applied (R94): it is
shown as one that does not hold (log 41). -/
def channelView (s : State) (i : Nat) : List Byte :=
  let c := channelAt s i
  let spray := c.cfg.bind (sprayCapHolds s i)
  let grant := if c.cfg.isSome && !(c.kindIs .valve) then some (grantCap s i) else none
  b1 c.state.number
    ++ flagsByte
        [c.latch, c.clogged, spray.isSome, c.cfg.any (rainCapHolds s), c.cfg.any (pondCapHolds s), dischargeActive s i]
    ++ b1 c.requested ++ capByte spray ++ capByte grant ++ b1 c.output ++ b1 c.reqLevel ++ b2 c.reqDraw
    ++ b2 (loadAt s i).grant ++ b2 c.smoothed ++ b1 c.stage.number ++ b2 c.timer ++ b1 c.cause ++ b2 c.count

def lightView (s : State) (i : Nat) : List Byte :=
  let g := groupAt s i
  flagsByte [g.online, g.dark, s.zone.presence.getD i false] ++ b1 g.evening.number ++ b1 g.presence.number ++ b2 g.hold
    ++ b1 g.scheduled ++ b1 g.target ++ b1 g.aim ++ b1 g.current ++ b1 g.acc ++ b2 g.reqDraw
    ++ b2 (loadAt s (8 + i)).grant ++ b1 g.cap

def grantsView (s : State) (i : Nat) : List Byte :=
  if i < 28 then
    let l := loadAt s i
    b2 l.request ++ b2 l.grant ++ b1 (capLevel l.fullDraw l.grant)
  else
    b2 s.mgmt.site.budget ++ b2 s.power.remainder ++ flag s.power.shed
      ++ (match s.power.cause with
          | none => [Config.noShedCauseByte]
          | some c => b1 c.number)
      ++ b1 s.power.run ++ opt2 s.power.measured

def countersView (s : State) : List Byte :=
  b2 s.line.fragCount ++ b2 s.line.checkErrCount ++ b2 s.nodes.overflow ++ b2 s.mgmt.discarded ++ b2 s.mgmt.overrun
    ++ b2 s.mgmt.notPermitted ++ b2 s.store.busyCount

/-- An entry of a table or view as a WORKING read gives it; NODE_CHANGES is read in its own way (R156). -/
def workingEntry (s : State) (t : Table) (i : Nat) : List Byte :=
  match t with
  | .site => siteForm s.mgmt.site
  | .slotmap => orEmpty 4 slotForm (s.line.next.getD i none) ++ flagsByte [pendingMark s i]
  | .nodes => orEmpty 6 nodeForm (nodeAt s i).ident ++ nodeKept (nodeAt s i)
  | .joiners => orEmpty 9 joinerForm s.nodes.joiners[i]?
  | .nodeChanges => []
  | .loops => orEmpty 16 loopForm (s.pos.loops.getD i none)
  | .mowers => mowerForm (mowerAt s i).node (mowerAt s i).loop
  | .zones => orEmpty 23 zoneForm (zoneAt s i)
  | .channels => orEmpty 25 channelForm (channelAt s i).cfg
  | .shows => orEmpty 11 showForm (playerAt s i).cfg ++ showKept (playerAt s i)
  | .steps => stepForm (stepAt s i)
  | .lights => orEmpty 15 lightForm (groupAt s i).cfg
  | .loads => loadForm (loadAt s i).cls (loadAt s i).minDraw (loadAt s i).fullDraw (loadAt s i).node
  | .mowerState => mowerView s i
  | .zoneState => zoneView s i
  | .channelState => channelView s i
  | .lightState => lightView s i
  | .grants => grantsView s i
  | .counters => countersView s

/-- A mower's entry in the image, with its offset and offset valid (12_formats.md). -/
def mowerImageForm (m : MowerImage) : List Byte := mowerForm m.node m.loop ++ b3 m.offset ++ flag m.offsetValid

def loadImageForm (l : LoadImage) : List Byte := loadForm l.cls l.minDraw l.fullDraw l.node

/-- An entry of a table as a STORED read gives it (R156); nothing for what the image does not hold. -/
def storedEntry (x : Image) (t : Table) (i : Nat) : List Byte :=
  match t with
  | .site => siteForm x.tables.site ++ b2 x.saveCount
  | .slotmap => orEmpty 4 slotForm (x.tables.slots.getD i none)
  | .nodes => orEmpty 6 nodeForm (x.tables.nodes.getD i none)
  | .loops => orEmpty 16 loopForm (x.tables.loops.getD i none)
  | .mowers => orEmpty 6 mowerImageForm x.tables.mowers[i]?
  | .zones => orEmpty 23 zoneForm (x.tables.zones.getD i none)
  | .channels => orEmpty 25 channelForm (x.tables.channels.getD i none)
  | .shows => orEmpty 11 showForm (x.tables.shows.getD i none)
  | .steps => orEmpty 7 stepForm x.tables.steps[i]?
  | .lights => orEmpty 15 lightForm (x.tables.lights.getD i none)
  | .loads => orEmpty 6 loadImageForm x.tables.loads[i]?
  | .joiners | .nodeChanges | .mowerState | .zoneState | .channelState | .lightState | .grants | .counters => []

/-! ### The image's check code -/

/-- The tables of the image in the order R167 lists them, each entry in its written form (log 2). -/
def tablesBytes (t : Tables) : List Byte :=
  siteForm t.site ++ t.slots.flatMap (orEmpty 4 slotForm) ++ t.nodes.flatMap (orEmpty 6 nodeForm)
    ++ t.loops.flatMap (orEmpty 16 loopForm) ++ t.mowers.flatMap mowerImageForm
    ++ t.zones.flatMap (orEmpty 23 zoneForm) ++ t.channels.flatMap (orEmpty 25 channelForm)
    ++ t.shows.flatMap (orEmpty 11 showForm) ++ t.steps.flatMap stepForm ++ t.lights.flatMap (orEmpty 15 lightForm)
    ++ t.loads.flatMap loadImageForm

/-- The image's check code: the CRC-8 over every part of it, identity first (R175; log 2). -/
def imageCode (identity : List Byte) (mark : Bool) (t : Tables) (saveCount : Nat) : Byte :=
  crc8 (identity ++ [if mark then Config.markSetByte else Config.markClearByte] ++ tablesBytes t ++ b2 saveCount)

/-- The image with its check code written over the rest of it as it stands (R167). -/
def Image.sealed (x : Image) : Image :=
  { x with checkCode := imageCode x.identity x.mark x.tables x.saveCount }

/-- The identity matches, the validity mark is set and the check code passes (R167). -/
def Image.valid (x : Image) : Bool :=
  x.identity == Config.imageIdentity && x.mark && x.checkCode == imageCode x.identity x.mark x.tables x.saveCount

/-! ### Fragments -/

/-- A downstream fragment, without a check code of its own (12_formats.md, Fragments). -/
def Fragment.bytes (f : Fragment) : List Byte :=
  leadByte f.dest :: (b1 (f.number * 16 + f.index * 2 + f.last.toNat) ++ b1 (f.payload.length * 16) ++ f.payload)

/-- A message cut in order into fragments of 12 bytes, indices upward, the last flag on the final one; a message of
no bytes gives one empty fragment (R153, R160). -/
def cut (dest number : Nat) : Nat → Nat → List Byte → List Fragment
  | 0, _, _ => []
  | n + 1, index, bs =>
    if bs.length ≤ 12 then [{ dest := dest, number := number, index := index, last := true, payload := bs }]
    else
      { dest := dest, number := number, index := index, last := false, payload := bs.take 12 }
        :: cut dest number n (index + 1) (bs.drop 12)

/-- At most 8 fragments, of a message of at most 96 bytes (R153). -/
def fragments (dest number : Nat) (bs : List Byte) : List Fragment := cut dest number 8 0 (bs.take 96)

/-- The JOIN ANSWER as one fragment, addressed to 63, with message number 0 (12_formats.md). -/
def JoinAnswer.fragment (a : JoinAnswer) : Fragment :=
  { dest := 63, number := 0, index := 0, last := true
    payload := b1 33 ++ beBytes 4 a.serial.toNat ++ b1 (a.address.getD 0) }

end Sys2Proof.Machine
end

