-- ==== Sys2Proof/Machine/Store.lean ====
section
/-! DEFINITION. The Table Store (chapter 11): saving, completion, a write cut off, loading, start-up. -/

namespace Sys2Proof.Machine

/-! ### Saving -/

/-- The working tables named in R167, as they stand; the slot map as the next map. -/
def workingTables (s : State) : Tables :=
  { site := s.mgmt.site
    slots := s.line.next
    nodes := s.nodes.recs.map Node.ident
    loops := s.pos.loops
    mowers := s.pos.mowers.map
      (fun m => { node := m.node, loop := m.loop, offset := m.offset, offsetValid := m.offsetValid })
    zones := s.zone.zones
    channels := s.water.channels.map Channel.cfg
    shows := s.water.shows.map Player.cfg
    steps := s.water.steps
    lights := s.light.map LightGroup.cfg
    loads := s.power.loads.map
      (fun l => { cls := l.cls, minDraw := l.minDraw, fullDraw := l.fullDraw, node := l.node }) }

/-- The store copies the working tables with the save count it will hold, and becomes WRITING (R169). -/
def beginSave (s : State) : State :=
  beginWrite (.save (workingTables s) (inc16 s.store.image.saveCount)) s

/-- A request refused with BUSY is counted (R170). -/
def countBusy (s : State) : State := { s with store := { s.store with busyCount := inc16 s.store.busyCount } }

/-! ### Completion -/

/-- The offsets a write has copied (R64, R169). -/
def StoreWrite.copied : StoreWrite → List (Nat × Bool)
  | .save copy _ => copy.mowers.map (fun m => (m.offset, m.offsetValid))
  | .offsets copy => copy

/-- A good completion clears offset unsaved where the offset still equals the copy (R65). -/
def clearUnsaved (copy : List (Nat × Bool)) (s : State) : State :=
  { s with
    pos :=
      { s.pos with
        mowers :=
          mapIx
            (fun i m => if copy[i]? = some (m.offset, m.offsetValid) then { m with unsaved := false } else m)
            0 s.pos.mowers } }

/-- A failed completion sets offset unsaved where the offset is valid and the loop persists it (R65). -/
def setUnsaved (s : State) : State :=
  { s with
    pos :=
      { s.pos with
        mowers :=
          s.pos.mowers.map
            (fun m => if m.offsetValid && (loopAt s m.loop).persist then { m with unsaved := true } else m) } }

/-- The image after a good SAVE TABLES (R168). -/
def savedImage (copy : Tables) (count : Nat) : Image :=
  Image.sealed { identity := Config.imageIdentity, mark := true, tables := copy, saveCount := count, checkCode := 0#8 }

/-- The image after a good offset write: the mark is set again only where the image was valid (R168). -/
def offsetImage (copy : List (Nat × Bool)) (valid : Bool) (x : Image) : Image :=
  Image.sealed
    { x with
      mark := valid
      tables :=
        { x.tables with
          mowers :=
            mapIx
              (fun i m => match copy[i]? with
                | some (offset, offsetValid) => { m with offset := offset, offsetValid := offsetValid }
                | none => m)
              0 x.tables.mowers } }

/-- The store's completion event (R65, R168). With no write in progress there is none (log 3). -/
def completeWrite (good : Bool) (s : State) : State :=
  match s.store.writing, good with
  | none, _ => s
  | some (.save copy count), true =>
    clearUnsaved (StoreWrite.save copy count).copied
      (post .storeDone none count
        { s with store := { s.store with image := savedImage copy count, imageValid := true, writing := none } })
  | some (.offsets copy), true =>
    clearUnsaved copy
      { s with
        store := { s.store with image := offsetImage copy s.store.imageValid s.store.image, writing := none } }
  | some w, false =>
    setUnsaved
      (post .storeFailed none
        (match w with
          | .save _ _ => 1
          | .offsets _ => 2)
        { s with
          store :=
            { s.store with
              image := { s.store.image with mark := false }, imageValid := false, writing := none } })

/-- A write cut off by a reset or by loss of supply ends without a completion event; its mark stays clear, and what
it had written of a save count is a free value (R167, R173; log 14, log 24). -/
def cutOff (s : State) : State :=
  match s.store.writing with
  | none => s
  | some (.offsets _) => { s with store := { s.store with writing := none } }
  | some (.save _ _) =>
    { s with
      store :=
        { s.store with
          writing := none
          image := { s.store.image with saveCount := (Config.freeDetail s.free).toNat } }
      free := s.free + 1 }

/-! ### Start-up -/

/-- A bound mower starts ACQUIRING or UNREFERENCED, an unbound one UNUSED (R55). -/
def startState (node : Option Nat) (offsetValid : Bool) : MowerState :=
  match node with
  | none => .unused
  | some _ => if offsetValid then .acquiring else .unreferenced

/-- Every block's tables filled and its power-on state taken (R173, steps 2 and 3). -/
def fillTables (t : Tables) (s : State) : State :=
  { State.reset with
    line := { State.reset.line with active := t.slots, next := t.slots }
    nodes := { State.reset.nodes with recs := t.nodes.map Node.provision }
    pos :=
      { loops := t.loops
        mowers :=
          t.mowers.map
            (fun m =>
              { Mower.blank with
                node := m.node, loop := m.loop, offset := m.offset, offsetValid := m.offsetValid
                state := startState m.node m.offsetValid }) }
    zone := { State.reset.zone with zones := t.zones }
    water :=
      { State.reset.water with
        channels := t.channels.map (fun r => { Channel.blank with cfg := r })
        shows := t.shows.map (fun r => { Player.blank with cfg := r })
        steps := t.steps }
    light := t.lights.map (fun r => { LightGroup.blank with cfg := r })
    power :=
      { State.reset.power with
        loads :=
          t.loads.map
            (fun l =>
              { cls := l.cls, minDraw := l.minDraw, fullDraw := l.fullDraw, node := l.node, request := 0, grant := 0 }) }
    mgmt := { State.reset.mgmt with site := t.site }
    notices := { list := [], overflow := 0 }
    store := { s.store with imageValid := s.store.image.valid, writing := none, busyCount := 0 }
    free := s.free
    pending := s.pending }

/-- STORE_INVALID, detail 1 if the identity did not match and 2 otherwise (R173, step 2). -/
def postInvalid (s : State) : State :=
  if s.store.imageValid then s
  else post .storeInvalid none (if s.store.image.identity = Config.imageIdentity then 2 else 1) s

/-- Start-up (R173). The line restart of its step 5 leaves the line in BREAK with a break count of 4, and its break
event changes nothing. -/
def startUp (s : State) : State :=
  settle (postInvalid (fillTables (if s.store.image.valid then s.store.image.tables else Tables.blank) s))

/-! ### Loading -/

/-- A line restart or a load moves a cycle (R121, R122). A REQUESTED cycle records the cause of the event, for a load
too (log 42). -/
def cycleBreak (cause i : Nat) (s : State) : State :=
  match (channelAt s i).stage with
  | .idle | .aborting => s
  | .requested =>
    post .backwashAborted (some i) cause (setChannel i (fun c => { c.idle with cause := cause }) s)
  | .stopping | .reversing | .washing | .rinsing | .restoring => setChannel i (Channel.abort cause) s

/-- Every cycle, in increasing channel index; a cycle made ABORTING here that ends at once does so when the event is settled,
after the notices posted here (log 34). -/
def cyclesBreak (cause : Nat) (s : State) : State := eachIx (cycleBreak cause) 8 s

/-- Every PLAYING or PAUSED show becomes IDLE (R172, step 2). -/
def haltShows (s : State) : State :=
  { s with water := { s.water with shows := s.water.shows.map Player.halt } }

/-- A record takes the image's address, serial and kind; one that keeps them keeps every other field (R35). -/
def Node.loadIdent (x : Option NodeIdent) (n : Node) : Node := if n.ident = x then n else Node.provision x

/-- Node records (R35; R172, step 4). -/
def loadNodes (t : Tables) (s : State) : State :=
  let moved :=
    eachIx
      (fun i u =>
        let new := (nodeAt u i).loadIdent (t.nodes.getD i none)
        reportToMowers i (nodeAt u i) new (setNode i (fun _ => new) u))
      48 s
  { moved with
    nodes :=
      { moved.nodes with
        joiners :=
          moved.nodes.joiners.filter
            (fun j => !(moved.nodes.recs.any (fun n => n.ident.any (fun x => x.serial == j.serial)))) } }

/-- A mower set as at power-on with the image's binding and offset, its counters kept (R55, R68; R172, step 5). -/
def Mower.load (x : MowerImage) (m : Mower) : Mower :=
  { Mower.blank with
    node := x.node, loop := x.loop, offset := x.offset, offsetValid := x.offsetValid
    state := startState x.node x.offsetValid
    slips := m.slips, missedMarkers := m.missedMarkers, mismatches := m.mismatches }

/-- Loops and mowers (R172, step 5). -/
def loadMowers (t : Tables) (s : State) : State :=
  { s with
    pos :=
      { loops := t.loops
        mowers :=
          mapIx
            (fun i m => match t.mowers[i]? with
              | some x => m.load x
              | none => m)
            0 s.pos.mowers } }

def loadZones (t : Tables) (s : State) : State := { s with zone := { s.zone with zones := t.zones } }

/-- A cycle whose channel is no longer of kind FILTER becomes IDLE with BACKWASH_ABORTED of detail 9 (R121). -/
def dropCycle (i : Nat) (s : State) : State :=
  if (channelAt s i).stage != .idle && !((channelAt s i).kindIs .filter) then
    post .backwashAborted (some i) 9 (setChannel i Channel.idle s)
  else s

/-- Channels, shows and steps (R172, step 7). -/
def loadWater (t : Tables) (s : State) : State :=
  let put :=
    { s with
      water :=
        { s.water with
          channels := mapIx (fun i c => c.rewrite (t.channels.getD i none)) 0 s.water.channels
          shows := mapIx (fun i (p : Player) => { p with cfg := t.shows.getD i none }) 0 s.water.shows
          steps := t.steps } }
  eachIx dropCycle 8 (eachIx formClogged 8 put)

/-- Light groups, as if each record had been written by an accepted write (R135; R172, step 8). -/
def loadLights (t : Tables) (s : State) : State :=
  { s with light := mapIx (fun i g => g.rewrite (t.lights.getD i none)) 0 s.light }

/-- The written fields of the loads (R172, step 9). -/
def loadLoads (t : Tables) (s : State) : State :=
  { s with
    power :=
      { s.power with
        loads :=
          mapIx
            (fun i (l : Load) => match t.loads[i]? with
              | some x => { l with cls := x.cls, minDraw := x.minDraw, fullDraw := x.fullDraw, node := x.node }
              | none => l)
            0 s.power.loads } }

/-- Step 9 of a load up to its one pass: every request handed in steps 1 to 8, formed with the full draws as they stood, is
taken with the loaded classes and minimum draws; the grants are delivered with the loaded full draws, so that a light
group's level above its new cap level falls here; and the test of R112 finds them. Only then do the owners form their
requests again (R133, R139, R142, R148, R172). The automatic requests of R109 are among those handed, and a dock load's
request is formed with its loaded node index and full draw (R141; log 16). -/
def loadPass (t : Tables) (s : State) : State :=
  formStarts (formGrants (loadLoads t (formLevels (formMonitors false s))))

/-- The image's slot-map entries in entry order as writes to the next map, every entry whose image value differs
having been made free first; an entry that would overlap is left free and counted (R9). -/
def loadSlots (image : List (Option Placement)) (next : List (Option Placement)) : List (Option Placement) × Nat :=
  let kept := mapIx (fun i p => if p = image.getD i none then p else none) 0 next
  (List.range 64).foldl
    (fun (x : List (Option Placement) × Nat) i =>
      match image.getD i none with
      | none => x
      | some p =>
        if x.1.getD i none = some p then x
        else if overlapsOther i p x.1 then (x.1, x.2 + 1)
        else (x.1.set i (some p), x.2))
    (kept, 0)

/-- An accepted load: the state after it and the count of slot-map entries left free (R171, R172). In step 1 the
BACKWASH_ABORTED of the REQUESTED cycles join before those of the cycles made ABORTING that find NORMAL_POS at once
(log 34). The mowers of step 5 are reported to the Zone Monitor with the zones of step 6: no set, count or presence flag is
formed on the old zone records between the two (R46, R76; the model's choice, log 56). The shed state is kept unless the loaded site record makes a supply node usable that holds FOLDBACK (R146, R159;
log 53). -/
def loadTables (t : Tables) (s : State) : State × Nat :=
  let s1 := settleDeferred (cyclesBreak 9 s)
  let s2 := settleDeferred (haltShows s1)
  let s3 := settleDeferred (replaceSite t.site s2)
  let s4 := settleDeferred (loadNodes t s3)
  let s5 := loadMowers t s4
  let s6 := settleDeferred (loadZones t s5)
  let s7 := settleDeferred (loadWater t s6)
  let s8 := settleDeferred (loadLights t s7)
  let s9 := settle (loadPass t s8)
  let x := loadSlots t.slots s9.line.next
  ({ s9 with line := { s9.line with next := x.1 } }, x.2)

end Sys2Proof.Machine
end

