-- ==== Sys2Proof/Machine/Responses.lean ====
section
/-! DEFINITION. The answers of the Management Unit: the response in progress, the status view, table reads, notices
taken, and the end of a FORWARD (chapter 10). -/

namespace Sys2Proof.Machine

/-! ### The response in progress -/

/-- The serial that a response to address 63 carries (R153). -/
def serialBytes (o : Origin) : List Byte := if o.address = 63 then beBytes 4 o.serial.toNat else []

/-- The bytes of a response: the kind echoed, the status, the serial for address 63, the body (12_formats.md). The
kind echoed for a message of no bytes is a free value (log 14). -/
def responseBytes (free : Nat) (r : Request) (st : Status) (body : List Byte) : List Byte :=
  [r.kind.getD (Config.freeByte free)] ++ b1 st.number ++ serialBytes r.origin ++ body

/-- The fragments of a response (R153). -/
def responseFragments (free : Nat) (r : Request) (st : Status) (body : List Byte) : List Fragment :=
  fragments r.origin.address r.origin.number (responseBytes free r st body)

/-- The response becomes the response in progress and the processor SENDING (R153). -/
def respond (r : Request) (st : Status) (body : List Byte) (s : State) : State :=
  { s with
    mgmt := { s.mgmt with proc := .sending (responseFragments s.free r st body) }
    free := s.free + 1 }

/-- An answer without a body. -/
def reply (r : Request) (st : Status) (s : State) : State := respond r st [] s

/-! ### FORWARD ends -/

/-- NO_REPLY ends a FORWARD (R161). -/
def endForward (f : Forwarding) (s : State) : State := reply f.request .noReply s

/-- The reply ends the wait: DONE with its payload, or MALFORMED above 80 bytes (R161). -/
def answerForward (f : Forwarding) (payload : List Byte) (s : State) : State :=
  if 80 < payload.length then reply f.request .malformed s else respond f.request .done payload s

/-! ### Status view -/

/-- The 17 bytes of READ STATUS (R165). -/
def statusView (s : State) : List Byte :=
  b2 s.line.frame
    ++ (match s.line.state with
        | .running => b1 0
        | .inBreak => b1 1)
    ++ b2 s.mgmt.clock.minute ++ flag s.mgmt.clock.valid ++ b1 s.mgmt.queue.length ++ flag s.mgmt.heldReq.isSome
    ++ b1 s.notices.list.length ++ b2 s.notices.overflow ++ flag s.store.writing.isSome ++ flag s.store.imageValid
    ++ flag s.power.shed ++ flag s.zone.dockAll ++ b1 (activeCount s) ++ flag (isOpen s)

/-! ### Table reads -/

/-- An entry with its tag: bit 7 the end marker, bits 6 to 0 the index (R176). -/
def tagged (last : Bool) (index : Nat) (bs : List Byte) : List Byte := b1 (index + if last then 128 else 0) ++ bs

/-- The tag alone of a read that returns no entries (R176). -/
def tagAlone (index : Nat) : List Byte := tagged true index []

/-- Entries from `first`: at most `count`, none beyond the table's end, only whole ones within `room` bytes. The
bytes, and the index after the last entry (R156). -/
def readRun (entry : Nat → List Byte) (size : Nat) : Nat → Nat → Nat → List Byte × Nat
  | 0, first, _ => ([], first)
  | count + 1, first, room =>
    if size ≤ first then ([], first)
    else
      let bs := tagged (first + 1 == size) first (entry first)
      if room < bs.length then ([], first)
      else
        let x := readRun entry size count (first + 1) (room - bs.length)
        (bs ++ x.1, x.2)

/-- The room a read response leaves for tagged entries: 96 bytes less kind, status, serial, space and table (R153,
R176). -/
def readRoom (o : Origin) : Nat := 92 - (serialBytes o).length

/-- The tagged changes of a record: its index on each, the end marker on the last. An empty list gives the tag alone,
with the index that R176 gives a response without entries, the table's size (log 37). -/
def taggedChanges (index : Nat) : List Change → List Byte
  | [] => tagAlone Table.nodeChanges.size
  | [c] => tagged true index (changeBytes c)
  | c :: d :: cs => tagged false index (changeBytes c) ++ taggedChanges index (d :: cs)

def setPointer (space table next : Nat) (s : State) : State :=
  { s with mgmt := { s.mgmt with readPtr := some { space := space, table := table, next := next } } }

/-- A read that passes its tests, from `first` with a count of at least 1 (R156, R157). -/
def readTable (r : Request) (space table first count : Nat) (t : Table) (st : Status) (s : State) : State :=
  let answer := fun (x : List Byte × Nat) (u : State) =>
    respond r st (b1 space ++ b1 table ++ x.1) (setPointer space table x.2 u)
  if first = t.size then answer (tagAlone t.size, t.size) s
  else if t = .nodeChanges then
    answer (taggedChanges first (nodeAt s first).changes, first + 1) (setNode first (fun n => { n with changes := [] }) s)
  else
    answer
      (readRun (if space = 1 then storedEntry s.store.image t else workingEntry s t) t.size count first (readRoom r.origin))
      s

/-- READ ENTRIES, and CONTINUE READ once its pointer is found (R155, R156). The space is judged before the table
(log 43), and a count above 1 for NODE_CHANGES, taken as 1, counts as no clamping (log 44). -/
def readEntries (r : Request) (space table first count : Nat) (s : State) : State :=
  if 1 < space then reply r .malformed s
  else
    match Table.ofNumber table with
    | none => reply r .noSuchTable s
    | some t =>
      if space = 1 ∧ t.inImage = false then reply r .noSuchTable s
      else if space = 1 ∧ s.store.writing.isSome = true then reply r .busy (countBusy s)
      else if space = 1 ∧ s.store.imageValid = false then reply r .wrongState s
      else if t.size < first then reply r .outOfRange s
      else readTable r space table first (max count 1) t (doneIf (count == 0)) s

/-- CONTINUE READ (R157). -/
def continueRead (r : Request) (count : Nat) (s : State) : State :=
  match s.mgmt.readPtr with
  | none => reply r .wrongState s
  | some p => readEntries r p.space p.table p.next count s

/-! ### Notices -/

/-- TAKE NOTICES: up to 4 notices from the head, the number left, the overflow count, which an empty list clears
(R164). -/
def takeNotices (r : Request) (s : State) : State :=
  let taken := s.notices.list.take 4
  let left := s.notices.list.drop 4
  let overflow := if s.notices.list.isEmpty then 0 else s.notices.overflow
  respond r .done (b1 left.length ++ b2 s.notices.overflow ++ taken.flatMap noticeBytes)
    { s with notices := { list := left, overflow := overflow } }

end Sys2Proof.Machine
end

