-- ==== Sys2Proof/Machine/Break.lean ====
section
/-! DEFINITION. The line restart: entry to BREAK and the line break event in every block (R15, R17 and the table of
chapter 11, Line restart across the blocks). -/

namespace Sys2Proof.Machine

/-- The line enters BREAK with a break count of 4, and the downstream management field holds no fragment until the
first header after it (R15, R17, R18). -/
def lineToBreak (s : State) : State :=
  { s with
    line :=
      { s.line with state := .inBreak, breakCount := some 4, restartDue := false, rx := none, field := [0x00#8] } }

/-- The line break event in the Management Unit: partial assemblies are discarded without count, the JOIN ANSWER list
is emptied, a FORWARD under way ends with NO_REPLY (R15, R154, R161, R166). -/
def mgmtBreak (s : State) : State :=
  let t := { s with mgmt := { s.mgmt with ctx1 := none, ctx2 := none, joinCtx := none, answers := [] } }
  match t.mgmt.proc with
  | .forwarding f _ => endForward f t
  | .waiting f _ => endForward f t
  | .idle | .sending _ => t

/-- The line restart begins: BREAK, and the break event in every block, the cycles being moved before the nodes leave
ACTIVE (R15, R34, R121; log 36). -/
def enterBreak (s : State) : State := settle (mgmtBreak (nodesBreak (cyclesBreak 8 (lineToBreak s))))

end Sys2Proof.Machine
end

