-- ==== Sys2Proof/Machine/Requests.lean ====
section
/-! DEFINITION. The request processor: what each request does when it is taken, the queue and its held position
(chapter 10 and the rules R165 names). -/

namespace Sys2Proof.Machine

/-! ### The clock -/

/-- Darkness and the evening phase it begins, formed again (R126, R127). -/
def formDark (s : State) : State :=
  { s with
    light :=
      s.light.map
        (fun g =>
          let dark := darkNow s (g.mode == .off)
          { g with dark := dark, evening := if dark && !g.dark then .early else g.evening }) }

/-- A change of the minute of day in the blocks that read it: darkness first, then the evening phases, then the
schedules of the shows (R93, R105, R126, R127; log 22). -/
def minuteChanged (s : State) : State :=
  let t := formDark s
  let minute := t.mgmt.clock.minute
  settle
    { t with
      light := t.light.map (LightGroup.judgeMinute minute)
      water := { t.water with shows := t.water.shows.map (Player.schedule t minute) } }

/-- SET CLOCK (R162). -/
def setClock (r : Request) (minute : Nat) (s : State) : State :=
  reply r (doneIf (decide (1439 < minute)))
    (minuteChanged
      { s with mgmt := { s.mgmt with clock := { minute := min minute 1439, valid := true, count := 0 } } })

/-! ### Requests of the other blocks -/

def saveRequest (r : Request) (s : State) : State :=
  if s.store.writing.isSome then reply r .busy (countBusy s) else reply r .accepted (beginSave s)

/-- LOAD TABLES (R170, R171). -/
def loadRequest (r : Request) (s : State) : State :=
  if s.store.writing.isSome then reply r .busy (countBusy s)
  else if !s.store.imageValid then reply r .wrongState s
  else
    let x := loadTables s.store.image.tables s
    respond r .done (b1 x.2) x.1

/-- PRESET POSITION (R66, R67). -/
def presetRequest (r : Request) (mower target : Nat) (s : State) : State :=
  if 3 < mower then reply r .outOfRange s
  else
    let m := mowerAt s mower
    let l := loopAt s m.loop
    match m.base with
    | none => reply r .wrongState s
    | some b =>
      let p := min target (l.length - 1)
      let t := settle (askOffsetWrite mower l (setMower mower (Mower.preset l.length b p) s))
      respond r (doneIf (p != target)) (b3 b ++ b3 (circSub l.length p b)) t

/-- RELEASE CAPTURE (R60). -/
def releaseRequest (r : Request) (mower : Nat) (s : State) : State :=
  if 3 < mower then reply r .outOfRange s else reply r .done (setMower mower Mower.release s)

/-- DOCK ALL and RESUME ALL: nothing changes if the flag already holds the value asked for (R83). -/
def dockAllRequest (r : Request) (on : Bool) (s : State) : State :=
  reply r .done (if s.zone.dockAll = on then s else settle { s with zone := { s.zone with dockAll := on } })

/-- START SHOW (R103). -/
def startShowRequest (r : Request) (ix : Nat) (s : State) : State :=
  if 3 < ix then reply r .outOfRange s
  else
    match (playerAt s ix).cfg with
    | none => reply r .outOfRange s
    | some x =>
      if (playerAt s ix).state != .idle then reply r .wrongState s
      else reply r .done (settle (setPlayer ix (Player.start s x) s))

/-- STOP SHOW (R104). -/
def stopShowRequest (r : Request) (ix : Nat) (s : State) : State :=
  if 3 < ix then reply r .outOfRange s
  else if (playerAt s ix).state = .idle then reply r .done s
  else reply r .done (settle (setPlayer ix Player.stop s))

/-- START BACKWASH (R119). -/
def startBackwashRequest (r : Request) (c : Nat) (s : State) : State :=
  if 7 < c then reply r .outOfRange s
  else
    match (channelAt s c).cfg with
    | none => reply r .outOfRange s
    | some x =>
      if x.kind != .filter || (channelAt s c).stage != .idle then reply r .wrongState s
      else reply r .accepted (settle (setChannel c (fun ch => { ch with stage := .requested, cause := 0 }) s))

/-- A cycle on STOP BACKWASH (R120). -/
def Channel.withdraw (c : Channel) : Channel :=
  match c.stage with
  | .requested => c.idle
  | .stopping | .reversing | .washing | .rinsing => c.abort 6
  | .idle | .restoring | .aborting => c

/-- STOP BACKWASH (R120). -/
def stopBackwashRequest (r : Request) (c : Nat) (s : State) : State :=
  if 7 < c then reply r .outOfRange s
  else
    match (channelAt s c).stage with
    | .idle | .restoring | .aborting => reply r .done s
    | .requested | .stopping | .reversing | .washing | .rinsing =>
      reply r .done (settle (setChannel c Channel.withdraw s))

/-- The channel's node is ACTIVE, of the expected kind, and holds the confirmed code OK or NORMAL_POS (R92). -/
def healthy (s : State) (c : Channel) : Bool :=
  match c.cfg with
  | none => false
  | some r => liveCode s r.node r.kind.nodeKind == some 0

/-- CLEAR FAULT (R92). -/
def clearFaultRequest (r : Request) (c : Nat) (s : State) : State :=
  if 7 < c then reply r .outOfRange s
  else if !(channelAt s c).latch then reply r .done s
  else if healthy s (channelAt s c) then
    reply r .done (settle (setChannel c (fun ch => { ch with latch := false }) s))
  else reply r .wrongState s

/-- RESTORE SUPPLY (R147). -/
def restoreRequest (r : Request) (s : State) : State :=
  if !s.power.shed then reply r .done { s with power := { s.power with run := 0 } }
  else if foldback s then reply r .wrongState s
  else reply r .done (settle { s with power := { s.power with shed := false, cause := none, run := 0 } })

/-- A line restart is caused: the frame in progress is completed while the line is RUNNING, and a BREAK that counts
begins again (R15, R17). -/
def causeRestart (s : State) : State :=
  match s.line.state, s.line.breakCount with
  | .running, _ => { s with line := { s.line with restartDue := true } }
  | .inBreak, some _ => enterBreak s
  | .inBreak, none => s

/-- RESTART LINE: its DONE is held as the restart answer and the processor stays IDLE (R165). A second one in the frame
before the BREAK begins replaces the answer held, like one during the BREAK (log 47). -/
def restartRequest (r : Request) (s : State) : State :=
  causeRestart
    { s with
      mgmt := { s.mgmt with restartAnswer := (responseFragments s.free r .done []).head? }
      free := s.free + 1 }

/-- FORWARD (R160). -/
def forwardRequest (r : Request) (node : Nat) (payload : List Byte) (s : State) : State :=
  if 47 < node then reply r .outOfRange s
  else if 80 < payload.length then reply r .malformed s
  else
    match (nodeAt s node).ident with
    | none => reply r .wrongState s
    | some x =>
      if !(nodeAt s node).served then reply r .wrongState s
      else
        { s with
          mgmt :=
            { s.mgmt with
              proc :=
                .forwarding { request := r, target := x.address, reply := none, kept := none }
                  (fragments x.address r.origin.number payload) } }

/-- A WRITE ENTRIES whose entries are read: one status per entry and the overall status (R155). -/
def writeRequest (r : Request) (es : List EntryWrite) (s : State) : State :=
  let x := writeAll es s
  respond r (overall x.2) (x.2.flatMap (fun st => b1 st.number)) x.1

/-- WRITE ENTRIES (R158). The space is judged before the table (log 43). -/
def writeBytesRequest (r : Request) (space table first count : Nat) (bytes : List Byte) (s : State) : State :=
  if 1 < space then reply r .malformed s
  else
    match Table.ofNumber table with
    | none => reply r .noSuchTable s
    | some t =>
      if space = 1 then reply r .notPermitted s
      else
        match t.written with
        | none => reply r .notPermitted s
        | some len =>
          if bytes.length ≠ count * len then reply r .malformed s
          else writeRequest r (readWritten t len count first bytes) s

/-- A request is processed in the handling in which it is taken (R153). -/
def process (r : Request) (s : State) : State :=
  match r.body with
  | .readStatus => respond r .done (statusView s) s
  | .readEntries space table first count => readEntries r space table first count s
  | .continueRead count => continueRead r count s
  | .writeEntries space table first count bytes => writeBytesRequest r space table first count bytes s
  | .write es => writeRequest r es s
  | .takeNotices => takeNotices r s
  | .setClock minute => setClock r minute s
  | .saveTables => saveRequest r s
  | .loadTables => loadRequest r s
  | .presetPosition mower target => presetRequest r mower target s
  | .releaseCapture mower => releaseRequest r mower s
  | .dockAll => dockAllRequest r true s
  | .resumeAll => dockAllRequest r false s
  | .startShow ix => startShowRequest r ix s
  | .stopShow ix => stopShowRequest r ix s
  | .startBackwash c => startBackwashRequest r c s
  | .stopBackwash c => stopBackwashRequest r c s
  | .clearFault c => clearFaultRequest r c s
  | .restoreSupply => restoreRequest r s
  | .restartLine => restartRequest r s
  | .forward node payload => forwardRequest r node payload s
  | .refusal => reply r .notPermitted s
  | .malformed => reply r .malformed s

/-! ### The queue -/

/-- A request is placed: at the tail of the queue, in the held position, or in place of the held request, which is
lost with QUEUE_OVERRUN (R152). -/
def place (r : Request) (s : State) : State :=
  if s.mgmt.queue.length < 4 then { s with mgmt := { s.mgmt with queue := s.mgmt.queue ++ [r] } }
  else
    match s.mgmt.heldReq with
    | none => { s with mgmt := { s.mgmt with heldReq := some r } }
    | some lost =>
      post .queueOverrun (some lost.origin.address) lost.origin.number
        { s with mgmt := { s.mgmt with heldReq := some r, overrun := inc16 s.mgmt.overrun } }

/-- The oldest request is taken and the held one joins the tail (R152). -/
def takeOldest (q : List Request) (s : State) : State :=
  { s with mgmt := { s.mgmt with queue := q ++ s.mgmt.heldReq.toList, heldReq := none } }

/-- In IDLE the processor takes the oldest request and processes it, and the next while it stays IDLE (R153). The
queue and the held position hold at most 5. -/
def serveUpTo : Nat → State → State
  | 0, s => s
  | n + 1, s =>
    match s.mgmt.proc, s.mgmt.queue with
    | .idle, r :: q => serveUpTo n (process r (takeOldest q s))
    | _, _ => s

def serve (s : State) : State := serveUpTo 6 s

/-- A completed request reaches the Management Unit (R152, R153). -/
def arrive (r : Request) (s : State) : State := serve (place r s)

end Sys2Proof.Machine
end

