-- ==== Sys2Proof/Machine/Assembly.lean ====
section
/-! DEFINITION. Fragments received in the management slots: routing, assembly, completed messages (R149, R150, R151)
and the arbitration that picks the winner (R12). -/

namespace Sys2Proof.Machine

/-! ### Arbitration -/

/-- The pair of address and serial, read together as one 38-bit number (R12). -/
def bidPair (b : Bid) : Nat := b.address % 64 * 2 ^ 32 + b.serial.toNat

/-- The winner's pair: the lowest (R12). -/
def winningPair (bids : List Bid) : Option Nat := lowest (bids.map bidPair)

/-- The arbitration field sampled while several winners drive it: a zero on the line is dominant (log 17). -/
def bothBid (x y : PairSampled) : PairSampled := ⟨x.a &&& y.a, x.b &&& y.b, x.c &&& y.c⟩

/-- The pair received: the majority of the samples of the field as it stands on the line (R10, R12). -/
def receivedPair (winners : List Bid) : BitVec 38 :=
  PairSampled.value
    ((winners.map Bid.arbitration).foldl bothBid ⟨BitVec.allOnes 38, BitVec.allOnes 38, BitVec.allOnes 38⟩)

/-- A byte sampled while several bidders drive it: a zero on the line is dominant (Management slots; log 17). -/
def bothDrive (x y : Sampled) : Sampled := ⟨x.a &&& y.a, x.b &&& y.b, x.c &&& y.c⟩

/-- Two fragments driven together, byte by byte; the shorter leaves the line released after its end (log 17). -/
def driveTogether : List Sampled → List Sampled → List Sampled
  | [], ys => ys
  | xs, [] => xs
  | x :: xs, y :: ys => bothDrive x y :: driveTogether xs ys

/-- What the DV4 receives in a management slot: the address and serial its samples of the arbitration field give, and
the fragment as it stands on the line (R10, R12, R13). -/
structure Won where
  address : Nat
  serial : Serial
  half : List Sampled
  deriving DecidableEq, Repr

/-- The bidders left in the slot once the arbitration field has ended: those with the lowest pair (R12). -/
def winners (bids : List Bid) : List Bid :=
  match winningPair bids with
  | none => []
  | some p => bids.filter (fun b => bidPair b == p)

def contend (bids : List Bid) : Option Won :=
  if bids.isEmpty then none
  else
    some
      { address := (receivedPair (winners bids)).toNat / 2 ^ 32
        serial := (receivedPair (winners bids)).setWidth 32
        half := ((winners bids).map Bid.fragment).foldl driveTogether [] }

/-! ### Assembly -/

/-- A fragment as handed to the Management Unit (R149). -/
structure Handed where
  address : Nat
  serial : Serial
  frag : UpFragment
  deriving DecidableEq, Repr

/-- A context after a fragment: its assembly, how many discards to count, and the message completed with whether it
was a single fragment. -/
structure Assembled where
  ctx : Option Assembly
  counted : Nat
  message : Option (List Byte × Bool)
  deriving DecidableEq, Repr

/-- Steps 4 and 5 of R150 on an assembly that has just taken a fragment. -/
def closeAssembly (f : UpFragment) (counted : Nat) (a : Assembly) : Assembled :=
  if f.last then { ctx := none, counted := counted, message := some (a.payload, f.index == 0) }
  else if f.index = 7 then { ctx := none, counted := counted + 1, message := none }
  else { ctx := some a, counted := counted, message := none }

/-- The fragment fits the context (R150, step 3). -/
def fits (h : Handed) (a : Assembly) : Bool :=
  a.address == h.address && a.serial == h.serial && a.number == h.frag.number && a.next == h.frag.index

/-- A fragment routed to a context (R150). -/
def assemble (openState : Bool) (h : Handed) (ctx : Option Assembly) : Assembled :=
  if 12 < h.frag.length then { ctx := ctx, counted := 1, message := none }
  else if h.frag.index = 0 then
    closeAssembly h.frag (if ctx.isSome then 1 else 0)
      { address := h.address, serial := h.serial, number := h.frag.number, next := 1, payload := h.frag.payload }
  else
    match ctx with
    | none => { ctx := none, counted := 1, message := none }
    | some a =>
      if fits h a then
        closeAssembly h.frag 0 { a with next := a.next + 1, payload := a.payload ++ h.frag.payload }
      else if openState && !(a.address == h.address && a.serial == h.serial) then
        { ctx := some a, counted := 1, message := none }
      else { ctx := none, counted := 1, message := none }

/-- A saturating counter counts n times. -/
def incBy : Nat → Nat → Nat
  | 0, c => c
  | n + 1, c => incBy n (inc16 c)

def countDiscards (n : Nat) (s : State) : State :=
  { s with mgmt := { s.mgmt with discarded := incBy n s.mgmt.discarded } }

def Handed.origin (h : Handed) : Origin := { address := h.address, serial := h.serial, number := h.frag.number }

/-! ### Messages -/

/-- A sender without privilege: a whole READ STATUS joins the queue, anything else joins it as a refusal that is
counted (R151). The not-permitted count increments here, as the refusal arrives at the queue and not when it is answered,
so that a refusal the queue drops is counted too (the model's choice, log 50). -/
def unprivileged (o : Origin) (whole : Bool) (message : List Byte) (s : State) : State :=
  if whole && message == b1 1 then arrive (readRequest o message) s
  else
    arrive { origin := o, kind := message.head?, body := .refusal }
      { s with mgmt := { s.mgmt with notPermitted := inc16 s.mgmt.notPermitted } }

/-- A message completed in the join context (R150). -/
def joinMessage (h : Handed) (single : Bool) (message : List Byte) (s : State) : State :=
  match readJoin message with
  | some kind => joinNode h.serial kind s
  | none =>
    if isOpen s then arrive (readRequest h.origin message) s else unprivileged h.origin single message s

/-- A fragment for context 1 (R150). -/
def toFirst (h : Handed) (s : State) : State :=
  let x := assemble (isOpen s) h s.mgmt.ctx1
  let t := countDiscards x.counted { s with mgmt := { s.mgmt with ctx1 := x.ctx } }
  match x.message with
  | none => t
  | some (message, _) => arrive (readRequest h.origin message) t

/-- A fragment for context 2 (R150). -/
def toSecond (h : Handed) (s : State) : State :=
  let x := assemble (isOpen s) h s.mgmt.ctx2
  let t := countDiscards x.counted { s with mgmt := { s.mgmt with ctx2 := x.ctx } }
  match x.message with
  | none => t
  | some (message, _) => arrive (readRequest h.origin message) t

/-- A fragment for the join context (R150). -/
def toJoin (h : Handed) (s : State) : State :=
  let x := assemble (isOpen s) h s.mgmt.joinCtx
  let t := countDiscards x.counted { s with mgmt := { s.mgmt with joinCtx := x.ctx } }
  match x.message with
  | none => t
  | some (message, single) => joinMessage h single message t

/-- A fragment for the reply assembly of a FORWARD that is still sending: a reply that completes is kept, the first
one if several do (R160; log 21). -/
def toReplyEarly (h : Handed) (f : Forwarding) (frags : List Fragment) (s : State) : State :=
  let x := assemble false h f.reply
  let kept := match f.kept with
    | some m => some m
    | none => x.message.map Prod.fst
  countDiscards x.counted
    { s with mgmt := { s.mgmt with proc := .forwarding { f with reply := x.ctx, kept := kept } frags } }

/-- A fragment for the reply assembly of a FORWARD that waits: a reply that completes ends the wait (R161). -/
def toReply (h : Handed) (f : Forwarding) (timer : Nat) (s : State) : State :=
  let x := assemble false h f.reply
  let t := countDiscards x.counted { s with mgmt := { s.mgmt with proc := .waiting { f with reply := x.ctx } timer } }
  match x.message with
  | none => t
  | some (message, _) => answerForward f message t

/-- The route of a fragment by its sender's address when no FORWARD claims it (R149). A fragment of index 0 from a sender
without privilege is judged by R151 whatever its payload length: above 12 it is a refusal, not a discard of R150 (the
model's choice, log 55). -/
def routeBySender (h : Handed) (s : State) : State :=
  if h.address = 63 then toJoin h s
  else if h.address = 0 then s
  else if isOpen s then toFirst h s
  else if servedFirst s.mgmt.site.privileged = some h.address then toFirst h s
  else if servedSecond s.mgmt.site.privileged = some h.address then toSecond h s
  else if h.frag.index = 0 then unprivileged h.origin h.frag.last h.frag.payload s
  else s

/-- The Management Unit takes a fragment (R149). -/
def route (h : Handed) (s : State) : State :=
  match s.mgmt.proc with
  | .forwarding f frags => if f.target = h.address then toReplyEarly h f frags s else routeBySender h s
  | .waiting f timer => if f.target = h.address then toReply h f timer s else routeBySender h s
  | .idle | .sending _ => routeBySender h s

end Sys2Proof.Machine
end

