-- ==== Sys2Proof/Machine/LineUnit.lean ====
section
/-! DEFINITION. The Line Unit (chapter 1): the header and its fragment, the frame event, node slots, management
slots. -/

namespace Sys2Proof.Machine

/-! ### The header -/

/-- What the Management Unit offers for a header (R154). -/
inductive Offer where
  | restart (f : Fragment)
  | outgoing (f : Fragment)
  | answer (a : JoinAnswer)
  | nothing
  deriving DecidableEq, Repr

/-- The fragments of the processor's outgoing message (R154). -/
def Processor.outgoing : Processor → List Fragment
  | .idle => []
  | .sending frags => frags
  | .forwarding _ frags => frags
  | .waiting _ _ => []

/-- The first that exists (R154). -/
def offer (s : State) : Offer :=
  match s.mgmt.restartAnswer, s.mgmt.proc.outgoing, s.mgmt.answers with
  | some f, _, _ => .restart f
  | none, f :: _, _ => .outgoing f
  | none, [], a :: _ => .answer a
  | none, [], [] => .nothing

/-- The downstream management field: one fragment, or the empty marker (R3, R174). -/
def Offer.field : Offer → List Byte
  | .restart f => f.bytes
  | .outgoing f => f.bytes
  | .answer a => a.fragment.bytes
  | .nothing => [0x00#8]

/-- The header of frame n (R2; 12_formats.md, The header). -/
def headerBytes (n : Nat) (attention : Bool) (field : List Byte) : List Byte :=
  let head := leadByte 0 :: (b2 n ++ b1 (attention.toNat * 128 + n % 8) ++ field)
  head ++ [crc8 head]

/-- The header is formed and sent in slot 0 (R2, R3). -/
def sendHeader (s : State) : State :=
  { s with
    line :=
      { s.line with
        attention := attentionNow s
        field := (offer s).field
        header := headerBytes s.line.frame (attentionNow s) (offer s).field } }

/-- The last payload fragment of a FORWARD has gone: the wait begins, and a reply kept ends it at once (R160). -/
def beginWait (f : Forwarding) (s : State) : State :=
  match f.kept with
  | some payload => answerForward f payload s
  | none => { s with mgmt := { s.mgmt with proc := .waiting f 25 } }

/-- A fragment of the processor's outgoing message has gone (R153, R160). -/
def outgoingGone (s : State) : State :=
  match s.mgmt.proc with
  | .sending (_ :: f :: fs) => { s with mgmt := { s.mgmt with proc := .sending (f :: fs) } }
  | .sending _ => serve { s with mgmt := { s.mgmt with proc := .idle } }
  | .forwarding x (_ :: f :: fs) => { s with mgmt := { s.mgmt with proc := .forwarding x (f :: fs) } }
  | .forwarding x _ => beginWait x s
  | .idle | .waiting _ _ => s

/-- The Line Unit reports that the header's fragment has gone (R3, R154). -/
def fragmentGone (o : Offer) (s : State) : State :=
  match o with
  | .restart _ => { s with mgmt := { s.mgmt with restartAnswer := none } }
  | .outgoing _ => outgoingGone s
  | .answer a => answerGone a.serial s
  | .nothing => s

/-! ### The frame event -/

/-- Debounce timers, show players, stage timers, hold timers (R61, R102, R110, R129; their order is log 12). -/
def frameTimers (s : State) : State :=
  let s1 := { s with pos := { s.pos with mowers := s.pos.mowers.map Mower.debounceFrame } }
  let s2 := { s1 with water := { s1.water with shows := s1.water.shows.map (Player.frame s1) } }
  let s3 := eachIx stageFrame 8 s2
  { s3 with light := s3.light.map LightGroup.holdFrame }

/-- Every group's ramp step (R131). -/
def rampAll (s : State) : State := { s with light := s.light.map LightGroup.ramp }

/-- The forward timer decreases by one; at 0 the wait ends with NO_REPLY (R160, R161). -/
def forwardFrame (s : State) : State :=
  match s.mgmt.proc with
  | .waiting f timer =>
    if timer ≤ 1 then endForward f s else { s with mgmt := { s.mgmt with proc := .waiting f (timer - 1) } }
  | .idle | .sending _ | .forwarding _ _ => s

/-- The minute of day advances (R162). -/
def advanceMinute (s : State) : State :=
  minuteChanged
    { s with
      mgmt := { s.mgmt with clock := { s.mgmt.clock with minute := (s.mgmt.clock.minute + 1) % 1440, count := 0 } } }

/-- A frame event of the clock (R162). -/
def clockFrame (s : State) : State :=
  if !s.mgmt.clock.valid then s
  else if 2999 ≤ s.mgmt.clock.count then advanceMinute s
  else { s with mgmt := { s.mgmt with clock := { s.mgmt.clock with count := s.mgmt.clock.count + 1 } } }

/-- The frame event in every block (R1; log 12). The keepout sets are formed after all timers have moved, so that a
KEEPOUT zone whose one cause of activity ends on the frame while another begins neither leaves a set nor joins it anew
(R77, R78; the order of the two reports is the model's choice, log 49). A hold timer that runs out lowers the target, and the
ramp step and the caps move the level in this event, though a source may begin later in the frame (R129, R131, R133;
log 52). -/
def frameEvent (s : State) : State := clockFrame (forwardFrame (rampAll (settle (frameTimers s))))

/-! ### Frames -/

/-- At a superframe start every pending change is applied to the active slot map (R9). -/
def applyPending (s : State) : State :=
  if s.line.frame % 8 = 0 then { s with line := { s.line with active := s.line.next } } else s

/-- The mark of the frame whose header carried a JOIN ANSWER ends with the frame (R23). -/
def forgetAnswered (s : State) : State :=
  { s with nodes := { s.nodes with recs := s.nodes.recs.map (fun n => { n with answeredNow := false }) } }

/-- A frame of number n begins: the pending list at a superframe start, the header, the frame event, the fragment gone
(R1, R2, R3, R9). -/
def beginFrame (n : Nat) (s : State) : State :=
  let s1 :=
    sendHeader
      (applyPending
        (forgetAnswered
          { s with line := { s.line with frame := n, state := .running, breakCount := none, rx := none, down := none } }))
  fragmentGone (offer s1) (frameEvent s1)

/-- The end of a 20 ms frame period (R1, R15, R16; log 4). -/
def framePeriod (s : State) : State :=
  match s.line.state, s.line.breakCount with
  | .running, _ => if s.line.restartDue then enterBreak s else beginFrame ((s.line.frame + 1) % 65536) s
  | .inBreak, none => s
  | .inBreak, some n =>
    if n ≤ 1 then beginFrame 0 s else { s with line := { s.line with breakCount := some (n - 1) } }

/-! ### Node slots -/

/-- A placement applies in a frame (R6). -/
def Placement.applies (frame : Nat) (p : Placement) : Bool := frame % p.divisor == p.phase

/-- The placement of the active slot map that applies to a slot in the frame (R4). -/
def placementFor (slot : Nat) (s : State) : Option Placement :=
  (s.line.active.filterMap id).find? (fun p => p.slot == slot && p.applies s.line.frame)

/-- The command position of a permit in the order HOLD, DOCK, SLOW, MOW: the more restrictive is the greater (R85). -/
def stricter (p q : Permit) : Permit := if p.number < q.number then q else p

/-- The permit sent to MOWER node n: the most restrictive of the mower records that name it, HOLD when none does
(R85). -/
def permitFor (n : Nat) (s : State) : Permit :=
  let named := (List.range 4).filterMap
    (fun i => if (mowerAt s i).node = some n then s.zone.permits.getD i none else none)
  match named with
  | [] => .hold
  | p :: ps => ps.foldl stricter p

/-- The lowest of a list of levels, 0 when there is none. -/
def lowestOr0 (l : List Nat) : Nat := (lowest l).getD 0

/-- The level sent to PUMP node n (R97). -/
def pumpLevelFor (n : Nat) (s : State) : Nat :=
  lowestOr0
    (s.water.channels.filterMap
      (fun c =>
        if c.cfg.any (fun r => r.kind != .valve && r.node == some n) then some c.output else none))

/-- The position sent to VALVE node n: BACKWASH if any VALVE channel naming it commands it (R97). -/
def valvePositionFor (n : Nat) (s : State) : Nat :=
  if s.water.channels.any (fun c => c.cfg.any (fun r => r.kind == .valve && r.node == some n) && c.requested == 1) then 1
  else 0

/-- The level sent to LIGHT node n (R125). -/
def lampLevelFor (n : Nat) (s : State) : Nat :=
  lowestOr0
    (s.light.filterMap (fun g => if g.cfg.any (fun r => r.node == some n) then some g.current else none))

/-- The grant sent to DOCK node n (R141). -/
def chargerGrantFor (n : Nat) (s : State) : Nat :=
  lowestOr0
    ((List.range 4).filterMap
      (fun j => if (loadAt s (24 + j)).node = some n then some (loadAt s (24 + j)).grant else none))

/-- The two command bytes for a node (R5; 12_formats.md, Node slot halves). -/
def commandBytes (kind : NodeKind) (n : Nat) (s : State) : List Byte :=
  match kind with
  | .mower => b1 (permitFor n s).number ++ b1 0
  | .pump => b1 (pumpLevelFor n s) ++ b1 0
  | .valve => b1 (valvePositionFor n s) ++ b1 0
  | .light => b1 (lampLevelFor n s) ++ b1 0
  | .dock => b2 (chargerGrantFor n s)
  | .weather | .level | .motion | .supply | .gateway => b2 0

/-- A downstream half (12_formats.md). -/
def halfBytes (address : Nat) (command : List Byte) : List Byte :=
  let body := leadByte address :: command
  body ++ [crc8 body]

/-- The idle half (R4, R174). -/
def idleHalf : List Byte := halfBytes 0 (b2 0)

/-- The record a slot serves in the frame, with its identity: its placement names it and it is ACTIVE or STALE (R4). -/
def servedIn (slot : Nat) (s : State) : Option (Nat × NodeIdent) :=
  match placementFor slot s with
  | none => none
  | some p => if (nodeAt s p.node).served then (nodeAt s p.node).ident.map (fun x => (p.node, x)) else none

/-- What an upstream half is judged to be (R11). -/
inductive Heard where
  | good (noisy : Bool) (w : Content)
  | failed
  | silence
  deriving DecidableEq, Repr

/-- The half is six bytes, opens with the lead mark, and its check passes (R11, R174; a half of another length fails,
log 18). -/
def halfPasses (bs : List Byte) : Bool :=
  bs.length == 6 && hasLeadMark (bs.getD 0 0#8) && crc8 (bs.take 5) == bs.getD 5 0#8

/-- An upstream half judged for the node addressed (R11). -/
def judgeHalf (address : Nat) (rx : Receive) : Heard :=
  if halfPasses rx.bytes && leadAddress (rx.bytes.getD 0 0#8) == address then
    .good rx.noisy (BitVec.ofNat 32 (fieldAt rx.bytes 1 4))
  else .failed

def judgeHeard (address n : Nat) (heard : Option (List Sampled)) : Heard :=
  match heard with
  | none => .silence
  | some half => judgeHalf address (receive (some n) half)

/-- The outcome given to the Node Table (R11). -/
def outcome (n : Nat) (h : Heard) (s : State) : State :=
  match h with
  | .good noisy w => goodSample n noisy w s
  | .failed => missedSample n true s
  | .silence => missedSample n false s

def setDown (slot : Nat) (bs : List Byte) (s : State) : State :=
  { s with line := { s.line with down := some (slot, bs), rx := none } }

/-- A node slot of the frame in progress: its downstream half, and the outcome of its upstream half where a node is
served (R4, R5, R11). No slot is served in BREAK (R15). -/
def nodeSlot (slot : Nat) (heard : Option (List Sampled)) (s : State) : State :=
  if s.line.state = .inBreak then s
  else
    match servedIn slot s with
    | none => setDown slot idleHalf s
    | some (n, x) =>
      outcome n (judgeHeard x.address n heard) (setDown slot (halfBytes x.address (commandBytes x.kind n s)) s)

/-! ### Management slots -/

/-- A management slot of the frame in progress (R12, R13, R14). No slot is served in BREAK (R15). A fragment handed on is
counted before it is routed, so that a COUNTERS read which it completes shows it counted (the order is the model's choice,
log 54). -/
def managementSlot (bids : List Bid) (s : State) : State :=
  if s.line.state = .inBreak then s
  else
    match contend bids with
    | none => s
    | some w =>
      match readFragment w.address (receive none w.half).bytes with
      | none => { s with line := { s.line with checkErrCount := inc16 s.line.checkErrCount } }
      | some f =>
        route { address := w.address, serial := w.serial, frag := f }
          { s with line := { s.line with fragCount := inc16 s.line.fragCount } }

end Sys2Proof.Machine
end

