-- ==== Sys2Proof/Machine/LineCommands.lean ====
section
/-! DEFINITION. The meanings of the commands of the part, the line and the store: reset, start-up, loss of supply,
frames, slots, the store's completion. -/

namespace Sys2Proof.Machine

/-- A command that the part takes only while it runs: held at reset or without supply it changes nothing (R17;
log 8). -/
def whenOn (f : State → State) (s : State) : Host.Outcome State Fault Refusal := .next (if s.mode = .on then f s else s)

/-- The part stops: the line is held in BREAK without a break count, the slot in progress ends without a hand-over, a
store write is cut off (R10, R17, R167, R173). -/
def stopPart (m : Mode) (s : State) : State :=
  let t := cutOff s
  { t with
    mode := m
    line := { t.line with state := .inBreak, breakCount := none, restartDue := false, rx := none } }

/-- RESET_ASSERTED (R17). Without supply there is nothing to reset (log 8). -/
def execResetAsserted (s : State) : Host.Outcome State Fault Refusal :=
  .next (if s.mode = .off then s else stopPart .held s)

/-- LOSS_OF_SUPPLY (R167). -/
def execLossOfSupply (s : State) : Host.Outcome State Fault Refusal := .next (stopPart .off s)

/-- START_UP (R173): after power-on, after the release of reset, and, while the part runs, after a reset pulse
(log 8). -/
def execStartUp (s : State) : Host.Outcome State Fault Refusal := .next (startUp (cutOff s))

/-- FRAME_START (R1): the end of a 20 ms frame period (log 4). -/
def execFrameStart (s : State) : Host.Outcome State Fault Refusal := whenOn framePeriod s

/-- The line restart that a RESTART LINE has caused begins where the next frame would (R15; log 5). -/
def breakIfDue (s : State) : State := if s.line.state = .running ∧ s.line.restartDue = true then enterBreak s else s

/-- LINE_BREAK (R15). -/
def execLineBreak (s : State) : Host.Outcome State Fault Refusal := whenOn breakIfDue s

/-- The break count reaches 0 (R16; log 4). -/
def resumeIfBreak (s : State) : State :=
  if s.line.state = .inBreak ∧ s.line.breakCount.isSome = true then beginFrame 0 s else s

/-- LINE_RESUME (R16). -/
def execLineResume (s : State) : Host.Outcome State Fault Refusal := whenOn resumeIfBreak s

/-- NODE_SLOT_END (R11). -/
def execNodeSlotEnd (slot : Nat) (heard : Option (List Sampled)) (s : State) : Host.Outcome State Fault Refusal :=
  whenOn (nodeSlot slot heard) s

/-- MANAGEMENT_SLOT_END (R13). The three slots are handled alike. -/
def execManagementSlotEnd (_slot : Nat) (bids : List Bid) (s : State) : Host.Outcome State Fault Refusal :=
  whenOn (managementSlot bids) s

/-- STORE_COMPLETION (R168). -/
def execStoreCompletion (good : Bool) (s : State) : Host.Outcome State Fault Refusal := whenOn (completeWrite good) s

end Sys2Proof.Machine
end

