-- ==== Sys2Proof/Machine/RequestCommands.lean ====
section
/-! DEFINITION. The meanings of the requests that the gateway completes: each reaches the Management Unit as a
completed request (R152, R153; log 6) and is processed when its turn comes. -/

namespace Sys2Proof.Machine

/-- A request of a kind arrives from a sender (R152, R153). -/
def request (kind : Byte) (o : Origin) (body : Body) (s : State) : Host.Outcome State Fault Refusal :=
  whenOn (arrive { origin := o, kind := some kind, body := body }) s

/-- READ_STATUS (R165). -/
def execReadStatus (o : Origin) (s : State) : Host.Outcome State Fault Refusal :=
  request 1#8 o .readStatus s

/-- READ_ENTRIES (R156). -/
def execReadEntries (o : Origin) (space table first count : Nat) (s : State) : Host.Outcome State Fault Refusal :=
  request 2#8 o (.readEntries space table first count) s

/-- READ_NODE_CHANGES: a READ ENTRIES of table 4 in WORKING space (R29, R156). -/
def execReadNodeChanges (o : Origin) (record count : Nat) (s : State) : Host.Outcome State Fault Refusal :=
  request 2#8 o (.readEntries 0 4 record count) s

/-- CONTINUE_READ (R157). -/
def execContinueRead (o : Origin) (count : Nat) (s : State) : Host.Outcome State Fault Refusal :=
  request 3#8 o (.continueRead count) s

/-- WRITE_ENTRIES (R158). -/
def execWriteEntries (o : Origin) (space table first count : Nat) (bytes : List Byte) (s : State) :
    Host.Outcome State Fault Refusal :=
  request 4#8 o (.writeEntries space table first count bytes) s

/-- TAKE_NOTICES (R164). -/
def execTakeNotices (o : Origin) (s : State) : Host.Outcome State Fault Refusal :=
  request 5#8 o .takeNotices s

/-- SET_CLOCK (R162). -/
def execSetClock (o : Origin) (minute : Nat) (s : State) : Host.Outcome State Fault Refusal :=
  request 6#8 o (.setClock minute) s

/-- SAVE_TABLES (R169). -/
def execSaveTables (o : Origin) (s : State) : Host.Outcome State Fault Refusal :=
  request 7#8 o .saveTables s

/-- LOAD_TABLES (R171, R172). -/
def execLoadTables (o : Origin) (s : State) : Host.Outcome State Fault Refusal :=
  request 8#8 o .loadTables s

/-- PRESET_POSITION (R66, R67). -/
def execPresetPosition (o : Origin) (mower target : Nat) (s : State) : Host.Outcome State Fault Refusal :=
  request 9#8 o (.presetPosition mower target) s

/-- RELEASE_CAPTURE (R60). -/
def execReleaseCapture (o : Origin) (mower : Nat) (s : State) : Host.Outcome State Fault Refusal :=
  request 10#8 o (.releaseCapture mower) s

/-- DOCK_ALL (R83). -/
def execDockAll (o : Origin) (s : State) : Host.Outcome State Fault Refusal :=
  request 11#8 o .dockAll s

/-- RESUME_ALL (R83). -/
def execResumeAll (o : Origin) (s : State) : Host.Outcome State Fault Refusal :=
  request 12#8 o .resumeAll s

/-- START_SHOW (R103). -/
def execStartShow (o : Origin) (ix : Nat) (s : State) : Host.Outcome State Fault Refusal :=
  request 13#8 o (.startShow ix) s

/-- STOP_SHOW (R104). -/
def execStopShow (o : Origin) (ix : Nat) (s : State) : Host.Outcome State Fault Refusal :=
  request 14#8 o (.stopShow ix) s

/-- START_BACKWASH (R119). -/
def execStartBackwash (o : Origin) (channel : Nat) (s : State) : Host.Outcome State Fault Refusal :=
  request 15#8 o (.startBackwash channel) s

/-- STOP_BACKWASH (R120). -/
def execStopBackwash (o : Origin) (channel : Nat) (s : State) : Host.Outcome State Fault Refusal :=
  request 16#8 o (.stopBackwash channel) s

/-- CLEAR_FAULT (R92). -/
def execClearFault (o : Origin) (channel : Nat) (s : State) : Host.Outcome State Fault Refusal :=
  request 17#8 o (.clearFault channel) s

/-- RESTORE_SUPPLY (R147). -/
def execRestoreSupply (o : Origin) (s : State) : Host.Outcome State Fault Refusal :=
  request 18#8 o .restoreSupply s

/-- RESTART_LINE (R165). -/
def execRestartLine (o : Origin) (s : State) : Host.Outcome State Fault Refusal :=
  request 19#8 o .restartLine s

/-- FORWARD (R160). -/
def execForward (o : Origin) (node : Nat) (payload : List Byte) (s : State) : Host.Outcome State Fault Refusal :=
  request 20#8 o (.forward node payload) s

/-- NOT_PERMITTED_REFUSAL: a refusal joins the queue for a sender without privilege, and is counted as it arrives there
(R151; log 50). -/
def execNotPermittedRefusal (o : Origin) (kind : Byte) (s : State) : Host.Outcome State Fault Refusal :=
  whenOn
    (fun s =>
      arrive { origin := o, kind := some kind, body := .refusal }
        { s with mgmt := { s.mgmt with notPermitted := inc16 s.mgmt.notPermitted } })
    s

/-- UNKNOWN_REQUEST: a request of unknown kind, or a JOIN from a sender other than 63, is answered MALFORMED (R150,
R155). -/
def execUnknownRequest (o : Origin) (kind : Byte) (s : State) : Host.Outcome State Fault Refusal :=
  request kind o .malformed s

end Sys2Proof.Machine
end

