-- ==== Sys2Proof/Machine/WriteCommands.lean ====
section
/-! DEFINITION. The meanings of the entry writes: each is a WRITE ENTRIES of one entry in WORKING space that reaches
the Management Unit (R152, R155, R158; log 6), judged by the write rule of its table. -/

namespace Sys2Proof.Machine

/-- WRITE_SLOTMAP (R8). -/
def execWriteSlotmap (o : Origin) (index : Nat) (w : Option SlotWrite) (s : State) : Host.Outcome State Fault Refusal :=
  request 4#8 o (.write [.slotmap index w]) s

/-- WRITE_NODES (R20). -/
def execWriteNodes (o : Origin) (index : Nat) (w : Option NodeWrite) (s : State) : Host.Outcome State Fault Refusal :=
  request 4#8 o (.write [.nodes index w]) s

/-- WRITE_JOINERS (R25). -/
def execWriteJoiners (o : Origin) (index : Nat) (w : Bool) (s : State) : Host.Outcome State Fault Refusal :=
  request 4#8 o (.write [.joiners index w]) s

/-- WRITE_LOOPS (R38). -/
def execWriteLoops (o : Origin) (index : Nat) (w : Option LoopWrite) (s : State) : Host.Outcome State Fault Refusal :=
  request 4#8 o (.write [.loops index w]) s

/-- WRITE_MOWERS (R41). -/
def execWriteMowers (o : Origin) (index : Nat) (w : MowerWrite) (s : State) : Host.Outcome State Fault Refusal :=
  request 4#8 o (.write [.mowers index w]) s

/-- WRITE_ZONES (R71). -/
def execWriteZones (o : Origin) (index : Nat) (w : Option ZoneWrite) (s : State) : Host.Outcome State Fault Refusal :=
  request 4#8 o (.write [.zones index w]) s

/-- WRITE_CHANNELS (R89). -/
def execWriteChannels (o : Origin) (index : Nat) (w : Option ChannelWrite) (s : State) : Host.Outcome State Fault Refusal :=
  request 4#8 o (.write [.channels index w]) s

/-- WRITE_SHOWS (R101). -/
def execWriteShows (o : Origin) (index : Nat) (w : Option ShowWrite) (s : State) : Host.Outcome State Fault Refusal :=
  request 4#8 o (.write [.shows index w]) s

/-- WRITE_STEPS (R101). -/
def execWriteSteps (o : Origin) (index : Nat) (w : StepWrite) (s : State) : Host.Outcome State Fault Refusal :=
  request 4#8 o (.write [.steps index w]) s

/-- WRITE_LIGHTS (R124). -/
def execWriteLights (o : Origin) (index : Nat) (w : Option LightWrite) (s : State) : Host.Outcome State Fault Refusal :=
  request 4#8 o (.write [.lights index w]) s

/-- WRITE_LOADS (R139). -/
def execWriteLoads (o : Origin) (index : Nat) (w : Option LoadWrite) (s : State) : Host.Outcome State Fault Refusal :=
  request 4#8 o (.write [.loads index w]) s

/-- WRITE_SITE (R159). -/
def execWriteSite (o : Origin) (index : Nat) (w : Option SiteWrite) (s : State) : Host.Outcome State Fault Refusal :=
  request 4#8 o (.write [.site index w]) s

end Sys2Proof.Machine
end

