-- ==== Sys2Proof/Machine/TimerCommands.lean ====
section
/-! DEFINITION. The meanings of the timer expiries and of the cycle's conditions as commands. The expiries are what
the frame event does at its last decrement, the conditions what every handling tests; a command whose timer is not at
its last frame, or whose condition does not hold, changes nothing (log 3). No timer of any block advances while the
line is in BREAK (R1), so none runs out then. -/

namespace Sys2Proof.Machine

/-- A timer's last frame comes only while the line is RUNNING (R1). -/
def whenRunning (f : State → State) (s : State) : State := if s.line.state = .running then f s else s

/-- The forward timer reaches 0 (R161). -/
def forwardExpiry (s : State) : State :=
  match s.mgmt.proc with
  | .waiting f timer => if timer ≤ 1 then endForward f s else s
  | .idle | .sending _ | .forwarding _ _ => s

/-- FORWARD_TIMEOUT (R161). -/
def execForwardTimeout (s : State) : Host.Outcome State Fault Refusal := whenOn (whenRunning forwardExpiry) s

/-- The dock debounce timer reaches 0 and stops (R61). -/
def debounceExpiry (i : Nat) (s : State) : State :=
  if (mowerAt s i).debounce = 1 then setMower i Mower.debounceFrame s else s

/-- DOCK_DEBOUNCE_EXPIRY (R61). -/
def execDockDebounceExpiry (mower : Nat) (s : State) : Host.Outcome State Fault Refusal :=
  whenOn (whenRunning (debounceExpiry mower)) s

/-- Frames remaining of a PLAYING show reach 0 (R102). -/
def showExpiry (ix : Nat) (s : State) : State :=
  if (playerAt s ix).state = .playing ∧ (playerAt s ix).remaining ≤ 1 then settle (setPlayer ix (Player.frame s) s)
  else s

/-- SHOW_STEP_END (R102). -/
def execShowStepEnd (ix : Nat) (s : State) : Host.Outcome State Fault Refusal := whenOn (whenRunning (showExpiry ix)) s

/-- A presence hold timer reaches 0 (R129). -/
def holdExpiry (g : Nat) (s : State) : State :=
  if (groupAt s g).hold = 1 then settle (setGroup g LightGroup.holdFrame s) else s

/-- HOLD_TIMER_EXPIRY (R129). -/
def execHoldTimerExpiry (group : Nat) (s : State) : Host.Outcome State Fault Refusal := whenOn (whenRunning (holdExpiry group)) s

/-- The clock's frame count reaches 3000 (R162). -/
def minuteExpiry (s : State) : State :=
  if s.mgmt.clock.valid = true ∧ 2999 ≤ s.mgmt.clock.count then advanceMinute s else s

/-- MINUTE_ADVANCE (R162). -/
def execMinuteAdvance (s : State) : Host.Outcome State Fault Refusal := whenOn (whenRunning minuteExpiry) s

/-- The stage timer of a cycle in stage `st` reaches 0 (R110). -/
def stageExpiry (st : Stage) (c : Nat) (s : State) : State :=
  if (channelAt s c).stage = st ∧ (channelAt s c).timer = 1 then settle (stageFrame c s) else s

/-- The conditions that move a cycle in REQUESTED are tested (R112). -/
def startCondition (c : Nat) (s : State) : State :=
  if (channelAt s c).stage = .requested then settle (cycleStart c s) else s

/-- The condition that moves a cycle in stage `st` is tested (R113, R115, R117). -/
def stageTest (st : Stage) (c : Nat) (s : State) : State :=
  if (channelAt s c).stage = st then settle (cycleStep c s) else s

/-- BACKWASH_STOPPING (R112). -/
def execBackwashStopping (channel : Nat) (s : State) : Host.Outcome State Fault Refusal :=
  whenOn (startCondition channel) s

/-- STOPPING_END (R112). -/
def execStoppingEnd (channel : Nat) (s : State) : Host.Outcome State Fault Refusal :=
  whenOn (whenRunning (stageExpiry .stopping channel)) s

/-- VALVE_BACKWASH_POS (R113). -/
def execValveBackwashPos (channel : Nat) (s : State) : Host.Outcome State Fault Refusal :=
  whenOn (stageTest .reversing channel) s

/-- VALVE_TIMEOUT (R113). -/
def execValveTimeout (channel : Nat) (s : State) : Host.Outcome State Fault Refusal :=
  whenOn (whenRunning (stageExpiry .reversing channel)) s

/-- WASHING_END (R114). -/
def execWashingEnd (channel : Nat) (s : State) : Host.Outcome State Fault Refusal :=
  whenOn (whenRunning (stageExpiry .washing channel)) s

/-- RINSING_END (R114). -/
def execRinsingEnd (channel : Nat) (s : State) : Host.Outcome State Fault Refusal :=
  whenOn (whenRunning (stageExpiry .rinsing channel)) s

/-- RESTORE_NORMAL_POS (R115). -/
def execRestoreNormalPos (channel : Nat) (s : State) : Host.Outcome State Fault Refusal :=
  whenOn (stageTest .restoring channel) s

/-- RESTORING_TIMEOUT (R115). -/
def execRestoringTimeout (channel : Nat) (s : State) : Host.Outcome State Fault Refusal :=
  whenOn (whenRunning (stageExpiry .restoring channel)) s

/-- ABORT_NORMAL_POS (R117). -/
def execAbortNormalPos (channel : Nat) (s : State) : Host.Outcome State Fault Refusal :=
  whenOn (stageTest .aborting channel) s

/-- ABORTING_TIMEOUT (R117). -/
def execAbortingTimeout (channel : Nat) (s : State) : Host.Outcome State Fault Refusal :=
  whenOn (whenRunning (stageExpiry .aborting channel)) s

end Sys2Proof.Machine
end

