-- ==== Sys2Proof/Machine/Dispatch.lean ====
section
/-! DEFINITION. The meaning of every command: one arm per constructor. -/

namespace Sys2Proof.Machine

/-- The effect of a command on everything but the queue. -/
def exec (i : Instr) (s : State) : Host.Outcome State Fault Refusal :=
  match i with
  | .resetAsserted => Sys2Proof.Machine.execResetAsserted s
  | .startUp => Sys2Proof.Machine.execStartUp s
  | .frameStart => Sys2Proof.Machine.execFrameStart s
  | .lineBreak => Sys2Proof.Machine.execLineBreak s
  | .lineResume => Sys2Proof.Machine.execLineResume s
  | .nodeSlotEnd slot heard => Sys2Proof.Machine.execNodeSlotEnd slot heard s
  | .managementSlotEnd slot bids => Sys2Proof.Machine.execManagementSlotEnd slot bids s
  | .readStatus o => Sys2Proof.Machine.execReadStatus o s
  | .readEntries o space table first count => Sys2Proof.Machine.execReadEntries o space table first count s
  | .readNodeChanges o record count => Sys2Proof.Machine.execReadNodeChanges o record count s
  | .continueRead o count => Sys2Proof.Machine.execContinueRead o count s
  | .writeEntries o space table first count bytes => Sys2Proof.Machine.execWriteEntries o space table first count bytes s
  | .writeSlotmap o index w => Sys2Proof.Machine.execWriteSlotmap o index w s
  | .writeNodes o index w => Sys2Proof.Machine.execWriteNodes o index w s
  | .writeJoiners o index blank => Sys2Proof.Machine.execWriteJoiners o index blank s
  | .writeLoops o index w => Sys2Proof.Machine.execWriteLoops o index w s
  | .writeMowers o index w => Sys2Proof.Machine.execWriteMowers o index w s
  | .writeZones o index w => Sys2Proof.Machine.execWriteZones o index w s
  | .writeChannels o index w => Sys2Proof.Machine.execWriteChannels o index w s
  | .writeShows o index w => Sys2Proof.Machine.execWriteShows o index w s
  | .writeSteps o index w => Sys2Proof.Machine.execWriteSteps o index w s
  | .writeLights o index w => Sys2Proof.Machine.execWriteLights o index w s
  | .writeLoads o index w => Sys2Proof.Machine.execWriteLoads o index w s
  | .writeSite o index w => Sys2Proof.Machine.execWriteSite o index w s
  | .takeNotices o => Sys2Proof.Machine.execTakeNotices o s
  | .setClock o minute => Sys2Proof.Machine.execSetClock o minute s
  | .saveTables o => Sys2Proof.Machine.execSaveTables o s
  | .loadTables o => Sys2Proof.Machine.execLoadTables o s
  | .presetPosition o mower target => Sys2Proof.Machine.execPresetPosition o mower target s
  | .releaseCapture o mower => Sys2Proof.Machine.execReleaseCapture o mower s
  | .dockAll o => Sys2Proof.Machine.execDockAll o s
  | .resumeAll o => Sys2Proof.Machine.execResumeAll o s
  | .startShow o ix => Sys2Proof.Machine.execStartShow o ix s
  | .stopShow o ix => Sys2Proof.Machine.execStopShow o ix s
  | .startBackwash o channel => Sys2Proof.Machine.execStartBackwash o channel s
  | .stopBackwash o channel => Sys2Proof.Machine.execStopBackwash o channel s
  | .clearFault o channel => Sys2Proof.Machine.execClearFault o channel s
  | .restoreSupply o => Sys2Proof.Machine.execRestoreSupply o s
  | .restartLine o => Sys2Proof.Machine.execRestartLine o s
  | .forward o node payload => Sys2Proof.Machine.execForward o node payload s
  | .notPermittedRefusal o kind => Sys2Proof.Machine.execNotPermittedRefusal o kind s
  | .unknownRequest o kind => Sys2Proof.Machine.execUnknownRequest o kind s
  | .forwardTimeout => Sys2Proof.Machine.execForwardTimeout s
  | .dockDebounceExpiry mower => Sys2Proof.Machine.execDockDebounceExpiry mower s
  | .showStepEnd ix => Sys2Proof.Machine.execShowStepEnd ix s
  | .holdTimerExpiry group => Sys2Proof.Machine.execHoldTimerExpiry group s
  | .minuteAdvance => Sys2Proof.Machine.execMinuteAdvance s
  | .backwashStopping channel => Sys2Proof.Machine.execBackwashStopping channel s
  | .stoppingEnd channel => Sys2Proof.Machine.execStoppingEnd channel s
  | .valveBackwashPos channel => Sys2Proof.Machine.execValveBackwashPos channel s
  | .valveTimeout channel => Sys2Proof.Machine.execValveTimeout channel s
  | .washingEnd channel => Sys2Proof.Machine.execWashingEnd channel s
  | .rinsingEnd channel => Sys2Proof.Machine.execRinsingEnd channel s
  | .restoreNormalPos channel => Sys2Proof.Machine.execRestoreNormalPos channel s
  | .restoringTimeout channel => Sys2Proof.Machine.execRestoringTimeout channel s
  | .abortNormalPos channel => Sys2Proof.Machine.execAbortNormalPos channel s
  | .abortingTimeout channel => Sys2Proof.Machine.execAbortingTimeout channel s
  | .storeCompletion good => Sys2Proof.Machine.execStoreCompletion good s
  | .lossOfSupply => Sys2Proof.Machine.execLossOfSupply s

end Sys2Proof.Machine
end

