-- ==== Sys2Proof/Safety.lean ====
section
/-! DEFINITION. What the statements are said in: answers to requests, which parts a settled handling leaves alone, and
the laws the manual says its blocks keep, and the entries of its tables and views field by field. -/

namespace Sys2Proof.Machine

/-! ### Requests and answers -/

/-- The request a command completes, for the commands that are requests (12_formats.md, Messages; R151, R155, R158). -/
def asRequest : Instr → Option Request
  | .readStatus o => some ⟨o, some 1#8, .readStatus⟩
  | .readEntries o space table first count => some ⟨o, some 2#8, .readEntries space table first count⟩
  | .readNodeChanges o record count => some ⟨o, some 2#8, .readEntries 0 4 record count⟩
  | .continueRead o count => some ⟨o, some 3#8, .continueRead count⟩
  | .writeEntries o space table first count bytes => some ⟨o, some 4#8, .writeEntries space table first count bytes⟩
  | .writeSlotmap o i w => some ⟨o, some 4#8, .write [.slotmap i w]⟩
  | .writeNodes o i w => some ⟨o, some 4#8, .write [.nodes i w]⟩
  | .writeJoiners o i w => some ⟨o, some 4#8, .write [.joiners i w]⟩
  | .writeLoops o i w => some ⟨o, some 4#8, .write [.loops i w]⟩
  | .writeMowers o i w => some ⟨o, some 4#8, .write [.mowers i w]⟩
  | .writeZones o i w => some ⟨o, some 4#8, .write [.zones i w]⟩
  | .writeChannels o i w => some ⟨o, some 4#8, .write [.channels i w]⟩
  | .writeShows o i w => some ⟨o, some 4#8, .write [.shows i w]⟩
  | .writeSteps o i w => some ⟨o, some 4#8, .write [.steps i w]⟩
  | .writeLights o i w => some ⟨o, some 4#8, .write [.lights i w]⟩
  | .writeLoads o i w => some ⟨o, some 4#8, .write [.loads i w]⟩
  | .writeSite o i w => some ⟨o, some 4#8, .write [.site i w]⟩
  | .takeNotices o => some ⟨o, some 5#8, .takeNotices⟩
  | .setClock o minute => some ⟨o, some 6#8, .setClock minute⟩
  | .saveTables o => some ⟨o, some 7#8, .saveTables⟩
  | .loadTables o => some ⟨o, some 8#8, .loadTables⟩
  | .presetPosition o m target => some ⟨o, some 9#8, .presetPosition m target⟩
  | .releaseCapture o m => some ⟨o, some 10#8, .releaseCapture m⟩
  | .dockAll o => some ⟨o, some 11#8, .dockAll⟩
  | .resumeAll o => some ⟨o, some 12#8, .resumeAll⟩
  | .startShow o i => some ⟨o, some 13#8, .startShow i⟩
  | .stopShow o i => some ⟨o, some 14#8, .stopShow i⟩
  | .startBackwash o c => some ⟨o, some 15#8, .startBackwash c⟩
  | .stopBackwash o c => some ⟨o, some 16#8, .stopBackwash c⟩
  | .clearFault o c => some ⟨o, some 17#8, .clearFault c⟩
  | .restoreSupply o => some ⟨o, some 18#8, .restoreSupply⟩
  | .restartLine o => some ⟨o, some 19#8, .restartLine⟩
  | .forward o n payload => some ⟨o, some 20#8, .forward n payload⟩
  | .unknownRequest o kind => some ⟨o, some kind, .malformed⟩
  | _ => none

/-- The part runs, its request processor is IDLE and no request waits: a request is then processed in the handling in
which it completes (R153). -/
def Ready (s : State) : Prop :=
  s.mode = .on ∧ s.mgmt.proc = .idle ∧ s.mgmt.queue = [] ∧ s.mgmt.heldReq = none

/-- The response is in progress: the kind echoed, the status, the serial for address 63 and the body, cut into
fragments for the requester (R153; 12_formats.md, Messages). -/
def Sends (t : State) (o : Origin) (kind : Byte) (st : Status) (body : List Byte) : Prop :=
  t.mgmt.proc
    = .sending (fragments o.address o.number ([kind] ++ beBytes 1 st.number ++ serialBytes o ++ body))

/-- `s` answering a request: its response is in progress, one free value is spent, nothing else changes (R153). -/
def answer (o : Origin) (kind : Byte) (st : Status) (body : List Byte) (s : State) : State :=
  { s with
    mgmt :=
      { s.mgmt with
        proc := .sending (fragments o.address o.number ([kind] ++ beBytes 1 st.number ++ serialBytes o ++ body)) }
    free := s.free + 1 }

/-- The answer to a write of one entry: the overall status, which is that of the entry, and the entry's (R155). -/
def writeAnswer (o : Origin) (st : Status) (s : State) : State := answer o 4#8 st (beBytes 1 st.number) s

/-! ### What a settled handling leaves alone -/

/-- Forming results again changes no table, no latch, no node, no mower, nothing of the line, the store or the
management state. -/
structure SettledFrom (s t : State) : Prop where
  mode : t.mode = s.mode
  line : t.line = s.line
  nodes : t.nodes = s.nodes
  pos : t.pos = s.pos
  store : t.store = s.store
  mgmt : t.mgmt = s.mgmt
  pending : t.pending = s.pending
  zones : t.zone.zones = s.zone.zones
  dockAll : t.zone.dockAll = s.zone.dockAll
  channels : t.water.channels.map (fun c => (c.cfg, c.latch)) = s.water.channels.map (fun c => (c.cfg, c.latch))
  shows : t.water.shows.map (fun p => (p.cfg, p.levels, p.next, p.step, p.remaining, p.loopsDone))
    = s.water.shows.map (fun p => (p.cfg, p.levels, p.next, p.step, p.remaining, p.loopsDone))
  steps : t.water.steps = s.water.steps
  lights : t.light.map LightGroup.cfg = s.light.map LightGroup.cfg
  loads : t.power.loads.map (fun l => (l.cls, l.minDraw, l.fullDraw, l.node))
    = s.power.loads.map (fun l => (l.cls, l.minDraw, l.fullDraw, l.node))
  measured : t.power.measured = s.power.measured

/-- The minute of day has become `minute` at `s` with the clock as it stands at `t`: each show in use acts on its
schedule, each dark group's evening phase follows, the minutes of an empty record reading 0, and what is no result stays
(R105, R123, R126, R127, R162). -/
structure MinuteTaken (minute : Nat) (s t : State) : Prop where
  clock : t.mgmt.clock = { minute := minute, valid := true, count := 0 }
  shows : ∀ i r, i < 4 → (playerAt s i).cfg = some r →
    let p := playerAt s i
    let first := stepAt s r.first
    (r.stopMin = some minute → p.state ≠ .idle →
        playerAt t i = { p with state := .idle, step := none, remaining := 0 })
      ∧ (p.state = .idle → r.startMin = some minute →
        playerAt t i
          = { p with
              state := if s.water.rain then .paused else .playing
              step := some r.first, levels := first.levels, next := first.next, remaining := first.duration, loopsDone := 0 })
      ∧ ((r.stopMin ≠ some minute ∨ p.state = .idle) → (p.state ≠ .idle ∨ r.startMin ≠ some minute) →
        playerAt t i = p)
  groups : ∀ i, i < s.light.length →
    let g := groupAt s i
    let h := groupAt t i
    let late := (g.cfg.map LightRec.lateMin).getD 0
    let off := (g.cfg.map LightRec.offMin).getD 0
    let was := if g.dark = true then g.evening else .early
    ((∀ n x, s.mgmt.site.weather = some n → (nodeAt s n).ident = some x → x.kind = .weather →
        (nodeAt s n).state ≠ .active) →
      h.dark = inPeriod minute s.mgmt.site.dusk s.mgmt.site.dawn)
      ∧ (h.dark = false → h.evening = g.evening)
      ∧ (h.dark = true → off = minute → h.evening = .done)
      ∧ (h.dark = true → off ≠ minute → late = minute → was = .early → h.evening = .late)
      ∧ (h.dark = true → off ≠ minute → (late ≠ minute ∨ was ≠ .early) → h.evening = was)
  line : t.line = s.line
  nodes : t.nodes = s.nodes
  pos : t.pos = s.pos
  store : t.store = s.store
  site : t.mgmt.site = s.mgmt.site
  zones : t.zone.zones = s.zone.zones
  dockAll : t.zone.dockAll = s.zone.dockAll

/-- The valve channel of a cycle is in use, of kind VALVE, and names node `n` of kind VALVE (R111). -/
def UsableValve (s : State) (r : ChannelRec) (n : Nat) : Prop :=
  ∃ v x, (channelAt s r.valve).cfg = some v ∧ v.kind = .valve ∧ v.node = some n ∧ (nodeAt s n).ident = some x
    ∧ x.kind = .valve

/-- The node of a cycle's valve holds the confirmed code `k` (R113, R115, R117). -/
def ValveHolds (s : State) (r : ChannelRec) (k : Nat) : Prop := ∃ n, UsableValve s r n ∧ (nodeAt s n).code = some k

/-- The cause `k` of 1 to 5 by which a cycle of channel `a` with record `r` is aborted: POND, PUMP_FAULT, PUMP_LOST,
VALVE_LOST, JAMMED (R116), the lower value where several hold together (the model's choice, log 9). -/
def AbortCause (s : State) (a : Channel) (r : ChannelRec) (k : Nat) : Prop :=
  let low := s.water.pond = some 1 ∨ s.water.pond = some 2
  let served := ∃ n, UsableValve s r n ∧ (nodeAt s n).state = .active
  (low ∧ k = 1)
    ∨ (¬ low ∧ a.latch = true ∧ k = 2)
    ∨ (¬ low ∧ a.latch = false ∧ channelNodeActive s a = false ∧ k = 3)
    ∨ (¬ low ∧ a.latch = false ∧ channelNodeActive s a = true ∧ ¬ served ∧ k = 4)
    ∨ (¬ low ∧ a.latch = false ∧ channelNodeActive s a = true ∧ served ∧ (channelAt s r.valve).latch = true ∧ k = 5)

/-- The five conditions under which the cycle of channel `i` with record `r` leaves REQUESTED for STOPPING (R111, R112). -/
def StartConditions (s : State) (i : Nat) (r : ChannelRec) : Prop :=
  let level := if min r.backwash r.maxLevel < r.minLevel then 0 else min r.backwash r.maxLevel
  s.zone.counts.getD r.discharge 0 = 0 ∧ (s.water.pond = none ∨ s.water.pond = some 0)
    ∧ (∃ n, UsableValve s r n ∧ (nodeAt s n).state = .active) ∧ (channelAt s r.valve).latch = false
    ∧ channelStateOf s (channelAt s i) = .running ∧ drawAt (loadAt s i).fullDraw level ≤ (loadAt s i).grant

/-! ### The rounds of a handling -/

/-- A round and the test of R112 that follows it, which finds the grants the round's pass has delivered (R112, R142). -/
def nextRound (s : State) : State := formStarts (round false s)

/-- The state after `n` rounds and their tests. -/
def roundsFrom (n : Nat) (s : State) : State := Nat.repeat nextRound n s

/-- The round from `s` and its test move no stage and no grant. -/
def Quiet (s : State) : Prop := stages (nextRound s) = stages s ∧ grants (nextRound s) = grants s

/-- `t` is the end of the handling that begins at `s`: rounds and their tests follow one another up to the first round
that moves no stage and no grant, the 41st at most (R112, R142; the bound is the model's, log 10). -/
def Handled (s t : State) : Prop :=
  ∃ n, n ≤ 40 ∧ t = round false (roundsFrom n s) ∧ (∀ i, i < n → ¬ Quiet (roundsFrom i s))
    ∧ (n = 40 ∨ Quiet (roundsFrom n s))

/-- The test of R112 from `s` to `t`: exactly the cycles in REQUESTED whose five conditions hold enter STOPPING, each with
its stop frames, F unset and the clogged flag reset; nothing else changes, no notice is posted. -/
def StartsFollow (s t : State) : Prop :=
  t = { s with water := { s.water with channels := t.water.channels } }
    ∧ t.water.channels.length = s.water.channels.length
    ∧ ∀ i,
      let a := channelAt s i
      (∀ r, i < 8 → a.cfg = some r → a.stage = .requested → StartConditions s i r →
          channelAt t i = { a with stage := .stopping, timer := r.stopFrames, filt := none, clogged := false })
        ∧ ((8 ≤ i ∨ a.stage ≠ .requested ∨ ∀ r, a.cfg = some r → ¬ StartConditions s i r) → channelAt t i = a)

/-- What a settled handling does to the cycle and the filter monitor of a channel in use. A cycle in IDLE becomes REQUESTED
where its FILTER channel, the node ACTIVE, is clogged with auto backwash set, and otherwise stays; one in REQUESTED stays
or enters STOPPING, the latter at once where the conditions hold as the first round leaves them; one in RESTORING or
ABORTING ends where the valve node holds NORMAL_POS and otherwise stays; one in STOPPING to RINSING is taken to ABORTING
by a cause of R116 and from there as above, and without one goes from REVERSING to WASHING on BACKWASH_POS or stays. A
cycle that ends may be requested anew. The count takes the cycles that end from RESTORING. F and the clogged flag stay
while the channel is FILTER with its node ACTIVE and are unset otherwise and on entry to STOPPING. Of an empty record the
cycle stays and F and the clogged flag are unset (R108 to R110, R112, R113, R115 to R117). -/
def CyclesFollow (s t : State) : Prop :=
  (∀ i, i < 8 → (channelAt s i).cfg = none →
    let a := channelAt s i
    let b := channelAt t i
    b.stage = a.stage ∧ b.timer = a.timer ∧ b.cause = a.cause ∧ b.count = a.count ∧ b.filt = none ∧ b.clogged = false)
  ∧ ∀ (i : Nat) (r : ChannelRec), i < 8 → (channelAt s i).cfg = some r →
    let a := channelAt s i
    let b := channelAt t i
    let live := r.kind = .filter ∧ channelNodeActive t b = true
    let asks := live ∧ a.clogged = true ∧ r.auto = true
    let home := ValveHolds t r 0
    let starts := StartConditions (round false s) i r
    let stays := b.stage = a.stage ∧ b.timer = a.timer ∧ b.cause = a.cause
    let begun := fun (timer : Nat) =>
      b.cause = 0 ∧ ((b.stage = .requested ∧ b.timer = timer) ∨ (b.stage = .stopping ∧ b.timer = r.stopFrames))
    let ended := fun (cause : Nat) =>
      (¬ asks → b.stage = .idle ∧ b.timer = 0 ∧ b.cause = cause) ∧ (asks → begun 0)
    (a.stage = .idle → (¬ asks → stays) ∧ (asks → begun a.timer ∧ (starts → b.stage = .stopping)))
      ∧ (a.stage = .requested →
        (stays ∨ (b.stage = .stopping ∧ b.timer = r.stopFrames ∧ b.cause = a.cause)) ∧ (starts → b.stage = .stopping))
      ∧ (a.stage ≠ .stopping → b.stage = .stopping → ∃ n, n ≤ 40 ∧ StartConditions (round false (roundsFrom n s)) i r)
      ∧ ((a.stage = .restoring ∨ a.stage = .aborting) → (home → ended a.cause) ∧ (¬ home → stays))
      ∧ ((a.stage = .stopping ∨ a.stage = .reversing ∨ a.stage = .washing ∨ a.stage = .rinsing) →
        (∀ k, AbortCause t b r k →
            (home → ended k) ∧ (¬ home → b.stage = .aborting ∧ b.timer = 250 ∧ b.cause = k))
          ∧ ((∀ k, ¬ AbortCause t b r k) →
            (a.stage = .reversing → ValveHolds t r 1 → b.stage = .washing ∧ b.timer = r.washFrames ∧ b.cause = a.cause)
              ∧ ((a.stage ≠ .reversing ∨ ¬ ValveHolds t r 1) → stays)))
      ∧ ((a.stage = .restoring ∧ home) → b.count = inc16 a.count)
      ∧ ((a.stage ≠ .restoring ∨ ¬ home) → b.count = a.count)
      ∧ (live → (a.stage = .stopping ∨ b.stage ≠ .stopping) → b.filt = a.filt ∧ b.clogged = a.clogged)
      ∧ ((¬ live ∨ (a.stage ≠ .stopping ∧ b.stage = .stopping)) → b.filt = none ∧ b.clogged = false)

/-- A cycle that is in REQUESTED at the end of a quiet round waits there because a condition of R112 fails. -/
def RequestsWait (t : State) : Prop :=
  ∀ (i : Nat) (r : ChannelRec), i < 8 → (channelAt t i).cfg = some r → (channelAt t i).stage = .requested →
    ¬ StartConditions t i r

/-- What a settled handling does to a show: the beginning of rain pauses a PLAYING one, the beginning of the dry condition
lets a PAUSED one play on, each keeping its step and its frames remaining; no other show changes (R106). -/
def ShowsFollow (s t : State) : Prop :=
  ∀ i,
    let p := playerAt s i
    let q := playerAt t i
    let rains := s.water.rain = false ∧ t.water.rain = true
    let dries := s.water.dry = false ∧ t.water.dry = true
    (rains → p.state = .playing → q = { p with state := .paused })
      ∧ (dries → p.state = .paused → q = { p with state := .playing })
      ∧ ((¬ rains ∨ p.state ≠ .playing) → (¬ dries ∨ p.state ≠ .paused) → q = p)

/-- A notice as it is stamped when it is posted (R163). -/
def noticeNow (s : State) (kind : NoticeKind) (subject : Option Nat) (detail : Nat) : Notice :=
  { kind := kind, subject := subject, minute := if s.mgmt.clock.valid then some s.mgmt.clock.minute else none
    frame := s.line.frame, detail := detail }

/-- The notices of one round from `x` to `y`, in the order in which they join: LEVEL_UNKNOWN where the pond level goes from
known to unknown; BACKWASH_DONE with the new count and BACKWASH_ABORTED with the cause where a cycle ends, in increasing
channel index; KEEPOUT_ENTRY for each zone that joins a mower's keepout set, in increasing zone index and for one zone in
increasing mower index; OVERLOAD_SHED where the shed state becomes set, with the detail given (R78, R98, R115, R117, R146;
the order among blocks is the model's, log 9, and so is that of the channels and of the mowers, log 34). -/
def roundNotices (x y : State) (detail : Nat) : List Notice :=
  (match x.water.pond, y.water.pond with
    | some c, none => [noticeNow x .levelUnknown x.mgmt.site.level c]
    | _, _ => [])
    ++ (List.range 8).filterMap
      (fun i => match (channelAt x i).stage, (channelAt y i).stage with
        | .restoring, .idle => some (noticeNow x .backwashDone (some i) (channelAt y i).count)
        | .aborting, .idle => some (noticeNow x .backwashAborted (some i) (channelAt y i).cause)
        | _, _ => none)
    ++ (List.range 32).flatMap
      (fun z => (List.range 4).filterMap
        (fun m =>
          if z ∈ y.zone.keep.getD m [] ∧ z ∉ x.zone.keep.getD m [] then some (noticeNow x .keepoutEntry (some m) z)
          else none))
    ++ if y.power.shed = true ∧ x.power.shed = false then [noticeNow x .overloadShed x.mgmt.site.supply detail] else []

/-- What one round posts from `x` to `y`: the notices of `roundNotices`, each joining the list as R163 says, and no other.
The detail of OVERLOAD_SHED is the last measured draw, and free where no draw has been measured (R146; log 14). -/
def NoticesFollow (x y : State) : Prop :=
  ∃ detail, (∀ m, x.power.measured = some m → detail = m)
    ∧ y.notices = (roundNotices x y detail).foldl (fun l n => l.join n) x.notices

/-! ### Laws -/

/-- The rain and dry conditions and the pond level are those of the named nodes (R82, R98, R99). -/
def ConditionLaw (s : State) : Prop :=
  s.water.rain = rainNow s ∧ s.water.dry = dryNow s ∧ s.water.pond = pondNow s

/-- Every occupancy set is that of its mower, and every count the number of sets that contain the zone (R74, R75). -/
def OccupancyLaw (s : State) : Prop :=
  s.zone.occ = (List.range 4).map (fun i => occupancySet s (mowerAt s i))
    ∧ s.zone.counts
      = (List.range 32).map (fun z => (s.zone.occ.filter (fun o => o.contains z)).length)

/-- Every mower in TRACKED or SLIPPING whose occupancy set contains an active KEEPOUT zone has permit HOLD (R84). -/
def HoldLaw (s : State) : Prop :=
  ∀ i z, i < 4 → ((mowerAt s i).state = .tracked ∨ (mowerAt s i).state = .slipping) →
    z ∈ s.zone.occ.getD i [] → activeKeepout s z = true → s.zone.permits.getD i none = some .hold

/-- The keepout set of a mower with a valid position holds the active KEEPOUT zones of its occupancy set, that of any
other mower is empty; its permit follows its state, its sets, the rain, the DOCK ALL flag and its loop (R78, R84). -/
def PermitLaw (s : State) : Prop :=
  ∀ i, i < 4 →
    let m := mowerAt s i
    let occ := s.zone.occ.getD i []
    let keep := s.zone.keep.getD i []
    let permit := s.zone.permits.getD i none
    let slow := (∃ z ∈ occ, (zoneAt s z).any (fun r => r.kind == .slow) = true)
      ∨ ((loopAt s m.loop).verify = true ∧ m.verified = false)
    ((m.state = .tracked ∨ m.state = .slipping) → keep = occ.filter (activeKeepout s))
      ∧ (m.state ≠ .tracked → m.state ≠ .slipping → keep = [])
      ∧ (m.state = .unused → permit = none)
      ∧ (m.state = .unreferenced → permit = some .dock)
      ∧ ((m.state = .acquiring ∨ m.state = .lost ∨ m.state = .stale) → permit = some .hold)
      ∧ ((m.state = .tracked ∨ m.state = .slipping) →
        (keep ≠ [] → permit = some .hold)
          ∧ (keep = [] → (s.water.rain = true ∨ s.zone.dockAll = true) → permit = some .dock)
          ∧ (keep = [] → s.water.rain = false → s.zone.dockAll = false → slow → permit = some .slow)
          ∧ (keep = [] → s.water.rain = false → s.zone.dockAll = false → ¬ slow → permit = some .mow))

/-- While a cycle is in WASHING or RINSING, its valve channel is commanded BACKWASH and its discharge zone is active
(R114). -/
def DischargeLaw (s : State) : Prop :=
  ∀ i r, i < 8 → (channelAt s i).cfg = some r → r.kind = .filter →
    ((channelAt s i).stage = .washing ∨ (channelAt s i).stage = .rinsing) →
    ((channelAt s r.valve).kindIs .valve = true → (channelAt s r.valve).requested = 1)
      ∧ ((zoneAt s r.discharge).isSome = true → zoneActive s r.discharge = true)

/-- The sum of the grants never exceeds the budget, a shed class is granted nothing, and every grant is 0 or lies
between its load's minimum draw and its request (R143, R144). -/
def PowerLaw (s : State) : Prop :=
  (s.power.loads.map Load.grant).sum ≤ s.mgmt.site.budget
    ∧ (∀ l ∈ s.power.loads, s.power.shed = true → 2 ≤ l.cls → l.grant = 0)
    ∧ ∀ l ∈ s.power.loads, l.grant = 0 ∨ (l.minDraw ≤ l.grant ∧ l.grant ≤ l.request)

/-- The output of every FILTER or FOUNTAIN channel is 0 or lies between its minimum and maximum level, exceeds no cap
that applies to it, and its draw never exceeds the grant of its load; a channel that is OFF, FAULT or HELD has output 0
(R90, R94, R95). -/
def OutputLaw (s : State) : Prop :=
  ∀ i c r, s.water.channels[i]? = some c → c.cfg = some r →
    (c.output = 0 ∨ (r.minLevel ≤ c.output ∧ c.output ≤ r.maxLevel))
      ∧ drawAt (loadAt s i).fullDraw c.output ≤ (loadAt s i).grant
      ∧ ((c.state = .off ∨ c.state = .fault ∨ c.state = .held) → c.output = 0)
      ∧ (∀ cap, r.kind = .fountain → s.zone.sprayCaps.getD i none = some cap → c.output ≤ cap)
      ∧ (r.kind = .fountain → s.water.rain = true → c.output = 0)
      ∧ (r.kind = .fountain → (s.water.pond = some 1 ∨ s.water.pond = some 2) → c.output = 0)
      ∧ (r.kind = .filter → s.water.pond = some 2 → c.output = 0)

/-- The draw at the current level of every light group never exceeds the grant of its load, and neither does that at its
aim (R133). -/
def LightLaw (s : State) : Prop :=
  ∀ i g, s.light[i]? = some g →
    g.current ≤ capLevel (loadAt s (8 + i)).fullDraw (loadAt s (8 + i)).grant
      ∧ g.aim ≤ capLevel (loadAt s (8 + i)).fullDraw (loadAt s (8 + i)).grant

/-! ### The values of the results -/

/-- The record a block names is of the kind it expects and ACTIVE, and its identity, state and code are `n`'s (R32). -/
def LiveNode (s : State) (ix : Option Nat) (kind : NodeKind) (n : Node) : Prop :=
  ∃ i x, ix = some i ∧ n = nodeAt s i ∧ n.ident = some x ∧ x.kind = kind ∧ n.state = .active

/-- The spray cap of a channel is the lowest cap level among the occupied SPRAY zones that list it, and absent where there
is none; the zone presence flag of a light group is set exactly while an occupied LIGHT zone lists it (R79, R80). -/
def ZoneResultLaw (s : State) : Prop :=
  (∀ c, c < 8 →
      let capping := fun (r : ZoneRec) (z : Nat) =>
        z < 32 ∧ zoneAt s z = some r ∧ r.kind = .spray ∧ c ∈ r.channels ∧ 1 ≤ s.zone.counts.getD z 0
      (∀ cap, s.zone.sprayCaps.getD c none = some cap →
          (∃ r z, capping r z ∧ r.cap = cap) ∧ ∀ r z, capping r z → cap ≤ r.cap)
        ∧ (s.zone.sprayCaps.getD c none = none → ∀ r z, ¬ capping r z))
    ∧ ∀ g, g < 16 →
      (s.zone.presence.getD g false = true
        ↔ ∃ r z, z < 32 ∧ zoneAt s z = some r ∧ r.kind = .light ∧ g ∈ r.groups ∧ 1 ≤ s.zone.counts.getD z 0)

/-- The requested level of a channel, or its requested position with 1 for BACKWASH: by its cycle's stage or the night
period for a FILTER, by the PLAYING show that lists it for a FOUNTAIN, by the commanding cycles for a VALVE (R93, R100,
R110, R111). -/
def RequestedLaw (s : State) (i : Nat) (c : Channel) (r : ChannelRec) : Prop :=
  let clock := s.mgmt.clock
  let lists := fun (p : Player) => p ∈ s.water.shows ∧ p.state = .playing ∧ ∃ q, p.cfg = some q ∧ i ∈ q.channels
  (r.kind = .filter →
      c.requested
        = match c.stage with
          | .washing => r.backwash
          | .rinsing => r.rinse
          | .stopping | .reversing | .restoring => 0
          | .idle | .requested | .aborting =>
            if clock.valid && inPeriod clock.minute r.nightStart r.nightEnd then r.night else r.day)
    ∧ (r.kind = .fountain →
      ((∀ p, ¬ lists p) → c.requested = 0)
        ∧ ∀ p q j, lists p → (∀ p', lists p' → p' = p) → p.cfg = some q → q.channels.findIdx? (· == i) = some j → j < 4 →
          c.requested = [p.levels.l0, p.levels.l1, p.levels.l2, p.levels.l3].getD j 0)
    ∧ (r.kind = .valve →
      let commanded := ∃ f ∈ s.water.channels, ∃ q, f.cfg = some q ∧ q.kind = .filter ∧ q.valve = i
        ∧ (f.stage = .reversing ∨ f.stage = .washing ∨ f.stage = .rinsing)
      (commanded → c.requested = 1) ∧ (¬ commanded → c.requested = 0))

/-- Every channel's state is that of the first row of R90 that holds, its requested level that of R93, and in RUNNING and
BACKWASH its output, request level and request draw are those of R95 under the caps of R94, the request level raised to
the washing level while the cycle is REQUESTED (R111); in the other states, and for a VALVE, they are 0 (the levels of a
VALVE are the model's choice, log 45). -/
def ChannelLaw (s : State) : Prop :=
  ∀ i c, s.water.channels[i]? = some c →
    (c.cfg = none → c.state = .off ∧ c.requested = 0 ∧ c.output = 0 ∧ c.reqLevel = 0 ∧ c.reqDraw = 0)
      ∧ ∀ r, c.cfg = some r →
        let healthy := ∃ n, LiveNode s r.node (if r.kind = .valve then .valve else .pump) n ∧ n.code ≠ none
        let washes := r.kind = .filter ∧ (c.stage = .stopping ∨ c.stage = .reversing ∨ c.stage = .washing
          ∨ c.stage = .rinsing ∨ c.stage = .restoring)
        let runs := (c.state = .running ∨ c.state = .backwash) ∧ r.kind ≠ .valve
        let lift := fun (v : Nat) => if v < r.minLevel then 0 else v
        let capped := match s.zone.sprayCaps.getD i none with
          | some cap => if r.kind = .fountain then min (min c.requested r.maxLevel) cap else min c.requested r.maxLevel
          | none => min c.requested r.maxLevel
        let stopped := (r.kind = .fountain ∧ (s.water.rain = true ∨ s.water.pond = some 1 ∨ s.water.pond = some 2))
          ∨ (r.kind = .filter ∧ s.water.pond = some 2)
        RequestedLaw s i c r
          ∧ (r.node = none → c.state = .off)
          ∧ (r.node ≠ none → c.latch = true → c.state = .fault)
          ∧ (r.node ≠ none → c.latch = false → ¬ healthy → c.state = .held)
          ∧ (r.node ≠ none → c.latch = false → healthy → washes → c.state = .backwash)
          ∧ (r.node ≠ none → c.latch = false → healthy → ¬ washes → c.state = .running)
          ∧ (¬ runs → c.output = 0 ∧ c.reqLevel = 0 ∧ c.reqDraw = 0)
          ∧ (runs → ∀ v, (stopped → v = 0) → (¬ stopped → v = capped) →
            c.output = lift (min v (capLevel (loadAt s i).fullDraw (loadAt s i).grant))
              ∧ c.reqLevel
                = (if c.stage = .requested ∧ r.kind = .filter then max (lift v) (lift (min r.backwash r.maxLevel))
                  else lift v)
              ∧ c.reqDraw = drawAt (loadAt s i).fullDraw c.reqLevel)

/-- Darkness as it applies to a group: by the weather node's code, else by the clock's fallback window, else for every
mode but OFF (R126). -/
def DarkLaw (s : State) (g : LightGroup) : Prop :=
  let site := s.mgmt.site
  let shown := ∃ n, LiveNode s site.weather .weather n ∧ n.code ≠ none
  (∀ n c, LiveNode s site.weather .weather n → n.code = some c →
      (g.dark = true ↔ c = 1 ∨ c = 2 ∨ c = 4 ∨ c = 5))
    ∧ (¬ shown → s.mgmt.clock.valid = true → g.dark = inPeriod s.mgmt.clock.minute site.dusk site.dawn)
    ∧ (¬ shown → s.mgmt.clock.valid = false → (g.dark = true ↔ ∃ r, g.cfg = some r ∧ r.mode ≠ .off))

/-- Every light group is online while its node is ACTIVE and of kind LIGHT, dark by R126, ACTIVE in presence exactly while
a source holds, with the scheduled level of R127, the target and the aim of R130, the cap level of R133 and the request
draw of R130; offline it holds level 0 and accumulator 0 (R125 to R130, R133). -/
def GroupLaw (s : State) : Prop :=
  ∀ i g, s.light[i]? = some g →
    let load := loadAt s (8 + i)
    DarkLaw s g
      ∧ (g.cfg = none → g.online = false ∧ g.scheduled = 0 ∧ g.target = 0)
      ∧ (∀ r, g.cfg = some r →
        let source := s.zone.presence.getD i false = true
          ∨ ∃ m ∈ r.motion, ∃ n, LiveNode s (some m) .motion n ∧ n.code = some 1
        (g.online = true ↔ ∃ n, LiveNode s r.node .light n)
          ∧ (g.presence = .active ↔ source)
          ∧ g.scheduled
            = (match r.mode with
              | .off => 0
              | .always => r.onLevel
              | .duskToDawn => if g.dark then r.onLevel else 0
              | .duskToTime =>
                if !g.dark then 0
                else if !s.mgmt.clock.valid then r.onLevel
                else
                  match g.evening with
                  | .early => r.onLevel
                  | .late => r.lateLevel
                  | .done => 0)
          ∧ g.target
            = (if g.dark = true ∧ (g.presence = .active ∨ g.presence = .holding) then max g.scheduled r.presLevel
              else g.scheduled))
      ∧ g.cap = capLevel load.fullDraw load.grant
      ∧ g.aim = min g.target g.cap
      ∧ g.reqDraw = (if g.online then drawAt load.fullDraw g.target else 0)
      ∧ (g.online = false → g.current = 0 ∧ g.acc = 0)

/-- Every load's request is the request draw its owner hands over; a dock load's is the demand of its node's last good
sample, clamped to the full draw, and 0 while the node is not ACTIVE or holds FAULT (R140, R141), and with no sample yet
(the model's reading, log 30). -/
def RequestLaw (s : State) : Prop :=
  ∀ i l, s.power.loads[i]? = some l →
    (i < 8 → l.request = (channelAt s i).reqDraw)
      ∧ (8 ≤ i → i < 24 → l.request = (groupAt s (i - 8)).reqDraw)
      ∧ (24 ≤ i →
        (∀ n w, LiveNode s l.node .dock n → n.code ≠ some 2 → n.sample = some w →
            l.request = min (w.toNat / 2 ^ 20) l.fullDraw)
          ∧ ((∀ n w, LiveNode s l.node .dock n → n.code ≠ some 2 → n.sample ≠ some w) → l.request = 0))

/-- The grants are those of a pass over the requests: each class is served from what the classes before it left, whole
where its eligible requests fit and by the shares of R144 where they do not, the classes 2 and 3 not at all while the shed
state is set, and the remainder is what is left of the budget (R143, R144). -/
def GrantLaw (s : State) : Prop :=
  let loads := s.power.loads
  let total := fun (f : Load → Nat) (p : Load → Bool) => ((loads.filter p).map f).sum
  s.power.remainder + (loads.map Load.grant).sum = s.mgmt.site.budget
    ∧ ∀ l ∈ loads, l.cls ≤ 3 →
      let k := l.cls
      let R := s.mgmt.site.budget - total Load.grant (fun x => decide (x.cls < k))
      let asks := fun (x : Load) => decide (x.cls = k ∧ 1 ≤ x.request ∧ x.minDraw ≤ x.request)
      let S := total Load.request asks
      let stays := fun (x : Load) => asks x && decide (x.minDraw ≤ x.request * R / S)
      let second := min l.request (l.request * R / total Load.request stays)
      (s.power.shed = true → 2 ≤ k → l.grant = 0)
        ∧ ((s.power.shed = false ∨ k < 2) →
          (asks l = false → l.grant = 0)
            ∧ (asks l = true → S ≤ R → l.grant = l.request)
            ∧ (asks l = true → R < S → (∀ x ∈ loads, asks x = true → stays x = true) → l.grant = l.request * R / S)
            ∧ (asks l = true → R < S → (∃ x ∈ loads, asks x = true ∧ stays x = false) →
              l.grant = if stays l = true ∧ l.minDraw ≤ second then second else 0))

/-- The overload run is 0 while the supply node is not usable, and the shed state is set while the usable supply node
holds FOLDBACK (R145, R146). -/
def ShedLaw (s : State) : Prop :=
  ((∀ n, ¬ LiveNode s s.mgmt.site.supply .supply n) → s.power.run = 0)
    ∧ ∀ n, LiveNode s s.mgmt.site.supply .supply n → n.code = some 2 → s.power.shed = true

/-- What a settled handling does to the presence state, the hold timer and the evening phase of a light group. Of a group in
use, presence moves on its sources: a source makes it ACTIVE and stops a running hold; without one ACTIVE becomes HOLDING
with the hold timer at the presence hold, or INACTIVE where that is 0, and the other states stay (R128). Of an empty
record, presence is INACTIVE where its zone presence flag is reset and ACTIVE where the flag has become set (log 23). The
phase becomes EARLY where darkness begins and otherwise stays (R127). -/
def GroupsFollow (s t : State) : Prop :=
  ∀ i, i < s.light.length →
    let g := groupAt s i
    let h := groupAt t i
    let flag := t.zone.presence.getD i false = true
    (∀ r, g.cfg = some r →
        let source := flag ∨ ∃ m ∈ r.motion, ∃ n, LiveNode t (some m) .motion n ∧ n.code = some 1
        (source → h.presence = .active ∧ h.hold = if g.presence = .holding then 0 else g.hold)
          ∧ (¬ source → g.presence = .active → r.presHold ≠ 0 → h.presence = .holding ∧ h.hold = r.presHold)
          ∧ (¬ source → g.presence = .active → r.presHold = 0 → h.presence = .inactive ∧ h.hold = 0)
          ∧ (¬ source → g.presence ≠ .active → h.presence = g.presence ∧ h.hold = g.hold))
      ∧ (g.cfg = none →
        (¬ flag → h.presence = .inactive ∧ h.hold = 0)
          ∧ (flag → s.zone.presence.getD i false = false → h.presence = .active ∧ h.hold = g.hold)
          ∧ (flag → s.zone.presence.getD i false = true → h.presence = g.presence ∧ h.hold = g.hold))
      ∧ (g.dark = false → h.dark = true → h.evening = .early)
      ∧ ((g.dark = true ∨ h.dark = false) → h.evening = g.evening)

/-- The current level and the accumulator `x` of an online group with record `r` after its aim has gone from `old` to
`new`: an immediate rate carries the level to the aim where the aim moves away from it in the sense the rate serves (R132),
an immediate up rate also where the group has just come online, `fresh` (R125; log 11); an aim that changes sides of the
level or meets it clears the accumulator (R131, R132); else both stay. -/
def reaimed (r : LightRec) (fresh : Prop) (old new : Nat) (x y : Nat × Nat) : Prop :=
  let leaps := (r.upInt = 0 ∧ r.upFrac = 0 ∧ x.1 < new ∧ (fresh ∨ old < new))
    ∨ (r.downInt = 0 ∧ r.downFrac = 0 ∧ new < x.1 ∧ new < old)
  let turns := (x.1 < old ∧ new < x.1) ∨ (old < x.1 ∧ x.1 < new) ∨ new = x.1
  (leaps → y = (new, 0)) ∧ (¬ leaps → turns → y = (x.1, 0)) ∧ (¬ leaps → ¬ turns → y = x)

/-- What one round does to the current level and the accumulator of a light group: 0 offline (R125); online, the aim moves
with the target under the cap as it stands (R130), then the pass delivers the grant, a current level above the new cap
level falls to it with the accumulator cleared, and the aim moves once more (R133). -/
def LevelsFollow (x y : State) : Prop :=
  ∀ i, i < x.light.length →
    let g := groupAt x i
    let h := groupAt y i
    (h.online = false → h.current = 0 ∧ h.acc = 0)
      ∧ (∀ r, h.online = true → g.cfg = some r →
        ∃ p q : Nat × Nat, reaimed r (g.online = false) g.aim (min h.target g.cap) (g.current, g.acc) p
          ∧ (h.cap < p.1 → q = (h.cap, 0)) ∧ (p.1 ≤ h.cap → q = p)
          ∧ reaimed r False (min h.target g.cap) (min h.target h.cap) q (h.current, h.acc))

/-- What a settled handling does to the shed state and the overload run: FOLDBACK of the usable supply node sets a shed state
that was reset, with cause FOLDBACK; otherwise the shed state and its cause stay (R146). The run stays while the supply
node is usable and is 0 otherwise (R145). -/
def ShedFollow (s t : State) : Prop :=
  let usable := fun (n : Node) => LiveNode s s.mgmt.site.supply .supply n
  let folds := ∃ n, usable n ∧ n.code = some 2
  (folds → s.power.shed = false → t.power.shed = true ∧ t.power.cause = some .foldback)
    ∧ ((¬ folds ∨ s.power.shed = true) → t.power.shed = s.power.shed ∧ t.power.cause = s.power.cause)
    ∧ ((∃ n, usable n) → t.power.run = s.power.run)
    ∧ ((∀ n, ¬ usable n) → t.power.run = 0)

/-! ### The lists -/

/-- The request queue holds at most 4 requests, and the held position is occupied only while it holds 4 (R152). -/
def QueueLaw (s : State) : Prop :=
  s.mgmt.queue.length ≤ 4 ∧ (s.mgmt.heldReq.isSome = true → s.mgmt.queue.length = 4)

/-- The notice list holds at most 16 notices (R163). -/
def NoticeLaw (s : State) : Prop := s.notices.list.length ≤ 16

/-- Capture B is present only when capture A is present, and the capture is locked exactly when both are (R58). -/
def CaptureLaw (s : State) : Prop :=
  ∀ m ∈ s.pos.mowers,
    (m.capB.isSome = true → m.capA.isSome = true) ∧ (m.locked = true ↔ m.capA.isSome = true ∧ m.capB.isSome = true)

/-- No two entries of a map overlap (R7). -/
def OverlapFree (map : List (Option Placement)) : Prop :=
  ∀ (i j : Nat) (p q : Placement), i ≠ j → map[i]? = some (some p) → map[j]? = some (some q) → overlap p q = false

/-- The active and the next map, the image's map and a copy being saved are overlap-free (R7, R18). -/
def SlotLaw (s : State) : Prop :=
  OverlapFree s.line.active ∧ OverlapFree s.line.next ∧ OverlapFree s.store.image.tables.slots
    ∧ ∀ copy n, s.store.writing = some (.save copy n) → OverlapFree copy.slots

/-- A record is EMPTY exactly when it has no identity; one that has not joined has no code, no candidate, no answer
pending and no missed samples; a change list holds at most two changes (R19, R20, R29, R34). -/
def NodeLaw (s : State) : Prop :=
  ∀ n ∈ s.nodes.recs,
    (n.ident.isNone = true ↔ n.state = .empty)
      ∧ ((n.state = .empty ∨ n.state = .provisioned) →
        n.code = none ∧ n.cand = none ∧ n.answerPending = false ∧ n.missed = 0)
      ∧ n.changes.length ≤ 2

/-! ### Table sizes -/

/-- The tables of an image have their sizes (R156, R167). -/
def TablesSized (t : Tables) : Prop :=
  t.slots.length = 64 ∧ t.nodes.length = 48 ∧ t.loops.length = 4 ∧ t.mowers.length = 4 ∧ t.zones.length = 32
    ∧ t.channels.length = 8 ∧ t.shows.length = 4 ∧ t.steps.length = 96 ∧ t.lights.length = 16 ∧ t.loads.length = 28

/-- Every table has its size, in the working space, in the image and in a copy being saved (R156, R167). -/
def SizeLaw (s : State) : Prop :=
  s.line.active.length = 64 ∧ s.line.next.length = 64 ∧ s.nodes.recs.length = 48 ∧ s.nodes.joiners.length ≤ 4
    ∧ s.pos.loops.length = 4 ∧ s.pos.mowers.length = 4 ∧ s.zone.zones.length = 32 ∧ s.zone.occ.length = 4
    ∧ s.zone.counts.length = 32 ∧ s.zone.keep.length = 4 ∧ s.zone.permits.length = 4
    ∧ s.zone.sprayCaps.length = 8 ∧ s.zone.presence.length = 16 ∧ s.water.channels.length = 8
    ∧ s.water.shows.length = 4 ∧ s.water.steps.length = 96 ∧ s.light.length = 16 ∧ s.power.loads.length = 28
    ∧ s.mgmt.answers.length ≤ 8 ∧ TablesSized s.store.image.tables
    ∧ ∀ copy n, s.store.writing = some (.save copy n) → TablesSized copy

/-! ### Table entries -/

/-- The fields of an entry in their order, each with its number of bytes; a value that is none or absent has none. -/
abbrev Fields := List (Nat × Option Nat)

/-- Each field in its bytes, most significant byte first, every byte FFH for one that is none (R174, R176). -/
def Fields.bytes (fs : Fields) : List Byte :=
  fs.flatMap (fun f => (f.2.map (beBytes f.1)).getD (List.replicate f.1 0xFF#8))

/-- The places of a list, each one byte, none in those left over (12_formats.md, Table entries). -/
def places (n : Nat) (l : List Nat) : Fields := (List.range n).map (fun k => (1, l[k]?))

/-- A flags byte: bit k stands for flag k, counted from 0 (12_formats.md, Table entries). -/
def bitsOf (flags : List Bool) : Nat := (flags.zipIdx.map (fun f => if f.1 = true then 2 ^ f.2 else 0)).sum

/-- A record of `n` bytes; an empty one is the empty value of its table, every byte FFH (R176; that a loop record reads so
too is the model's reading, log 13). -/
def recordFields {α : Type} (n : Nat) (form : α → Fields) (r : Option α) : Fields := (r.map form).getD [(n, none)]

/-- The written form of SITE. -/
def siteFields (x : Site) : Fields :=
  places 2 x.privileged
    ++ ([(2, x.budget), (1, x.weather), (1, x.level), (1, x.supply), (2, x.dusk), (2, x.dawn), (1, x.staleLimit),
      (1, x.dropLimit)] : Fields)

/-- The written form of SLOTMAP. -/
def slotFields (p : Placement) : Fields := [(1, p.slot), (1, p.divisor), (1, p.phase), (1, p.node)]

/-- The written form of NODES. -/
def nodeFields (x : NodeIdent) : Fields :=
  [(1, x.address), (4, x.serial.toNat),
    (1, [NodeKind.gateway, .mower, .pump, .valve, .light, .dock, .weather, .level, .motion, .supply].idxOf x.kind)]

/-- The written form of JOINERS. -/
def joinerFields (j : Joiner) : Fields := [(4, j.serial.toNat), (1, j.kind), (2, j.first), (2, j.latest)]

/-- The written form of LOOPS. -/
def loopFields (l : LoopRec) : Fields :=
  [(1, l.n1), (2, l.tolerance), (2, l.jump), (2, l.body), (3, l.dock), (1, bitsOf [l.dockPreset, l.persist, l.verify]),
    (3, l.spacing), (2, l.spacingTol)]

/-- The written form of MOWERS. -/
def mowerFields (node : Option Nat) (loop : Nat) : Fields := [(1, node), (1, loop)]

/-- The written form of ZONES. -/
def zoneFields (z : ZoneRec) : Fields :=
  ([(1, [ZoneKind.spray, .keepout, .slow, .light].idxOf z.kind), (1, z.loop), (3, z.first), (3, z.last), (2, z.lookahead),
      (1, bitsOf [z.assume]), (1, [ActiveWhen.always, .duringBackwash, .duringShow].idxOf z.activeWhen), (1, z.filter),
      (1, z.showIx)] : Fields)
    ++ places 4 z.channels ++ ([(1, z.cap)] : Fields) ++ places 4 z.groups

/-- The written form of CHANNELS. -/
def channelFields (r : ChannelRec) : Fields :=
  [(1, [ChannelKind.filter, .fountain, .valve].idxOf r.kind), (1, r.node), (1, r.minLevel), (1, r.maxLevel), (1, r.day),
    (1, r.night), (2, r.nightStart), (2, r.nightEnd), (2, r.clog), (2, r.clear), (1, bitsOf [r.auto]), (1, r.valve),
    (1, r.backwash), (1, r.rinse), (2, r.stopFrames), (2, r.washFrames), (2, r.rinseFrames), (1, r.discharge)]

/-- The written form of SHOWS. -/
def showFields (r : ShowRec) : Fields :=
  places 4 r.channels ++ ([(1, r.first), (2, r.loopCount), (2, r.startMin), (2, r.stopMin)] : Fields)

def levelFields (l : Levels) : Fields := [(1, l.l0), (1, l.l1), (1, l.l2), (1, l.l3)]

/-- The written form of STEPS. -/
def stepFields (t : Step) : Fields := levelFields t.levels ++ ([(2, t.duration), (1, t.next)] : Fields)

/-- The written form of LIGHTS. -/
def lightFields (r : LightRec) : Fields :=
  ([(1, r.node), (1, [LightMode.off, .duskToTime, .duskToDawn, .always].idxOf r.mode), (1, r.onLevel), (1, r.lateLevel),
      (2, r.lateMin), (2, r.offMin), (1, r.presLevel), (2, r.presHold)] : Fields)
    ++ places 2 r.motion ++ ([(1, r.upInt * 16 + r.upFrac), (1, r.downInt * 16 + r.downFrac)] : Fields)

/-- The written form of LOADS. -/
def loadFields (cls minDraw fullDraw : Nat) (node : Option Nat) : Fields :=
  [(1, cls), (2, minDraw), (2, fullDraw), (1, node)]

/-- The kept fields of NODES. -/
def nodeKeptFields (n : Node) : Fields :=
  [(1, [NodeState.empty, .provisioned, .active, .stale, .dropped].idxOf n.state), (1, bitsOf [n.answerPending]),
    (1, n.code), (1, n.cand), (1, n.missed), (2, n.noise), (2, n.checkErr), (2, n.rejoin),
    (4, (n.sample.map BitVec.toNat).getD 0), (3, n.lastFrame)]

/-- The kept fields of SHOWS, of an emptied record too (log 51). -/
def playerFields (p : Player) : Fields :=
  ([(1, [ShowState.idle, .playing, .paused].idxOf p.state), (1, p.step)] : Fields) ++ levelFields p.levels
    ++ ([(1, p.next), (2, p.remaining), (2, p.loopsDone)] : Fields)

/-- MOWER_STATE. -/
def mowerStateFields (s : State) (i : Nat) : Fields :=
  let m := mowerAt s i
  let states := [MowerState.unused, .unreferenced, .acquiring, .tracked, .slipping, .lost, .stale]
  let valid := decide (m.state = .tracked ∨ m.state = .slipping)
  [(1, m.node), (1, m.loop), (1, states.idxOf m.state),
    (1, bitsOf [m.offsetValid, m.unsaved, valid, m.locked, m.verified, decide (m.dir = .backward), decide (m.acquire = 1)]),
    (3, m.offset), (3, m.raw), (3, m.computed), (3, m.reported), (3, m.lastFrame), (1, m.slip), (3, m.capA), (3, m.capB),
    (1, m.debounce), (2, m.slips), (2, m.missedMarkers), (2, m.mismatches),
    (1, (s.zone.permits.getD i none).map [Permit.mow, .slow, .dock, .hold].idxOf)]

/-- Channel `c` reports discharge active (R77, R110). -/
def discharges (s : State) (c : Nat) : Bool :=
  (channelAt s c).cfg.any (fun r => r.kind == .filter)
    && ((channelAt s c).stage == .washing || (channelAt s c).stage == .rinsing)

/-- Zone `z` is active (R77); one of an empty record is shown as not active (log 48). -/
def zoneIsActive (s : State) (z : Nat) : Bool :=
  match zoneAt s z with
  | none => false
  | some r =>
    r.kind != .keepout || r.activeWhen == .always || (r.activeWhen == .duringBackwash && discharges s r.filter)
      || (r.activeWhen == .duringShow && (playerAt s r.showIx).state != .idle)
      || (List.range 8).any (fun c => discharges s c && (channelAt s c).cfg.any (fun q => q.discharge == z))

/-- ZONE_STATE. -/
def zoneStateFields (s : State) (z : Nat) : Fields :=
  let mowers := fun (sets : List (List Nat)) => bitsOf ((List.range 4).map (fun m => decide (z ∈ sets.getD m [])))
  [(1, s.zone.counts.getD z 0), (1, bitsOf [zoneIsActive s z]), (1, mowers s.zone.occ), (1, mowers s.zone.keep)]

/-- CHANNEL_STATE. A spray cap handed for a channel that is no FOUNTAIN is shown as one that does not hold (log 41), and
the byte of a cap that does not hold is a free value (log 14). -/
def channelStateFields (s : State) (i : Nat) : Fields :=
  let c := channelAt s i
  let load := loadAt s i
  let kinds := fun (l : List ChannelKind) => c.cfg.any (fun r => l.contains r.kind)
  let pond := s.water.pond
  let spray := if kinds [.fountain] then s.zone.sprayCaps.getD i none else none
  let rained := kinds [.fountain] && s.water.rain
  let ponded := (kinds [.fountain] && (pond == some 1 || pond == some 2)) || (kinds [.filter] && pond == some 2)
  [(1, [ChannelState.off, .fault, .held, .backwash, .running].idxOf c.state),
    (1, bitsOf [c.latch, c.clogged, spray.isSome, rained, ponded, discharges s i]), (1, c.requested),
    (1, spray.getD Config.noCapByte.toNat),
    (1, if kinds [.filter, .fountain] then capLevel load.fullDraw load.grant else Config.noCapByte.toNat), (1, c.output),
    (1, c.reqLevel), (2, c.reqDraw), (2, load.grant), (2, some (c.filt.getD 0 / 16)),
    (1, [Stage.idle, .requested, .stopping, .reversing, .washing, .rinsing, .restoring, .aborting].idxOf c.stage),
    (2, c.timer), (1, c.cause), (2, c.count)]

/-- LIGHT_STATE. -/
def lightStateFields (s : State) (i : Nat) : Fields :=
  let g := groupAt s i
  [(1, bitsOf [g.online, g.dark, s.zone.presence.getD i false]), (1, [Evening.early, .late, .done].idxOf g.evening),
    (1, [Presence.inactive, .active, .holding].idxOf g.presence), (2, g.hold), (1, g.scheduled), (1, g.target),
    (1, g.aim), (1, g.current), (1, g.acc), (2, g.reqDraw), (2, (loadAt s (8 + i)).grant), (1, g.cap)]

/-- GRANTS: a load's entry, and at 28 the summary, in which the byte of an absent shed cause is a free value (log 14). -/
def grantFields (s : State) (i : Nat) : Fields :=
  let l := loadAt s i
  let p := s.power
  if i < 28 then [(2, l.request), (2, l.grant), (1, capLevel l.fullDraw l.grant)]
  else
    [(2, s.mgmt.site.budget), (2, p.remainder), (1, p.shed.toNat),
      (1, (p.cause.map [ShedCause.overrun, .foldback].idxOf).getD Config.noShedCauseByte.toNat), (1, p.run), (2, p.measured)]

/-- An entry as a WORKING read gives it: its written form and its kept fields, or the view (12_formats.md, Table entries).
NODE_CHANGES lists changes and has no entry here. -/
def workingFields (s : State) (t : Table) (i : Nat) : Fields :=
  match t with
  | .site => siteFields s.mgmt.site
  | .slotmap =>
    let next := s.line.next.getD i none
    recordFields 4 slotFields next ++ ([(1, bitsOf [decide (next ≠ s.line.active.getD i none)])] : Fields)
  | .nodes => recordFields 6 nodeFields (nodeAt s i).ident ++ nodeKeptFields (nodeAt s i)
  | .joiners => recordFields 9 joinerFields s.nodes.joiners[i]?
  | .nodeChanges => []
  | .loops => recordFields 16 loopFields (s.pos.loops.getD i none)
  | .mowers => mowerFields (mowerAt s i).node (mowerAt s i).loop
  | .zones => recordFields 23 zoneFields (zoneAt s i)
  | .channels => recordFields 25 channelFields (channelAt s i).cfg
  | .shows => recordFields 11 showFields (playerAt s i).cfg ++ playerFields (playerAt s i)
  | .steps => stepFields (stepAt s i)
  | .lights => recordFields 15 lightFields (groupAt s i).cfg
  | .loads => loadFields (loadAt s i).cls (loadAt s i).minDraw (loadAt s i).fullDraw (loadAt s i).node
  | .mowerState => mowerStateFields s i
  | .zoneState => zoneStateFields s i
  | .channelState => channelStateFields s i
  | .lightState => lightStateFields s i
  | .grants => grantFields s i
  | .counters =>
    [(2, s.line.fragCount), (2, s.line.checkErrCount), (2, s.nodes.overflow), (2, s.mgmt.discarded), (2, s.mgmt.overrun),
      (2, s.mgmt.notPermitted), (2, s.store.busyCount)]

/-- An entry as a STORED read gives it: its written form, a mower's with its offset and offset valid, SITE with the save
count (12_formats.md, Table entries; R167). A table the image does not hold has none (R156). -/
def storedFields (x : Image) (t : Table) (i : Nat) : Fields :=
  match t with
  | .site => siteFields x.tables.site ++ ([(2, x.saveCount)] : Fields)
  | .slotmap => recordFields 4 slotFields (x.tables.slots.getD i none)
  | .nodes => recordFields 6 nodeFields (x.tables.nodes.getD i none)
  | .loops => recordFields 16 loopFields (x.tables.loops.getD i none)
  | .mowers =>
    recordFields 6 (fun m => mowerFields m.node m.loop ++ ([(3, m.offset), (1, m.offsetValid.toNat)] : Fields))
      x.tables.mowers[i]?
  | .zones => recordFields 23 zoneFields (x.tables.zones.getD i none)
  | .channels => recordFields 25 channelFields (x.tables.channels.getD i none)
  | .shows => recordFields 11 showFields (x.tables.shows.getD i none)
  | .steps => recordFields 7 stepFields x.tables.steps[i]?
  | .lights => recordFields 15 lightFields (x.tables.lights.getD i none)
  | .loads => recordFields 6 (fun l => loadFields l.cls l.minDraw l.fullDraw l.node) x.tables.loads[i]?
  | .joiners | .nodeChanges | .mowerState | .zoneState | .channelState | .lightState | .grants | .counters => []

/-- The tables and views: number, entries, bytes of a written entry where one can be written, bytes of an entry of a
WORKING read (R156; 12_formats.md, Table entries). Entry 28 of GRANTS has 9 bytes; NODE_CHANGES is read in its own way. -/
def tableRows : List (Nat × Table × Nat × Option Nat × Nat) :=
  [(0, .site, 1, some 13, 13), (1, .slotmap, 64, some 4, 5), (2, .nodes, 48, some 6, 24), (3, .joiners, 4, some 9, 9),
    (4, .nodeChanges, 48, none, 0), (5, .loops, 4, some 16, 16), (6, .mowers, 4, some 2, 2), (7, .zones, 32, some 23, 23),
    (8, .channels, 8, some 25, 25), (9, .shows, 4, some 11, 22), (10, .steps, 96, some 7, 7), (11, .lights, 16, some 15, 15),
    (12, .loads, 28, some 6, 6), (16, .mowerState, 4, none, 34), (17, .zoneState, 32, none, 4),
    (18, .channelState, 8, none, 19), (19, .lightState, 16, none, 15), (20, .grants, 29, none, 5), (21, .counters, 1, none, 14)]

end Sys2Proof.Machine
end

