-- ==== Sys2Proof/Certificates/Slice0/Obligations.lean ====
section
/-! DEFINITION. The statements for the provers. A request is stated at a `Ready` state, where it is processed in the
handling in which it completes; a request that waits is processed by the same rule when its turn comes (R153). -/

open Sys2Proof Sys2Proof.Machine

/-! ### The queue of commands, the part -/

/-- A step does the command at the front of the queue with the queue's rest; with an empty queue it changes nothing
(the model's choice, log 7). -/
def Obligations.StepRunsTheFrontOfTheQueue : Prop :=
  ∀ s : State,
    (∀ (c : Instr) (rest : List Instr), s.pending = c :: rest → step s = exec c { s with pending := rest })
      ∧ (s.pending = [] → step s = .next s)

/-- Every command answers a next state, whatever the state, and leaves the queue of commands to the step. -/
def Obligations.EveryCommandKeepsTheQueue : Prop :=
  ∀ (c : Instr) (s : State), ∃ t, exec c s = .next t ∧ t.pending = s.pending

/-- The reset input and the loss of supply stop the line at once, in BREAK without a break count, discard the slot in
progress and cut off a store write (R10, R17, R167, R173; a write cut off leaves a free save count, log 14, log 24).
While the part is held or without supply no other command but start-up acts (the model's reading, log 8). -/
def Obligations.ResetAndLossOfSupplyStopThePart : Prop :=
  (∀ (c : Instr) (s : State), s.mode ≠ .on →
      ((c ≠ .resetAsserted ∧ c ≠ .startUp ∧ c ≠ .lossOfSupply) ∨ (c = .resetAsserted ∧ s.mode = .off)) →
        exec c s = .next s)
    ∧ ∀ (s : State) (c : Instr) (m : Mode),
      ((c = .resetAsserted ∧ m = .held ∧ s.mode ≠ .off) ∨ (c = .lossOfSupply ∧ m = .off)) →
        ∃ t, exec c s = .next t
          ∧ t.mode = m
          ∧ t.line = { s.line with state := .inBreak, breakCount := none, restartDue := false, rx := none }
          ∧ t.store.writing = none
          ∧ t.store.imageValid = s.store.imageValid
          ∧ t.store.busyCount = s.store.busyCount
          ∧ t.store.image = { s.store.image with saveCount := t.store.image.saveCount }
          ∧ ((∀ copy n, s.store.writing ≠ some (.save copy n)) → t.store.image = s.store.image ∧ t.free = s.free)
          ∧ t.nodes = s.nodes ∧ t.pos = s.pos ∧ t.zone = s.zone ∧ t.water = s.water ∧ t.light = s.light
          ∧ t.power = s.power ∧ t.mgmt = s.mgmt ∧ t.notices = s.notices ∧ t.pending = s.pending

/-- Start-up, whatever the state it meets: a part held, without supply or running (the model's reading, log 8), a write in
progress, which it cuts off (a save then leaves a free save count, log 14, log 24). Every table is filled from a valid
image and takes its empty or default values otherwise, and every block takes its power-on state: records PROVISIONED or
EMPTY; mowers ACQUIRING, UNREFERENCED or UNUSED; channels HELD or OFF, shows and cycles IDLE; groups offline at level 0,
with presence by the zone presence flag; every request and grant 0, the shed state reset; keepout sets empty; the store
IDLE. STORE_INVALID for an invalid image is the only notice. The line is in BREAK with a break count of 4 (R18, R36, R55,
R68, R83, R87, R107, R122, R136, R148, R166, R167, R173); nothing has been sent (log 32), and a show's loaded levels are 0
and its next step END (log 33). From the model's reset state, a store never saved (log 1), it changes nothing. -/
def Obligations.StartUpFillsTheTables : Prop :=
  exec .startUp State.reset = .next State.reset
    ∧ ∀ s : State, ∃ (t : State) (image : Image), exec .startUp s = .next t
      ∧ image = { s.store.image with saveCount := image.saveCount }
      ∧ ((∀ copy n, s.store.writing ≠ some (.save copy n)) → image = s.store.image)
      ∧ let good := image.valid
        let tables := if good then image.tables else Tables.blank
        t.mode = .on
          ∧ t.line = { State.reset.line with active := tables.slots, next := tables.slots }
          ∧ t.nodes
            = { recs :=
                  tables.nodes.map
                    (fun x => { Node.blank with ident := x, state := if x.isSome then .provisioned else .empty })
                joiners := [], overflow := 0 }
          ∧ t.pos
            = { loops := tables.loops
                mowers :=
                  tables.mowers.map
                    (fun m =>
                      { Mower.blank with
                        node := m.node, loop := m.loop, offset := m.offset, offsetValid := m.offsetValid
                        state :=
                          if m.node.isNone then .unused else if m.offsetValid then .acquiring else .unreferenced }) }
          ∧ t.zone.zones = tables.zones ∧ t.zone.dockAll = false ∧ t.zone.keep = [[], [], [], []]
          ∧ OccupancyLaw t ∧ PermitLaw t ∧ ZoneResultLaw t
          ∧ t.water
            = { channels :=
                  tables.channels.map
                    (fun r =>
                      { Channel.blank with
                        cfg := r
                        state := if r.any (fun x => x.node.isSome) then .held else .off
                        requested := (r.map (fun x => if x.kind = .filter then x.day else 0)).getD 0 })
                shows := tables.shows.map (fun r => { Player.blank with cfg := r })
                steps := tables.steps, pond := none, rain := false, dry := false }
          ∧ t.light.map LightGroup.cfg = tables.lights
          ∧ (∀ (i : Nat) (r : Option LightRec), tables.lights[i]? = some r →
            let lit := r.any (fun x => x.mode != .off)
            let flag := t.zone.presence.getD i false
            let scheduled := (r.map (fun x => if x.mode = .off then 0 else x.onLevel)).getD 0
            let target := if lit && flag then max scheduled ((r.map (fun x => x.presLevel)).getD 0) else scheduled
            let cap := if (loadAt t (8 + i)).fullDraw = 0 then 255 else 0
            groupAt t i
              = { LightGroup.blank with
                  cfg := r, dark := lit, presence := if flag then .active else .inactive
                  scheduled := scheduled, target := target, aim := min target cap, cap := cap })
          ∧ t.power
            = { loads :=
                  tables.loads.map
                    (fun l =>
                      { cls := l.cls, minDraw := l.minDraw, fullDraw := l.fullDraw, node := l.node, request := 0, grant := 0 })
                remainder := tables.site.budget, shed := false, cause := none, run := 0, measured := none }
          ∧ t.mgmt = { State.reset.mgmt with site := tables.site }
          ∧ t.notices
            = { list :=
                  if good then []
                  else
                    [{ kind := .storeInvalid, subject := none, minute := none, frame := 0
                       detail := if image.identity = Config.imageIdentity then 2 else 1 }]
                overflow := 0 }
          ∧ t.store = { s.store with image := image, imageValid := good, writing := none, busyCount := 0 }
          ∧ t.pending = s.pending

/-! ### The line -/

/-- While RUNNING, a frame start advances the frame number, applies the next map at a superframe start, forms the
header with the attention flag, the downstream management field and the check code, gives the frame event (the timers,
what follows from them, the ramps, the forward timer, the clock: their order is log 12), and then the fragment has gone.
Offered is the first that exists of the restart answer, the fragment of the outgoing message, the oldest JOIN ANSWER,
nothing. A fragment in the field is its lead byte, a byte of message number, index and last flag, a byte of its payload
length, and its payload, without a check code of its own; a message of up to 96 bytes is cut in order into fragments of 12,
indices upward, the last flag on the final one. A ramp step moves an online group by its rate and no further than its aim. A restart answer that has gone is
held no more, a fragment makes place for the next of its message, a JOIN ANSWER leaves the list and its record's answer
pending is reset (the frame still shelters a record whose answer pending was set, log 39) (R1, R2, R3, R9, R23, R131,
R153, R154, R160, R174). -/
def Obligations.FrameStartFormsTheHeader : Prop :=
  (∀ s : State, s.mode = .on → s.line.state = .running → s.line.restartDue = false →
      ∃ t, exec .frameStart s = .next t
        ∧ let n := (s.line.frame + 1) % 65536
          let flag := !s.notices.list.isEmpty || s.notices.overflow != 0
          let field := (offer s).field
          let head := [0x80#8] ++ beBytes 2 n ++ [BitVec.ofNat 8 ((if flag then 128 else 0) + n % 8)] ++ field
          let begun : State :=
            { s with
              line :=
                { s.line with
                  frame := n, state := .running, breakCount := none, rx := none, down := none
                  active := if n % 8 = 0 then s.line.next else s.line.active
                  attention := flag, field := field, header := head ++ [crc8 head] }
              nodes := { s.nodes with recs := s.nodes.recs.map (fun x => { x with answeredNow := false }) } }
          t = fragmentGone (offer s) (clockFrame (forwardFrame (rampAll (settle (frameTimers begun)))))
            ∧ t.line.frame = n ∧ t.line.state = .running ∧ t.line.breakCount = none
            ∧ t.line.active = (if n % 8 = 0 then s.line.next else s.line.active)
            ∧ t.line.attention = flag ∧ t.line.field = field ∧ t.line.header = head ++ [crc8 head]
            ∧ t.line.fragCount = s.line.fragCount ∧ t.line.checkErrCount = s.line.checkErrCount)
    ∧ (∀ s : State,
      (∀ f, s.mgmt.restartAnswer = some f → offer s = .restart f)
        ∧ (s.mgmt.restartAnswer = none →
          (∀ f fs, s.mgmt.proc = .sending (f :: fs) → offer s = .outgoing f)
            ∧ (∀ x f fs, s.mgmt.proc = .forwarding x (f :: fs) → offer s = .outgoing f)
            ∧ ((s.mgmt.proc = .idle ∨ ∃ x n, s.mgmt.proc = .waiting x n) →
              (∀ a as, s.mgmt.answers = a :: as → offer s = .answer a)
                ∧ (s.mgmt.answers = [] → offer s = .nothing))))
    ∧ (∀ f, (Offer.restart f).field = f.bytes ∧ (Offer.outgoing f).field = f.bytes)
    ∧ (∀ f : Fragment, f.dest < 64 →
      f.bytes
        = [BitVec.ofNat 8 (128 + f.dest), BitVec.ofNat 8 (f.number * 16 + f.index * 2 + if f.last then 1 else 0),
            BitVec.ofNat 8 (f.payload.length * 16)]
          ++ f.payload)
    ∧ (∀ (dest number : Nat) (bs : List Byte), bs.length ≤ 96 →
      let frags := fragments dest number bs
      (bs = [] → frags = [⟨dest, number, 0, true, []⟩])
        ∧ (bs ≠ [] → frags.length = (bs.length + 11) / 12)
        ∧ ∀ (i : Nat) (f : Fragment), frags[i]? = some f →
          f = ⟨dest, number, i, decide (i + 1 = frags.length), (bs.drop (12 * i)).take 12⟩)
    ∧ (∀ a,
      (Offer.answer a).field
        = [BitVec.ofNat 8 (128 + 63), 0x01#8, 0x60#8, 0x21#8] ++ beBytes 4 a.serial.toNat
          ++ beBytes 1 (a.address.getD 0))
    ∧ Offer.nothing.field = [0x00#8]
    ∧ (∀ (u : State) (i : Nat),
      let g := groupAt u i
      rampAll u = { u with light := (rampAll u).light }
        ∧ ((g.online = false ∨ g.current = g.aim) → groupAt (rampAll u) i = g)
        ∧ ∀ r, g.cfg = some r → g.online = true →
          let step := fun (whole frac : Nat) => whole + if 16 ≤ g.acc + frac then 1 else 0
          let rest := fun (frac : Nat) => if 16 ≤ g.acc + frac then g.acc + frac - 16 else g.acc + frac
          (g.current < g.aim →
              let level := min g.aim (g.current + step r.upInt r.upFrac)
              groupAt (rampAll u) i
                = { g with current := level, acc := if level = g.aim then 0 else rest r.upFrac })
            ∧ (g.aim < g.current →
              let level := max g.aim (g.current - step r.downInt r.downFrac)
              groupAt (rampAll u) i
                = { g with current := level, acc := if level = g.aim then 0 else rest r.downFrac }))
    ∧ ∀ u : State,
      (∀ f, fragmentGone (.restart f) u = { u with mgmt := { u.mgmt with restartAnswer := none } })
        ∧ (∀ f g fs, u.mgmt.proc = .sending (f :: g :: fs) →
          fragmentGone (.outgoing f) u = { u with mgmt := { u.mgmt with proc := .sending (g :: fs) } })
        ∧ (∀ x f g fs, u.mgmt.proc = .forwarding x (f :: g :: fs) →
          fragmentGone (.outgoing f) u = { u with mgmt := { u.mgmt with proc := .forwarding x (g :: fs) } })
        ∧ (∀ a,
          fragmentGone (.answer a) u
            = { u with
                mgmt := { u.mgmt with answers := u.mgmt.answers.filter (fun b => b.serial != a.serial) }
                nodes :=
                  { u.nodes with
                    recs :=
                      u.nodes.recs.map
                        (fun n =>
                          if n.ident.map NodeIdent.serial = some a.serial then
                            { n with answerPending := false, answeredNow := n.answeredNow || n.answerPending }
                          else n) } })
        ∧ fragmentGone .nothing u = u

/-- Each 20 ms period spent in BREAK takes one from the break count; at 0, and at a LINE_RESUME (the periods that remain
having passed, log 4), the line runs again with frame 0, which applies the next map (R9, R16). -/
def Obligations.BreakCountsDownAndResumesAtFrameZero : Prop :=
  ∀ (s : State) (n : Nat), s.mode = .on → s.line.state = .inBreak → s.line.breakCount = some n →
    (2 ≤ n → exec .frameStart s = .next { s with line := { s.line with breakCount := some (n - 1) } })
      ∧ ∀ c, ((c = .frameStart ∧ n ≤ 1) ∨ c = .lineResume) →
        ∃ t, exec c s = .next t
          ∧ t.line.frame = 0 ∧ t.line.state = .running ∧ t.line.breakCount = none ∧ t.line.active = s.line.next
          ∧ t.line.attention = (!s.notices.list.isEmpty || s.notices.overflow != 0)
          ∧ t.line.field = (offer s).field
          ∧ t.line.fragCount = s.line.fragCount ∧ t.line.checkErrCount = s.line.checkErrCount

/-- A line restart that is due is taken where the next frame would begin: BREAK with a break count of 4, every ACTIVE,
STALE and DROPPED record PROVISIONED, every mower bound to a MOWER node that had joined made STALE, partial assemblies and JOIN
ANSWERs gone, a FORWARD ended with NO_REPLY, the downstream management field without a fragment. A FRAME_START that finds
the restart due is the same entry (the model's reading, log 5) (R15, R18, R34, R52, R55, R154, R161). -/
def Obligations.LineBreakTakesTheNodesDown : Prop :=
  ∀ (s : State) (c : Instr), s.mode = .on → s.line.state = .running → s.line.restartDue = true →
    (c = .lineBreak ∨ c = .frameStart) →
      ∃ t, exec c s = .next t
        ∧ t.line
          = { s.line with state := .inBreak, breakCount := some 4, restartDue := false, rx := none, field := [0x00#8] }
        ∧ (∀ i, i < 48 →
          nodeAt t i
            = if (nodeAt s i).state = .active ∨ (nodeAt s i).state = .stale ∨ (nodeAt s i).state = .dropped then
                { nodeAt s i with state := .provisioned, code := none, cand := none, missed := 0, answerPending := false }
              else nodeAt s i)
        ∧ t.nodes.joiners = s.nodes.joiners ∧ t.nodes.overflow = s.nodes.overflow
        ∧ (∀ i n x, i < 4 → n < 48 → (mowerAt s i).node = some n → (nodeAt s n).ident = some x → x.kind = .mower →
          ((nodeAt s n).state = .active ∨ (nodeAt s n).state = .stale ∨ (nodeAt s n).state = .dropped) →
          (mowerAt s i).state ≠ .unused → (mowerAt s i).state ≠ .stale →
          (mowerAt t i).state = .stale ∧ (mowerAt t i).raw = none ∧ (mowerAt t i).computed = none
            ∧ (mowerAt t i).slip = 0 ∧ (mowerAt t i).acquire = 0
            ∧ (mowerAt t i).offset = (mowerAt s i).offset ∧ (mowerAt t i).offsetValid = (mowerAt s i).offsetValid)
        ∧ t.mgmt = { s.mgmt with ctx1 := none, ctx2 := none, joinCtx := none, answers := [], proc := t.mgmt.proc }
        ∧ (∀ f k, f.request.kind = some k →
          ((∃ frags, s.mgmt.proc = .forwarding f frags) ∨ ∃ n, s.mgmt.proc = .waiting f n) →
          Sends t f.request.origin k .noReply [])
        ∧ ((s.mgmt.proc = .idle ∨ ∃ frags, s.mgmt.proc = .sending frags) → t.mgmt.proc = s.mgmt.proc)
        ∧ t.store = s.store ∧ t.zone.dockAll = s.zone.dockAll ∧ t.water.steps = s.water.steps

/-- A line restart takes every cycle: one that runs enters ABORTING with cause LINE_RESTART, one that waits becomes IDLE
with that cause, an ABORTING one goes on; no latch moves. A FRAME_START that finds the restart due is the same entry (the
model's reading, log 5) (R121, R122). -/
def Obligations.LineBreakMovesTheCycles : Prop :=
  ∀ (s : State) (c : Instr), s.mode = .on → s.line.state = .running → s.line.restartDue = true → NodeLaw s →
    s.nodes.recs.length = 48 → s.water.channels.length = 8 → (c = .lineBreak ∨ c = .frameStart) →
      ∃ t, exec c s = .next t
        ∧ ∀ i, i < 8 →
          let a := channelAt s i
          let b := channelAt t i
          ((a.stage = .stopping ∨ a.stage = .reversing ∨ a.stage = .washing ∨ a.stage = .rinsing ∨ a.stage = .restoring) →
              b.stage = .aborting ∧ b.timer = 250 ∧ b.cause = 8)
            ∧ (a.stage = .aborting → b.stage = .aborting ∧ b.timer = a.timer ∧ b.cause = a.cause)
            ∧ (a.stage = .requested → b.stage = .idle ∧ b.cause = 8)
            ∧ (a.stage = .idle → b.stage = .idle ∧ b.cause = a.cause)
            ∧ b.cfg = a.cfg ∧ b.latch = a.latch ∧ b.count = a.count

/-! ### Slots -/

/-- Two placements overlap exactly when they are on one slot and some frame is served by both, and two entries of an
overlap-free active map never serve one slot in one frame. The placement that serves a slot in a frame is an entry of the
active map on that slot whose divisor leaves the phase as the remainder of the frame number, and there is none only when
no entry is such (R4, R6, R7). -/
def Obligations.OverlapIsServingOneFrame : Prop :=
  (∀ p q : Placement,
      (p.divisor = 1 ∨ p.divisor = 2 ∨ p.divisor = 4 ∨ p.divisor = 8) → p.phase < p.divisor →
      (q.divisor = 1 ∨ q.divisor = 2 ∨ q.divisor = 4 ∨ q.divisor = 8) → q.phase < q.divisor →
        (overlap p q = true
          ↔ p.slot = q.slot ∧ ∃ f, f < 65536 ∧ f % p.divisor = p.phase ∧ f % q.divisor = q.phase))
    ∧ (∀ (s : State) (i j : Nat) (p q : Placement), SlotLaw s → i ≠ j →
        s.line.active[i]? = some (some p) → s.line.active[j]? = some (some q) →
        (p.divisor = 1 ∨ p.divisor = 2 ∨ p.divisor = 4 ∨ p.divisor = 8) →
        (q.divisor = 1 ∨ q.divisor = 2 ∨ q.divisor = 4 ∨ q.divisor = 8) →
        s.line.frame % p.divisor = p.phase → s.line.frame % q.divisor = q.phase → p.slot ≠ q.slot)
    ∧ ∀ (s : State) (slot : Nat),
      (∀ p, placementFor slot s = some p →
          some p ∈ s.line.active ∧ p.slot = slot ∧ s.line.frame % p.divisor = p.phase)
        ∧ (placementFor slot s = none →
          ∀ p, some p ∈ s.line.active → p.slot = slot → s.line.frame % p.divisor ≠ p.phase)

/-- A node slot without a placement that applies, or whose record is neither ACTIVE nor STALE, carries the idle half, and
what is heard in it changes nothing; in BREAK no slot is served (R4, R15, R174). -/
def Obligations.IdleSlotsChangeNothing : Prop :=
  ∀ (s : State) (slot : Nat) (heard : Option (List Sampled)), s.mode = .on →
    (s.line.state = .running →
      (∀ p, placementFor slot s = some p → (nodeAt s p.node).state ≠ .active ∧ (nodeAt s p.node).state ≠ .stale) →
        exec (.nodeSlotEnd slot heard) s
          = .next { s with line := { s.line with down := some (slot, [0x80#8, 0x00#8, 0x00#8, 0x0B#8]), rx := none } })
      ∧ (s.line.state = .inBreak →
        exec (.nodeSlotEnd slot heard) s = .next s ∧ ∀ bids, exec (.managementSlotEnd slot bids) s = .next s)

/-- Each received bit is the value of two or more of its three samples, and the half is noisy if some bit's samples
differ; a half is a good sample exactly when it is six bytes that open with the lead mark and the address of the node
addressed and close with their check code (R10, R11, R174; another length is a failed check, log 18). -/
def Obligations.HalvesAreJudgedByTheirCheck : Prop :=
  (∀ (x : Sampled) (i : Nat), i < 8 →
      (Sampled.value x).getLsbD i
        = ((x.a.getLsbD i && x.b.getLsbD i) || (x.a.getLsbD i && x.c.getLsbD i) || (x.b.getLsbD i && x.c.getLsbD i)))
    ∧ (∀ x : Sampled, Sampled.noisy x = true ↔ ∃ i, i < 8 ∧ ¬ (x.a.getLsbD i = x.b.getLsbD i ∧ x.b.getLsbD i = x.c.getLsbD i))
    ∧ ∀ (address n : Nat) (half : List Sampled), address < 64 →
      let bs := half.map Sampled.value
      let w := ((bs.getD 1 0#8 ++ bs.getD 2 0#8) ++ (bs.getD 3 0#8 ++ bs.getD 4 0#8) : BitVec 32)
      let passes := bs.length = 6 ∧ bs.getD 0 0#8 = BitVec.ofNat 8 (128 + address) ∧ crc8 (bs.take 5) = bs.getD 5 0#8
      (passes → judgeHeard address n (some half) = .good (half.any Sampled.noisy) w)
        ∧ (¬ passes → judgeHeard address n (some half) = .failed)
        ∧ judgeHeard address n none = .silence

/-- The command sent to a node is that of the block that owns its kind: the strictest permit of the mower records that
name it and HOLD when none does, the lowest output, level or grant of the channels, groups or dock loads that name it and
the off command when none does, the empty command for the other kinds. The downstream half that carries it is the lead
byte with the node's address, the two command bytes and their check code; the idle half is that of address 0 with the
empty command (R4, R5, R85, R97, R125, R141, R174). -/
def Obligations.CommandsAreTheOwners : Prop :=
  (∀ (address : Nat) (command : List Byte), address < 64 →
      let head := [BitVec.ofNat 8 (128 + address)] ++ command
      halfBytes address command = head ++ [crc8 head])
    ∧ (∀ (k : NodeKind) (n : Nat) (s : State), (commandBytes k n s).length = 2)
    ∧ (idleHalf = halfBytes 0 [0x00#8, 0x00#8] ∧ idleHalf = [0x80#8, 0x00#8, 0x00#8, 0x0B#8])
    ∧ ∀ (s : State) (n : Nat),
    (∀ k, (k = .weather ∨ k = .level ∨ k = .motion ∨ k = .supply ∨ k = .gateway) →
        commandBytes k n s = [0x00#8, 0x00#8])
      ∧ ((∀ i, i < 4 → (mowerAt s i).node = some n → s.zone.permits.getD i none = none) →
        commandBytes .mower n s = [0x03#8, 0x00#8])
      ∧ (∀ i p, i < 4 → (mowerAt s i).node = some n → s.zone.permits.getD i none = some p →
        ∃ (j : Nat) (q : Permit), j < 4 ∧ (mowerAt s j).node = some n ∧ s.zone.permits.getD j none = some q
          ∧ p.number ≤ q.number ∧ commandBytes .mower n s = [BitVec.ofNat 8 q.number, 0x00#8])
      ∧ ((∀ c ∈ s.water.channels, ∀ r, c.cfg = some r → r.kind ≠ .valve → r.node ≠ some n) →
        commandBytes .pump n s = [0x00#8, 0x00#8])
      ∧ (∀ c ∈ s.water.channels, ∀ r, c.cfg = some r → r.kind ≠ .valve → r.node = some n →
        ∃ d ∈ s.water.channels, ∃ q, d.cfg = some q ∧ q.kind ≠ .valve ∧ q.node = some n ∧ d.output ≤ c.output
          ∧ commandBytes .pump n s = [BitVec.ofNat 8 d.output, 0x00#8])
      ∧ ((∃ c ∈ s.water.channels, ∃ r, c.cfg = some r ∧ r.kind = .valve ∧ r.node = some n ∧ c.requested = 1) →
        commandBytes .valve n s = [0x01#8, 0x00#8])
      ∧ ((∀ c ∈ s.water.channels, ∀ r, c.cfg = some r → r.kind = .valve → r.node = some n → c.requested ≠ 1) →
        commandBytes .valve n s = [0x00#8, 0x00#8])
      ∧ ((∀ g ∈ s.light, ∀ r, g.cfg = some r → r.node ≠ some n) → commandBytes .light n s = [0x00#8, 0x00#8])
      ∧ (∀ g ∈ s.light, ∀ r, g.cfg = some r → r.node = some n →
        ∃ h ∈ s.light, ∃ q, h.cfg = some q ∧ q.node = some n ∧ h.current ≤ g.current
          ∧ commandBytes .light n s = [BitVec.ofNat 8 h.current, 0x00#8])
      ∧ ((∀ j, j < 4 → (loadAt s (24 + j)).node ≠ some n) → commandBytes .dock n s = [0x00#8, 0x00#8])
      ∧ (∀ j, j < 4 → (loadAt s (24 + j)).node = some n →
        ∃ k, k < 4 ∧ (loadAt s (24 + k)).node = some n ∧ (loadAt s (24 + k)).grant ≤ (loadAt s (24 + j)).grant
          ∧ commandBytes .dock n s = beBytes 2 (loadAt s (24 + k)).grant)

/-- A good sample of a served record makes it ACTIVE, clears the missed count and answer pending, keeps the sample (0
in the bits its layout gives as sent 0, log 38) and its frame, and confirms its code or makes it the candidate; a code beyond
the last of the kind is taken as the first and counts a check error; the slot carried the node's command. A mower bound to
a MOWER node that was STALE leaves STALE, a confirmed change of the code is reported, what follows is settled, and the
sample is handed to the block that owns the kind. The reports: a STUCK mower posts MOWER_STUCK (with a free detail where
no code was confirmed before, log 14), a pump's fault code and a JAMMED valve set the latch of each channel that names the
node, with its notice, a lamp's fault code posts LAMP_FAULT for each group, a LEVEL node's low codes POND_LOW; where
several records name one node the notices join in increasing index (the model's choice, log 34). The hand-overs: each
mower in increasing index, settled after each; each FILTER channel's monitor smooths the differential and forms the
clogged flag; the supply node's draw moves the overload run, and the third over the budget sheds. The bits
that the layout gives as sent 0 change nothing in the handling, whatever their value (R4, R11, R21, R26 to R29,
R32, R46, R52, R54, R91, R98, R108, R109, R118, R134, R145, R146, R176). -/
def Obligations.GoodSampleUpdatesTheRecord : Prop :=
  let named := fun (k : NodeKind) (w : Content) => match k with
    | .mower => w.toNat / 64 * 64
    | .pump => w.toNat / 4096 * 4096
    | .dock => w.toNat / 1048576 * 1048576
    | .supply => w.toNat / 524288 * 524288
    | .gateway | .valve | .light | .weather | .level | .motion => 0
  (∀ (s : State) (slot : Nat) (heard : Option (List Sampled)) (p : Placement) (x : NodeIdent) (noisy : Bool) (w : Content),
    s.mode = .on → s.line.state = .running → placementFor slot s = some p →
    ((nodeAt s p.node).state = .active ∨ (nodeAt s p.node).state = .stale) → (nodeAt s p.node).ident = some x →
    judgeHeard x.address p.node heard = .good noisy w →
      ∃ t, exec (.nodeSlotEnd slot heard) s = .next t
        ∧ let n := nodeAt s p.node
          let m := nodeAt t p.node
          let beyond := x.kind.lastCode < w.toNat % 16
          let code := if beyond then 0 else w.toNat % 16
          m.ident = n.ident ∧ m.state = .active ∧ m.missed = 0 ∧ m.answerPending = false
            ∧ m.noise = (if noisy then inc16 n.noise else n.noise)
            ∧ m.checkErr = (if beyond then inc16 n.checkErr else n.checkErr)
            ∧ m.rejoin = n.rejoin
            ∧ m.sample = some (BitVec.ofNat 32 (named x.kind w + code))
            ∧ m.lastFrame = some s.line.frame
            ∧ (n.code = some code → m.code = n.code ∧ m.cand = none ∧ m.changes = n.changes)
            ∧ (n.code ≠ some code → n.cand = some code →
              m.code = some code ∧ m.cand = none
                ∧ m.changes
                  = (match n.changes with
                    | [] => [{ old := n.code, new := code, frame := s.line.frame }]
                    | a :: _ => [a, { old := n.code, new := code, frame := s.line.frame }]))
            ∧ (n.code ≠ some code → n.cand ≠ some code →
              m.code = n.code ∧ m.cand = some code ∧ m.changes = n.changes)
            ∧ (∀ k, k ≠ p.node → nodeAt t k = nodeAt s k)
            ∧ t.line
              = { s.line with
                  down := some (slot, halfBytes x.address (commandBytes x.kind p.node s)), rx := none }
            ∧ t.mgmt = s.mgmt ∧ t.zone.dockAll = s.zone.dockAll
            ∧ let found := fun (q : Mower) =>
                if q.node = some p.node ∧ x.kind = .mower ∧ n.state = .stale ∧ q.state = .stale then
                  { q with state := if q.offsetValid then .acquiring else .unreferenced, acquire := 0 }
                else q
              let taken : State :=
                { s with
                  line := t.line
                  nodes := { s.nodes with recs := s.nodes.recs.set p.node m }
                  pos := { s.pos with mowers := s.pos.mowers.map found } }
              t = handOver p.node x.kind w
                (settle (if m.code = n.code then taken else codeReport p.node x.kind n.code code taken)))
    ∧ (∀ (s : State) (slot : Nat) (one other : Option (List Sampled)) (p : Placement) (x : NodeIdent) (noisy : Bool)
        (v w : Content),
      placementFor slot s = some p → (nodeAt s p.node).ident = some x →
      judgeHeard x.address p.node one = .good noisy v → judgeHeard x.address p.node other = .good noisy w →
      named x.kind v = named x.kind w → v.toNat % 16 = w.toNat % 16 →
        exec (.nodeSlotEnd slot one) s = exec (.nodeSlotEnd slot other) s)
    ∧ (∀ (n code : Nat) (old : Option Nat) (u : State),
      let posts := fun (count : Nat) (named : Nat → Bool) (notice : Nat → Notice) =>
        (List.range count).foldl (fun l i => if named i then l.join (notice i) else l) u.notices
      let pumped := fun (c : Channel) => c.cfg.any (fun r => r.kind != .valve && r.node == some n)
      let valved := fun (c : Channel) => c.cfg.any (fun r => r.kind == .valve && r.node == some n)
      let lit := fun (g : LightGroup) => g.cfg.any (fun r => r.node == some n)
      (∃ detail : Nat → Nat, (∀ d i, old = some d → detail i = d)
          ∧ let t := codeReport n .mower old 4 u
            t = { u with notices := t.notices, free := t.free }
              ∧ t.notices
                = posts 4 (fun i => (mowerAt u i).node == some n) (fun i => noticeNow u .mowerStuck (some i) (detail i)))
        ∧ (code ≠ 4 → codeReport n .mower old code u = u)
        ∧ (code ≠ 0 →
          let t := codeReport n .pump old code u
          t = { u with water := { u.water with channels := t.water.channels }, notices := t.notices }
            ∧ (∀ i, i < 8 →
              channelAt t i = if pumped (channelAt u i) then { channelAt u i with latch := true } else channelAt u i)
            ∧ t.notices = posts 8 (fun i => pumped (channelAt u i)) (fun i => noticeNow u .pumpFault (some i) code))
        ∧ (let t := codeReport n .valve old 3 u
          t = { u with water := { u.water with channels := t.water.channels }, notices := t.notices }
            ∧ (∀ i, i < 8 →
              channelAt t i = if valved (channelAt u i) then { channelAt u i with latch := true } else channelAt u i)
            ∧ t.notices = posts 8 (fun i => valved (channelAt u i)) (fun i => noticeNow u .valveJammed (some i) 1))
        ∧ (code ≠ 3 → codeReport n .valve old code u = u)
        ∧ (code ≠ 0 →
          codeReport n .light old code u
            = { u with
                notices := posts 16 (fun g => lit (groupAt u g)) (fun g => noticeNow u .lampFault (some g) code) })
        ∧ (code ≠ 0 → u.mgmt.site.level = some n →
          codeReport n .level old code u
            = { u with notices := u.notices.join (noticeNow u .pondLow (some n) code) })
        ∧ (u.mgmt.site.level ≠ some n → codeReport n .level old code u = u)
        ∧ (∀ k, (k = .pump ∨ k = .light ∨ k = .level) → codeReport n k old 0 u = u)
        ∧ ∀ k, (k = .gateway ∨ k = .dock ∨ k = .weather ∨ k = .motion ∨ k = .supply) → codeReport n k old code u = u)
    ∧ (∀ (n : Nat) (w : Content) (u : State),
      handOver n .mower w u
          = (List.range 4).foldl
              (fun v i =>
                if (mowerAt v i).node = some n ∧ (mowerAt v i).state ≠ .stale ∧ (mowerAt v i).state ≠ .unused then
                  settle (mowerSample i w v)
                else v)
              u
        ∧ handOver n .pump w u
          = settle
              ((List.range 8).foldl
                (fun v i => if (channelAt v i).cfg.any (fun r => r.node == some n) then filterSample i w v else v) u)
        ∧ handOver n .supply w u = (if u.mgmt.site.supply = some n then settle (supplySample w u) else u)
        ∧ ∀ k, (k = .gateway ∨ k = .valve ∨ k = .light ∨ k = .dock ∨ k = .weather ∨ k = .level ∨ k = .motion) →
          handOver n k w u = u)
    ∧ (∀ (i : Nat) (w : Content) (u : State),
      let c := channelAt u i
      let takes := fun (r : ChannelRec) =>
        c.cfg = some r ∧ r.kind = .filter ∧ c.latch = false ∧ (c.stage = .idle ∨ c.stage = .requested)
          ∧ ∃ y, LiveNode u r.node .pump y ∧ y.code ≠ none
      ((∀ r, ¬ takes r) → filterSample i w u = u)
        ∧ ∀ r, takes r →
          let d := w.toNat / 4194304 - w.toNat / 4096 % 1024
          let f := match c.filt with
            | none => 16 * d
            | some f => f - f / 16 + d
          let on := if c.clogged then decide (min r.clear r.clog ≤ f / 16) else decide (r.clog ≤ f / 16)
          filterSample i w u
            = { u with
                water :=
                  { u.water with channels := u.water.channels.set i { c with filt := some f, clogged := on } }
                notices :=
                  if on && !c.clogged then u.notices.join (noticeNow u .filterClogged (some i) (f / 16)) else u.notices })
    ∧ ∀ (w : Content) (u : State),
      let draw := w.toNat / 524288
      let run := if u.mgmt.site.budget < draw then min 3 (u.power.run + 1) else 0
      ((run ≠ 3 ∨ u.power.shed = true) →
          supplySample w u = { u with power := { u.power with measured := some draw, run := run } })
        ∧ (run = 3 → u.power.shed = false →
          supplySample w u
            = { u with
                power :=
                  { u.power with measured := some draw, run := run, shed := true, cause := some .overrun }
                notices := u.notices.join (noticeNow u .overloadShed u.mgmt.site.supply draw) })

/-- A missed sample of a served record clears its candidate and counts: at 8 an ACTIVE record is STALE, at 250 a STALE
one is DROPPED; while answer pending is set, or its JOIN ANSWER went in this frame with answer pending still set (the
model's reading, log 39), nothing of this happens; a half whose check fails counts a check error in either case. A mower
bound to a MOWER node that so becomes STALE is made STALE, without a raw or a last computed position, its slip and acquire
counts 0 and its last flags clear; no other mower changes (R11, R23, R30, R52, R56). -/
def Obligations.MissedSampleCounts : Prop :=
  ∀ (s : State) (slot : Nat) (heard : Option (List Sampled)) (p : Placement) (x : NodeIdent),
    s.mode = .on → s.line.state = .running → placementFor slot s = some p →
    ((nodeAt s p.node).state = .active ∨ (nodeAt s p.node).state = .stale) → (nodeAt s p.node).ident = some x →
    (judgeHeard x.address p.node heard = .failed ∨ judgeHeard x.address p.node heard = .silence) →
      ∃ t, exec (.nodeSlotEnd slot heard) s = .next t
        ∧ let n := nodeAt s p.node
          let errors := if judgeHeard x.address p.node heard = .failed then inc16 n.checkErr else n.checkErr
          nodeAt t p.node
            = (if n.answerPending = true ∨ n.answeredNow = true then { n with checkErr := errors }
              else
                { n with
                  checkErr := errors, cand := none, missed := n.missed + 1
                  state :=
                    if n.state = .active then (if 8 ≤ n.missed + 1 then .stale else .active)
                    else if 250 ≤ n.missed + 1 then .dropped else .stale })
            ∧ (∀ k, k ≠ p.node → nodeAt t k = nodeAt s k)
            ∧ (∀ i,
              let m := mowerAt s i
              let lost := x.kind = .mower ∧ n.state = .active ∧ (nodeAt t p.node).state = .stale
                ∧ m.node = some p.node ∧ m.state ≠ .stale ∧ m.state ≠ .unused
              (lost →
                  mowerAt t i
                    = { m with
                        state := .stale, raw := none, computed := none, slip := 0, acquire := 0, lastMarker := false
                        lastDock := false })
                ∧ (¬ lost → mowerAt t i = m))
            ∧ t.pos.loops = s.pos.loops
            ∧ t.line
              = { s.line with
                  down := some (slot, halfBytes x.address (commandBytes x.kind p.node s)), rx := none }
            ∧ t.mgmt = s.mgmt ∧ t.zone.dockAll = s.zone.dockAll

/-- A management slot without a bidder changes nothing; a fragment whose check fails counts only in the check error
count, one that passes counts in the fragment count. A fragment passes when it opens with the lead mark and the address of
the arbitration field, holds as many payload bytes as its length field says, and closes with the check code of the bytes
before that; another length is a failed check (the model's reading, log 18). A fragment that passes gives its message
number, index, last flag, length and payload, whatever the bits sent 0. The check code is the CRC-8 of R175. Both counts are
16-bit and saturating, are 0 after start-up, are left by a line restart and by a load as they stand, and open the COUNTERS
view (R13, R14, R174, R175). -/
def Obligations.ManagementSlotsCountTheirFragments : Prop :=
  let count := fun (n : Nat) => if n < 65535 then n + 1 else 65535
  (∀ (s : State) (slot : Nat) (bids : List Bid), s.mode = .on → s.line.state = .running →
      (bids = [] → exec (.managementSlotEnd slot bids) s = .next s)
        ∧ ∀ w, contend bids = some w →
          (readFragment w.address (w.half.map Sampled.value) = none →
            exec (.managementSlotEnd slot bids) s
              = .next { s with line := { s.line with checkErrCount := count s.line.checkErrCount } })
            ∧ ∀ f, readFragment w.address (w.half.map Sampled.value) = some f →
              ∃ t, exec (.managementSlotEnd slot bids) s = .next t ∧ t.line.fragCount = count s.line.fragCount
                ∧ t.line.checkErrCount = s.line.checkErrCount)
    ∧ (∀ s t, exec .startUp s = .next t → t.line.fragCount = 0 ∧ t.line.checkErrCount = 0)
    ∧ (∀ (s t : State) (c : Instr), (c = .lineBreak ∨ c = .frameStart ∨ c = .lineResume ∨ ∃ o, c = .loadTables o) →
      exec c s = .next t → t.line.fragCount = s.line.fragCount ∧ t.line.checkErrCount = s.line.checkErrCount)
    ∧ (∀ s, (workingEntry s .counters 0).take 4 = beBytes 2 s.line.fragCount ++ beBytes 2 s.line.checkErrCount)
    ∧ (∀ (address : Nat) (bs : List Byte), address < 64 →
      let first := bs.getD 1 0#8
      let length := ((bs.getD 2 0#8).extractLsb' 4 4).toNat
      let passes := bs.length = length + 4 ∧ bs.getD 0 0#8 = BitVec.ofNat 8 (128 + address)
        ∧ bs.getD (length + 3) 0#8 = crc8 (bs.take (length + 3))
      (passes →
          readFragment address bs
            = some
                { number := (first.extractLsb' 4 4).toNat, index := (first.extractLsb' 1 3).toNat
                  last := first.getLsbD 0, length := length, payload := (bs.drop 3).take length })
        ∧ (¬ passes → readFragment address bs = none))
    ∧ (∀ bids w, contend bids = some w → w.address < 64)
    ∧ let step := fun (c : Byte) => if c.getLsbD 7 then (c <<< 1) ^^^ 0x07#8 else c <<< 1
      crc8 [] = 0x00#8 ∧ (∀ (bs : List Byte) (b : Byte), crc8 (bs ++ [b]) = step^[8] (crc8 bs ^^^ b))
        ∧ crc8 [0x80#8] = 0x89#8 ∧ crc8 [0x80#8, 0x00#8] = 0xB6#8 ∧ crc8 [0x80#8, 0x00#8, 0x00#8] = 0x0B#8

/-- The winner of a management slot is the bidder whose address and serial, read as one 38-bit number, are lowest. When
no other bidder drives that pair, the half received is its fragment and the address and serial received are what two or
more of the three samples of each bit of its arbitration field give: with a field that carries its own pair, that pair
(R10, R12; how several bidders of one pair drive the line together is log 17). -/
def Obligations.TheLowestPairWins : Prop :=
  ∀ bids : List Bid,
    let pair := fun (b : Bid) => b.address % 64 * 4294967296 + b.serial.toNat
    (contend bids = none ↔ bids = [])
      ∧ ∀ w, contend bids = some w →
        ∃ b ∈ bids, (∀ d ∈ bids, pair b ≤ pair d)
          ∧ ((bids.filter (fun d => decide (pair d = pair b))).length = 1 →
            w.half = b.fragment
              ∧ (∀ i, i < 38 →
                (w.address * 4294967296 + w.serial.toNat).testBit i
                  = ((b.arbitration.a.getLsbD i && b.arbitration.b.getLsbD i)
                    || (b.arbitration.a.getLsbD i && b.arbitration.c.getLsbD i)
                    || (b.arbitration.b.getLsbD i && b.arbitration.c.getLsbD i)))
              ∧ ((PairSampled.value b.arbitration).toNat = pair b →
                w.address = b.address % 64 ∧ w.serial = b.serial))

/-- A JOIN from address 63 in one fragment. With the serial and the kind of a record: the record becomes ACTIVE with
answer pending set, code and candidate none and the missed count 0, the rejoin count counts if it was ACTIVE or STALE,
and the answer with its address is given: it takes the place of one for the same serial, else joins a list of fewer than 8,
else is dropped. NODE_JOINED is posted, and it joins before any notice that another block posts on the report (the order
among the blocks, which R163 leaves open, is the model's choice, log 9). A record still waiting for its answer is only
answered again, without a notice (for a STALE record, log 35). With a serial no record holds it draws no answer: a joiner
listed under it takes the kind and the latest frame, else it joins the unknown-joiner list with UNKNOWN_JOINER while that
has room, else the joiner-overflow count counts. With the serial but not the kind of a record, and with a kind value that is
none of the ten, it is answered REFUSED with JOIN_REFUSED and changes no record. A join that makes a MOWER record ACTIVE
takes every STALE mower bound to it to ACQUIRING with acquire count 0, or to UNREFERENCED where its offset is not valid; no
other mower changes, and a join taken while the node is ACTIVE, a refused one and an unknown one change none (R22, R23, R24,
R52, R154, R163). -/
def Obligations.JoinsMakeRecordsActive : Prop :=
  ∀ (s : State) (slot : Nat) (bids : List Bid) (w : Won) (f : UpFragment) (v : Byte),
    s.mode = .on → s.line.state = .running → contend bids = some w → w.address = 63 →
    readFragment w.address (w.half.map Sampled.value) = some f → f.index = 0 → f.last = true →
    f.length = 2 → f.payload = [0x20#8, v] →
    (∀ g frags, s.mgmt.proc = .forwarding g frags → g.target ≠ 63) →
    (∀ g n, s.mgmt.proc = .waiting g n → g.target ≠ 63) →
      let unheld := ∀ n ∈ s.nodes.recs, ∀ y, n.ident = some y → y.serial ≠ w.serial
      let holder := fun (i : Nat) (x : NodeIdent) =>
        i < s.nodes.recs.length ∧ (nodeAt s i).ident = some x ∧ x.serial = w.serial
          ∧ ∀ j y, j < i → (nodeAt s j).ident = some y → y.serial ≠ w.serial
      let given := fun (a : JoinAnswer) =>
        if ∃ b ∈ s.mgmt.answers, b.serial = a.serial then
          s.mgmt.answers.map (fun b => if b.serial = a.serial then a else b)
        else if s.mgmt.answers.length < 8 then s.mgmt.answers ++ [a]
        else s.mgmt.answers
      let refuses := fun (subject : Option Nat) =>
        ∃ t, exec (.managementSlotEnd slot bids) s = .next t
          ∧ t.nodes = s.nodes ∧ t.pos = s.pos ∧ t.mgmt.answers = given { serial := w.serial, address := none }
          ∧ t.notices = s.notices.join (noticeNow s .joinRefused subject v.toNat)
      (∀ k : NodeKind, v = BitVec.ofNat 8 k.number →
          (∀ (i : Nat) (x : NodeIdent), holder i x → x.kind = k →
              ∃ t, exec (.managementSlotEnd slot bids) s = .next t
                ∧ t.mgmt.answers = given { serial := x.serial, address := some x.address }
                ∧ (let n := nodeAt s i
                  let again := (n.state = .active ∨ n.state = .stale) ∧ n.answerPending = true
                  let rejoin := if n.state = .active ∨ n.state = .stale then inc16 n.rejoin else n.rejoin
                  nodeAt t i
                      = (if again then n
                        else
                          { n with
                            state := .active, answerPending := true, missed := 0, cand := none, code := none
                            rejoin := rejoin })
                    ∧ (again → t.notices = s.notices)
                    ∧ (¬ again →
                      ∃ more : List Notice,
                        t.notices
                          = more.foldl (fun l y => l.join y) (s.notices.join (noticeNow s .nodeJoined (some i) rejoin)))
                    ∧ t.pos.loops = s.pos.loops
                    ∧ ∀ j,
                      let m := mowerAt s j
                      let found := x.kind = .mower ∧ ¬ again ∧ n.state ≠ .active ∧ m.node = some i ∧ m.state = .stale
                      (found →
                          mowerAt t j
                            = { m with state := if m.offsetValid then .acquiring else .unreferenced, acquire := 0 })
                        ∧ (¬ found → mowerAt t j = m))
                ∧ (∀ j, j ≠ i → nodeAt t j = nodeAt s j)
                ∧ t.nodes.joiners = s.nodes.joiners
                ∧ t.mgmt.queue = s.mgmt.queue ∧ t.mgmt.proc = s.mgmt.proc)
            ∧ (∀ (i : Nat) (x : NodeIdent), holder i x → x.kind ≠ k → refuses (some i))
            ∧ (unheld →
              ∃ t, exec (.managementSlotEnd slot bids) s = .next t
                ∧ t.nodes.recs = s.nodes.recs ∧ t.pos = s.pos ∧ t.mgmt.answers = s.mgmt.answers
                ∧ let list := s.nodes.joiners
                  let listed := ∃ j ∈ list, j.serial = w.serial
                  (listed →
                      t.nodes.joiners
                          = list.map
                              (fun j => if j.serial = w.serial then { j with kind := k.number, latest := s.line.frame } else j)
                        ∧ t.nodes.overflow = s.nodes.overflow ∧ t.notices = s.notices)
                    ∧ (¬ listed → list.length < 4 →
                      t.nodes.joiners
                          = list
                            ++ [{ serial := w.serial, kind := k.number, first := s.line.frame, latest := s.line.frame }]
                        ∧ t.nodes.overflow = s.nodes.overflow
                        ∧ t.notices
                          = s.notices.join
                              (noticeNow s .unknownJoiner (some list.length) (w.serial.toNat % 65536)))
                    ∧ (¬ listed → 4 ≤ list.length →
                      t.nodes.joiners = list ∧ t.nodes.overflow = inc16 s.nodes.overflow ∧ t.notices = s.notices)))
        ∧ (10 ≤ v.toNat → refuses none)

/-! ### Requests: queue, reads -/

/-- A request that completes while the processor is busy joins the tail of the queue while it holds fewer than 4, takes
the held position when that is free, and replaces the held request otherwise, which is lost with QUEUE_OVERRUN and counted
(R152). When the last fragment of a response has gone the processor becomes IDLE and takes the oldest request, the held one
joining the tail, and goes on to the next only while a processed request leaves it IDLE (R153). -/
def Obligations.BusyProcessorQueuesTheRequest : Prop :=
  (∀ (c : Instr) (r : Request) (s : State), s.mode = .on → asRequest c = some r → s.mgmt.proc ≠ .idle →
    (s.mgmt.queue.length < 4 →
        exec c s = .next { s with mgmt := { s.mgmt with queue := s.mgmt.queue ++ [r] } })
      ∧ (s.mgmt.queue.length = 4 → s.mgmt.heldReq = none →
        exec c s = .next { s with mgmt := { s.mgmt with heldReq := some r } })
      ∧ ∀ lost, s.mgmt.queue.length = 4 → s.mgmt.heldReq = some lost →
        exec c s
          = .next
              { s with
                mgmt := { s.mgmt with heldReq := some r, overrun := inc16 s.mgmt.overrun }
                notices :=
                  s.notices.join
                    { kind := .queueOverrun, subject := some lost.origin.address
                      minute := if s.mgmt.clock.valid then some s.mgmt.clock.minute else none
                      frame := s.line.frame, detail := lost.origin.number } })
    ∧ ∀ (f : Fragment) (s : State), s.mgmt.proc = .sending [f] →
      (s.mgmt.queue = [] → fragmentGone (.outgoing f) s = { s with mgmt := { s.mgmt with proc := .idle } })
        ∧ ∀ r q, s.mgmt.queue = r :: q →
          let t :=
            process r
              { s with
                mgmt := { s.mgmt with proc := .idle, queue := q ++ s.mgmt.heldReq.toList, heldReq := none } }
          fragmentGone (.outgoing f) s = serveUpTo 5 t ∧ (t.mgmt.proc ≠ .idle → fragmentGone (.outgoing f) s = t)

/-- READ STATUS is answered DONE with the 17 bytes of the status view and changes nothing else (R165). -/
def Obligations.ReadStatusGivesTheStatusView : Prop :=
  ∀ (o : Origin) (s : State), Ready s →
    exec (.readStatus o) s
      = .next
          (answer o 1#8 .done
            (beBytes 2 s.line.frame ++ [if s.line.state = .running then 0x00#8 else 0x01#8]
              ++ beBytes 2 s.mgmt.clock.minute ++ [if s.mgmt.clock.valid then 0x01#8 else 0x00#8, 0x00#8, 0x00#8]
              ++ [BitVec.ofNat 8 s.notices.list.length] ++ beBytes 2 s.notices.overflow
              ++ [if s.store.writing.isSome then 0x01#8 else 0x00#8, if s.store.imageValid then 0x01#8 else 0x00#8,
                if s.power.shed then 0x01#8 else 0x00#8, if s.zone.dockAll then 0x01#8 else 0x00#8,
                BitVec.ofNat 8 (s.nodes.recs.filter (fun n => n.state == .active)).length,
                if s.mgmt.site.privileged = [] then 0x01#8 else 0x00#8])
            s)

/-- The tests of a read in their order: the space, the table, a table the image does not hold, the store WRITING, the
image not valid, an index above the size. That a space which is neither value is refused before the table is looked at is
the model's reading (log 43), as is a refusal's answer without a body (log 19) (R155, R156, R157, R170). -/
def Obligations.ReadsAreRefusedInOrder : Prop :=
  ∀ (o : Origin) (c : Instr) (k : Byte) (space table first count : Nat) (s : State), Ready s →
    ((c = .readEntries o space table first count ∧ k = 2#8)
      ∨ (c = .continueRead o count ∧ k = 3#8 ∧ s.mgmt.readPtr = some ⟨space, table, first⟩)) →
      (1 < space → exec c s = .next (answer o k .malformed [] s))
        ∧ (space ≤ 1 → Table.ofNumber table = none → exec c s = .next (answer o k .noSuchTable [] s))
        ∧ ∀ t, Table.ofNumber table = some t →
          (space = 1 → t.inImage = false → exec c s = .next (answer o k .noSuchTable [] s))
            ∧ (space = 1 → t.inImage = true → s.store.writing.isSome = true →
              exec c s
                = .next
                    (answer o k .busy [] { s with store := { s.store with busyCount := inc16 s.store.busyCount } }))
            ∧ (space = 1 → t.inImage = true → s.store.writing = none → s.store.imageValid = false →
              exec c s = .next (answer o k .wrongState [] s))
            ∧ ((space = 0 ∨ (space = 1 ∧ t.inImage = true ∧ s.store.writing = none ∧ s.store.imageValid = true)) →
              t.size < first → exec c s = .next (answer o k .outOfRange [] s))

/-- A read that is not refused answers DONE, or DONE_CLAMPED for a count of 0, with the space, the table and the tagged
entries from the first index on: as many as asked for, whole ones only, none beyond the table's end and as many as the
response holds; at the size the end marker alone. The read pointer moves past the last entry, nothing else changes (R156,
R157, R176). A CONTINUE READ without a pointer is refused with WRONG_STATE, without a body (the model's reading, log
19). The tables and views have the numbers, sizes and lengths of `tableRows`, and their entries hold the fields of
`workingFields` and `storedFields`, each most significant byte first: an empty record reads as FFH bytes (log 13), the byte
of a cap that does not hold and of an absent shed cause is a free value (log 14), a spray cap of a channel that is no
FOUNTAIN is shown as not holding (log 41), an empty zone record as not active (log 48), an emptied show with its player's
fields (log 51) (R37, R94, R108, R148, R156, R167, R174, R176; 12_formats.md, Table entries). -/
def Obligations.ReadsGiveARunOfEntries : Prop :=
  (∀ n v, beBytes n v = (List.range n).map (fun k => BitVec.ofNat 8 (v / 256 ^ (n - 1 - k))))
    ∧ (∀ (s : State) (t : Table) (i : Nat),
      workingEntry s t i = (workingFields s t i).bytes ∧ storedEntry s.store.image t i = (storedFields s.store.image t i).bytes)
    ∧ (∀ row ∈ tableRows,
      Table.ofNumber row.1 = some row.2.1 ∧ row.2.1.size = row.2.2.1 ∧ row.2.1.written = row.2.2.2.1
        ∧ ∀ s i, (workingEntry s row.2.1 i).length = if row.2.1 = .grants ∧ 28 ≤ i then 9 else row.2.2.2.2)
    ∧ (∀ (n : Nat) (t : Table), Table.ofNumber n = some t → ∃ row ∈ tableRows, row.1 = n ∧ row.2.1 = t)
    ∧ (∀ t : Table,
      t.inImage = true
        ↔ t ≠ .joiners ∧ ∃ row ∈ tableRows, row.2.1 = t ∧ row.2.2.2.1.isSome = true)
    ∧ (∀ (o : Origin) (count : Nat) (s : State), Ready s → s.mgmt.readPtr = none →
      exec (.continueRead o count) s = .next (answer o 3#8 .wrongState [] s))
    ∧ ∀ (o : Origin) (c : Instr) (k : Byte) (space table first count : Nat) (t : Table) (s : State), Ready s →
      ((c = .readEntries o space table first count ∧ k = 2#8)
        ∨ (c = .continueRead o count ∧ k = 3#8 ∧ s.mgmt.readPtr = some ⟨space, table, first⟩)) →
      Table.ofNumber table = some t → t ≠ .nodeChanges →
      (space = 0 ∨ (space = 1 ∧ t.inImage = true ∧ s.store.writing = none ∧ s.store.imageValid = true)) →
      first ≤ t.size →
        let entry := fun i => if space = 1 then storedEntry s.store.image t i else workingEntry s t i
        let one := fun i => [BitVec.ofNat 8 (i + if i + 1 = t.size then 128 else 0)] ++ entry i
        let status := if count = 0 then .doneClamped else .done
        let room := 92 - (if o.address = 63 then 4 else 0)
        ∃ next,
          exec c s
              = .next
                  (answer o k status
                    ([BitVec.ofNat 8 space, BitVec.ofNat 8 table]
                      ++ if first = t.size then [BitVec.ofNat 8 (128 + t.size)]
                        else (List.range (next - first)).flatMap (fun j => one (first + j)))
                    { s with mgmt := { s.mgmt with readPtr := some ⟨space, table, next⟩ } })
            ∧ first ≤ next ∧ next ≤ t.size ∧ next - first ≤ max count 1
            ∧ ((List.range (next - first)).flatMap (fun j => one (first + j))).length ≤ room
            ∧ (next = t.size ∨ next - first = max count 1
              ∨ room < ((List.range (next + 1 - first)).flatMap (fun j => one (first + j))).length)

/-- The change list of a record holds the oldest and the latest change: a third takes the place of the second. A read
of NODE_CHANGES, under either name or by a CONTINUE READ whose pointer stands there, gives the record's changes, oldest
first, the end marker on the last, and empties that list only; an empty list gives the tag alone, with the index that R176
gives a response without entries (the model's reading, log 37). It is answered DONE_CLAMPED for a count of 0 and DONE for
any other (that a count above 1, taken as 1, is no clamping is the model's reading, log 44). At index 48 the tag alone is
sent and the pointer stays; above it the read is refused, without a body (the model's reading, log 19) (R29, R156, R157,
R176). -/
def Obligations.ReadNodeChangesEmptiesTheList : Prop :=
  (∀ c : Change, enterChange c [] = [c] ∧ (∀ a, enterChange c [a] = [a, c]) ∧ ∀ a b, enterChange c [a, b] = [a, c])
    ∧ ∀ (o : Origin) (command : Instr) (k : Byte) (record count : Nat) (s : State), Ready s →
      ((command = .readNodeChanges o record count ∧ k = 2#8)
        ∨ (command = .readEntries o 0 4 record count ∧ k = 2#8)
        ∨ (command = .continueRead o count ∧ k = 3#8 ∧ s.mgmt.readPtr = some ⟨0, 4, record⟩)) →
        let status := if count = 0 then .doneClamped else .done
        let tag := BitVec.ofNat 8 record
        let last := BitVec.ofNat 8 (128 + record)
        let bytes := fun (c : Change) =>
          (match c.old with
            | none => [0xFF#8]
            | some v => beBytes 1 v)
            ++ beBytes 1 c.new ++ beBytes 2 c.frame
        let body := match (nodeAt s record).changes with
          | [] => [BitVec.ofNat 8 (128 + 48)]
          | [c] => last :: bytes c
          | [c, d] => (tag :: bytes c) ++ (last :: bytes d)
          | _ => []
        (record < 48 → (nodeAt s record).changes.length ≤ 2 →
            exec command s
              = .next
                  (answer o k status ([0x00#8, 0x04#8] ++ body)
                    { setNode record (fun n => { n with changes := [] }) s with
                      mgmt := { s.mgmt with readPtr := some ⟨0, 4, record + 1⟩ } }))
          ∧ (record = 48 →
            exec command s
              = .next
                  (answer o k status [0x00#8, 0x04#8, BitVec.ofNat 8 (128 + 48)]
                    { s with mgmt := { s.mgmt with readPtr := some ⟨0, 4, 48⟩ } }))
          ∧ (48 < record → exec command s = .next (answer o k .outOfRange [] s))

/-! ### Requests: entry writes -/

/-- A WRITE ENTRIES is refused whole for a space that is none, a table that is none, the STORED space, a view, or a
length that does not fit; otherwise its entries are written one after another by the rule of their table, each status is
reported, and the overall status is that of the first entry refused, else DONE_CLAMPED if one was clamped (R155, R158).
That the space is judged before the table is the model's reading (log 43), as is the answer of a request refused whole,
which has no body (log 19). -/
def Obligations.WriteEntriesReportsEachEntry : Prop :=
  (∀ (o : Origin) (space table first count : Nat) (bytes : List Byte) (s : State), Ready s →
      let c := Instr.writeEntries o space table first count bytes
      (1 < space → exec c s = .next (answer o 4#8 .malformed [] s))
        ∧ (space ≤ 1 → Table.ofNumber table = none → exec c s = .next (answer o 4#8 .noSuchTable [] s))
        ∧ ∀ t, Table.ofNumber table = some t →
          (space = 1 → exec c s = .next (answer o 4#8 .notPermitted [] s))
            ∧ (space = 0 → t.written = none → exec c s = .next (answer o 4#8 .notPermitted [] s))
            ∧ ∀ len, space = 0 → t.written = some len →
              (bytes.length ≠ count * len → exec c s = .next (answer o 4#8 .malformed [] s))
                ∧ (bytes.length = count * len →
                  let entries := (List.range count).filterMap
                    (fun j => readEntry t (first + j) ((bytes.drop (j * len)).take len))
                  let x := writeAll entries s
                  entries.length = count ∧ x.2.length = count
                    ∧ exec c s = .next (answer o 4#8 (overall x.2) (x.2.flatMap (fun st => beBytes 1 st.number)) x.1)))
    ∧ (∀ e es s,
      writeAll (e :: es) s
        = ((writeAll es (writeEntry e s).1).1, (writeEntry e s).2 :: (writeAll es (writeEntry e s).1).2))
    ∧ ∀ sts : List Status,
      ((∀ st ∈ sts, st = .done) → overall sts = .done)
        ∧ ((∀ st ∈ sts, st = .done ∨ st = .doneClamped) → .doneClamped ∈ sts → overall sts = .doneClamped)
        ∧ ∀ before st after, sts = before ++ st :: after → (∀ x ∈ before, x = .done ∨ x = .doneClamped) →
          st ≠ .done → st ≠ .doneClamped → overall sts = st

/-- WRITE_SLOTMAP: an entry or node index beyond its table is refused, the numeric fields are clamped, an overlap with
another entry of the next map is refused, and otherwise the next map takes the placement; the active map stays (R8). -/
def Obligations.WriteSlotmapFollowsItsRule : Prop :=
  ∀ (o : Origin) (i : Nat) (s : State), Ready s →
    (63 < i → ∀ w, exec (.writeSlotmap o i w) s = .next (writeAnswer o .outOfRange s))
      ∧ (i ≤ 63 →
        exec (.writeSlotmap o i none) s
          = .next (writeAnswer o .done { s with line := { s.line with next := s.line.next.set i none } }))
      ∧ ∀ w : SlotWrite, i ≤ 63 →
        (47 < w.node → exec (.writeSlotmap o i (some w)) s = .next (writeAnswer o .outOfRange s))
          ∧ (w.node ≤ 47 →
            let slot := if w.slot < 1 then 1 else if 28 < w.slot then 28 else w.slot
            let divisor := if w.divisor = 0 then 1 else if w.divisor = 3 then 4 else if 5 ≤ w.divisor then 8 else w.divisor
            let phase := if divisor - 1 < w.phase then divisor - 1 else w.phase
            let p : Placement := { slot := slot, divisor := divisor, phase := phase, node := w.node }
            let status := if slot = w.slot ∧ divisor = w.divisor ∧ phase = w.phase then .done else .doneClamped
            ((∃ (j : Nat) (q : Placement), j ≠ i ∧ s.line.next[j]? = some (some q) ∧ p.slot = q.slot
                ∧ p.phase % min p.divisor q.divisor = q.phase % min p.divisor q.divisor) →
              exec (.writeSlotmap o i (some w)) s = .next (writeAnswer o .conflict s))
              ∧ ((∀ (j : Nat) (q : Placement), j ≠ i → s.line.next[j]? = some (some q) → p.slot = q.slot →
                  p.phase % min p.divisor q.divisor ≠ q.phase % min p.divisor q.divisor) →
                exec (.writeSlotmap o i (some w)) s
                  = .next
                      (writeAnswer o status
                        { s with line := { s.line with next := s.line.next.set i (some p) } })))

/-- WRITE_NODES: the refusals in their order, the address clamped, a record that keeps its identity left as it is, any
other re-provisioned with every kept field cleared; an accepted write takes its serial out of the unknown-joiner list
(R20, R25). -/
def Obligations.WriteNodesFollowsItsRule : Prop :=
  ∀ (o : Origin) (i : Nat) (s : State), Ready s → s.nodes.recs.length = 48 →
    (47 < i → ∀ w, exec (.writeNodes o i w) s = .next (writeAnswer o .outOfRange s))
      ∧ (i ≤ 47 → (nodeAt s i).state = .active ∨ (nodeAt s i).state = .stale →
        exec (.writeNodes o i none) s = .next (writeAnswer o .wrongState s))
      ∧ (i ≤ 47 → (nodeAt s i).state ≠ .active → (nodeAt s i).state ≠ .stale →
        ∃ t, exec (.writeNodes o i none) s = .next t ∧ Sends t o 4#8 .done [0x00#8]
          ∧ t.nodes = { s.nodes with recs := s.nodes.recs.set i { Node.blank with ident := none, state := .empty } }
          ∧ t.line = s.line)
      ∧ ∀ w : NodeWrite, i ≤ 47 →
        (NodeKind.ofNumber w.kind = none →
            exec (.writeNodes o i (some w)) s = .next (writeAnswer o .malformed s))
          ∧ ∀ kind, NodeKind.ofNumber w.kind = some kind →
            let address := if w.address = 0 then 1 else if 63 ≤ w.address then 62 else w.address
            let x : NodeIdent := { address := address, serial := w.serial, kind := kind }
            let status := if address = w.address then .done else .doneClamped
            let served := (nodeAt s i).state = .active ∨ (nodeAt s i).state = .stale
            let taken := ∃ j y, j < 48 ∧ j ≠ i ∧ (nodeAt s j).ident = some y ∧ (y.serial = x.serial ∨ y.address = x.address)
            let list := s.nodes.joiners.filter (fun j => j.serial != x.serial)
            (served → (nodeAt s i).ident ≠ some x →
                exec (.writeNodes o i (some w)) s = .next (writeAnswer o .wrongState s))
              ∧ ((¬ served ∨ (nodeAt s i).ident = some x) → taken →
                exec (.writeNodes o i (some w)) s = .next (writeAnswer o .conflict s))
              ∧ ((nodeAt s i).ident = some x → ¬ taken →
                exec (.writeNodes o i (some w)) s
                  = .next (writeAnswer o status { s with nodes := { s.nodes with joiners := list } }))
              ∧ (¬ served → (nodeAt s i).ident ≠ some x → ¬ taken →
                ∃ t, exec (.writeNodes o i (some w)) s = .next t
                  ∧ Sends t o 4#8 status [BitVec.ofNat 8 status.number]
                  ∧ t.nodes
                    = { s.nodes with
                        recs := s.nodes.recs.set i { Node.blank with ident := some x, state := .provisioned }
                        joiners := list }
                  ∧ t.line = s.line)

/-- WRITE_JOINERS: a position of 4 or more is refused with OUT_OF_RANGE (before the value is looked at, log 29), a value
with NOT_PERMITTED; the empty value takes the entry out, and those behind it move up (R25). -/
def Obligations.WriteJoinersTakesAnEntryOut : Prop :=
  ∀ (o : Origin) (i : Nat) (s : State), Ready s →
    (3 < i → ∀ b, exec (.writeJoiners o i b) s = .next (writeAnswer o .outOfRange s))
      ∧ (i ≤ 3 → exec (.writeJoiners o i false) s = .next (writeAnswer o .notPermitted s))
      ∧ (i ≤ 3 →
        exec (.writeJoiners o i true) s
          = .next
              (writeAnswer o .done
                { s with
                  nodes := { s.nodes with joiners := s.nodes.joiners.take i ++ s.nodes.joiners.drop (i + 1) } }))

/-- WRITE_LOOPS: the refusals; the clamps with N1 first and a tolerance of 0 taken as 1024; an equal record changes
nothing; a changed one is a loop change for every mower that names the loop, after the zone bounds were limited if N1
changed; an empty record is only put in use; the empty value is a loop change for the mowers that name the loop (R38, R39,
R76). -/
def Obligations.WriteLoopsFollowsItsRule : Prop :=
  ∀ (o : Origin) (i : Nat) (s : State), Ready s →
    let change := fun (m : Mower) =>
      if m.loop = i then
        { m with
          offset := 0, offsetValid := false, capA := none, capB := none, locked := false, verified := false, raw := none
          computed := none, reported := 0, lastFrame := none, slip := 0, acquire := 0, lastMarker := false
          lastDock := false
          state := if m.state = .stale ∨ m.state = .unused then m.state else .unreferenced }
      else m
    let named := (∃ m ∈ s.pos.mowers, m.node.isSome = true ∧ m.loop = i)
      ∨ ∃ z ∈ s.zone.zones, ∃ r, z = some r ∧ r.loop = i
    (3 < i → ∀ w, exec (.writeLoops o i w) s = .next (writeAnswer o .outOfRange s))
      ∧ (i ≤ 3 → named → exec (.writeLoops o i none) s = .next (writeAnswer o .wrongState s))
      ∧ (i ≤ 3 → ¬ named →
        exec (.writeLoops o i none) s
          = .next
              (writeAnswer o .done
                (settle
                  { s with pos := { loops := s.pos.loops.set i none, mowers := s.pos.mowers.map change } })))
      ∧ ∀ w : LoopWrite, i ≤ 3 →
        let n1 := clampTo 4 64 w.n1
        let top := n1 * 4096 - 1
        let l : LoopRec :=
          { n1 := n1, tolerance := if w.tolerance = 0 then 1024 else clampTo 64 1536 w.tolerance
            jump := clampTo 1 1023 w.jump, body := min w.body 4095, dock := min w.dock top, dockPreset := w.dockPreset
            persist := w.persist, verify := w.verify, spacing := clampTo 1 top w.spacing
            spacingTol := min w.spacingTol 4095 }
        let kept := l.n1 = w.n1 ∧ (w.tolerance = 0 ∨ l.tolerance = w.tolerance) ∧ l.jump = w.jump ∧ l.body = w.body
          ∧ l.dock = w.dock ∧ l.spacing = w.spacing ∧ l.spacingTol = w.spacingTol
        let status := if kept then .done else .doneClamped
        (s.pos.loops.getD i none = none →
            exec (.writeLoops o i (some w)) s
              = .next
                  (writeAnswer o status (settle { s with pos := { s.pos with loops := s.pos.loops.set i (some l) } })))
          ∧ (s.pos.loops.getD i none = some l →
            exec (.writeLoops o i (some w)) s = .next (writeAnswer o status s))
          ∧ ∀ old, s.pos.loops.getD i none = some old → old ≠ l →
            exec (.writeLoops o i (some w)) s
              = .next
                  (writeAnswer o status
                    (settle
                      { s with
                        pos := { loops := s.pos.loops.set i (some l), mowers := s.pos.mowers.map change }
                        zone :=
                          { s.zone with
                            zones :=
                              if old.n1 = l.n1 then s.zone.zones
                              else
                                s.zone.zones.map
                                  (fun z => z.map
                                    (fun r => if r.loop = i then
                                      { r with first := min r.first top, last := min r.last top } else r)) } }))

/-- WRITE_MOWERS: the refusals; a new loop index is a loop change; the node index none makes the record UNUSED, another
node index drops the capture pair and the positions and makes it ACQUIRING or UNREFERENCED if that record is an ACTIVE
MOWER node, STALE if not; any change of the two makes the positions absent and the last marker and dock flags clear;
what is left as it stood changes nothing (R39, R41, R56). -/
def Obligations.WriteMowersFollowsItsRule : Prop :=
  ∀ (o : Origin) (i : Nat) (w : MowerWrite) (s : State), Ready s →
    let badNode := ∃ n, w.node = some n ∧ 47 < n
    let badLoop := 3 < w.loop ∨ s.pos.loops.getD w.loop none = none
    ((3 < i ∨ badNode ∨ badLoop) → exec (.writeMowers o i w) s = .next (writeAnswer o .outOfRange s))
      ∧ (i ≤ 3 → ¬ badNode → ¬ badLoop → ∀ m, s.pos.mowers[i]? = some m →
        ∃ m', exec (.writeMowers o i w) s
            = .next (writeAnswer o .done (settle { s with pos := { s.pos with mowers := s.pos.mowers.set i m' } }))
          ∧ m'.loop = w.loop ∧ m'.node = w.node
          ∧ (m.loop = w.loop → m.node = w.node → m' = m)
          ∧ (m.loop ≠ w.loop → m'.offset = 0 ∧ m'.offsetValid = false ∧ m'.reported = 0 ∧ m'.lastFrame = none
            ∧ m'.capA = none ∧ m'.capB = none ∧ m'.locked = false ∧ m'.verified = false)
          ∧ (m.loop ≠ w.loop → m.node = w.node →
            m'.state = if m.state = .stale ∨ m.state = .unused then m.state else .unreferenced)
          ∧ (m.loop = w.loop → m'.offset = m.offset ∧ m'.offsetValid = m.offsetValid ∧ m'.reported = m.reported
            ∧ m'.lastFrame = m.lastFrame)
          ∧ ((m.loop ≠ w.loop ∨ m.node ≠ w.node) →
            m'.raw = none ∧ m'.computed = none ∧ m'.slip = 0 ∧ m'.acquire = 0 ∧ m'.lastMarker = false
              ∧ m'.lastDock = false)
          ∧ (m.node ≠ w.node → w.node = none → m'.state = .unused)
          ∧ (m.loop = w.loop → w.node = none →
            m'.capA = m.capA ∧ m'.capB = m.capB ∧ m'.locked = m.locked ∧ m'.verified = m.verified)
          ∧ (∀ n, m.node ≠ w.node → w.node = some n →
            m'.capA = none ∧ m'.capB = none ∧ m'.locked = false ∧ m'.verified = false
              ∧ m'.state
                = if (∃ x, (nodeAt s n).ident = some x ∧ x.kind = .mower) ∧ (nodeAt s n).state = .active then
                    (if m'.offsetValid = true then .acquiring else .unreferenced)
                  else .stale)
          ∧ m'.dir = m.dir ∧ m'.debounce = m.debounce ∧ m'.unsaved = m.unsaved ∧ m'.slips = m.slips
          ∧ m'.missedMarkers = m.missedMarkers ∧ m'.mismatches = m.mismatches)

/-- WRITE_ZONES: the refusals in their order, the empty value, the clamps to the loop's length and to 16383; every
accepted write is followed at once by the recomputation (R71, R76). -/
def Obligations.WriteZonesFollowsItsRule : Prop :=
  ∀ (o : Origin) (i : Nat) (s : State), Ready s →
    let used := ∃ c ∈ s.water.channels, ∃ r, c.cfg = some r ∧ r.kind = .filter ∧ r.discharge = i ∧ c.stage ≠ .idle
    (31 < i → ∀ w, exec (.writeZones o i w) s = .next (writeAnswer o .outOfRange s))
      ∧ (i ≤ 31 → used → ∀ w, exec (.writeZones o i w) s = .next (writeAnswer o .wrongState s))
      ∧ (i ≤ 31 → ¬ used →
        exec (.writeZones o i none) s
          = .next
              (writeAnswer o .done (settle { s with zone := { s.zone with zones := s.zone.zones.set i none } })))
      ∧ ∀ w : ZoneWrite, i ≤ 31 → ¬ used →
        ((ZoneKind.ofNumber w.kind = none ∨ ActiveWhen.ofNumber w.activeWhen = none) →
            exec (.writeZones o i (some w)) s = .next (writeAnswer o .malformed s))
          ∧ ∀ kind activeWhen, ZoneKind.ofNumber w.kind = some kind → ActiveWhen.ofNumber w.activeWhen = some activeWhen →
            let bad := 3 < w.loop ∨ s.pos.loops.getD w.loop none = none ∨ (∃ c ∈ w.channels, 7 < c) ∨ 7 < w.filter
              ∨ (∃ g ∈ w.groups, 15 < g) ∨ 3 < w.showIx
            (bad → exec (.writeZones o i (some w)) s = .next (writeAnswer o .outOfRange s))
              ∧ (¬ bad → ∀ l, s.pos.loops.getD w.loop none = some l →
                let top := l.n1 * 4096 - 1
                let z : ZoneRec :=
                  { kind := kind, loop := w.loop, first := min w.first top, last := min w.last top
                    lookahead := min w.lookahead 16383, assume := w.assume, activeWhen := activeWhen
                    filter := w.filter, showIx := w.showIx, channels := w.channels, cap := w.cap, groups := w.groups }
                let status := if z.first = w.first ∧ z.last = w.last ∧ z.lookahead = w.lookahead then .done
                  else .doneClamped
                exec (.writeZones o i (some w)) s
                  = .next
                      (writeAnswer o status
                        (settle { s with zone := { s.zone with zones := s.zone.zones.set i (some z) } })))

/-- WRITE_CHANNELS: the refusals in their order, the empty value, the clamps with the minimum level lowered to the
maximum. A change of the kind or the node index resets the fault latch and unsets F; where F stays set the clogged flag is
formed again with the new thresholds, and its setting posts FILTER_CLOGGED; everything that follows is then settled, the
channel's state and levels among it (R89, R96, R108, R109). -/
def Obligations.WriteChannelsFollowsItsRule : Prop :=
  ∀ (o : Origin) (i : Nat) (s : State), Ready s → s.water.channels.length = 8 →
    let a := channelAt s i
    let put := fun (c : Channel) (l : Notices) =>
      settle { s with water := { s.water with channels := s.water.channels.set i c }, notices := l }
    let used := a.stage ≠ .idle
      ∨ ∃ c ∈ s.water.channels, ∃ r, c.cfg = some r ∧ r.kind = .filter ∧ r.valve = i ∧ c.stage ≠ .idle
    (7 < i → ∀ w, exec (.writeChannels o i w) s = .next (writeAnswer o .outOfRange s))
      ∧ (i ≤ 7 → used → ∀ w, exec (.writeChannels o i w) s = .next (writeAnswer o .wrongState s))
      ∧ (i ≤ 7 → ¬ used →
        exec (.writeChannels o i none) s
          = .next
              (writeAnswer o .done
                (put
                  (if a.cfg = none then a else { a with cfg := none, latch := false, filt := none, clogged := false })
                  s.notices)))
      ∧ ∀ w : ChannelWrite, i ≤ 7 → ¬ used →
        (ChannelKind.ofNumber w.kind = none →
            exec (.writeChannels o i (some w)) s = .next (writeAnswer o .malformed s))
          ∧ ∀ kind, ChannelKind.ofNumber w.kind = some kind →
            let bad := (∃ n, w.node = some n ∧ 47 < n) ∨ 7 < w.valve ∨ 31 < w.discharge
            (bad → exec (.writeChannels o i (some w)) s = .next (writeAnswer o .outOfRange s))
              ∧ (¬ bad →
                let top := min w.maxLevel 255
                let r : ChannelRec :=
                  { kind := kind, node := w.node, minLevel := min (min w.minLevel 255) top, maxLevel := top
                    day := min w.day 255, night := min w.night 255, nightStart := min w.nightStart 1439
                    nightEnd := min w.nightEnd 1439, clog := min w.clog 1023, clear := min w.clear 1023
                    auto := w.auto, valve := w.valve, backwash := min w.backwash 255, rinse := min w.rinse 255
                    stopFrames := clampTo 1 65535 w.stopFrames, washFrames := clampTo 1 65535 w.washFrames
                    rinseFrames := clampTo 1 65535 w.rinseFrames, discharge := w.discharge }
                let kept := r.minLevel = w.minLevel ∧ r.maxLevel = w.maxLevel ∧ r.day = w.day ∧ r.night = w.night
                  ∧ r.nightStart = w.nightStart ∧ r.nightEnd = w.nightEnd ∧ r.clog = w.clog ∧ r.clear = w.clear
                  ∧ r.backwash = w.backwash ∧ r.rinse = w.rinse ∧ r.stopFrames = w.stopFrames
                  ∧ r.washFrames = w.washFrames ∧ r.rinseFrames = w.rinseFrames
                let status := if kept then .done else .doneClamped
                let same := a.cfg.map (fun x => (x.kind, x.node)) = some (r.kind, r.node)
                let c := if same then { a with cfg := some r }
                  else { a with cfg := some r, latch := false, filt := none, clogged := false }
                let accepts := fun (clogged : Bool) (l : Notices) =>
                  exec (.writeChannels o i (some w)) s
                    = .next (writeAnswer o status (put { c with clogged := clogged } l))
                (c.filt = none → accepts false s.notices)
                  ∧ ∀ f, c.filt = some f →
                    (c.clogged = true → accepts (decide (min r.clear r.clog ≤ f / 16)) s.notices)
                      ∧ (c.clogged = false → f / 16 < r.clog → accepts false s.notices)
                      ∧ (c.clogged = false → r.clog ≤ f / 16 →
                        accepts true (s.notices.join (noticeNow s .filterClogged (some i) (f / 16)))))

/-- WRITE_SHOWS and WRITE_STEPS: the refusals in their order, the clamps; a show's record is replaced while it is IDLE, a
step at any time, and a show that has the step loaded keeps its copy. That an emptied record keeps
its player's loaded levels, loaded next and loops done is log 51 (R101). -/
def Obligations.WriteShowsAndStepsFollowTheirRules : Prop :=
  ∀ (o : Origin) (i : Nat) (s : State), Ready s →
    (3 < i → ∀ w, exec (.writeShows o i w) s = .next (writeAnswer o .outOfRange s))
      ∧ (i ≤ 3 → (playerAt s i).state ≠ .idle →
        ∀ w, exec (.writeShows o i w) s = .next (writeAnswer o .wrongState s))
      ∧ (i ≤ 3 → (playerAt s i).state = .idle →
        exec (.writeShows o i none) s
          = .next (writeAnswer o .done (settle (setPlayer i (fun p => { p with cfg := none }) s))))
      ∧ (∀ w : ShowWrite, i ≤ 3 → (playerAt s i).state = .idle →
        let bad := (∃ c ∈ w.channels, 7 < c) ∨ 95 < w.first
        let clash := ¬ w.channels.Nodup
          ∨ ∃ (j : Nat) (r : ShowRec) (c : Nat), j < 4 ∧ j ≠ i ∧ (playerAt s j).cfg = some r ∧ c ∈ r.channels
            ∧ c ∈ w.channels
        let r : ShowRec :=
          { channels := w.channels, first := w.first, loopCount := min w.loopCount 65535
            startMin := w.startMin.map (fun m => min m 1439), stopMin := w.stopMin.map (fun m => min m 1439) }
        let status := if r.loopCount = w.loopCount ∧ r.startMin = w.startMin ∧ r.stopMin = w.stopMin then .done
          else .doneClamped
        (bad → exec (.writeShows o i (some w)) s = .next (writeAnswer o .outOfRange s))
          ∧ (¬ bad → clash → exec (.writeShows o i (some w)) s = .next (writeAnswer o .conflict s))
          ∧ (¬ bad → ¬ clash →
            exec (.writeShows o i (some w)) s
              = .next (writeAnswer o status (settle (setPlayer i (fun p => { p with cfg := some r }) s)))))
      ∧ ∀ w : StepWrite,
        let bad := 95 < i ∨ ∃ n, w.next = some n ∧ 95 < n
        let l : Levels := ⟨min w.levels.l0 255, min w.levels.l1 255, min w.levels.l2 255, min w.levels.l3 255⟩
        let d := clampTo 1 65535 w.duration
        let status := if l = w.levels ∧ d = w.duration then .done else .doneClamped
        (bad → exec (.writeSteps o i w) s = .next (writeAnswer o .outOfRange s))
          ∧ (¬ bad →
            exec (.writeSteps o i w) s
              = .next
                  (writeAnswer o status
                    { s with
                      water :=
                        { s.water with
                          steps := s.water.steps.set i { levels := l, duration := d, next := w.next } } }))

/-- WRITE_LIGHTS: the refusals in their order, the clamps; a change of the node index, or the empty value, sets the
current level and the accumulator to 0 and forms the online state anew; the empty value also makes presence INACTIVE with
the timer stopped and the evening phase EARLY (R124, R125). -/
def Obligations.WriteLightsFollowsItsRule : Prop :=
  ∀ (o : Origin) (i : Nat) (s : State), Ready s →
    (15 < i → ∀ w, exec (.writeLights o i w) s = .next (writeAnswer o .outOfRange s))
      ∧ (i ≤ 15 →
        exec (.writeLights o i none) s
          = .next
              (writeAnswer o .done
                (settle
                  (setGroup i
                    (fun g =>
                      { g with
                        cfg := none, online := false, current := 0, acc := 0, presence := .inactive, hold := 0
                        evening := .early })
                    s))))
      ∧ ∀ w : LightWrite, i ≤ 15 →
        (LightMode.ofNumber w.mode = none →
            exec (.writeLights o i (some w)) s = .next (writeAnswer o .malformed s))
          ∧ ∀ mode, LightMode.ofNumber w.mode = some mode →
            let bad := (∃ n, w.node = some n ∧ 47 < n) ∨ ∃ n ∈ w.motion, 47 < n
            let r : LightRec :=
              { node := w.node, mode := mode, onLevel := min w.onLevel 255, lateLevel := min w.lateLevel 255
                lateMin := min w.lateMin 1439, offMin := min w.offMin 1439, presLevel := min w.presLevel 255
                presHold := min w.presHold 65535, motion := w.motion, upInt := min w.upInt 15, upFrac := min w.upFrac 15
                downInt := min w.downInt 15, downFrac := min w.downFrac 15 }
            let kept := r.onLevel = w.onLevel ∧ r.lateLevel = w.lateLevel ∧ r.lateMin = w.lateMin
              ∧ r.offMin = w.offMin ∧ r.presLevel = w.presLevel ∧ r.presHold = w.presHold ∧ r.upInt = w.upInt
              ∧ r.upFrac = w.upFrac ∧ r.downInt = w.downInt ∧ r.downFrac = w.downFrac
            let status := if kept then .done else .doneClamped
            (bad → exec (.writeLights o i (some w)) s = .next (writeAnswer o .outOfRange s))
              ∧ (¬ bad →
                exec (.writeLights o i (some w)) s
                  = .next
                      (writeAnswer o status
                        (settle
                          (setGroup i
                            (fun g =>
                              if g.cfg.map (fun x => x.node) = some r.node then { g with cfg := some r }
                              else { g with cfg := some r, online := false, current := 0, acc := 0 })
                            s))))

/-- WRITE_LOADS: the refusals in their order, the clamps with the minimum draw lowered to the full draw, and the new
record taken in its own handling (R139). -/
def Obligations.WriteLoadsFollowsItsRule : Prop :=
  ∀ (o : Origin) (i : Nat) (s : State), Ready s →
    (27 < i → ∀ w, exec (.writeLoads o i w) s = .next (writeAnswer o .outOfRange s))
      ∧ (i ≤ 27 → exec (.writeLoads o i none) s = .next (writeAnswer o .malformed s))
      ∧ ∀ w : LoadWrite, i ≤ 27 →
        let bad := ∃ n, w.node = some n ∧ 47 < n
        let cls := min w.cls 3
        let full := min w.fullDraw 4000
        let low := min (min w.minDraw 4000) full
        let status := if cls = w.cls ∧ full = w.fullDraw ∧ low = w.minDraw then .done else .doneClamped
        (bad → exec (.writeLoads o i (some w)) s = .next (writeAnswer o .outOfRange s))
          ∧ (¬ bad →
            exec (.writeLoads o i (some w)) s
              = .next
                  (writeAnswer o status
                    (settle
                      { s with
                        power :=
                          { s.power with
                            loads :=
                              s.power.loads.modify i
                                (fun l => { l with cls := cls, minDraw := low, fullDraw := full, node := w.node }) } })))

/-- WRITE_SITE: the refusals, the clamps with the limits put back to 8 and 250, the overload run 0 on a change of the
budget or the supply node, and a context emptied when the address it serves changes, the beginning and the end of the open
state being such a change for context 1 (the model's reading, log 46) (R145, R149, R150, R159). -/
def Obligations.WriteSiteFollowsItsRule : Prop :=
  ∀ (o : Origin) (i : Nat) (s : State), Ready s →
    (0 < i → ∀ w, exec (.writeSite o i w) s = .next (writeAnswer o .outOfRange s))
      ∧ exec (.writeSite o 0 none) s = .next (writeAnswer o .malformed s)
      ∧ ∀ w : SiteWrite,
        let bad := (∃ n, w.weather = some n ∧ 47 < n) ∨ (∃ n, w.level = some n ∧ 47 < n) ∨ ∃ n, w.supply = some n ∧ 47 < n
        let x : Site :=
          { privileged := w.privileged.map (clampTo 1 62), budget := min w.budget 8000, weather := w.weather
            level := w.level, supply := w.supply, dusk := min w.dusk 1439, dawn := min w.dawn 1439, staleLimit := 8
            dropLimit := 250 }
        let kept := x.privileged = w.privileged ∧ x.budget = w.budget ∧ x.dusk = w.dusk ∧ x.dawn = w.dawn
          ∧ w.staleLimit = 8 ∧ w.dropLimit = 250
        let status := if kept then .done else .doneClamped
        let old := s.mgmt.site
        let second : List Nat → Option Nat := fun l => match l with
          | a :: b :: _ => if a = b then none else some b
          | _ => none
        (bad → exec (.writeSite o 0 (some w)) s = .next (writeAnswer o .outOfRange s))
          ∧ (¬ bad →
            exec (.writeSite o 0 (some w)) s
              = .next
                  (writeAnswer o status
                    (settle
                      { s with
                        power :=
                          { s.power with
                            run := if old.budget = x.budget ∧ old.supply = x.supply then s.power.run else 0 }
                        mgmt :=
                          { s.mgmt with
                            site := x
                            ctx1 := if old.privileged.head? = x.privileged.head? then s.mgmt.ctx1 else none
                            ctx2 := if second old.privileged = second x.privileged then s.mgmt.ctx2 else none } })))

/-! ### Requests: notices, clock, store -/

/-- TAKE NOTICES takes up to 4 notices from the head of the list and answers DONE with them, oldest first, the number
left and the overflow count; one that finds the list empty then sets that count to 0, one that finds notices leaves it.
A notice posted later goes to the tail and waits (R164). -/
def Obligations.TakeNoticesRemovesUpToFour : Prop :=
  let stamp := fun (n : Nat) (v : Option Nat) => match v with
    | none => List.replicate n 0xFF#8
    | some x => beBytes n x
  let bytes := fun (n : Notice) =>
    beBytes 1 n.kind.number ++ stamp 1 n.subject ++ stamp 2 n.minute ++ beBytes 2 n.frame ++ beBytes 2 n.detail
  (∀ (o : Origin) (s : State), Ready s →
      let l := s.notices.list
      exec (.takeNotices o) s
        = .next
            (answer o 5#8 .done
              (beBytes 1 (l.length - 4) ++ beBytes 2 s.notices.overflow ++ (l.take 4).flatMap bytes)
              { s with
                notices := { list := l.drop 4, overflow := if l = [] then 0 else s.notices.overflow } }))
    ∧ ∀ (n : Notice) (l : Notices), l.list.length < 16 → l.join n = { l with list := l.list ++ [n] }

/-- SET CLOCK, its minute clamped to 1439, sets the minute, the frame count to 0 and the valid flag; each frame event
counts while the clock is valid, and the frame count's reaching 3000 advances the minute, 1439 being followed by 0. Each
is a change of the minute of day for the shows' schedules and the groups' evening phases, an empty group's minutes reading
0. A MINUTE_ADVANCE at any other
count, or in BREAK, changes nothing (log 3); a group that becomes dark at the minute judged is dark first and then judged
(log 22) (R1, R105, R123, R126, R127, R162). -/
def Obligations.ClockSetsAndAdvancesTheMinute : Prop :=
  (∀ (o : Origin) (minute : Nat) (s : State), Ready s → ConditionLaw s →
      ∃ t, exec (.setClock o minute) s = .next t
        ∧ Sends t o 6#8 (if 1439 < minute then .doneClamped else .done) []
        ∧ MinuteTaken (if 1439 < minute then 1439 else minute) s t)
    ∧ (∀ s : State, s.mode = .on →
      (s.line.state = .running → s.mgmt.clock.valid = true → 2999 ≤ s.mgmt.clock.count → ConditionLaw s →
          ∃ t, exec .minuteAdvance s = .next t ∧ MinuteTaken ((s.mgmt.clock.minute + 1) % 1440) s t
            ∧ t.mgmt.proc = s.mgmt.proc)
        ∧ ((s.line.state = .inBreak ∨ s.mgmt.clock.valid = false ∨ s.mgmt.clock.count < 2999) →
          exec .minuteAdvance s = .next s))
    ∧ ∀ u : State,
      (u.mgmt.clock.valid = false → clockFrame u = u)
        ∧ (u.mgmt.clock.valid = true → u.mgmt.clock.count < 2999 →
          clockFrame u
            = { u with mgmt := { u.mgmt with clock := { u.mgmt.clock with count := u.mgmt.clock.count + 1 } } })
        ∧ (u.mgmt.clock.valid = true → 2999 ≤ u.mgmt.clock.count → ConditionLaw u →
          MinuteTaken ((u.mgmt.clock.minute + 1) % 1440) u (clockFrame u)
            ∧ (clockFrame u).mgmt.proc = u.mgmt.proc)

/-- SAVE TABLES while the store is WRITING is refused with BUSY and counted; while it is IDLE it is answered ACCEPTED,
the working tables are copied as they stand with the save count they will hold, the slot map as the next map, and the
validity mark is cleared (R167, R169, R170; that the identity is written as the write begins is log 24). -/
def Obligations.SaveTablesCopiesTheTables : Prop :=
  ∀ (o : Origin) (s : State), Ready s →
    let copy : Tables :=
      { site := s.mgmt.site, slots := s.line.next, nodes := s.nodes.recs.map (fun n => n.ident), loops := s.pos.loops
        mowers := s.pos.mowers.map
          (fun m => { node := m.node, loop := m.loop, offset := m.offset, offsetValid := m.offsetValid })
        zones := s.zone.zones, channels := s.water.channels.map (fun c => c.cfg)
        shows := s.water.shows.map (fun p => p.cfg), steps := s.water.steps, lights := s.light.map (fun g => g.cfg)
        loads := s.power.loads.map
          (fun l => { cls := l.cls, minDraw := l.minDraw, fullDraw := l.fullDraw, node := l.node }) }
    (s.store.writing.isSome = true →
        exec (.saveTables o) s
          = .next (answer o 7#8 .busy [] { s with store := { s.store with busyCount := inc16 s.store.busyCount } }))
      ∧ (s.store.writing = none →
        exec (.saveTables o) s
          = .next
              (answer o 7#8 .accepted []
                { s with
                  store :=
                    { s.store with
                      image := { s.store.image with identity := Config.imageIdentity, mark := false }
                      writing := some (.save copy (inc16 s.store.image.saveCount)) } }))

/-- The store's completion. A good save makes the copy the image, valid, with its save count, and posts STORE_DONE; a
good offset write puts the copied offsets into the image and leaves its validity; a failed write makes the image invalid
and posts STORE_FAILED. Offset unsaved is cleared where the offset equals the copy, or set on the persisting mowers
with a valid offset. Without a write nothing happens (log 3), and that a failed write leaves every part of the image but
the mark as it stood is log 24 (R65, R168). -/
def Obligations.StoreCompletionEndsTheWrite : Prop :=
  ∀ (good : Bool) (s : State), s.mode = .on →
    (s.store.writing = none → exec (.storeCompletion good) s = .next s)
      ∧ ∀ w : StoreWrite, s.store.writing = some w →
        let copied : List (Nat × Bool) := match w with
          | .save copy _ => copy.mowers.map (fun m => (m.offset, m.offsetValid))
          | .offsets copy => copy
        ∃ t, exec (.storeCompletion good) s = .next t
          ∧ t = { s with store := t.store, pos := { s.pos with mowers := t.pos.mowers }, notices := t.notices }
          ∧ t.store.writing = none ∧ t.store.busyCount = s.store.busyCount
          ∧ (∀ i, i < 4 →
            mowerAt t i
              = { mowerAt s i with
                  unsaved :=
                    if good then
                      (mowerAt s i).unsaved
                        && !(decide (copied[i]? = some ((mowerAt s i).offset, (mowerAt s i).offsetValid)))
                    else
                      (mowerAt s i).unsaved
                        || ((mowerAt s i).offsetValid && (loopAt s (mowerAt s i).loop).persist) })
          ∧ (∀ copy n, w = .save copy n → good = true →
            t.store.image.tables = copy ∧ t.store.image.saveCount = n ∧ t.store.image.valid = true
              ∧ t.store.imageValid = true ∧ t.notices = s.notices.join (noticeNow s .storeDone none n))
          ∧ (∀ copy, w = .offsets copy → good = true →
            t.store.imageValid = s.store.imageValid ∧ t.store.image.mark = s.store.imageValid
              ∧ t.store.image.saveCount = s.store.image.saveCount ∧ t.notices = s.notices
              ∧ t.store.image.tables
                = { s.store.image.tables with mowers := t.store.image.tables.mowers }
              ∧ ∀ (i : Nat) (m : MowerImage), s.store.image.tables.mowers[i]? = some m →
                (∀ offset offsetValid, copy[i]? = some (offset, offsetValid) →
                    t.store.image.tables.mowers[i]? = some { m with offset := offset, offsetValid := offsetValid })
                  ∧ (copy[i]? = none → t.store.image.tables.mowers[i]? = some m))
          ∧ (good = false →
            t.store.imageValid = false ∧ t.store.image = { s.store.image with mark := false }
              ∧ (∀ copy n, w = .save copy n → t.notices = s.notices.join (noticeNow s .storeFailed none 1))
              ∧ ∀ copy, w = .offsets copy → t.notices = s.notices.join (noticeNow s .storeFailed none 2))

/-- LOAD TABLES while WRITING is refused with BUSY, with an invalid image with WRONG_STATE. An accepted load replaces
every table by the image's, a node record that keeps its identity staying as it is; it sets every mower as at power-on
but for its counters, makes every show IDLE, and takes a cycle that runs to ABORTING with cause 9, an ABORTING one
keeping its cause: it stays there unless its valve node holds NORMAL_POS or its channel is FILTER no more, and is IDLE
then. A cycle that waits becomes IDLE with cause 9 (log 42). A new request is auto backwash's alone (log 15). A channel
keeps its latch and F while its kind and node index stay, F only while its pump node is ACTIVE, until a new cycle
begins. Step 9 makes one pass over the requests handed before it, a channel's and a light group's formed with the full
draws as they stood, a dock load's with the loaded node index and full draw (log 16; that the zone results are formed after
step 6 and not between the steps 5 and 6 is log 56), and delivers its grants with the
loaded full draws, so that no group's level stays above the cap level of that pass; the requests are formed again and
further passes run after it. The shed state is kept unless the load makes a supply node usable that holds FOLDBACK (log
53). The load brings the image's slot map into the next map, leaving free the entries that overlap and counting them in
the response, and keeps the DOCK ALL flag, the clock, the queue, the read pointer and the counters; a refusal has no
body (the model's reading, log 19) (R9, R35, R91, R108, R121, R133, R139, R141, R142, R146, R148, R170, R171, R172). -/
def Obligations.LoadTablesReplacesTheTables : Prop :=
  ∀ (o : Origin) (s : State), Ready s →
    (s.store.writing.isSome = true →
        exec (.loadTables o) s
          = .next (answer o 8#8 .busy [] { s with store := { s.store with busyCount := inc16 s.store.busyCount } }))
      ∧ (s.store.writing = none → s.store.imageValid = false →
        exec (.loadTables o) s = .next (answer o 8#8 .wrongState [] s))
      ∧ (s.store.writing = none → s.store.imageValid = true → SizeLaw s → OverlapFree s.line.next →
        ∃ t left, exec (.loadTables o) s = .next t ∧ Sends t o 8#8 .done (beBytes 1 left)
          ∧ let x := s.store.image.tables
            t.mgmt.site = x.site
              ∧ (∀ i, i < 48 →
                nodeAt t i
                  = if (nodeAt s i).ident = x.nodes.getD i none then nodeAt s i
                    else
                      { Node.blank with
                        ident := x.nodes.getD i none
                        state := if (x.nodes.getD i none).isSome then .provisioned else .empty })
              ∧ t.pos.loops = x.loops
              ∧ (∀ i m, i < 4 → x.mowers[i]? = some m →
                mowerAt t i
                  = { Mower.blank with
                      node := m.node, loop := m.loop, offset := m.offset, offsetValid := m.offsetValid
                      state :=
                        if m.node.isNone then .unused else if m.offsetValid then .acquiring else .unreferenced
                      slips := (mowerAt s i).slips, missedMarkers := (mowerAt s i).missedMarkers
                      mismatches := (mowerAt s i).mismatches })
              ∧ t.zone.zones = x.zones
              ∧ t.water.channels.map (fun c => c.cfg) = x.channels
              ∧ t.water.shows.map (fun p => p.cfg) = x.shows ∧ t.water.steps = x.steps
              ∧ (∀ p ∈ t.water.shows, p.state = .idle)
              ∧ (∀ i, i < 8 →
                let a := channelAt s i
                let b := channelAt t i
                let new := x.channels.getD i none
                let same := a.cfg.map (fun r => (r.kind, r.node)) = new.map (fun r => (r.kind, r.node))
                let waits := a.stage = .idle ∨ a.stage = .requested
                let cause := if a.stage = .idle ∨ a.stage = .aborting then a.cause else 9
                let ends := (∃ r, a.cfg = some r ∧ ValveHolds s r 0) ∨ ∃ r, new = some r ∧ ValveHolds t r 0
                b.latch = (if same then a.latch else false) ∧ b.count = a.count
                  ∧ (b.stage ≠ .stopping →
                    b.filt = if same ∧ b.kindIs .filter = true ∧ channelNodeActive t b = true then a.filt else none)
                  ∧ ((∀ r, new = some r → r.kind ≠ .filter) → b.stage = .idle ∧ b.cause = cause)
                  ∧ ∀ r, new = some r → r.kind = .filter →
                    (¬ waits → ¬ ends →
                        b.stage = .aborting ∧ b.timer = (if a.stage = .aborting then a.timer else 250) ∧ b.cause = cause)
                      ∧ (r.auto = false → (waits ∨ ends) → b.stage = .idle ∧ b.cause = cause))
              ∧ t.light.map (fun g => g.cfg) = x.lights
              ∧ t.power.loads.map (fun l => (l.cls, l.minDraw, l.fullDraw, l.node))
                = x.loads.map (fun l => (l.cls, l.minDraw, l.fullDraw, l.node))
              ∧ (let stepped :=
                  s |> cyclesBreak 9 |> settleDeferred |> haltShows |> settleDeferred |> replaceSite x.site |> settleDeferred
                    |> loadNodes x |> settleDeferred |> loadMowers x |> loadZones x |> settleDeferred
                    |> loadWater x |> settleDeferred |> loadLights x |> settleDeferred
                let v := settle (loadPass x stepped)
                t.power = v.power ∧ t.light = v.light ∧ t.water = v.water)
              ∧ OverlapFree t.line.next
              ∧ (∀ i, i < 64 → t.line.next.getD i none = x.slots.getD i none ∨ t.line.next.getD i none = none)
              ∧ left
                = ((List.range 64).filter
                    (fun i => decide (t.line.next.getD i none ≠ x.slots.getD i none))).length
              ∧ (OverlapFree x.slots → t.line.next = x.slots ∧ left = 0)
              ∧ t.line = { s.line with next := t.line.next }
              ∧ t.zone.dockAll = s.zone.dockAll ∧ t.mgmt.clock = s.mgmt.clock ∧ t.mgmt.queue = s.mgmt.queue
              ∧ t.mgmt.readPtr = s.mgmt.readPtr ∧ t.store = s.store ∧ t.nodes.overflow = s.nodes.overflow
              ∧ t.mgmt.discarded = s.mgmt.discarded ∧ t.mgmt.overrun = s.mgmt.overrun
              ∧ t.mgmt.notPermitted = s.mgmt.notPermitted)
      ∧ ∀ (x : Tables) (u : State), u.power.loads.length = 28 → u.light.length = 16 → x.loads.length = 28 →
        let handing := formLevels (formMonitors false u)
        let asked := fun (i : Nat) (l : LoadImage) =>
          let a : Load := { cls := l.cls, minDraw := l.minDraw, fullDraw := l.fullDraw, node := l.node, request := 0, grant := 0 }
          { a with
            request :=
              if i < 8 then (channelAt handing i).reqDraw else if i < 24 then (groupAt u (i - 8)).reqDraw
              else dockRequest u a }
        let w := loadPass x u
        (w.power.remainder, w.power.loads) = passLoads u.power.shed u.mgmt.site.budget (mapIx asked 0 x.loads)
          ∧ ∀ j, j < 16 →
            (groupAt w j).cap = capLevel (loadAt w (8 + j)).fullDraw (loadAt w (8 + j)).grant
              ∧ (groupAt w j).current ≤ (groupAt w j).cap ∧ (groupAt w j).reqDraw = (groupAt u j).reqDraw

/-! ### Requests: mowers -/

/-- PRESET POSITION: the refusals in their order, the base the raw or the last computed position by the mower's state,
the target clamped to the loop; the offset, the reported position formed again, the state moved, the offset write begun
in IDLE or marked unsaved in WRITING (how the write begins is log 24), and the answer with the base and the new offset;
a refusal has no body (the model's reading, log 19) (R64, R66, R67). -/
def Obligations.PresetPositionSetsTheOffset : Prop :=
  ∀ (o : Origin) (i target : Nat) (s : State), Ready s →
    let m := mowerAt s i
    let l := loopAt s m.loop
    let L := l.n1 * 4096
    let held := m.state = .tracked ∨ m.state = .slipping ∨ m.state = .acquiring
    let free := m.state = .unreferenced ∨ m.state = .lost
    (3 < i → exec (.presetPosition o i target) s = .next (answer o 9#8 .outOfRange [] s))
      ∧ (i ≤ 3 → ((m.state = .unused ∨ m.state = .stale) ∨ (held ∧ m.raw = none) ∨ (free ∧ m.computed = none)) →
        exec (.presetPosition o i target) s = .next (answer o 9#8 .wrongState [] s))
      ∧ ∀ b, i ≤ 3 → ((held ∧ m.raw = some b) ∨ (free ∧ m.computed = some b)) →
        let p := if L - 1 < target then L - 1 else target
        let status := if L - 1 < target then .doneClamped else .done
        let offset := (p + (L - b % L)) % L
        let body := beBytes 3 b ++ beBytes 3 offset
        let m' :=
          { m with
            offset := offset, offsetValid := true
            reported := (match m.raw with
              | none => m.reported
              | some raw => (raw + offset) % L)
            state := if m.state = .unreferenced ∨ m.state = .lost then .acquiring else m.state
            acquire := if m.state = .unreferenced ∨ m.state = .lost then 0 else m.acquire }
        let mowers := s.pos.mowers.set i m'
        (l.persist = false →
            exec (.presetPosition o i target) s
              = .next (answer o 9#8 status body (settle { s with pos := { s.pos with mowers := mowers } })))
          ∧ (l.persist = true → s.store.writing = none →
            exec (.presetPosition o i target) s
              = .next
                  (answer o 9#8 status body
                    (settle
                      { s with
                        pos := { s.pos with mowers := mowers }
                        store :=
                          { s.store with
                            image := { s.store.image with identity := Config.imageIdentity, mark := false }
                            writing := some (.offsets (mowers.map (fun x => (x.offset, x.offsetValid)))) } })))
          ∧ (l.persist = true → s.store.writing.isSome = true →
            exec (.presetPosition o i target) s
              = .next
                  (answer o 9#8 status body
                    (settle
                      { s with pos := { s.pos with mowers := s.pos.mowers.set i { m' with unsaved := true } } })))

/-- RELEASE CAPTURE makes both captures absent and resets the lock, in every state of the mower, and changes no other
field (R60). -/
def Obligations.ReleaseCaptureDropsThePair : Prop :=
  ∀ (o : Origin) (i : Nat) (s : State), Ready s →
    (3 < i → exec (.releaseCapture o i) s = .next (answer o 10#8 .outOfRange [] s))
      ∧ (i ≤ 3 →
        exec (.releaseCapture o i) s
          = .next
              (answer o 10#8 .done []
                { s with
                  pos :=
                    { s.pos with
                      mowers :=
                        s.pos.mowers.set i { mowerAt s i with capA := none, capB := none, locked := false } } }))
      ∧ ((mowerAt s i).capA = none → (mowerAt s i).capB = none → (mowerAt s i).locked = false → i ≤ 3 →
        exec (.releaseCapture o i) s = .next (answer o 10#8 .done [] s))

/-- DOCK ALL sets the flag and RESUME ALL resets it, answered DONE; nothing changes if the flag already held the value,
and otherwise every permit is formed again in that handling. Start-up resets the flag, a line restart and a load keep it
(R83). -/
def Obligations.DockAllSetsTheFlag : Prop :=
  (∀ (o : Origin) (c : Instr) (k : Byte) (b : Bool) (s : State), Ready s →
      ((c = .dockAll o ∧ k = 11#8 ∧ b = true) ∨ (c = .resumeAll o ∧ k = 12#8 ∧ b = false)) →
        (s.zone.dockAll = b → exec c s = .next (answer o k .done [] s))
          ∧ (s.zone.dockAll ≠ b →
            ∃ t, t = settle { s with zone := { s.zone with dockAll := b } } ∧ t.zone.dockAll = b ∧ PermitLaw t
              ∧ exec c s = .next (answer o k .done [] t)))
    ∧ (∀ s t, exec .startUp s = .next t → t.zone.dockAll = false)
    ∧ (∀ s t, exec .lineBreak s = .next t → t.zone.dockAll = s.zone.dockAll)
    ∧ ∀ o s t, Ready s → exec (.loadTables o) s = .next t → t.zone.dockAll = s.zone.dockAll

/-! ### Requests: shows, backwash, faults, supply -/

/-- START SHOW loads the first step of an IDLE show, PLAYING or under rain PAUSED, with loops done 0; STOP SHOW makes a
PLAYING or PAUSED show IDLE without a step and leaves an IDLE one; each with its refusals, and the levels follow in the
handling (R102, R103, R104). -/
def Obligations.ShowsStartAndStop : Prop :=
  ∀ (o : Origin) (i : Nat) (s : State), Ready s →
    let p := playerAt s i
    let put := fun (q : Player) => settle { s with water := { s.water with shows := s.water.shows.set i q } }
    ((3 < i ∨ p.cfg = none) → exec (.startShow o i) s = .next (answer o 13#8 .outOfRange [] s))
      ∧ (i ≤ 3 → p.cfg ≠ none → p.state ≠ .idle → exec (.startShow o i) s = .next (answer o 13#8 .wrongState [] s))
      ∧ (∀ r, i ≤ 3 → p.cfg = some r → p.state = .idle →
        let first := stepAt s r.first
        exec (.startShow o i) s
          = .next
              (answer o 13#8 .done []
                (put
                  { p with
                    state := if s.water.rain then .paused else .playing
                    step := some r.first, levels := first.levels, next := first.next, remaining := first.duration
                    loopsDone := 0 })))
      ∧ (3 < i → exec (.stopShow o i) s = .next (answer o 14#8 .outOfRange [] s))
      ∧ (i ≤ 3 → p.state = .idle → exec (.stopShow o i) s = .next (answer o 14#8 .done [] s))
      ∧ (i ≤ 3 → p.state ≠ .idle →
        exec (.stopShow o i) s
          = .next (answer o 14#8 .done [] (put { p with state := .idle, step := none, remaining := 0 })))

/-- START BACKWASH makes the IDLE cycle of a FILTER channel REQUESTED without a cause, answered ACCEPTED; STOP BACKWASH
makes a REQUESTED cycle IDLE, aborts one from STOPPING to RINSING with cause 6, and leaves any other; each with its
refusals, and what follows is taken in the handling (R112, R119, R120). -/
def Obligations.BackwashStartsAndStops : Prop :=
  ∀ (o : Origin) (c : Nat) (s : State), Ready s →
    let a := channelAt s c
    let put := fun (b : Channel) => settle { s with water := { s.water with channels := s.water.channels.set c b } }
    ((7 < c ∨ a.cfg = none) → exec (.startBackwash o c) s = .next (answer o 15#8 .outOfRange [] s))
      ∧ (∀ r, c ≤ 7 → a.cfg = some r → (r.kind ≠ .filter ∨ a.stage ≠ .idle) →
        exec (.startBackwash o c) s = .next (answer o 15#8 .wrongState [] s))
      ∧ (∀ r, c ≤ 7 → a.cfg = some r → r.kind = .filter → a.stage = .idle →
        exec (.startBackwash o c) s
          = .next (answer o 15#8 .accepted [] (put { a with stage := .requested, cause := 0 })))
      ∧ (7 < c → exec (.stopBackwash o c) s = .next (answer o 16#8 .outOfRange [] s))
      ∧ (c ≤ 7 → (a.stage = .idle ∨ a.stage = .restoring ∨ a.stage = .aborting) →
        exec (.stopBackwash o c) s = .next (answer o 16#8 .done [] s))
      ∧ (c ≤ 7 → a.stage = .requested →
        exec (.stopBackwash o c) s = .next (answer o 16#8 .done [] (put { a with stage := .idle, timer := 0 })))
      ∧ (c ≤ 7 → (a.stage = .stopping ∨ a.stage = .reversing ∨ a.stage = .washing ∨ a.stage = .rinsing) →
        exec (.stopBackwash o c) s
          = .next (answer o 16#8 .done [] (put { a with stage := .aborting, timer := 250, cause := 6 })))

/-- CLEAR FAULT resets a set fault latch while the channel's node is ACTIVE, of the expected kind, and holds OK or
NORMAL_POS; it is refused with WRONG_STATE otherwise, and changes nothing of a channel whose latch is reset (R92). -/
def Obligations.ClearFaultResetsTheLatch : Prop :=
  ∀ (o : Origin) (c : Nat) (s : State), Ready s →
    let a := channelAt s c
    let healthy := ∃ r n x, a.cfg = some r ∧ r.node = some n ∧ (nodeAt s n).ident = some x
      ∧ x.kind = (if r.kind = .valve then .valve else .pump) ∧ (nodeAt s n).state = .active
      ∧ (nodeAt s n).code = some 0
    (7 < c → exec (.clearFault o c) s = .next (answer o 17#8 .outOfRange [] s))
      ∧ (c ≤ 7 → a.latch = false → exec (.clearFault o c) s = .next (answer o 17#8 .done [] s))
      ∧ (c ≤ 7 → a.latch = true → ¬ healthy →
        exec (.clearFault o c) s = .next (answer o 17#8 .wrongState [] s))
      ∧ (c ≤ 7 → a.latch = true → healthy →
        exec (.clearFault o c) s
          = .next
              (answer o 17#8 .done []
                (settle
                  { s with
                    water := { s.water with channels := s.water.channels.set c { a with latch := false } } })))

/-- RESTORE SUPPLY: with the shed state reset only the overload run becomes 0; while the usable supply node holds
FOLDBACK it is refused; otherwise the shed state, its cause and the run are reset and a pass runs in the handling (R147).
The overload run is 0 while the supply node is not usable, and FOLDBACK on the usable node sets a reset shed state with
that cause and OVERLOAD_SHED, with a free detail where no draw was measured (log 14) (R145, R146). -/
def Obligations.RestoreSupplyEndsTheShedState : Prop :=
  (∀ (o : Origin) (s : State), Ready s →
    let foldback := ∃ n x, s.mgmt.site.supply = some n ∧ (nodeAt s n).ident = some x ∧ x.kind = .supply
      ∧ (nodeAt s n).state = .active ∧ (nodeAt s n).code = some 2
    (s.power.shed = false →
        exec (.restoreSupply o) s = .next (answer o 18#8 .done [] { s with power := { s.power with run := 0 } }))
      ∧ (s.power.shed = true → foldback →
        exec (.restoreSupply o) s = .next (answer o 18#8 .wrongState [] s))
      ∧ (s.power.shed = true → ¬ foldback →
        exec (.restoreSupply o) s
          = .next
              (answer o 18#8 .done []
                (settle { s with power := { s.power with shed := false, cause := none, run := 0 } }))))
    ∧ ∀ s : State,
      let usable := ∃ n, LiveNode s s.mgmt.site.supply .supply n
      let foldback := ∃ n, LiveNode s s.mgmt.site.supply .supply n ∧ n.code = some 2
      (¬ usable → formShed s = { s with power := { s.power with run := 0 } })
        ∧ (usable → (¬ foldback ∨ s.power.shed = true) → formShed s = s)
        ∧ (foldback → s.power.shed = false →
          let t := formShed s
          ∃ detail, (∀ d, s.power.measured = some d → detail = d)
            ∧ t
              = { s with
                  power := { s.power with shed := true, cause := some .foldback }
                  notices := s.notices.join (noticeNow s .overloadShed s.mgmt.site.supply detail)
                  free := t.free })

/-! ### Requests: the line, FORWARD, refusals -/

/-- RESTART LINE holds its DONE as the restart answer, leaves the processor IDLE, makes the line restart due at the end
of the frame while the line is RUNNING, and sets the break count back to 4 during a BREAK, the downstream management
field being without a fragment. An answer still held is replaced, also by a second RESTART LINE before the BREAK begins
(the model's choice, log 47) (R15, R17, R18, R165). -/
def Obligations.RestartLineCausesABreak : Prop :=
  ∀ (o : Origin) (s : State), Ready s →
    let held := (fragments o.address o.number ([19#8, 0x00#8] ++ serialBytes o)).head?
    (s.line.state = .running →
        exec (.restartLine o) s
          = .next
              { s with
                line := { s.line with restartDue := true }
                mgmt := { s.mgmt with restartAnswer := held }
                free := s.free + 1 })
      ∧ ∀ n, s.line.state = .inBreak → s.line.breakCount = some n →
        ∃ t, exec (.restartLine o) s = .next t
          ∧ t.line = { s.line with breakCount := some 4, restartDue := false, rx := none, field := [0x00#8] }
          ∧ t.mgmt.restartAnswer = held ∧ t.mgmt.proc = .idle
          ∧ t.mgmt.ctx1 = none ∧ t.mgmt.ctx2 = none ∧ t.mgmt.joinCtx = none ∧ t.mgmt.answers = []

/-- FORWARD: the refusals in their order; an accepted one makes the processor FORWARDING with the payload cut into
fragments for the node's address. When the last has gone it waits 25 frames, or takes a reply already kept; a frame event
counts the timer down, and its reaching 0 ends the wait with NO_REPLY, as FORWARD_TIMEOUT does at its last frame; at any
other, in BREAK or without a wait it changes nothing (log 3). A fragment from the target goes to the reply assembly, which
counts its discards: a reply completed while FORWARDING is kept, the first one (log 21), one completed while WAITING ends
the wait with DONE and its payload, or with MALFORMED above 80 bytes (R1, R149, R150, R160, R161). -/
def Obligations.ForwardSendsAndWaits : Prop :=
  (∀ (o : Origin) (n : Nat) (payload : List Byte) (s : State), Ready s →
      let r : Request := ⟨o, some 20#8, .forward n payload⟩
      let served := (nodeAt s n).state = .active ∨ (nodeAt s n).state = .stale
      (47 < n → exec (.forward o n payload) s = .next (answer o 20#8 .outOfRange [] s))
        ∧ (n ≤ 47 → 80 < payload.length → exec (.forward o n payload) s = .next (answer o 20#8 .malformed [] s))
        ∧ (n ≤ 47 → payload.length ≤ 80 → ¬ served →
          exec (.forward o n payload) s = .next (answer o 20#8 .wrongState [] s))
        ∧ ∀ x, n ≤ 47 → payload.length ≤ 80 → served → (nodeAt s n).ident = some x →
          exec (.forward o n payload) s
            = .next
                { s with
                  mgmt :=
                    { s.mgmt with
                      proc :=
                        .forwarding { request := r, target := x.address, reply := none, kept := none }
                          (fragments x.address o.number payload) } })
    ∧ (∀ s : State, s.mode = .on →
      (∀ f k timer, s.line.state = .running → s.mgmt.proc = .waiting f timer → timer ≤ 1 → f.request.kind = some k →
          exec .forwardTimeout s = .next (answer f.request.origin k .noReply [] s))
        ∧ ((s.line.state = .inBreak ∨ ∀ f timer, s.mgmt.proc = .waiting f timer → 1 < timer) →
          exec .forwardTimeout s = .next s))
    ∧ ∀ (f : Forwarding) (k : Byte) (u : State), f.request.kind = some k →
      let wait := fun (timer : Nat) => { u with mgmt := { u.mgmt with proc := .waiting f timer } }
      let replied := fun (payload : List Byte) (v : State) =>
        if 80 < payload.length then answer f.request.origin k .malformed [] v
        else answer f.request.origin k .done payload v
      (∀ timer, u.mgmt.proc = .waiting f timer →
          (timer ≤ 1 → forwardFrame u = answer f.request.origin k .noReply [] u)
            ∧ (1 < timer → forwardFrame u = wait (timer - 1)))
        ∧ ((∀ g timer, u.mgmt.proc ≠ .waiting g timer) → forwardFrame u = u)
        ∧ (∀ x, u.mgmt.proc = .forwarding f [x] →
          (f.kept = none → fragmentGone (.outgoing x) u = wait 25)
            ∧ ∀ payload, f.kept = some payload → fragmentGone (.outgoing x) u = replied payload u)
        ∧ ∀ h : Handed, h.address = f.target →
          let x := assemble false h f.reply
          let counted := if x.counted = 0 then u.mgmt.discarded else inc16 u.mgmt.discarded
          let g := { f with reply := x.ctx }
          (∀ frags, u.mgmt.proc = .forwarding f frags →
              route h u
                = { u with
                    mgmt :=
                      { u.mgmt with
                        discarded := counted
                        proc :=
                          .forwarding { g with kept := (f.kept).or (x.message.map Prod.fst) } frags } })
            ∧ ∀ timer, u.mgmt.proc = .waiting f timer →
              let t := { u with mgmt := { u.mgmt with discarded := counted, proc := .waiting g timer } }
              (x.message = none → route h u = t)
                ∧ ∀ payload single, x.message = some (payload, single) → route h u = replied payload t

/-- A refusal queued for a sender without privilege is answered NOT_PERMITTED and counted; a request of unknown kind, or
a JOIN from a sender other than 63, is answered MALFORMED; neither answer has a body (the model's reading, log 19). A
fragment whose check passes goes, when no FORWARD claims it, by its sender's address: 63 to the join context, every
other one to context 1 in the open state, else the privileged addresses to their contexts and any other to the handling
without privilege, where a fragment of index 0 is a whole READ STATUS or draws a refusal, and one of index 1 to 7 nothing.
That the Line Unit counts the fragment before it is routed, and that one of index 0 with a payload length above 12 draws a
refusal there, are the model's choice (log 54, log 55). A JOIN in the join context is a message of kind 20H and one byte (log 20). A context begins a message with index 0, takes
the fragment it expects, completes it on the last flag, and discards and counts what does not fit. That a refusal is
counted as it arrives at the queue is the model's choice (log 50) (R149 to R151, R155). -/
def Obligations.RefusedRequestsAreAnswered : Prop :=
  (∀ (o : Origin) (kind : Byte) (s : State), Ready s →
      exec (.notPermittedRefusal o kind) s
          = .next
              (answer o kind .notPermitted []
                { s with mgmt := { s.mgmt with notPermitted := inc16 s.mgmt.notPermitted } })
        ∧ exec (.unknownRequest o kind) s = .next (answer o kind .malformed [] s))
    ∧ (∀ (s : State) (slot : Nat) (bids : List Bid) (w : Won) (f : UpFragment),
      s.mode = .on → s.line.state = .running → contend bids = some w →
      readFragment w.address (w.half.map Sampled.value) = some f →
        exec (.managementSlotEnd slot bids) s
          = .next
              (route { address := w.address, serial := w.serial, frag := f }
                { s with line := { s.line with fragCount := inc16 s.line.fragCount } }))
    ∧ (∀ (h : Handed) (u : State),
      (∀ f frags, u.mgmt.proc = .forwarding f frags → f.target ≠ h.address) →
      (∀ f timer, u.mgmt.proc = .waiting f timer → f.target ≠ h.address) →
        let names := u.mgmt.site.privileged
        let origin : Origin := ⟨h.address, h.serial, h.frag.number⟩
        let count := fun (x : Assembled) (d : Nat) => if x.counted = 0 then d else inc16 d
        let taken := fun (x : Assembled) (t : State) => match x.message with
          | none => route h u = t
          | some (message, _) => route h u = arrive (readRequest origin message) t
        let first := assemble (decide (names = [])) h u.mgmt.ctx1
        let second := assemble false h u.mgmt.ctx2
        let join := assemble (decide (names = [])) h u.mgmt.joinCtx
        let joined :=
          { u with mgmt := { u.mgmt with joinCtx := join.ctx, discarded := count join u.mgmt.discarded } }
        let refused := fun (message : List Byte) (t : State) =>
          arrive { origin := origin, kind := message.head?, body := .refusal }
            { t with mgmt := { t.mgmt with notPermitted := inc16 t.mgmt.notPermitted } }
        (h.address = 63 →
            (join.message = none → route h u = joined)
              ∧ (∀ kind single, join.message = some ([0x20#8, kind], single) →
                route h u = joinNode h.serial kind.toNat joined)
              ∧ ∀ message single, join.message = some (message, single) → (∀ kind, message ≠ [0x20#8, kind]) →
                (names = [] → route h u = arrive (readRequest origin message) joined)
                  ∧ (names ≠ [] → single = true → message = [0x01#8] →
                    route h u = arrive (readRequest origin message) joined)
                  ∧ (names ≠ [] → (single = false ∨ message ≠ [0x01#8]) → route h u = refused message joined))
          ∧ (1 ≤ h.address → h.address ≤ 62 → (names = [] ∨ names.head? = some h.address) →
            taken first
              { u with mgmt := { u.mgmt with ctx1 := first.ctx, discarded := count first u.mgmt.discarded } })
          ∧ (1 ≤ h.address → h.address ≤ 62 → (∃ a l, names = a :: h.address :: l ∧ a ≠ h.address) →
            taken second
              { u with mgmt := { u.mgmt with ctx2 := second.ctx, discarded := count second u.mgmt.discarded } })
          ∧ (1 ≤ h.address → h.address ≤ 62 → names ≠ [] → names.length ≤ 2 → h.address ∉ names →
            (h.frag.index ≠ 0 → route h u = u)
              ∧ (h.frag.index = 0 → h.frag.last = true → h.frag.payload = [0x01#8] →
                route h u = arrive ⟨origin, some 1#8, .readStatus⟩ u)
              ∧ (h.frag.index = 0 → (h.frag.last = false ∨ h.frag.payload ≠ [0x01#8]) →
                route h u = refused h.frag.payload u)))
    ∧ (∀ (openState : Bool) (h : Handed) (ctx : Option Assembly),
      let f := h.frag
      let counts := fun (c : Option Assembly) => assemble openState h ctx = { ctx := c, counted := 1, message := none }
      let fit := fun (a : Assembly) =>
        a.address = h.address ∧ a.serial = h.serial ∧ a.number = f.number ∧ a.next = f.index
      (12 < f.length → counts ctx)
        ∧ (f.length ≤ 12 → f.index = 0 →
          let lost := if ctx = none then 0 else 1
          (f.last = true →
              assemble openState h ctx = { ctx := none, counted := lost, message := some (f.payload, true) })
            ∧ (f.last = false →
              assemble openState h ctx
                = { ctx :=
                      some
                        { address := h.address, serial := h.serial, number := f.number, next := 1, payload := f.payload }
                    counted := lost, message := none }))
        ∧ (f.length ≤ 12 → 1 ≤ f.index → ctx = none → counts none)
        ∧ ∀ a, f.length ≤ 12 → 1 ≤ f.index → ctx = some a →
          (fit a → f.last = true →
              assemble openState h ctx = { ctx := none, counted := 0, message := some (a.payload ++ f.payload, false) })
            ∧ (fit a → f.last = false → f.index = 7 → counts none)
            ∧ (fit a → f.last = false → f.index ≠ 7 →
              assemble openState h ctx
                = { ctx := some { a with next := a.next + 1, payload := a.payload ++ f.payload }
                    counted := 0, message := none })
            ∧ (¬ fit a → (openState = false ∨ (a.address = h.address ∧ a.serial = h.serial)) → counts none)
            ∧ (openState = true → (a.address ≠ h.address ∨ a.serial ≠ h.serial) → counts ctx))
    ∧ ∀ (r : Request) (s : State), s.mgmt.proc = .idle → s.mgmt.queue = [] → s.mgmt.heldReq = none →
      arrive r s = serveUpTo 5 (process r s)
        ∧ ((process r s).mgmt.proc ≠ .idle → arrive r s = process r s)

/-! ### Timers and the backwash cycle -/

/-- A dock debounce timer at its last frame stops; a hold timer at its last frame makes presence INACTIVE; a PLAYING
show at its last frame loads its next step, loops to the first step, or becomes IDLE. Each frame event takes one frame
from each of these timers and does so at the last; a command whose timer is not at its last frame, or that comes in BREAK,
changes nothing (log 3; the order among the blocks is log 12) (R1, R61, R102, R129). -/
def Obligations.TimersRunOut : Prop :=
  let load := fun (s : State) (n : Nat) (q : Player) =>
    { q with
      step := some n, levels := (stepAt s n).levels, next := (stepAt s n).next
      remaining := (stepAt s n).duration }
  let ends := fun (s : State) (r : ShowRec) (p q : Player) =>
    let done := inc16 p.loopsDone
    (∀ n, p.next = some n → q = load s n p)
      ∧ (p.next = none → (r.loopCount = 0 ∨ done < r.loopCount) → q = load s r.first { p with loopsDone := done })
      ∧ (p.next = none → r.loopCount ≠ 0 → r.loopCount ≤ done →
        q = { p with state := .idle, step := none, remaining := 0, loopsDone := done })
  (∀ (i : Nat) (s : State), s.mode = .on →
      (s.line.state = .running → (mowerAt s i).debounce = 1 →
          exec (.dockDebounceExpiry i) s
            = .next
                { s with
                  pos := { s.pos with mowers := s.pos.mowers.set i { mowerAt s i with debounce := 0 } } })
        ∧ ((s.line.state = .inBreak ∨ (mowerAt s i).debounce ≠ 1) → exec (.dockDebounceExpiry i) s = .next s)
        ∧ (s.line.state = .running → (groupAt s i).hold = 1 →
          exec (.holdTimerExpiry i) s
            = .next (settle { s with light := s.light.set i { groupAt s i with hold := 0, presence := .inactive } }))
        ∧ ((s.line.state = .inBreak ∨ (groupAt s i).hold ≠ 1) → exec (.holdTimerExpiry i) s = .next s)
        ∧ ((s.line.state = .inBreak ∨ (playerAt s i).state ≠ .playing ∨ 1 < (playerAt s i).remaining) →
          exec (.showStepEnd i) s = .next s)
        ∧ ∀ r, s.line.state = .running → (playerAt s i).state = .playing → (playerAt s i).remaining ≤ 1 →
          (playerAt s i).cfg = some r →
          ∃ q, ends s r (playerAt s i) q
            ∧ exec (.showStepEnd i) s
              = .next (settle { s with water := { s.water with shows := s.water.shows.set i q } }))
    ∧ ∀ (i : Nat) (u : State),
      let t := frameTimers u
      let g := groupAt u i
      let p := playerAt u i
      mowerAt t i = { mowerAt u i with debounce := (mowerAt u i).debounce - 1 }
        ∧ groupAt t i
          = (if g.hold = 0 then g
            else if g.hold = 1 then { g with hold := 0, presence := .inactive } else { g with hold := g.hold - 1 })
        ∧ (p.state ≠ .playing → playerAt t i = p)
        ∧ (∀ r, p.state = .playing → p.cfg = some r →
          (1 < p.remaining → playerAt t i = { p with remaining := p.remaining - 1 })
            ∧ (p.remaining ≤ 1 → ends u r p (playerAt t i)))
        ∧ t.line = u.line ∧ t.nodes = u.nodes ∧ t.zone = u.zone ∧ t.power = u.power ∧ t.mgmt = u.mgmt
        ∧ t.store = u.store ∧ t.pos.loops = u.pos.loops ∧ t.water.steps = u.water.steps

/-- The stage timer at its last frame ends its stage: STOPPING goes to REVERSING, REVERSING aborts with cause 7, WASHING
goes to RINSING, RINSING to RESTORING, RESTORING ends with the fault latches set and VALVE_JAMMED, ABORTING with
BACKWASH_ABORTED. Each frame event takes one frame from every running stage timer and ends its stage at the last, the
notices joining in increasing channel index (log 34); a command for another stage or timer, or in BREAK, changes nothing
(log 3) (R1, R110, R112 to R117). -/
def Obligations.StageTimersEndTheirStage : Prop :=
  (∀ (c : Nat) (s : State), s.mode = .on →
    let a := channelAt s c
    let put := fun (b : Channel) => settle { s with water := { s.water with channels := s.water.channels.set c b } }
    (∀ r, s.line.state = .running → a.cfg = some r → a.timer = 1 →
        (a.stage = .stopping → exec (.stoppingEnd c) s = .next (put { a with stage := .reversing, timer := 250 }))
          ∧ (a.stage = .reversing →
            exec (.valveTimeout c) s = .next (put { a with stage := .aborting, timer := 250, cause := 7 }))
          ∧ (a.stage = .washing →
            exec (.washingEnd c) s = .next (put { a with stage := .rinsing, timer := r.rinseFrames }))
          ∧ (a.stage = .rinsing →
            exec (.rinsingEnd c) s = .next (put { a with stage := .restoring, timer := 250 }))
          ∧ (a.stage = .restoring →
            let jammed := s.water.channels.set c { a with stage := .idle, timer := 0, latch := true }
            let notices := s.notices.join (noticeNow s .valveJammed (some r.valve) 2)
            ((∃ n, UsableValve s r n) →
                exec (.restoringTimeout c) s
                  = .next
                      (settle
                        { s with
                          water :=
                            { s.water with channels := jammed.modify r.valve (fun v => { v with latch := true }) }
                          notices := notices }))
              ∧ ((∀ n, ¬ UsableValve s r n) →
                exec (.restoringTimeout c) s
                  = .next (settle { s with water := { s.water with channels := jammed }, notices := notices })))
          ∧ (a.stage = .aborting →
            exec (.abortingTimeout c) s
              = .next
                  (settle
                    { s with
                      water :=
                        { s.water with channels := s.water.channels.set c { a with stage := .idle, timer := 0 } }
                      notices := s.notices.join (noticeNow s .backwashAborted (some c) a.cause) })))
      ∧ ((s.line.state = .inBreak ∨ a.timer ≠ 1 ∨ a.stage ≠ .stopping) → exec (.stoppingEnd c) s = .next s)
      ∧ ((s.line.state = .inBreak ∨ a.timer ≠ 1 ∨ a.stage ≠ .reversing) → exec (.valveTimeout c) s = .next s)
      ∧ ((s.line.state = .inBreak ∨ a.timer ≠ 1 ∨ a.stage ≠ .washing) → exec (.washingEnd c) s = .next s)
      ∧ ((s.line.state = .inBreak ∨ a.timer ≠ 1 ∨ a.stage ≠ .rinsing) → exec (.rinsingEnd c) s = .next s)
      ∧ ((s.line.state = .inBreak ∨ a.timer ≠ 1 ∨ a.stage ≠ .restoring) → exec (.restoringTimeout c) s = .next s)
      ∧ ((s.line.state = .inBreak ∨ a.timer ≠ 1 ∨ a.stage ≠ .aborting) → exec (.abortingTimeout c) s = .next s))
    ∧ ∀ u : State,
      let t := frameTimers u
      (∀ c, c < 8 →
          let a := channelAt u c
          let b := channelAt t c
          let becomes := fun (q : Channel) => b = { q with latch := b.latch }
          (a.timer = 0 → becomes a)
            ∧ (1 < a.timer → becomes { a with timer := a.timer - 1 })
            ∧ (∀ r, a.cfg = some r → a.timer = 1 →
              (a.stage = .stopping → becomes { a with stage := .reversing, timer := 250 })
                ∧ (a.stage = .reversing → becomes { a with stage := .aborting, timer := 250, cause := 7 })
                ∧ (a.stage = .washing → becomes { a with stage := .rinsing, timer := r.rinseFrames })
                ∧ (a.stage = .rinsing → becomes { a with stage := .restoring, timer := 250 })
                ∧ (a.stage = .restoring → becomes { a with stage := .idle, timer := 0 })
                ∧ (a.stage = .aborting → becomes { a with stage := .idle, timer := 0 }))
            ∧ (b.latch = true
              ↔ a.latch = true
                ∨ ∃ d r, d < 8 ∧ (channelAt u d).cfg = some r ∧ (channelAt u d).timer = 1
                  ∧ (channelAt u d).stage = .restoring ∧ (d = c ∨ (r.valve = c ∧ ∃ n, UsableValve u r n))))
        ∧ t.notices
          = (List.range 8).foldl
              (fun l c => match (channelAt u c).cfg, (channelAt u c).timer, (channelAt u c).stage with
                | some r, 1, .restoring => l.join (noticeNow u .valveJammed (some r.valve) 2)
                | some _, 1, .aborting => l.join (noticeNow u .backwashAborted (some c) (channelAt u c).cause)
                | _, _, _ => l)
              u.notices

/-- The conditions of the cycle: a REQUESTED cycle enters STOPPING when the discharge zone is unoccupied, the pond level
NORMAL, the valve usable, ACTIVE and not in FAULT, the filter RUNNING and its grant at least its washing draw; REVERSING
goes to WASHING on BACKWASH_POS unless a cause aborts it; RESTORING ends on NORMAL_POS with BACKWASH_DONE, ABORTING with
BACKWASH_ABORTED; a command for another stage changes nothing (log 3). Every handling does to every cycle and to every
filter monitor what the same rules say: an IDLE cycle is requested by the clogged flag and auto backwash (log 15), a
REQUESTED one tested after each pass, RESTORING and ABORTING end on NORMAL_POS, and a cycle in STOPPING, REVERSING, WASHING
or RINSING is taken to ABORTING by the cause of 1 to 5 that holds, the lower value where several hold together (the model's
choice, log 9); F and the clogged flag stay, or are unset with the node's leave, the kind and the entry to STOPPING (R108,
R109, R111 to R117). -/
def Obligations.CycleMovesOnItsConditions : Prop :=
  (∀ s : State, CyclesFollow s (settle s) ∧ StartsFollow s (formStarts s) ∧ (Quiet s → RequestsWait (round false s)))
    ∧ ∀ (c : Nat) (s : State), s.mode = .on →
    let a := channelAt s c
    let put := fun (b : Channel) => settle { s with water := { s.water with channels := s.water.channels.set c b } }
    (∀ r, a.cfg = some r →
        let may := StartConditions s c r
        let sound := (s.water.pond ≠ some 1 ∧ s.water.pond ≠ some 2) ∧ a.latch = false
          ∧ channelNodeActive s a = true ∧ (∃ n, UsableValve s r n ∧ (nodeAt s n).state = .active)
          ∧ (channelAt s r.valve).latch = false
        (a.stage = .requested → may →
            exec (.backwashStopping c) s
              = .next (put { a with stage := .stopping, timer := r.stopFrames, filt := none, clogged := false }))
          ∧ (a.stage = .requested → ¬ may → exec (.backwashStopping c) s = .next (settle s))
          ∧ (a.stage = .reversing → sound → ValveHolds s r 1 →
            exec (.valveBackwashPos c) s = .next (put { a with stage := .washing, timer := r.washFrames }))
          ∧ (a.stage = .reversing → sound → ¬ ValveHolds s r 1 → exec (.valveBackwashPos c) s = .next (settle s))
          ∧ (a.stage = .reversing → ¬ sound →
            ∃ k, AbortCause s a r k
              ∧ exec (.valveBackwashPos c) s = .next (put { a with stage := .aborting, timer := 250, cause := k }))
          ∧ (a.stage = .restoring → ValveHolds s r 0 →
            exec (.restoreNormalPos c) s
              = .next
                  (settle
                    { s with
                      water :=
                        { s.water with
                          channels :=
                            s.water.channels.set c { a with stage := .idle, timer := 0, count := inc16 a.count } }
                      notices := s.notices.join (noticeNow s .backwashDone (some c) (inc16 a.count)) }))
          ∧ (a.stage = .restoring → ¬ ValveHolds s r 0 → exec (.restoreNormalPos c) s = .next (settle s))
          ∧ (a.stage = .aborting → ValveHolds s r 0 →
            exec (.abortNormalPos c) s
              = .next
                  (settle
                    { s with
                      water :=
                        { s.water with channels := s.water.channels.set c { a with stage := .idle, timer := 0 } }
                      notices := s.notices.join (noticeNow s .backwashAborted (some c) a.cause) }))
          ∧ (a.stage = .aborting → ¬ ValveHolds s r 0 → exec (.abortNormalPos c) s = .next (settle s)))
      ∧ (a.stage ≠ .requested → exec (.backwashStopping c) s = .next s)
      ∧ (a.stage ≠ .reversing → exec (.valveBackwashPos c) s = .next s)
      ∧ (a.stage ≠ .restoring → exec (.restoreNormalPos c) s = .next s)
      ∧ (a.stage ≠ .aborting → exec (.abortNormalPos c) s = .next s)

/-! ### Formulas -/

/-- The draw at a level is the ceiling of full × v / 255, the cap level of a grant the floor of g × 255 / full limited to
255, the highest level whose draw fits the grant; a full draw of 0 draws 0, requests 0 and has cap level 255; a dock
load's grant is sent as it stands (R138). -/
def Obligations.DrawsAndCapLevels : Prop :=
  (∀ full v, full * v ≤ 255 * drawAt full v ∧ 255 * drawAt full v < full * v + 255)
    ∧ (∀ full, drawAt full 0 = 0 ∧ drawAt full 255 = full)
    ∧ (∀ full g, 0 < full → capLevel full g = min (g * 255 / full) 255)
    ∧ (∀ full g v, v ≤ 255 → (drawAt full v ≤ g ↔ v ≤ capLevel full g))
    ∧ (∀ full g, drawAt full (capLevel full g) ≤ g)
    ∧ (∀ g v, drawAt 0 v = 0 ∧ capLevel 0 g = 255)
    ∧ (∀ s i, i < 28 → (loadAt (settle s) i).fullDraw = 0 → (loadAt (settle s) i).request = 0)
    ∧ ∀ s n j, j < 4 → (∀ k, k < 4 → ((loadAt s (24 + k)).node = some n ↔ k = j)) →
      commandBytes .dock n s = beBytes 2 (loadAt s (24 + j)).grant

/-- The vernier computation: the period count is the difference of the coarse position and p1, divided by 4096 and
rounded to nearest with halves up, the residual what is left, and the computed position (k mod N1) × 4096 + p1; a
residual above the tolerance is a slip, one equal to it passes (R43, R44). A sample is judged by the mower's state: the
residual test, the jump check or the consistency test against the jump limit for the frames elapsed, acceptance, slips,
LOST on the third (R45 to R51, R53). Then come the marker event, which captures and checks the spacing, and the dock
event, which presets the offset (R46, R56 to R59, R62 to R64; how an offset write begins is log 24). -/
def Obligations.VernierFindsThePosition : Prop :=
  (∀ n1 p1 p2 : Nat, 4 ≤ n1 → p1 < 4096 → p2 < 4096 →
      let beat := (p1 + 4096 - p2) % 4096
      let d : Int := (beat * n1 : Int) - p1
      let k := (d + 2048) / 4096
      k ≤ n1 ∧ -1 ≤ k ∧ (vernier n1 p1 p2).residual = d - k * 4096
        ∧ -2048 ≤ (vernier n1 p1 p2).residual ∧ (vernier n1 p1 p2).residual ≤ 2047
        ∧ ((vernier n1 p1 p2).computed : Int) = k % n1 * 4096 + p1 ∧ (vernier n1 p1 p2).computed < n1 * 4096
        ∧ ∀ l : LoopRec,
          (residualSlip l (vernier n1 p1 p2) = true
            ↔ (l.tolerance : Int) < (vernier n1 p1 p2).residual ∨ (vernier n1 p1 p2).residual < -(l.tolerance : Int)))
    ∧ (∀ (l : LoopRec) (frame : Nat) (v : Vernier) (m : Mower),
      let L := l.n1 * 4096
      let bad := residualSlip l v = true
      let since := fun (last : Nat) => (frame + (65536 - last % 65536)) % 65536
      let near := ∀ raw last, m.raw = some raw → m.lastFrame = some last →
        min ((v.computed + (L - raw % L)) % L) ((raw + (L - v.computed % L)) % L)
          ≤ l.jump * (if since last = 0 then 1 else since last)
      let accepted : Mower :=
        { m with
          dir := (match m.raw with
            | none => m.dir
            | some raw =>
              let g := (v.computed + (L - raw % L)) % L
              if g = 0 then m.dir else if g < L / 2 then .forward else .backward)
          raw := some v.computed, lastFrame := some frame
          reported := if m.offsetValid then (v.computed + m.offset) % L else m.reported }
      let slipped := { m with slips := inc16 m.slips }
      let passes := fun (q : Mower) => judge l frame v m = { mower := q, slip := false, lost := false }
      let slips := fun (q : Mower) => judge l frame v m = { mower := q, slip := true, lost := false }
      (m.state = .tracked →
          (¬ bad → near → passes accepted)
            ∧ ((bad ∨ ¬ near) → slips { slipped with slip := 1, state := .slipping }))
        ∧ (m.state = .slipping →
          (¬ bad → near → passes { accepted with slip := 0, state := .tracked })
            ∧ ((bad ∨ ¬ near) → m.slip ≤ 1 → slips { slipped with slip := m.slip + 1 })
            ∧ ((bad ∨ ¬ near) → 2 ≤ m.slip →
              judge l frame v m
                = { mower := { slipped with state := .lost, verified := false, slip := 0, acquire := 0 }
                    slip := true, lost := true }))
        ∧ (m.state = .acquiring →
          (bad → slips { slipped with acquire := 0 })
            ∧ (¬ bad → m.acquire = 0 → passes { accepted with acquire := 1 })
            ∧ (¬ bad → m.acquire ≠ 0 → near → passes { accepted with acquire := 0, state := .tracked })
            ∧ (¬ bad → m.acquire ≠ 0 → ¬ near → passes accepted))
        ∧ (m.state = .lost →
          (bad → slips slipped) ∧ (¬ bad → passes { accepted with state := .acquiring, acquire := 1 }))
        ∧ (m.state = .unreferenced → (bad → slips slipped) ∧ (¬ bad → passes accepted)))
    ∧ (∀ (i : Nat) (w : Content) (u : State) (m : Mower), u.pos.mowers[i]? = some m →
      let l := loopAt u m.loop
      let v := vernier l.n1 (w.toNat / 1048576) (w.toNat / 256 % 4096)
      let j := judge l u.line.frame v { m with computed := some v.computed }
      let judged : State :=
        { u with
          pos := { u.pos with mowers := u.pos.mowers.set i j.mower }
          notices := if j.lost then u.notices.join (noticeNow u .mowerLost (some i) 1) else u.notices }
      let marked := if w.getLsbD 7 && !m.lastMarker then markerEvent i l j.slip judged else judged
      let docked := if w.getLsbD 6 && !m.lastDock then dockEvent i l j.slip marked else marked
      mowerSample i w u
        = { docked with
            pos :=
              { docked.pos with
                mowers :=
                  docked.pos.mowers.set i { mowerAt docked i with lastMarker := w.getLsbD 7, lastDock := w.getLsbD 6 } } })
    ∧ ∀ (i : Nat) (l : LoopRec) (u : State) (m : Mower), u.pos.mowers[i]? = some m →
      let L := l.n1 * 4096
      let put := fun (q : Mower) => { u with pos := { u.pos with mowers := u.pos.mowers.set i q } }
      (markerEvent i l true u = put { m with missedMarkers := inc16 m.missedMarkers })
        ∧ (m.locked = true → markerEvent i l false u = u)
        ∧ (m.locked = false → m.capA = none → markerEvent i l false u = put { m with capA := m.raw })
        ∧ (∀ a b, m.locked = false → m.capA = some a → m.raw = some b →
          let measured := (b + (L - a % L)) % L
          let differs := fun (x : Nat) => if measured ≤ x then x - measured else measured - x
          let error := min (differs l.spacing) (differs (L - l.spacing))
          let pair := { m with capB := some b, locked := true }
          let failed := { pair with mismatches := inc16 m.mismatches, verified := false }
          let mismatch := u.notices.join (noticeNow u .referenceMismatch (some i) (min error 65535))
          let placed := m.state = .tracked ∨ m.state = .slipping ∨ m.state = .acquiring
          (error ≤ l.spacingTol → markerEvent i l false u = put { pair with verified := true })
            ∧ (l.spacingTol < error → placed →
              markerEvent i l false u
                = { put { failed with state := .lost, slip := 0, acquire := 0 } with
                    notices := mismatch.join (noticeNow u .mowerLost (some i) 2) })
            ∧ (l.spacingTol < error → ¬ placed →
              markerEvent i l false u = { put failed with notices := mismatch }))
        ∧ (∀ slip, (m.raw = none ∨ m.debounce ≠ 0 ∨ l.dockPreset = false ∨ slip = true) → dockEvent i l slip u = u)
        ∧ ∀ raw, m.raw = some raw → m.debounce = 0 → l.dockPreset = true →
          let offset := (l.dock + (L - raw % L)) % L
          let away := m.state = .unreferenced ∨ m.state = .lost
          let preset :=
            { m with
              offset := offset, offsetValid := true, reported := (raw + offset) % L, debounce := 50
              state := if away then .acquiring else m.state, acquire := if away then 0 else m.acquire }
          (l.persist = false → dockEvent i l false u = put preset)
            ∧ (l.persist = true → u.store.writing.isSome = true →
              dockEvent i l false u = put { preset with unsaved := true })
            ∧ (l.persist = true → u.store.writing = none →
              dockEvent i l false u
                = { put preset with
                    store :=
                      { u.store with
                        image := { u.store.image with identity := Config.imageIdentity, mark := false }
                        writing := some (.offsets ((put preset).pos.mowers.map (fun q => (q.offset, q.offsetValid)))) } })

/-! ### Laws -/

/-- Forming the results again changes no table, no latch, no node, no mower, nothing of the line, the store and the
management state, and leaves every result as its rule gives it: the conditions, the occupancies, keepouts and permits, the
spray caps and presence flags, every channel's state, requested level, output and request, every group's online state,
darkness, presence, levels, aim and cap, every load's request, the grants of a pass, and the overload run and the shed
state as the supply node stands. What it moves it moves by its rule: the beginning of rain pauses the PLAYING shows, that of
the dry condition lets the PAUSED ones play on; presence, the hold timer and the evening phase of a light group follow its
sources, its flag and its darkness; FOLDBACK alone sets the shed state, and the run stays while the supply node is usable.
The handling is a sequence of rounds, and each round keeps the current level and the accumulator of an online group but
where an immediate rate, a reversal of the aim or a lower cap level moves them, and posts LEVEL_UNKNOWN, BACKWASH_DONE,
BACKWASH_ABORTED, KEEPOUT_ENTRY and OVERLOAD_SHED on their events and nothing else (R74, R75, R77 to R80, R82, R84, R90,
R93 to R95, R98, R99, R106, R111, R115, R117, R125 to R128, R130, R132, R133, R140 to R146; the order of the parts of a
handling and its bound are log 9 and log 10, a group that comes online with an immediate up rate is log 11, the detail of
a shed before any measured draw is log 14, the presence of an empty record is log 23, a dock request before the first
sample is log 30, the order of notices of several channels or mowers is log 34, the levels of a VALVE channel are
log 45, that reports of activity of one round are taken together is log 49). -/
def Obligations.SettlingFormsTheResults : Prop :=
  ∀ s : State, SettledFrom s (settle s) ∧ Handled s (settle s) ∧ ShowsFollow s (settle s) ∧ GroupsFollow s (settle s)
    ∧ ShedFollow s (settle s) ∧ LevelsFollow s (round false s) ∧ NoticesFollow s (round false s)
    ∧ ConditionLaw (settle s)
    ∧ OccupancyLaw (settle s) ∧ PermitLaw (settle s)
    ∧ DischargeLaw (settle s) ∧ ZoneResultLaw (settle s) ∧ ChannelLaw (settle s) ∧ GroupLaw (settle s)
    ∧ RequestLaw (settle s) ∧ GrantLaw (settle s) ∧ ShedLaw (settle s) ∧ PowerLaw (settle s)
    ∧ OutputLaw (settle s) ∧ LightLaw (settle s)

/-- The machine right after start-up with a store never saved (log 1) is a state of the laws, and of the reset tables:
BREAK with a break count of 4, no record in use, the clock invalid, the DOCK ALL flag and the shed state reset, every
count 0, the store IDLE, STORE_INVALID posted (R18, R24, R36, R55, R68, R87, R107, R122, R136, R148, R163, R166, R173). -/
def Obligations.ResetKeepsTheLaws : Prop :=
  let s := State.reset
  (ConditionLaw s ∧ OccupancyLaw s ∧ PermitLaw s ∧ HoldLaw s ∧ DischargeLaw s ∧ PowerLaw s ∧ OutputLaw s ∧ LightLaw s
      ∧ QueueLaw s ∧ NoticeLaw s ∧ CaptureLaw s ∧ SlotLaw s ∧ NodeLaw s ∧ SizeLaw s)
    ∧ s.line.state = .inBreak ∧ s.line.breakCount = some 4 ∧ s.line.active = s.line.next
    ∧ (∀ n ∈ s.nodes.recs, n.state = .empty ∧ n.missed = 0 ∧ n.noise = 0 ∧ n.checkErr = 0 ∧ n.rejoin = 0)
    ∧ s.nodes.joiners = [] ∧ s.nodes.overflow = 0
    ∧ (∀ m ∈ s.pos.mowers,
      m.state = .unused ∧ m.slip = 0 ∧ m.acquire = 0 ∧ m.slips = 0 ∧ m.missedMarkers = 0 ∧ m.mismatches = 0)
    ∧ (∀ n ∈ s.zone.counts, n = 0)
    ∧ (∀ c ∈ s.water.channels, c.cfg = none ∧ c.stage = .idle ∧ c.output = 0 ∧ c.count = 0)
    ∧ (∀ p ∈ s.water.shows, p.state = .idle ∧ p.loopsDone = 0) ∧ (∀ g ∈ s.light, g.current = 0)
    ∧ (∀ l ∈ s.power.loads, l.cls = 3 ∧ l.request = 0 ∧ l.grant = 0)
    ∧ s.mgmt.clock.valid = false ∧ s.mgmt.clock.count = 0 ∧ s.zone.dockAll = false ∧ s.power.shed = false
    ∧ s.power.run = 0 ∧ s.line.fragCount = 0 ∧ s.line.checkErrCount = 0 ∧ s.mgmt.discarded = 0 ∧ s.mgmt.overrun = 0
    ∧ s.mgmt.notPermitted = 0 ∧ s.notices.overflow = 0 ∧ s.store.busyCount = 0 ∧ s.store.image.saveCount = 0
    ∧ s.mgmt.proc = .idle ∧ s.mgmt.queue = [] ∧ s.mgmt.heldReq = none
    ∧ s.store.writing = none ∧ s.store.imageValid = false ∧ (s.notices.list.map (fun n => n.kind)) = [.storeInvalid]

/-- Every step keeps the conditions, the occupancy sets, the keepout sets and permits, and the discharge activity as
their rules give them; so every mower with a valid position inside an active KEEPOUT zone stands at HOLD (R74, R75, R78,
R82, R84, R98, R99, R114). -/
def Obligations.StepsKeepTheKeepoutLaws : Prop :=
  ∀ s t : State, ConditionLaw s ∧ OccupancyLaw s ∧ PermitLaw s ∧ DischargeLaw s → step s = .next t →
    ConditionLaw t ∧ OccupancyLaw t ∧ PermitLaw t ∧ DischargeLaw t ∧ HoldLaw t

/-- Every step keeps the sum of the grants within the budget, every grant within its load's bounds, every output and
every light level within its bounds and under its grant (R90, R95, R133, R143, R144). -/
def Obligations.StepsKeepThePowerLaws : Prop :=
  ∀ s t : State, PowerLaw s ∧ OutputLaw s ∧ LightLaw s → step s = .next t → PowerLaw t ∧ OutputLaw t ∧ LightLaw t

/-- Every step keeps the request queue at 4 with its held position, the notice list at 16, every capture pair and its
lock (R58, R152, R163). -/
def Obligations.StepsKeepTheListLaws : Prop :=
  ∀ s t : State, QueueLaw s ∧ NoticeLaw s ∧ CaptureLaw s → step s = .next t → QueueLaw t ∧ NoticeLaw t ∧ CaptureLaw t

/-- Every step keeps the slot maps overlap-free, the node records as their states give them, and every table at its
size (R7, R18, R19, R20, R29, R34, R156, R167). -/
def Obligations.StepsKeepTheTableLaws : Prop :=
  ∀ s t : State, SlotLaw s ∧ NodeLaw s ∧ SizeLaw s → step s = .next t → SlotLaw t ∧ NodeLaw t ∧ SizeLaw t
end

