-- ==== Sys2Proof/Laws/State.lean ====
section
/-! SUPPORT. What each update of the state leaves alone, field by field: the rewriting rules for reading a field after
an update. -/

namespace Sys2Proof.Machine

/-! ### setNode -/

@[simp] theorem setNode_mode (i : Nat) (f : Node → Node) (s : State) : (setNode i f s).mode = s.mode := rfl
@[simp] theorem setNode_line (i : Nat) (f : Node → Node) (s : State) : (setNode i f s).line = s.line := rfl
@[simp] theorem setNode_pos (i : Nat) (f : Node → Node) (s : State) : (setNode i f s).pos = s.pos := rfl
@[simp] theorem setNode_zone (i : Nat) (f : Node → Node) (s : State) : (setNode i f s).zone = s.zone := rfl
@[simp] theorem setNode_water (i : Nat) (f : Node → Node) (s : State) : (setNode i f s).water = s.water := rfl
@[simp] theorem setNode_light (i : Nat) (f : Node → Node) (s : State) : (setNode i f s).light = s.light := rfl
@[simp] theorem setNode_power (i : Nat) (f : Node → Node) (s : State) : (setNode i f s).power = s.power := rfl
@[simp] theorem setNode_mgmt (i : Nat) (f : Node → Node) (s : State) : (setNode i f s).mgmt = s.mgmt := rfl
@[simp] theorem setNode_notices (i : Nat) (f : Node → Node) (s : State) : (setNode i f s).notices = s.notices := rfl
@[simp] theorem setNode_store (i : Nat) (f : Node → Node) (s : State) : (setNode i f s).store = s.store := rfl
@[simp] theorem setNode_free (i : Nat) (f : Node → Node) (s : State) : (setNode i f s).free = s.free := rfl
@[simp] theorem setNode_pending (i : Nat) (f : Node → Node) (s : State) : (setNode i f s).pending = s.pending := rfl

/-! ### setMower -/

@[simp] theorem setMower_mode (i : Nat) (f : Mower → Mower) (s : State) : (setMower i f s).mode = s.mode := rfl
@[simp] theorem setMower_line (i : Nat) (f : Mower → Mower) (s : State) : (setMower i f s).line = s.line := rfl
@[simp] theorem setMower_nodes (i : Nat) (f : Mower → Mower) (s : State) : (setMower i f s).nodes = s.nodes := rfl
@[simp] theorem setMower_zone (i : Nat) (f : Mower → Mower) (s : State) : (setMower i f s).zone = s.zone := rfl
@[simp] theorem setMower_water (i : Nat) (f : Mower → Mower) (s : State) : (setMower i f s).water = s.water := rfl
@[simp] theorem setMower_light (i : Nat) (f : Mower → Mower) (s : State) : (setMower i f s).light = s.light := rfl
@[simp] theorem setMower_power (i : Nat) (f : Mower → Mower) (s : State) : (setMower i f s).power = s.power := rfl
@[simp] theorem setMower_mgmt (i : Nat) (f : Mower → Mower) (s : State) : (setMower i f s).mgmt = s.mgmt := rfl
@[simp] theorem setMower_notices (i : Nat) (f : Mower → Mower) (s : State) : (setMower i f s).notices = s.notices := rfl
@[simp] theorem setMower_store (i : Nat) (f : Mower → Mower) (s : State) : (setMower i f s).store = s.store := rfl
@[simp] theorem setMower_free (i : Nat) (f : Mower → Mower) (s : State) : (setMower i f s).free = s.free := rfl
@[simp] theorem setMower_pending (i : Nat) (f : Mower → Mower) (s : State) : (setMower i f s).pending = s.pending := rfl

/-! ### setChannel -/

@[simp] theorem setChannel_mode (i : Nat) (f : Channel → Channel) (s : State) : (setChannel i f s).mode = s.mode := rfl
@[simp] theorem setChannel_line (i : Nat) (f : Channel → Channel) (s : State) : (setChannel i f s).line = s.line := rfl
@[simp] theorem setChannel_nodes (i : Nat) (f : Channel → Channel) (s : State) : (setChannel i f s).nodes = s.nodes := rfl
@[simp] theorem setChannel_pos (i : Nat) (f : Channel → Channel) (s : State) : (setChannel i f s).pos = s.pos := rfl
@[simp] theorem setChannel_zone (i : Nat) (f : Channel → Channel) (s : State) : (setChannel i f s).zone = s.zone := rfl
@[simp] theorem setChannel_light (i : Nat) (f : Channel → Channel) (s : State) : (setChannel i f s).light = s.light := rfl
@[simp] theorem setChannel_power (i : Nat) (f : Channel → Channel) (s : State) : (setChannel i f s).power = s.power := rfl
@[simp] theorem setChannel_mgmt (i : Nat) (f : Channel → Channel) (s : State) : (setChannel i f s).mgmt = s.mgmt := rfl
@[simp] theorem setChannel_notices (i : Nat) (f : Channel → Channel) (s : State) : (setChannel i f s).notices = s.notices := rfl
@[simp] theorem setChannel_store (i : Nat) (f : Channel → Channel) (s : State) : (setChannel i f s).store = s.store := rfl
@[simp] theorem setChannel_free (i : Nat) (f : Channel → Channel) (s : State) : (setChannel i f s).free = s.free := rfl
@[simp] theorem setChannel_pending (i : Nat) (f : Channel → Channel) (s : State) : (setChannel i f s).pending = s.pending := rfl

/-! ### setPlayer -/

@[simp] theorem setPlayer_mode (i : Nat) (f : Player → Player) (s : State) : (setPlayer i f s).mode = s.mode := rfl
@[simp] theorem setPlayer_line (i : Nat) (f : Player → Player) (s : State) : (setPlayer i f s).line = s.line := rfl
@[simp] theorem setPlayer_nodes (i : Nat) (f : Player → Player) (s : State) : (setPlayer i f s).nodes = s.nodes := rfl
@[simp] theorem setPlayer_pos (i : Nat) (f : Player → Player) (s : State) : (setPlayer i f s).pos = s.pos := rfl
@[simp] theorem setPlayer_zone (i : Nat) (f : Player → Player) (s : State) : (setPlayer i f s).zone = s.zone := rfl
@[simp] theorem setPlayer_light (i : Nat) (f : Player → Player) (s : State) : (setPlayer i f s).light = s.light := rfl
@[simp] theorem setPlayer_power (i : Nat) (f : Player → Player) (s : State) : (setPlayer i f s).power = s.power := rfl
@[simp] theorem setPlayer_mgmt (i : Nat) (f : Player → Player) (s : State) : (setPlayer i f s).mgmt = s.mgmt := rfl
@[simp] theorem setPlayer_notices (i : Nat) (f : Player → Player) (s : State) : (setPlayer i f s).notices = s.notices := rfl
@[simp] theorem setPlayer_store (i : Nat) (f : Player → Player) (s : State) : (setPlayer i f s).store = s.store := rfl
@[simp] theorem setPlayer_free (i : Nat) (f : Player → Player) (s : State) : (setPlayer i f s).free = s.free := rfl
@[simp] theorem setPlayer_pending (i : Nat) (f : Player → Player) (s : State) : (setPlayer i f s).pending = s.pending := rfl

/-! ### setGroup -/

@[simp] theorem setGroup_mode (i : Nat) (f : LightGroup → LightGroup) (s : State) : (setGroup i f s).mode = s.mode := rfl
@[simp] theorem setGroup_line (i : Nat) (f : LightGroup → LightGroup) (s : State) : (setGroup i f s).line = s.line := rfl
@[simp] theorem setGroup_nodes (i : Nat) (f : LightGroup → LightGroup) (s : State) : (setGroup i f s).nodes = s.nodes := rfl
@[simp] theorem setGroup_pos (i : Nat) (f : LightGroup → LightGroup) (s : State) : (setGroup i f s).pos = s.pos := rfl
@[simp] theorem setGroup_zone (i : Nat) (f : LightGroup → LightGroup) (s : State) : (setGroup i f s).zone = s.zone := rfl
@[simp] theorem setGroup_water (i : Nat) (f : LightGroup → LightGroup) (s : State) : (setGroup i f s).water = s.water := rfl
@[simp] theorem setGroup_power (i : Nat) (f : LightGroup → LightGroup) (s : State) : (setGroup i f s).power = s.power := rfl
@[simp] theorem setGroup_mgmt (i : Nat) (f : LightGroup → LightGroup) (s : State) : (setGroup i f s).mgmt = s.mgmt := rfl
@[simp] theorem setGroup_notices (i : Nat) (f : LightGroup → LightGroup) (s : State) : (setGroup i f s).notices = s.notices := rfl
@[simp] theorem setGroup_store (i : Nat) (f : LightGroup → LightGroup) (s : State) : (setGroup i f s).store = s.store := rfl
@[simp] theorem setGroup_free (i : Nat) (f : LightGroup → LightGroup) (s : State) : (setGroup i f s).free = s.free := rfl
@[simp] theorem setGroup_pending (i : Nat) (f : LightGroup → LightGroup) (s : State) : (setGroup i f s).pending = s.pending := rfl

/-! ### post -/

@[simp] theorem post_mode (k : NoticeKind) (x : Option Nat) (d : Nat) (s : State) : (post k x d s).mode = s.mode := rfl
@[simp] theorem post_line (k : NoticeKind) (x : Option Nat) (d : Nat) (s : State) : (post k x d s).line = s.line := rfl
@[simp] theorem post_nodes (k : NoticeKind) (x : Option Nat) (d : Nat) (s : State) : (post k x d s).nodes = s.nodes := rfl
@[simp] theorem post_pos (k : NoticeKind) (x : Option Nat) (d : Nat) (s : State) : (post k x d s).pos = s.pos := rfl
@[simp] theorem post_zone (k : NoticeKind) (x : Option Nat) (d : Nat) (s : State) : (post k x d s).zone = s.zone := rfl
@[simp] theorem post_water (k : NoticeKind) (x : Option Nat) (d : Nat) (s : State) : (post k x d s).water = s.water := rfl
@[simp] theorem post_light (k : NoticeKind) (x : Option Nat) (d : Nat) (s : State) : (post k x d s).light = s.light := rfl
@[simp] theorem post_power (k : NoticeKind) (x : Option Nat) (d : Nat) (s : State) : (post k x d s).power = s.power := rfl
@[simp] theorem post_mgmt (k : NoticeKind) (x : Option Nat) (d : Nat) (s : State) : (post k x d s).mgmt = s.mgmt := rfl
@[simp] theorem post_store (k : NoticeKind) (x : Option Nat) (d : Nat) (s : State) : (post k x d s).store = s.store := rfl
@[simp] theorem post_free (k : NoticeKind) (x : Option Nat) (d : Nat) (s : State) : (post k x d s).free = s.free := rfl
@[simp] theorem post_pending (k : NoticeKind) (x : Option Nat) (d : Nat) (s : State) : (post k x d s).pending = s.pending := rfl

/-! ### setNext -/

@[simp] theorem setNext_mode (i : Nat) (p : Option Placement) (s : State) : (setNext i p s).mode = s.mode := rfl
@[simp] theorem setNext_nodes (i : Nat) (p : Option Placement) (s : State) : (setNext i p s).nodes = s.nodes := rfl
@[simp] theorem setNext_pos (i : Nat) (p : Option Placement) (s : State) : (setNext i p s).pos = s.pos := rfl
@[simp] theorem setNext_zone (i : Nat) (p : Option Placement) (s : State) : (setNext i p s).zone = s.zone := rfl
@[simp] theorem setNext_water (i : Nat) (p : Option Placement) (s : State) : (setNext i p s).water = s.water := rfl
@[simp] theorem setNext_light (i : Nat) (p : Option Placement) (s : State) : (setNext i p s).light = s.light := rfl
@[simp] theorem setNext_power (i : Nat) (p : Option Placement) (s : State) : (setNext i p s).power = s.power := rfl
@[simp] theorem setNext_mgmt (i : Nat) (p : Option Placement) (s : State) : (setNext i p s).mgmt = s.mgmt := rfl
@[simp] theorem setNext_notices (i : Nat) (p : Option Placement) (s : State) : (setNext i p s).notices = s.notices := rfl
@[simp] theorem setNext_store (i : Nat) (p : Option Placement) (s : State) : (setNext i p s).store = s.store := rfl
@[simp] theorem setNext_free (i : Nat) (p : Option Placement) (s : State) : (setNext i p s).free = s.free := rfl
@[simp] theorem setNext_pending (i : Nat) (p : Option Placement) (s : State) : (setNext i p s).pending = s.pending := rfl

/-! ### setLoop -/

@[simp] theorem setLoop_mode (i : Nat) (l : Option LoopRec) (s : State) : (setLoop i l s).mode = s.mode := rfl
@[simp] theorem setLoop_line (i : Nat) (l : Option LoopRec) (s : State) : (setLoop i l s).line = s.line := rfl
@[simp] theorem setLoop_nodes (i : Nat) (l : Option LoopRec) (s : State) : (setLoop i l s).nodes = s.nodes := rfl
@[simp] theorem setLoop_zone (i : Nat) (l : Option LoopRec) (s : State) : (setLoop i l s).zone = s.zone := rfl
@[simp] theorem setLoop_water (i : Nat) (l : Option LoopRec) (s : State) : (setLoop i l s).water = s.water := rfl
@[simp] theorem setLoop_light (i : Nat) (l : Option LoopRec) (s : State) : (setLoop i l s).light = s.light := rfl
@[simp] theorem setLoop_power (i : Nat) (l : Option LoopRec) (s : State) : (setLoop i l s).power = s.power := rfl
@[simp] theorem setLoop_mgmt (i : Nat) (l : Option LoopRec) (s : State) : (setLoop i l s).mgmt = s.mgmt := rfl
@[simp] theorem setLoop_notices (i : Nat) (l : Option LoopRec) (s : State) : (setLoop i l s).notices = s.notices := rfl
@[simp] theorem setLoop_store (i : Nat) (l : Option LoopRec) (s : State) : (setLoop i l s).store = s.store := rfl
@[simp] theorem setLoop_free (i : Nat) (l : Option LoopRec) (s : State) : (setLoop i l s).free = s.free := rfl
@[simp] theorem setLoop_pending (i : Nat) (l : Option LoopRec) (s : State) : (setLoop i l s).pending = s.pending := rfl

/-! ### setZone -/

@[simp] theorem setZone_mode (i : Nat) (z : Option ZoneRec) (s : State) : (setZone i z s).mode = s.mode := rfl
@[simp] theorem setZone_line (i : Nat) (z : Option ZoneRec) (s : State) : (setZone i z s).line = s.line := rfl
@[simp] theorem setZone_nodes (i : Nat) (z : Option ZoneRec) (s : State) : (setZone i z s).nodes = s.nodes := rfl
@[simp] theorem setZone_pos (i : Nat) (z : Option ZoneRec) (s : State) : (setZone i z s).pos = s.pos := rfl
@[simp] theorem setZone_water (i : Nat) (z : Option ZoneRec) (s : State) : (setZone i z s).water = s.water := rfl
@[simp] theorem setZone_light (i : Nat) (z : Option ZoneRec) (s : State) : (setZone i z s).light = s.light := rfl
@[simp] theorem setZone_power (i : Nat) (z : Option ZoneRec) (s : State) : (setZone i z s).power = s.power := rfl
@[simp] theorem setZone_mgmt (i : Nat) (z : Option ZoneRec) (s : State) : (setZone i z s).mgmt = s.mgmt := rfl
@[simp] theorem setZone_notices (i : Nat) (z : Option ZoneRec) (s : State) : (setZone i z s).notices = s.notices := rfl
@[simp] theorem setZone_store (i : Nat) (z : Option ZoneRec) (s : State) : (setZone i z s).store = s.store := rfl
@[simp] theorem setZone_free (i : Nat) (z : Option ZoneRec) (s : State) : (setZone i z s).free = s.free := rfl
@[simp] theorem setZone_pending (i : Nat) (z : Option ZoneRec) (s : State) : (setZone i z s).pending = s.pending := rfl

/-! ### giveAnswer -/

@[simp] theorem giveAnswer_mode (a : JoinAnswer) (s : State) : (giveAnswer a s).mode = s.mode := rfl
@[simp] theorem giveAnswer_line (a : JoinAnswer) (s : State) : (giveAnswer a s).line = s.line := rfl
@[simp] theorem giveAnswer_nodes (a : JoinAnswer) (s : State) : (giveAnswer a s).nodes = s.nodes := rfl
@[simp] theorem giveAnswer_pos (a : JoinAnswer) (s : State) : (giveAnswer a s).pos = s.pos := rfl
@[simp] theorem giveAnswer_zone (a : JoinAnswer) (s : State) : (giveAnswer a s).zone = s.zone := rfl
@[simp] theorem giveAnswer_water (a : JoinAnswer) (s : State) : (giveAnswer a s).water = s.water := rfl
@[simp] theorem giveAnswer_light (a : JoinAnswer) (s : State) : (giveAnswer a s).light = s.light := rfl
@[simp] theorem giveAnswer_power (a : JoinAnswer) (s : State) : (giveAnswer a s).power = s.power := rfl
@[simp] theorem giveAnswer_notices (a : JoinAnswer) (s : State) : (giveAnswer a s).notices = s.notices := rfl
@[simp] theorem giveAnswer_store (a : JoinAnswer) (s : State) : (giveAnswer a s).store = s.store := rfl
@[simp] theorem giveAnswer_free (a : JoinAnswer) (s : State) : (giveAnswer a s).free = s.free := rfl
@[simp] theorem giveAnswer_pending (a : JoinAnswer) (s : State) : (giveAnswer a s).pending = s.pending := rfl

/-! ### dropJoiner -/

@[simp] theorem dropJoiner_mode (x : Serial) (s : State) : (dropJoiner x s).mode = s.mode := rfl
@[simp] theorem dropJoiner_line (x : Serial) (s : State) : (dropJoiner x s).line = s.line := rfl
@[simp] theorem dropJoiner_pos (x : Serial) (s : State) : (dropJoiner x s).pos = s.pos := rfl
@[simp] theorem dropJoiner_zone (x : Serial) (s : State) : (dropJoiner x s).zone = s.zone := rfl
@[simp] theorem dropJoiner_water (x : Serial) (s : State) : (dropJoiner x s).water = s.water := rfl
@[simp] theorem dropJoiner_light (x : Serial) (s : State) : (dropJoiner x s).light = s.light := rfl
@[simp] theorem dropJoiner_power (x : Serial) (s : State) : (dropJoiner x s).power = s.power := rfl
@[simp] theorem dropJoiner_mgmt (x : Serial) (s : State) : (dropJoiner x s).mgmt = s.mgmt := rfl
@[simp] theorem dropJoiner_notices (x : Serial) (s : State) : (dropJoiner x s).notices = s.notices := rfl
@[simp] theorem dropJoiner_store (x : Serial) (s : State) : (dropJoiner x s).store = s.store := rfl
@[simp] theorem dropJoiner_free (x : Serial) (s : State) : (dropJoiner x s).free = s.free := rfl
@[simp] theorem dropJoiner_pending (x : Serial) (s : State) : (dropJoiner x s).pending = s.pending := rfl

/-! ### countBusy -/

@[simp] theorem countBusy_mode (s : State) : (countBusy s).mode = s.mode := rfl
@[simp] theorem countBusy_line (s : State) : (countBusy s).line = s.line := rfl
@[simp] theorem countBusy_nodes (s : State) : (countBusy s).nodes = s.nodes := rfl
@[simp] theorem countBusy_pos (s : State) : (countBusy s).pos = s.pos := rfl
@[simp] theorem countBusy_zone (s : State) : (countBusy s).zone = s.zone := rfl
@[simp] theorem countBusy_water (s : State) : (countBusy s).water = s.water := rfl
@[simp] theorem countBusy_light (s : State) : (countBusy s).light = s.light := rfl
@[simp] theorem countBusy_power (s : State) : (countBusy s).power = s.power := rfl
@[simp] theorem countBusy_mgmt (s : State) : (countBusy s).mgmt = s.mgmt := rfl
@[simp] theorem countBusy_notices (s : State) : (countBusy s).notices = s.notices := rfl
@[simp] theorem countBusy_free (s : State) : (countBusy s).free = s.free := rfl
@[simp] theorem countBusy_pending (s : State) : (countBusy s).pending = s.pending := rfl

/-! ### reportToMowers -/

@[simp] theorem reportToMowers_mode (n : Nat) (a b : Node) (s : State) : (reportToMowers n a b s).mode = s.mode := rfl
@[simp] theorem reportToMowers_line (n : Nat) (a b : Node) (s : State) : (reportToMowers n a b s).line = s.line := rfl
@[simp] theorem reportToMowers_nodes (n : Nat) (a b : Node) (s : State) : (reportToMowers n a b s).nodes = s.nodes := rfl
@[simp] theorem reportToMowers_zone (n : Nat) (a b : Node) (s : State) : (reportToMowers n a b s).zone = s.zone := rfl
@[simp] theorem reportToMowers_water (n : Nat) (a b : Node) (s : State) : (reportToMowers n a b s).water = s.water := rfl
@[simp] theorem reportToMowers_light (n : Nat) (a b : Node) (s : State) : (reportToMowers n a b s).light = s.light := rfl
@[simp] theorem reportToMowers_power (n : Nat) (a b : Node) (s : State) : (reportToMowers n a b s).power = s.power := rfl
@[simp] theorem reportToMowers_mgmt (n : Nat) (a b : Node) (s : State) : (reportToMowers n a b s).mgmt = s.mgmt := rfl
@[simp] theorem reportToMowers_notices (n : Nat) (a b : Node) (s : State) : (reportToMowers n a b s).notices = s.notices := rfl
@[simp] theorem reportToMowers_store (n : Nat) (a b : Node) (s : State) : (reportToMowers n a b s).store = s.store := rfl
@[simp] theorem reportToMowers_free (n : Nat) (a b : Node) (s : State) : (reportToMowers n a b s).free = s.free := rfl
@[simp] theorem reportToMowers_pending (n : Nat) (a b : Node) (s : State) : (reportToMowers n a b s).pending = s.pending := rfl

/-! ### breakMowers -/

@[simp] theorem breakMowers_mode (n : Nat) (b : Node) (s : State) : (breakMowers n b s).mode = s.mode := rfl
@[simp] theorem breakMowers_line (n : Nat) (b : Node) (s : State) : (breakMowers n b s).line = s.line := rfl
@[simp] theorem breakMowers_nodes (n : Nat) (b : Node) (s : State) : (breakMowers n b s).nodes = s.nodes := rfl
@[simp] theorem breakMowers_zone (n : Nat) (b : Node) (s : State) : (breakMowers n b s).zone = s.zone := rfl
@[simp] theorem breakMowers_water (n : Nat) (b : Node) (s : State) : (breakMowers n b s).water = s.water := rfl
@[simp] theorem breakMowers_light (n : Nat) (b : Node) (s : State) : (breakMowers n b s).light = s.light := rfl
@[simp] theorem breakMowers_power (n : Nat) (b : Node) (s : State) : (breakMowers n b s).power = s.power := rfl
@[simp] theorem breakMowers_mgmt (n : Nat) (b : Node) (s : State) : (breakMowers n b s).mgmt = s.mgmt := rfl
@[simp] theorem breakMowers_notices (n : Nat) (b : Node) (s : State) : (breakMowers n b s).notices = s.notices := rfl
@[simp] theorem breakMowers_store (n : Nat) (b : Node) (s : State) : (breakMowers n b s).store = s.store := rfl
@[simp] theorem breakMowers_free (n : Nat) (b : Node) (s : State) : (breakMowers n b s).free = s.free := rfl
@[simp] theorem breakMowers_pending (n : Nat) (b : Node) (s : State) : (breakMowers n b s).pending = s.pending := rfl

/-! ### lineToBreak -/

@[simp] theorem lineToBreak_mode (s : State) : (lineToBreak s).mode = s.mode := rfl
@[simp] theorem lineToBreak_nodes (s : State) : (lineToBreak s).nodes = s.nodes := rfl
@[simp] theorem lineToBreak_pos (s : State) : (lineToBreak s).pos = s.pos := rfl
@[simp] theorem lineToBreak_zone (s : State) : (lineToBreak s).zone = s.zone := rfl
@[simp] theorem lineToBreak_water (s : State) : (lineToBreak s).water = s.water := rfl
@[simp] theorem lineToBreak_light (s : State) : (lineToBreak s).light = s.light := rfl
@[simp] theorem lineToBreak_power (s : State) : (lineToBreak s).power = s.power := rfl
@[simp] theorem lineToBreak_mgmt (s : State) : (lineToBreak s).mgmt = s.mgmt := rfl
@[simp] theorem lineToBreak_notices (s : State) : (lineToBreak s).notices = s.notices := rfl
@[simp] theorem lineToBreak_store (s : State) : (lineToBreak s).store = s.store := rfl
@[simp] theorem lineToBreak_free (s : State) : (lineToBreak s).free = s.free := rfl
@[simp] theorem lineToBreak_pending (s : State) : (lineToBreak s).pending = s.pending := rfl

/-! ### formOccupancy -/

@[simp] theorem formOccupancy_mode (s : State) : (formOccupancy s).mode = s.mode := rfl
@[simp] theorem formOccupancy_line (s : State) : (formOccupancy s).line = s.line := rfl
@[simp] theorem formOccupancy_nodes (s : State) : (formOccupancy s).nodes = s.nodes := rfl
@[simp] theorem formOccupancy_pos (s : State) : (formOccupancy s).pos = s.pos := rfl
@[simp] theorem formOccupancy_water (s : State) : (formOccupancy s).water = s.water := rfl
@[simp] theorem formOccupancy_power (s : State) : (formOccupancy s).power = s.power := rfl
@[simp] theorem formOccupancy_mgmt (s : State) : (formOccupancy s).mgmt = s.mgmt := rfl
@[simp] theorem formOccupancy_notices (s : State) : (formOccupancy s).notices = s.notices := rfl
@[simp] theorem formOccupancy_store (s : State) : (formOccupancy s).store = s.store := rfl
@[simp] theorem formOccupancy_free (s : State) : (formOccupancy s).free = s.free := rfl
@[simp] theorem formOccupancy_pending (s : State) : (formOccupancy s).pending = s.pending := rfl

/-! ### formLevels -/

@[simp] theorem formLevels_mode (s : State) : (formLevels s).mode = s.mode := rfl
@[simp] theorem formLevels_line (s : State) : (formLevels s).line = s.line := rfl
@[simp] theorem formLevels_nodes (s : State) : (formLevels s).nodes = s.nodes := rfl
@[simp] theorem formLevels_pos (s : State) : (formLevels s).pos = s.pos := rfl
@[simp] theorem formLevels_zone (s : State) : (formLevels s).zone = s.zone := rfl
@[simp] theorem formLevels_light (s : State) : (formLevels s).light = s.light := rfl
@[simp] theorem formLevels_power (s : State) : (formLevels s).power = s.power := rfl
@[simp] theorem formLevels_mgmt (s : State) : (formLevels s).mgmt = s.mgmt := rfl
@[simp] theorem formLevels_notices (s : State) : (formLevels s).notices = s.notices := rfl
@[simp] theorem formLevels_store (s : State) : (formLevels s).store = s.store := rfl
@[simp] theorem formLevels_free (s : State) : (formLevels s).free = s.free := rfl
@[simp] theorem formLevels_pending (s : State) : (formLevels s).pending = s.pending := rfl

/-! ### formGroups -/

@[simp] theorem formGroups_mode (s : State) : (formGroups s).mode = s.mode := rfl
@[simp] theorem formGroups_line (s : State) : (formGroups s).line = s.line := rfl
@[simp] theorem formGroups_nodes (s : State) : (formGroups s).nodes = s.nodes := rfl
@[simp] theorem formGroups_pos (s : State) : (formGroups s).pos = s.pos := rfl
@[simp] theorem formGroups_zone (s : State) : (formGroups s).zone = s.zone := rfl
@[simp] theorem formGroups_water (s : State) : (formGroups s).water = s.water := rfl
@[simp] theorem formGroups_power (s : State) : (formGroups s).power = s.power := rfl
@[simp] theorem formGroups_mgmt (s : State) : (formGroups s).mgmt = s.mgmt := rfl
@[simp] theorem formGroups_notices (s : State) : (formGroups s).notices = s.notices := rfl
@[simp] theorem formGroups_store (s : State) : (formGroups s).store = s.store := rfl
@[simp] theorem formGroups_free (s : State) : (formGroups s).free = s.free := rfl
@[simp] theorem formGroups_pending (s : State) : (formGroups s).pending = s.pending := rfl

/-! ### deliverGroups -/

@[simp] theorem deliverGroups_mode (s : State) : (deliverGroups s).mode = s.mode := rfl
@[simp] theorem deliverGroups_line (s : State) : (deliverGroups s).line = s.line := rfl
@[simp] theorem deliverGroups_nodes (s : State) : (deliverGroups s).nodes = s.nodes := rfl
@[simp] theorem deliverGroups_pos (s : State) : (deliverGroups s).pos = s.pos := rfl
@[simp] theorem deliverGroups_zone (s : State) : (deliverGroups s).zone = s.zone := rfl
@[simp] theorem deliverGroups_water (s : State) : (deliverGroups s).water = s.water := rfl
@[simp] theorem deliverGroups_power (s : State) : (deliverGroups s).power = s.power := rfl
@[simp] theorem deliverGroups_mgmt (s : State) : (deliverGroups s).mgmt = s.mgmt := rfl
@[simp] theorem deliverGroups_notices (s : State) : (deliverGroups s).notices = s.notices := rfl
@[simp] theorem deliverGroups_store (s : State) : (deliverGroups s).store = s.store := rfl
@[simp] theorem deliverGroups_free (s : State) : (deliverGroups s).free = s.free := rfl
@[simp] theorem deliverGroups_pending (s : State) : (deliverGroups s).pending = s.pending := rfl

/-! ### takeRequests -/

@[simp] theorem takeRequests_mode (s : State) : (takeRequests s).mode = s.mode := rfl
@[simp] theorem takeRequests_line (s : State) : (takeRequests s).line = s.line := rfl
@[simp] theorem takeRequests_nodes (s : State) : (takeRequests s).nodes = s.nodes := rfl
@[simp] theorem takeRequests_pos (s : State) : (takeRequests s).pos = s.pos := rfl
@[simp] theorem takeRequests_zone (s : State) : (takeRequests s).zone = s.zone := rfl
@[simp] theorem takeRequests_water (s : State) : (takeRequests s).water = s.water := rfl
@[simp] theorem takeRequests_light (s : State) : (takeRequests s).light = s.light := rfl
@[simp] theorem takeRequests_mgmt (s : State) : (takeRequests s).mgmt = s.mgmt := rfl
@[simp] theorem takeRequests_notices (s : State) : (takeRequests s).notices = s.notices := rfl
@[simp] theorem takeRequests_store (s : State) : (takeRequests s).store = s.store := rfl
@[simp] theorem takeRequests_free (s : State) : (takeRequests s).free = s.free := rfl
@[simp] theorem takeRequests_pending (s : State) : (takeRequests s).pending = s.pending := rfl

/-! ### allocate -/

@[simp] theorem allocate_mode (s : State) : (allocate s).mode = s.mode := rfl
@[simp] theorem allocate_line (s : State) : (allocate s).line = s.line := rfl
@[simp] theorem allocate_nodes (s : State) : (allocate s).nodes = s.nodes := rfl
@[simp] theorem allocate_pos (s : State) : (allocate s).pos = s.pos := rfl
@[simp] theorem allocate_zone (s : State) : (allocate s).zone = s.zone := rfl
@[simp] theorem allocate_water (s : State) : (allocate s).water = s.water := rfl
@[simp] theorem allocate_light (s : State) : (allocate s).light = s.light := rfl
@[simp] theorem allocate_mgmt (s : State) : (allocate s).mgmt = s.mgmt := rfl
@[simp] theorem allocate_notices (s : State) : (allocate s).notices = s.notices := rfl
@[simp] theorem allocate_store (s : State) : (allocate s).store = s.store := rfl
@[simp] theorem allocate_free (s : State) : (allocate s).free = s.free := rfl
@[simp] theorem allocate_pending (s : State) : (allocate s).pending = s.pending := rfl

/-! ### dropRun -/

@[simp] theorem dropRun_mode (s : State) : (dropRun s).mode = s.mode := rfl
@[simp] theorem dropRun_line (s : State) : (dropRun s).line = s.line := rfl
@[simp] theorem dropRun_nodes (s : State) : (dropRun s).nodes = s.nodes := rfl
@[simp] theorem dropRun_pos (s : State) : (dropRun s).pos = s.pos := rfl
@[simp] theorem dropRun_zone (s : State) : (dropRun s).zone = s.zone := rfl
@[simp] theorem dropRun_water (s : State) : (dropRun s).water = s.water := rfl
@[simp] theorem dropRun_light (s : State) : (dropRun s).light = s.light := rfl
@[simp] theorem dropRun_mgmt (s : State) : (dropRun s).mgmt = s.mgmt := rfl
@[simp] theorem dropRun_notices (s : State) : (dropRun s).notices = s.notices := rfl
@[simp] theorem dropRun_store (s : State) : (dropRun s).store = s.store := rfl
@[simp] theorem dropRun_free (s : State) : (dropRun s).free = s.free := rfl
@[simp] theorem dropRun_pending (s : State) : (dropRun s).pending = s.pending := rfl

/-! ### changeLoop -/

@[simp] theorem changeLoop_mode (i : Nat) (s : State) : (changeLoop i s).mode = s.mode := rfl
@[simp] theorem changeLoop_line (i : Nat) (s : State) : (changeLoop i s).line = s.line := rfl
@[simp] theorem changeLoop_nodes (i : Nat) (s : State) : (changeLoop i s).nodes = s.nodes := rfl
@[simp] theorem changeLoop_zone (i : Nat) (s : State) : (changeLoop i s).zone = s.zone := rfl
@[simp] theorem changeLoop_water (i : Nat) (s : State) : (changeLoop i s).water = s.water := rfl
@[simp] theorem changeLoop_light (i : Nat) (s : State) : (changeLoop i s).light = s.light := rfl
@[simp] theorem changeLoop_power (i : Nat) (s : State) : (changeLoop i s).power = s.power := rfl
@[simp] theorem changeLoop_mgmt (i : Nat) (s : State) : (changeLoop i s).mgmt = s.mgmt := rfl
@[simp] theorem changeLoop_notices (i : Nat) (s : State) : (changeLoop i s).notices = s.notices := rfl
@[simp] theorem changeLoop_store (i : Nat) (s : State) : (changeLoop i s).store = s.store := rfl
@[simp] theorem changeLoop_free (i : Nat) (s : State) : (changeLoop i s).free = s.free := rfl
@[simp] theorem changeLoop_pending (i : Nat) (s : State) : (changeLoop i s).pending = s.pending := rfl

/-! ### haltShows -/

@[simp] theorem haltShows_mode (s : State) : (haltShows s).mode = s.mode := rfl
@[simp] theorem haltShows_line (s : State) : (haltShows s).line = s.line := rfl
@[simp] theorem haltShows_nodes (s : State) : (haltShows s).nodes = s.nodes := rfl
@[simp] theorem haltShows_pos (s : State) : (haltShows s).pos = s.pos := rfl
@[simp] theorem haltShows_zone (s : State) : (haltShows s).zone = s.zone := rfl
@[simp] theorem haltShows_light (s : State) : (haltShows s).light = s.light := rfl
@[simp] theorem haltShows_power (s : State) : (haltShows s).power = s.power := rfl
@[simp] theorem haltShows_mgmt (s : State) : (haltShows s).mgmt = s.mgmt := rfl
@[simp] theorem haltShows_notices (s : State) : (haltShows s).notices = s.notices := rfl
@[simp] theorem haltShows_store (s : State) : (haltShows s).store = s.store := rfl
@[simp] theorem haltShows_free (s : State) : (haltShows s).free = s.free := rfl
@[simp] theorem haltShows_pending (s : State) : (haltShows s).pending = s.pending := rfl

/-! ### setPointer -/

@[simp] theorem setPointer_mode (a b c : Nat) (s : State) : (setPointer a b c s).mode = s.mode := rfl
@[simp] theorem setPointer_line (a b c : Nat) (s : State) : (setPointer a b c s).line = s.line := rfl
@[simp] theorem setPointer_nodes (a b c : Nat) (s : State) : (setPointer a b c s).nodes = s.nodes := rfl
@[simp] theorem setPointer_pos (a b c : Nat) (s : State) : (setPointer a b c s).pos = s.pos := rfl
@[simp] theorem setPointer_zone (a b c : Nat) (s : State) : (setPointer a b c s).zone = s.zone := rfl
@[simp] theorem setPointer_water (a b c : Nat) (s : State) : (setPointer a b c s).water = s.water := rfl
@[simp] theorem setPointer_light (a b c : Nat) (s : State) : (setPointer a b c s).light = s.light := rfl
@[simp] theorem setPointer_power (a b c : Nat) (s : State) : (setPointer a b c s).power = s.power := rfl
@[simp] theorem setPointer_notices (a b c : Nat) (s : State) : (setPointer a b c s).notices = s.notices := rfl
@[simp] theorem setPointer_store (a b c : Nat) (s : State) : (setPointer a b c s).store = s.store := rfl
@[simp] theorem setPointer_free (a b c : Nat) (s : State) : (setPointer a b c s).free = s.free := rfl
@[simp] theorem setPointer_pending (a b c : Nat) (s : State) : (setPointer a b c s).pending = s.pending := rfl

end Sys2Proof.Machine
end

