-- ==== Sys2Proof/Laws/Settle.lean ====
section
/-! SUPPORT. What a settled handling does: it leaves alone what `SettledFrom` lists, and the laws of the blocks that
form results hold after it. -/

namespace Sys2Proof.Machine

/-! ### Maps over a table with its index -/

theorem mapIx_getElem? {α β : Type} (f : Nat → α → β) (l : List α) (k i : Nat) :
    (mapIx f k l)[i]? = l[i]?.map (f (k + i)) := by
  induction l generalizing k i with
  | nil => simp [mapIx]
  | cons a l ih =>
    cases i with
    | zero => simp [mapIx]
    | succ i => simp [mapIx, ih, Nat.add_assoc, Nat.add_comm 1 i]

theorem mapIx_map {α β γ : Type} (f : Nat → α → β) (g : β → γ) (h : α → γ) (hf : ∀ i a, g (f i a) = h a)
    (k : Nat) (l : List α) : (mapIx f k l).map g = l.map h := by
  induction l generalizing k with
  | nil => rfl
  | cons a l ih => simp [mapIx, hf, ih]

theorem eachIx_keeps {P : State → Prop} {f : Nat → State → State} (hf : ∀ i t, P t → P (f i t)) (n : Nat) {s : State}
    (hs : P s) : P (eachIx f n s) := by
  unfold eachIx
  generalize List.range n = l
  induction l generalizing s with
  | nil => exact hs
  | cons i l ih => exact ih (hf i s hs)

theorem map_modify {α β : Type} (g : α → β) (f : α → α) (hf : ∀ a, g (f a) = g a) (l : List α) (i : Nat) :
    (l.modify i f).map g = l.map g := by
  apply List.ext_getElem?
  intro j
  simp only [List.getElem?_map, List.getElem?_modify]
  split <;> cases l[j]? <;> simp [hf]

/-! ### The frame of a settled handling -/

theorem SettledFrom.refl (s : State) : SettledFrom s s := by constructor <;> rfl

theorem SettledFrom.trans {s t u : State} (a : SettledFrom s t) (b : SettledFrom t u) : SettledFrom s u where
  mode := b.mode.trans a.mode
  line := b.line.trans a.line
  nodes := b.nodes.trans a.nodes
  pos := b.pos.trans a.pos
  store := b.store.trans a.store
  mgmt := b.mgmt.trans a.mgmt
  pending := b.pending.trans a.pending
  zones := b.zones.trans a.zones
  dockAll := b.dockAll.trans a.dockAll
  channels := b.channels.trans a.channels
  shows := b.shows.trans a.shows
  steps := b.steps.trans a.steps
  lights := b.lights.trans a.lights
  loads := b.loads.trans a.loads
  measured := b.measured.trans a.measured

theorem SettledFrom.eachIx {f : Nat → State → State} (hf : ∀ i t, SettledFrom t (f i t)) (n : Nat) (s : State) :
    SettledFrom s (eachIx f n s) :=
  eachIx_keeps (P := SettledFrom s) (fun i t h => h.trans (hf i t)) n (.refl s)

/-- What the operations after the conditions and the occupancies leave alone besides. -/
structure LaterFrom (s t : State) : Prop where
  base : SettledFrom s t
  rain : t.water.rain = s.water.rain
  dry : t.water.dry = s.water.dry
  pond : t.water.pond = s.water.pond
  players : t.water.shows = s.water.shows
  occ : t.zone.occ = s.zone.occ
  counts : t.zone.counts = s.zone.counts
  sprayCaps : t.zone.sprayCaps = s.zone.sprayCaps
  presence : t.zone.presence = s.zone.presence

/-- What the operations after the keepouts leave alone besides: the whole Zone Monitor, the monitors and the cycles. -/
structure LastFrom (s t : State) : Prop where
  later : LaterFrom s t
  zone : t.zone = s.zone
  cycles : t.water.channels.map (fun c => (c.cfg, c.latch, c.filt, c.clogged, c.stage, c.timer, c.cause, c.count))
    = s.water.channels.map (fun c => (c.cfg, c.latch, c.filt, c.clogged, c.stage, c.timer, c.cause, c.count))

theorem LaterFrom.refl (s : State) : LaterFrom s s := by constructor <;> first | rfl | exact .refl s

theorem LaterFrom.trans {s t u : State} (a : LaterFrom s t) (b : LaterFrom t u) : LaterFrom s u :=
  ⟨a.base.trans b.base, b.rain.trans a.rain, b.dry.trans a.dry, b.pond.trans a.pond, b.players.trans a.players,
    b.occ.trans a.occ, b.counts.trans a.counts, b.sprayCaps.trans a.sprayCaps, b.presence.trans a.presence⟩

theorem LaterFrom.eachIx {f : Nat → State → State} (hf : ∀ i t, LaterFrom t (f i t)) (n : Nat) (s : State) :
    LaterFrom s (eachIx f n s) :=
  eachIx_keeps (P := LaterFrom s) (fun i t h => h.trans (hf i t)) n (.refl s)

theorem LastFrom.refl (s : State) : LastFrom s s := ⟨.refl s, rfl, rfl⟩

theorem LastFrom.trans {s t u : State} (a : LastFrom s t) (b : LastFrom t u) : LastFrom s u :=
  ⟨a.later.trans b.later, b.zone.trans a.zone, b.cycles.trans a.cycles⟩

theorem post_last (k : NoticeKind) (x : Option Nat) (d : Nat) (s : State) : LastFrom s (post k x d s) :=
  ⟨⟨by constructor <;> rfl, rfl, rfl, rfl, rfl, rfl, rfl, rfl, rfl⟩, rfl, rfl⟩

theorem postDetail_last (k : NoticeKind) (x d : Option Nat) (s : State) : LastFrom s (postDetail k x d s) := by
  unfold postDetail
  split
  · exact post_last ..
  · exact ⟨⟨by constructor <;> rfl, rfl, rfl, rfl, rfl, rfl, rfl, rfl, rfl⟩, rfl, rfl⟩

theorem setChannel_later (i : Nat) (f : Channel → Channel) (hf : ∀ c, (f c).cfg = c.cfg ∧ (f c).latch = c.latch)
    (s : State) : LaterFrom s (setChannel i f s) := by
  refine ⟨?_, rfl, rfl, rfl, rfl, rfl, rfl, rfl, rfl⟩
  constructor <;> first | rfl | skip
  exact map_modify _ _ (fun c => by simp [hf c]) _ _

theorem formConditions_settled (s : State) : SettledFrom s (formConditions s) := by
  have h : SettledFrom s (postUnknown s.water.pond (pondNow s) s) := by
    unfold postUnknown
    split
    · exact (post_last ..).later.base
    · exact .refl s
  refine ⟨h.mode, h.line, h.nodes, h.pos, h.store, h.mgmt, h.pending, h.zones, h.dockAll, rfl, ?_, rfl, h.lights,
    h.loads, h.measured⟩
  simp only [formConditions, List.map_map]
  apply List.map_congr_left
  intro p _
  simp only [Function.comp, Player.weather]
  split
  · rfl
  · split <;> rfl

theorem handed_cfg (a b : Bool) (g : LightGroup) : (g.handed a b).cfg = g.cfg := by
  unfold LightGroup.handed
  split
  · rfl
  · split
    · rfl
    · split <;> rfl

theorem formOccupancy_settled (s : State) : SettledFrom s (formOccupancy s) := by
  constructor <;> first | rfl | skip
  exact mapIx_map _ LightGroup.cfg LightGroup.cfg (fun _ _ => handed_cfg ..) _ _

theorem formMonitors_later (d : Bool) (s : State) : LaterFrom s (formMonitors d s) := by
  refine ⟨?_, rfl, rfl, rfl, rfl, rfl, rfl, rfl, rfl⟩
  constructor <;> first | rfl | skip
  simp only [formMonitors, List.map_map]
  apply List.map_congr_left
  intro c _
  have hm : (c.monitored s).cfg = c.cfg ∧ (c.monitored s).latch = c.latch := by
    unfold Channel.monitored
    split <;> exact ⟨rfl, rfl⟩
  have ha : ∀ c : Channel, c.autoRequest.cfg = c.cfg ∧ c.autoRequest.latch = c.latch := by
    intro c
    unfold Channel.autoRequest
    split
    · exact ⟨rfl, rfl⟩
    · split <;> exact ⟨rfl, rfl⟩
  simp only [Function.comp]
  split <;> simp [ha, hm]

theorem cycleStep_later (i : Nat) (s : State) : LaterFrom s (cycleStep i s) := by
  unfold cycleStep
  dsimp only
  cases (channelAt s i).cfg with
  | none => exact .refl s
  | some r =>
    dsimp only
    have done : LaterFrom s (cycleDone i s) :=
      (setChannel_later i (fun c => { c.idle with count := inc16 c.count }) (fun c => ⟨rfl, rfl⟩) s).trans
        (post_last ..).later
    have gone : LaterFrom s (cycleAborted i s) :=
      (setChannel_later i Channel.idle (fun c => ⟨rfl, rfl⟩) s).trans (post_last ..).later
    split
    · exact .refl s
    · exact .refl s
    · split
      · exact done
      · exact .refl s
    · split
      · exact gone
      · exact .refl s
    all_goals
      split
      · next k _ => exact setChannel_later i (Channel.abort k) (fun c => ⟨rfl, rfl⟩) s
      · split
        · exact setChannel_later i (Channel.enterWashing r) (fun c => ⟨rfl, rfl⟩) s
        · exact .refl s

theorem cycleStart_later (i : Nat) (s : State) : LaterFrom s (cycleStart i s) := by
  unfold cycleStart
  dsimp only
  split
  · exact .refl s
  · next r _ =>
    split
    · exact setChannel_later i (Channel.enterStopping r) (fun c => ⟨rfl, rfl⟩) s
    · exact .refl s

theorem formStarts_later (s : State) : LaterFrom s (formStarts s) := .eachIx cycleStart_later 8 s

theorem startTest_later (d : Bool) (s : State) : LaterFrom s (startTest d s) := by
  cases d
  · exact formStarts_later s
  · exact .refl s

theorem postEntries_later (a b : List (List Nat)) (s : State) : LaterFrom s (postEntries a b s) := by
  unfold postEntries
  refine .eachIx (fun z t => .eachIx (fun m u => ?_) 4 t) 32 s
  split
  · exact (post_last ..).later
  · exact .refl u

theorem formKeepouts_later (s : State) : LaterFrom s (formKeepouts s) := by
  have h := postEntries_later s.zone.keep (keepoutSets s) s
  have b := h.base
  exact ⟨⟨b.mode, b.line, b.nodes, b.pos, b.store, b.mgmt, b.pending, rfl, rfl, b.channels, b.shows, b.steps, b.lights,
    b.loads, b.measured⟩, h.rain, h.dry, h.pond, h.players, rfl, rfl, rfl, rfl⟩

theorem formLevel_frame (s : State) (i : Nat) (c : Channel) :
    (formLevel s i c).cfg = c.cfg ∧ (formLevel s i c).latch = c.latch ∧ (formLevel s i c).filt = c.filt
      ∧ (formLevel s i c).clogged = c.clogged ∧ (formLevel s i c).stage = c.stage
      ∧ (formLevel s i c).timer = c.timer ∧ (formLevel s i c).cause = c.cause
      ∧ (formLevel s i c).count = c.count := by
  unfold formLevel
  cases c.cfg with
  | none => simp
  | some r => dsimp only; split <;> simp

theorem formLevels_last (s : State) : LastFrom s (formLevels s) := by
  refine ⟨⟨?_, rfl, rfl, rfl, rfl, rfl, rfl, rfl, rfl⟩, rfl,
    mapIx_map _ _ _ (fun i c => by simp [formLevel_frame s i c]) _ _⟩
  constructor <;> first | rfl | skip
  exact mapIx_map _ _ _ (fun i c => by simp [formLevel_frame s i c]) _ _

theorem reaim_cfg (fresh : Bool) (a : Nat) (g : LightGroup) : (g.reaim fresh a).cfg = g.cfg := by
  unfold LightGroup.reaim
  cases hg : g.cfg with
  | none => rfl
  | some r => dsimp only; split <;> simp

theorem formGroup_cfg (s : State) (i : Nat) (g : LightGroup) : (formGroup s i g).cfg = g.cfg := by
  have hi : (formInputs s i g).cfg = g.cfg := by
    unfold formInputs
    cases hg : g.cfg with
    | none => rfl
    | some r =>
      simp only [presenceMove]
      split
      · rfl
      · rfl
      · rfl
      · split <;> rfl
      · rfl
      · rfl
  unfold formGroup
  rw [reaim_cfg]
  unfold LightGroup.settleOnline
  split <;> exact hi

theorem formGroups_last (s : State) : LastFrom s (formGroups s) := by
  refine ⟨⟨?_, rfl, rfl, rfl, rfl, rfl, rfl, rfl, rfl⟩, rfl, rfl⟩
  constructor <;> first | rfl | skip
  exact mapIx_map _ _ _ (fun i g => formGroup_cfg s i g) _ _

theorem deliverGroups_last (s : State) : LastFrom s (deliverGroups s) := by
  refine ⟨⟨?_, rfl, rfl, rfl, rfl, rfl, rfl, rfl, rfl⟩, rfl, rfl⟩
  constructor <;> first | rfl | skip
  refine mapIx_map _ _ _ (fun i g => ?_) _ _
  simp only [deliverGroup]
  rw [reaim_cfg]
  split <;> rfl

theorem setShed_last (c : ShedCause) (s : State) : LastFrom s (setShed c s) := by
  unfold setShed
  split
  · exact .refl s
  · refine LastFrom.trans ?_ (postDetail_last ..)
    exact ⟨⟨by constructor <;> rfl, rfl, rfl, rfl, rfl, rfl, rfl, rfl, rfl⟩, rfl, rfl⟩

theorem formShed_last (s : State) : LastFrom s (formShed s) := by
  have h : LastFrom s (dropRun s) := ⟨⟨by constructor <;> rfl, rfl, rfl, rfl, rfl, rfl, rfl, rfl, rfl⟩, rfl, rfl⟩
  unfold formShed
  dsimp only
  split
  · exact h.trans (setShed_last ..)
  · exact h

theorem takeRequests_last (s : State) : LastFrom s (takeRequests s) := by
  refine ⟨⟨?_, rfl, rfl, rfl, rfl, rfl, rfl, rfl, rfl⟩, rfl, rfl⟩
  constructor <;> first | rfl | skip
  exact mapIx_map (fun i (l : Load) => { l with request := requestOf s i l })
    (fun l => (l.cls, l.minDraw, l.fullDraw, l.node)) (fun l => (l.cls, l.minDraw, l.fullDraw, l.node))
    (fun i l => rfl) _ _

/-- The fields of a load that a pass leaves alone. -/
def Load.asked (l : Load) : Nat × Nat × Nat × Option Nat × Nat := (l.cls, l.minDraw, l.fullDraw, l.node, l.request)

theorem serveClass_frame (shed : Bool) (R k : Nat) (ls : List Load) :
    (serveClass shed R k ls).map Load.asked = ls.map Load.asked := by
  simp only [serveClass, List.map_map]
  apply List.map_congr_left
  intro l _
  simp only [Function.comp]
  split <;> rfl

theorem passLoads_frame (shed : Bool) (b : Nat) (ls : List Load) :
    (passLoads shed b ls).2.map Load.asked = ls.map Load.asked := by
  simp only [passLoads, passClass, serveClass_frame, List.map_map]
  rfl

theorem allocate_last (s : State) : LastFrom s (allocate s) := by
  refine ⟨⟨?_, rfl, rfl, rfl, rfl, rfl, rfl, rfl, rfl⟩, rfl, rfl⟩
  constructor <;> first | rfl | skip
  have h := congrArg (List.map (fun x : Nat × Nat × Nat × Option Nat × Nat => (x.1, x.2.1, x.2.2.1, x.2.2.2.1)))
    (passLoads_frame s.power.shed s.mgmt.site.budget s.power.loads)
  simpa [List.map_map, Function.comp_def, allocate, Load.asked] using h

/-- Everything after the keepouts in one round. -/
theorem formEnd_last (s : State) : LastFrom s (formShed (formGroups (formLevels s))) :=
  ((formLevels_last s).trans (formGroups_last _)).trans (formShed_last _)

theorem formGrants_last (s : State) : LastFrom s (formGrants s) :=
  (((takeRequests_last s).trans (allocate_last _)).trans (deliverGroups_last _)).trans (formLevels_last _)

/-- Everything after the occupancies in one round. -/
theorem formLater (d : Bool) (s : State) :
    LaterFrom s (formShed (formGroups (formLevels (formKeepouts (formCycles (formMonitors d s)))))) :=
  (((formMonitors_later d s).trans (.eachIx cycleStep_later 8 _)).trans (formKeepouts_later _)).trans
    (formEnd_last _).later

theorem formResults_settled (d : Bool) (s : State) : SettledFrom s (formResults d s) :=
  ((formConditions_settled s).trans (formOccupancy_settled _)).trans (formLater d _).base

theorem round_settled (d : Bool) (s : State) : SettledFrom s (round d s) := by
  unfold round
  split
  · exact formResults_settled true s
  · exact (formResults_settled false s).trans (formGrants_last _).later.base

theorem rounds_settled (d : Bool) (n : Nat) (s : State) : SettledFrom s (rounds d n s) := by
  induction n generalizing s with
  | zero => exact round_settled d s
  | succ n ih =>
    simp only [rounds]
    split
    · exact round_settled d s
    · exact ((round_settled d s).trans (startTest_later d _).base).trans (ih _)

/-- Rounds end with a round: what every round gives, the rounds give. -/
theorem rounds_last {P : State → Prop} {d : Bool} (h : ∀ s, P (round d s)) (n : Nat) (s : State) : P (rounds d n s) := by
  induction n generalizing s with
  | zero => exact h s
  | succ n ih =>
    simp only [rounds]
    split
    · exact h s
    · exact ih _

/-! ### Laws of a round -/

theorem activeOf_congr {s t : State} (h : t.nodes = s.nodes) (n : Option Nat) (k : NodeKind) :
    activeOf t n k = activeOf s n k := by simp only [activeOf, nodeAt, h]

theorem liveCode_congr {s t : State} (h : t.nodes = s.nodes) (n : Option Nat) (k : NodeKind) :
    liveCode t n k = liveCode s n k := by
  unfold liveCode codeOf
  simp only [activeOf_congr h, nodeAt, h]
  rfl

/-- What the rain and dry conditions and the pond level rest on. -/
theorem ConditionLaw.congr {s t : State} (h : ConditionLaw s) (hn : t.nodes = s.nodes)
    (hs : t.mgmt.site = s.mgmt.site) (hr : t.water.rain = s.water.rain) (hd : t.water.dry = s.water.dry)
    (hp : t.water.pond = s.water.pond) : ConditionLaw t := by
  unfold ConditionLaw rainNow dryNow pondNow at *
  rw [hr, hd, hp, hs]
  simpa only [liveCode_congr hn] using h

theorem SettledFrom.site {s t : State} (h : SettledFrom s t) : t.mgmt.site = s.mgmt.site := by rw [h.mgmt]

theorem LaterFrom.condition {s t : State} (h : LaterFrom s t) (hs : ConditionLaw s) : ConditionLaw t :=
  hs.congr h.base.nodes h.base.site h.rain h.dry h.pond

theorem formConditions_law (s : State) : ConditionLaw (formConditions s) := by
  have h : (formConditions s).nodes = s.nodes := (formConditions_settled s).nodes
  have hs : (formConditions s).mgmt.site = s.mgmt.site := (formConditions_settled s).site
  unfold ConditionLaw rainNow dryNow pondNow
  simp only [liveCode_congr h, hs]
  exact ⟨rfl, rfl, rfl⟩

theorem round_eq (s : State) : round false s = formGrants (formResults false s) := rfl

theorem round_later (s : State) : LaterFrom (formOccupancy (formConditions s)) (round false s) := by
  rw [round_eq]
  exact (formLater false (formOccupancy (formConditions s))).trans (formGrants_last _).later

theorem round_condition (s : State) : ConditionLaw (round false s) := by
  refine (round_later s).condition ?_
  exact (formConditions_law s).congr rfl rfl rfl rfl rfl

/-- What the occupancies rest on. -/
theorem OccupancyLaw.congr {s t : State} (h : OccupancyLaw s) (hz : t.zone.zones = s.zone.zones)
    (hl : t.pos.loops = s.pos.loops)
    (hm : ∀ z i, occupies (loopAt s (mowerAt t i).loop) (mowerAt t i) z = occupies (loopAt s (mowerAt s i).loop) (mowerAt s i) z)
    (ho : t.zone.occ = s.zone.occ) (hc : t.zone.counts = s.zone.counts) : OccupancyLaw t := by
  unfold OccupancyLaw occupancySet zoneAt at *
  have hla : ∀ j, loopAt t j = loopAt s j := fun j => by simp only [loopAt, hl]
  have hf : ∀ i, occupies (loopAt s (mowerAt t i).loop) (mowerAt t i) = occupies (loopAt s (mowerAt s i).loop) (mowerAt s i) :=
    fun i => funext fun z => hm z i
  simp only [ho, hc, hz, hla, hf]
  exact h

theorem SettledFrom.occupancy {s t : State} (h : SettledFrom s t) (ho : t.zone.occ = s.zone.occ)
    (hc : t.zone.counts = s.zone.counts) (hs : OccupancyLaw s) : OccupancyLaw t :=
  hs.congr h.zones (by rw [h.pos]) (fun z i => by simp only [mowerAt, h.pos]) ho hc

theorem formOccupancy_law (s : State) : OccupancyLaw (formOccupancy s) := by
  refine ⟨rfl, ?_⟩
  show List.map (countIn (occupancySets s)) _ = _
  apply List.map_congr_left
  intro z _
  exact List.countP_eq_length_filter

theorem round_occupancy (s : State) : OccupancyLaw (round false s) :=
  (round_later s).base.occupancy (round_later s).occ (round_later s).counts (formOccupancy_law _)

/-! ### Keepouts and holds -/

theorem map_getD {α β : Type} (f : α → β) {l l' : List α} (h : l'.map f = l.map f) (i : Nat) (d : α) :
    f (l'.getD i d) = f (l.getD i d) := by
  have h' := congrArg (fun x => x[i]?) h
  simp only [List.getElem?_map] at h'
  simp only [List.getD_eq_getElem?_getD]
  cases h1 : l'[i]? <;> cases h2 : l[i]? <;> simp_all

/-- What an active KEEPOUT zone rests on. -/
theorem zoneActive_congr {s t : State} (hz : t.zone.zones = s.zone.zones)
    (hc : ∀ c, (channelAt t c).cfg = (channelAt s c).cfg ∧ (channelAt t c).stage = (channelAt s c).stage)
    (hp : ∀ i, (playerAt t i).state = (playerAt s i).state) (z : Nat) : zoneActive t z = zoneActive s z := by
  have hd : ∀ c, dischargeActive t c = dischargeActive s c := fun c => by
    simp only [dischargeActive, Channel.kindIs, (hc c).1, (hc c).2]
  have ho : ∀ r, ownActive t r = ownActive s r := fun r => by
    cases h : r.activeWhen <;> simp only [ownActive, h, hd, hp]
  have hv : dischargesOver t z = dischargesOver s z := by simp only [dischargesOver, hd, (hc _).1]
  unfold zoneActive zoneAt
  simp only [hz, ho, hv]

theorem activeKeepout_congr {s t : State} (hz : t.zone.zones = s.zone.zones)
    (hc : ∀ c, (channelAt t c).cfg = (channelAt s c).cfg ∧ (channelAt t c).stage = (channelAt s c).stage)
    (hp : ∀ i, (playerAt t i).state = (playerAt s i).state) (z : Nat) : activeKeepout t z = activeKeepout s z := by
  simp only [activeKeepout, zoneActive_congr hz hc hp, zoneAt, hz]

theorem LastFrom.cycle {s t : State} (h : LastFrom s t) (c : Nat) :
    (channelAt t c).cfg = (channelAt s c).cfg ∧ (channelAt t c).stage = (channelAt s c).stage := by
  have h' := map_getD _ h.cycles c Channel.blank
  simp only [Prod.mk.injEq] at h'
  exact ⟨h'.1, h'.2.2.2.2.1⟩

/-- What the keepout sets and the permits rest on. -/
theorem PermitLaw.congr {s t : State} (h : PermitLaw s) (hl : t.pos.loops = s.pos.loops)
    (hm : ∀ i, (mowerAt t i).state = (mowerAt s i).state ∧ (mowerAt t i).loop = (mowerAt s i).loop
      ∧ (mowerAt t i).verified = (mowerAt s i).verified)
    (hz : t.zone = s.zone) (hr : t.water.rain = s.water.rain)
    (hc : ∀ c, (channelAt t c).cfg = (channelAt s c).cfg ∧ (channelAt t c).stage = (channelAt s c).stage)
    (hp : ∀ i, (playerAt t i).state = (playerAt s i).state) : PermitLaw t := by
  intro i hi
  have ha : activeKeepout t = activeKeepout s := funext (activeKeepout_congr (by rw [hz]) hc hp)
  have h' := h i hi
  have hla : ∀ j, loopAt t j = loopAt s j := fun j => by simp only [loopAt, hl]
  have hza : ∀ j, zoneAt t j = zoneAt s j := fun j => by simp only [zoneAt, hz]
  simp only [(hm i).1, (hm i).2.1, (hm i).2.2, hz, hr, hla, hza, ha]
  exact h'

theorem LastFrom.permit {s t : State} (h : LastFrom s t) (hs : PermitLaw s) : PermitLaw t :=
  hs.congr (by rw [h.later.base.pos]) (fun i => by simp only [mowerAt, h.later.base.pos, and_self]) h.zone
    h.later.rain h.cycle (fun i => by simp only [playerAt, h.later.players])

theorem postEntries_water (a b : List (List Nat)) (s : State) : (postEntries a b s).water = s.water := by
  unfold postEntries
  refine eachIx_keeps (P := fun t => t.water = s.water) (fun z t h => ?_) 32 rfl
  refine eachIx_keeps (P := fun u => u.water = s.water) (fun m u hu => ?_) 4 h
  split
  · exact hu
  · exact hu

theorem inSlowZone_iff (s : State) (occ : List Nat) :
    inSlowZone s occ = true ↔ ∃ z ∈ occ, (zoneAt s z).any (fun r => r.kind == .slow) = true := by
  simp only [inSlowZone, List.any_eq_true]

/-- The permit of a mower with a valid position (R84). -/
theorem permitOf_valid (s : State) (m : Mower) (keep occ : List Nat) (h : m.state = .tracked ∨ m.state = .slipping) :
    let slow := (∃ z ∈ occ, (zoneAt s z).any (fun r => r.kind == .slow) = true)
      ∨ ((loopAt s m.loop).verify = true ∧ m.verified = false)
    (keep ≠ [] → permitOf s m keep occ = some .hold)
      ∧ (keep = [] → (s.water.rain = true ∨ s.zone.dockAll = true) → permitOf s m keep occ = some .dock)
      ∧ (keep = [] → s.water.rain = false → s.zone.dockAll = false → slow → permitOf s m keep occ = some .slow)
      ∧ (keep = [] → s.water.rain = false → s.zone.dockAll = false → ¬ slow → permitOf s m keep occ = some .mow) := by
  have hp : permitOf s m keep occ
      = if !keep.isEmpty then some .hold
        else if s.water.rain || s.zone.dockAll then some .dock
        else if inSlowZone s occ || ((loopAt s m.loop).verify && !m.verified) then some .slow
        else some .mow := by
    rcases h with h | h <;> simp only [permitOf, h]
  rw [hp]
  dsimp only
  rw [← inSlowZone_iff]
  refine ⟨fun hk => ?_, fun hk hr => ?_, fun hk hr hd hs => ?_, fun hk hr hd hs => ?_⟩
  · cases keep with
    | nil => exact absurd rfl hk
    | cons => rfl
  · rcases hr with hr | hr <;> simp [hk, hr]
  · rcases hs with hs | ⟨h1, h2⟩
    · simp [hk, hr, hd, hs]
    · simp [hk, hr, hd, h1, h2]
  · rw [not_or, not_and] at hs
    have h1 : inSlowZone s occ = false := by simpa using hs.1
    have h2 : ((loopAt s m.loop).verify && !m.verified) = false := by
      cases hv : (loopAt s m.loop).verify
      · rfl
      · simpa using hs.2 hv
    simp [hk, hr, hd, h1, h2]

theorem formKeepouts_law (s : State) : PermitLaw (formKeepouts s) := by
  have hw : (formKeepouts s).water = s.water := postEntries_water _ _ s
  have hpos : (formKeepouts s).pos = s.pos := (formKeepouts_later s).base.pos
  have ha : activeKeepout (formKeepouts s) = activeKeepout s :=
    funext (activeKeepout_congr rfl (fun c => by simp only [channelAt, hw, and_self])
      (fun i => by simp only [playerAt, hw]))
  intro i hi
  have hm : mowerAt (formKeepouts s) i = mowerAt s i := by simp only [mowerAt, hpos]
  have hl : ∀ j, loopAt (formKeepouts s) j = loopAt s j := fun j => by simp only [loopAt, hpos]
  have hk : (formKeepouts s).zone.keep.getD i [] = keepoutSet s (mowerAt s i) (s.zone.occ.getD i []) := by
    show (keepoutSets s).getD i [] = _
    simp [keepoutSets, List.getD_eq_getElem?_getD, hi]
  have hp : (formKeepouts s).zone.permits.getD i none
      = permitOf s (mowerAt s i) (keepoutSet s (mowerAt s i) (s.zone.occ.getD i [])) (s.zone.occ.getD i []) := by
    show (permitsOf s (keepoutSets s)).getD i none = _
    simp [permitsOf, keepoutSets, List.getD_eq_getElem?_getD, hi]
  have ho : (formKeepouts s).zone.occ = s.zone.occ := rfl
  have hd : (formKeepouts s).zone.dockAll = s.zone.dockAll := rfl
  have hz : ∀ j, zoneAt (formKeepouts s) j = zoneAt s j := fun j => rfl
  simp only [hm, hl, hk, hp, ho, hd, hz, ha, hw]
  generalize s.zone.occ.getD i [] = occ
  refine ⟨fun h => ?_, fun h1 h2 => ?_, fun h => by simp only [permitOf, h], fun h => by simp only [permitOf, h],
    fun h => ?_, permitOf_valid s _ _ occ⟩
  · rcases h with h | h <;> simp [keepoutSet, Mower.positionValid, h]
  · simp [keepoutSet, Mower.positionValid, h1, h2]
  · rcases h with h | h | h <;> simp only [permitOf, h]

theorem round_permit (s : State) : PermitLaw (round false s) := by
  rw [round_eq]
  exact ((formEnd_last _).trans (formGrants_last _)).permit (formKeepouts_law _)

/-- An active KEEPOUT zone in the occupancy set of a mower with a valid position holds it (R84). -/
theorem PermitLaw.hold {s : State} (h : PermitLaw s) : HoldLaw s := by
  intro i z hi hs ho ha
  obtain ⟨hk, -, -, -, -, hp⟩ := h i hi
  refine (hp hs).1 ?_
  rw [hk hs]
  exact List.ne_nil_of_mem (List.mem_filter.2 ⟨ho, ha⟩)

/-! ### Levels -/

theorem formLevels_getElem? (s : State) (i : Nat) :
    (formLevels s).water.channels[i]? = s.water.channels[i]?.map (formLevel s i) := by
  simp only [formLevels, mapIx_getElem?, Nat.zero_add]

theorem floorLevel_le (lo v : Nat) : floorLevel lo v ≤ v := by unfold floorLevel; split <;> omega

theorem floorLevel_range (lo v : Nat) : floorLevel lo v = 0 ∨ lo ≤ floorLevel lo v := by
  unfold floorLevel; split <;> omega

/-- The draw at a level no higher than a grant's cap level is no higher than the grant (R138). -/
theorem drawAt_le (full g v : Nat) (h : v ≤ capLevel full g) : drawAt full v ≤ g := by
  unfold drawAt capLevel at *
  split at h
  · next h0 => subst h0; simp
  · have h1 : v ≤ g * 255 / full := le_trans h (min_le_left _ _)
    have h2 : v * full ≤ g * 255 := (Nat.le_div_iff_mul_le (by omega)).1 h1
    have h3 : full * v = v * full := Nat.mul_comm _ _
    omega

theorem levelBeforeGrant_le (s : State) (c : Nat) (r : ChannelRec) (q : Nat) :
    levelBeforeGrant s c r q ≤ r.maxLevel
      ∧ ∀ cap, sprayCapHolds s c r = some cap → levelBeforeGrant s c r q ≤ cap := by
  unfold levelBeforeGrant
  dsimp only
  cases h : sprayCapHolds s c r with
  | none => split <;> simp
  | some cap =>
    constructor
    · split
      · simp
      · simp only
        exact le_trans (min_le_left _ _) (min_le_right _ _)
    · intro cap' hc
      cases hc
      split
      · simp
      · exact min_le_right _ _

/-- The rain cap and the pond cap stop a channel (R94). -/
theorem levelBeforeGrant_stopped (s : State) (c : Nat) (r : ChannelRec) (q : Nat)
    (h : (r.kind = .fountain ∧ (s.water.rain = true ∨ s.water.pond = some 1 ∨ s.water.pond = some 2))
      ∨ (r.kind = .filter ∧ s.water.pond = some 2)) : levelBeforeGrant s c r q = 0 := by
  have hc : (rainCapHolds s r || pondCapHolds s r) = true := by
    rcases h with ⟨hk, h | h | h⟩ | ⟨hk, h⟩ <;> simp [rainCapHolds, pondCapHolds, pondLevel, hk, h]
  simp only [levelBeforeGrant, hc, if_true]

/-- Where neither holds, the level is the lowest of the requested level, the maximum level and the spray cap (R94, R95). -/
theorem levelBeforeGrant_open (s : State) (c : Nat) (r : ChannelRec) (q : Nat)
    (h : ¬ ((r.kind = .fountain ∧ (s.water.rain = true ∨ s.water.pond = some 1 ∨ s.water.pond = some 2))
      ∨ (r.kind = .filter ∧ s.water.pond = some 2))) :
    levelBeforeGrant s c r q
      = match s.zone.sprayCaps.getD c none with
        | some cap => if r.kind = .fountain then min (min q r.maxLevel) cap else min q r.maxLevel
        | none => min q r.maxLevel := by
  have hc : (rainCapHolds s r || pondCapHolds s r) = false := by
    rw [← Bool.not_eq_true]
    refine fun hc => h ?_
    cases hk : r.kind <;> cases hp : s.water.pond <;>
      simp_all [rainCapHolds, pondCapHolds, pondLevel]
  simp only [levelBeforeGrant, hc, sprayCapHolds]
  by_cases hk : r.kind = .fountain
  · cases s.zone.sprayCaps.getD c none <;> simp [hk]
  · cases s.zone.sprayCaps.getD c none <;> simp [hk]

theorem formLevels_law (s : State) : OutputLaw (formLevels s) := by
  intro i c r hc hr
  rw [formLevels_getElem?] at hc
  cases h0 : s.water.channels[i]? with
  | none => simp [h0] at hc
  | some c0 =>
    rw [h0, Option.map_some, Option.some.injEq] at hc
    subst hc
    rw [(formLevel_frame s i c0).1] at hr
    have hl : loadAt (formLevels s) i = loadAt s i := rfl
    have hz : (formLevels s).zone = s.zone := rfl
    rw [hl, hz]
    unfold formLevel
    rw [hr]
    dsimp only
    split
    · next hon =>
      set q := requestedOf s i c0
      have hb := levelBeforeGrant_le s i r q
      have hle := floorLevel_le r.minLevel (min (levelBeforeGrant s i r q) (grantCap s i))
      have hstop := levelBeforeGrant_stopped s i r q
      have hzero : ∀ v, v = 0 → floorLevel r.minLevel (min v (grantCap s i)) = 0 := by
        rintro v rfl
        simp [floorLevel]
      refine ⟨?_, ?_, ?_, ?_, fun hk hw => hzero _ (hstop (.inl ⟨hk, .inl hw⟩)),
        fun hk hw => hzero _ (hstop (.inl ⟨hk, .inr hw⟩)), fun hk hw => hzero _ (hstop (.inr ⟨hk, hw⟩))⟩
      · rcases floorLevel_range r.minLevel (min (levelBeforeGrant s i r q) (grantCap s i)) with h | h
        · exact .inl h
        · exact .inr ⟨h, le_trans hle (le_trans (min_le_left _ _) hb.1)⟩
      · exact drawAt_le _ _ _ (le_trans hle (min_le_right _ _))
      · intro hst
        dsimp only at hst
        rcases hst with h | h | h <;> simp [h] at hon
      · intro cap hk hcap
        refine le_trans hle (le_trans (min_le_left _ _) (hb.2 cap ?_))
        rw [sprayCapHolds, hk]
        exact hcap
    · simp [drawAt]

/-! ### Discharge -/

theorem formLevels_discharge (s : State) : DischargeLaw (formLevels s) := by
  intro i r hi hr hk hst
  have hcyc := (formLevels_last s).cycle
  have hr0 : (channelAt s i).cfg = some r := by rw [← (hcyc i).1, hr]
  have hst0 : (channelAt s i).stage = .washing ∨ (channelAt s i).stage = .rinsing := by rw [← (hcyc i).2]; exact hst
  constructor
  · intro hv
    have hv0 : (channelAt s r.valve).kindIs .valve = true := by
      rw [Channel.kindIs, ← (hcyc r.valve).1]
      exact hv
    have hcmd : valveCommanded s r.valve = true := by
      unfold valveCommanded
      rw [List.any_eq_true]
      refine ⟨channelAt s i, ?_, ?_⟩
      · unfold channelAt at hr0 ⊢
        rw [List.getD_eq_getElem?_getD] at hr0 ⊢
        cases h0 : s.water.channels[i]? with
        | none => simp [h0, Channel.blank] at hr0
        | some c0 => exact List.mem_of_getElem? h0
      · rcases hst0 with h | h <;> simp [h, Stage.commandsValve, hr0, hk]
    unfold channelAt at hv0 ⊢
    rw [List.getD_eq_getElem?_getD] at hv0 ⊢
    rw [formLevels_getElem?]
    cases h0 : s.water.channels[r.valve]? with
    | none => simp [h0, Channel.kindIs, Channel.blank] at hv0
    | some c0 =>
      rw [h0, Option.getD_some] at hv0
      rw [Option.map_some, Option.getD_some]
      unfold Channel.kindIs at hv0
      cases hc : c0.cfg with
      | none => simp [hc] at hv0
      | some x =>
        have hx : x.kind = .valve := by simpa [hc] using hv0
        simp [formLevel, hc, requestedOf, hx, hcmd]
  · intro hz
    unfold zoneActive
    cases hz0 : zoneAt (formLevels s) r.discharge with
    | none => simp [hz0] at hz
    | some zr =>
      simp only
      split
      · rw [Bool.or_eq_true]
        right
        unfold dischargesOver
        rw [List.any_eq_true]
        refine ⟨i, List.mem_range.2 hi, ?_⟩
        rcases hst with h | h <;> simp [dischargeActive, Channel.kindIs, hr, hk, h, Stage.discharging]
      · rfl

/-! ### Lighting -/

theorem reaim_bound (fresh : Bool) (aim b : Nat) (g : LightGroup) (ha : aim ≤ b) (hc : g.current ≤ b) :
    (g.reaim fresh aim).current ≤ b ∧ (g.reaim fresh aim).aim ≤ b := by
  unfold LightGroup.reaim
  cases g.cfg with
  | none => exact ⟨hc, ha⟩
  | some r => dsimp only; split <;> exact ⟨by first | exact ha | exact hc, ha⟩

theorem deliverGroups_law (s : State) : LightLaw (deliverGroups s) := by
  intro i g hg
  have hg' : s.light[i]?.map (deliverGroup s i) = some g := by
    simpa only [deliverGroups, mapIx_getElem?, Nat.zero_add] using hg
  cases h0 : s.light[i]? with
  | none => simp [h0] at hg'
  | some g0 =>
    rw [h0, Option.map_some, Option.some.injEq] at hg'
    subst hg'
    show (deliverGroup s i g0).current ≤ capLevel (loadAt s (8 + i)).fullDraw (loadAt s (8 + i)).grant
      ∧ (deliverGroup s i g0).aim ≤ capLevel (loadAt s (8 + i)).fullDraw (loadAt s (8 + i)).grant
    unfold deliverGroup
    dsimp only
    apply reaim_bound
    · exact min_le_right _ _
    · split
      · exact le_refl _
      · next h => exact Nat.le_of_not_lt h

/-! ### The allocation pass -/

theorem sum_div_le (R S : Nat) (f : Load → Nat) (ls : List Load) :
    (ls.map (fun l => f l * R / S)).sum * S ≤ (ls.map f).sum * R := by
  induction ls with
  | nil => simp
  | cons l ls ih =>
    simp only [List.map_cons, List.sum_cons, Nat.add_mul]
    exact Nat.add_le_add (Nat.div_mul_le_self _ _) ih

theorem sum_map_le {f g : Load → Nat} {ls : List Load} (h : ∀ l ∈ ls, f l ≤ g l) :
    (ls.map f).sum ≤ (ls.map g).sum := by
  induction ls with
  | nil => simp
  | cons l ls ih =>
    simp only [List.map_cons, List.sum_cons]
    exact Nat.add_le_add (h l (by simp)) (ih fun l hl => h l (by simp [hl]))

theorem sum_filter_eq (p : Load → Bool) (f : Load → Nat) (ls : List Load) :
    ((ls.filter p).map f).sum = (ls.map (fun l => if p l then f l else 0)).sum := by
  induction ls with
  | nil => rfl
  | cons l ls ih =>
    by_cases hp : p l <;> simp [hp, ih]

/-- What one load is granted in its class lies within its bounds (R143, R144). -/
theorem classGrant_bounds (shed : Bool) (ls : List Load) (R k : Nat) (l : Load) (hl : l ∈ ls) :
    (classGrant shed ls R k l = 0 ∨ (l.minDraw ≤ classGrant shed ls R k l ∧ classGrant shed ls R k l ≤ l.request))
      ∧ (shed = true → 2 ≤ k → classGrant shed ls R k l = 0) := by
  unfold classGrant
  dsimp only
  split
  · exact ⟨.inl rfl, fun _ _ => rfl⟩
  · next hshed =>
    refine ⟨?_, fun hs hk => absurd (by simp [hs, hk]) hshed⟩
    split
    · exact .inl rfl
    · next hin =>
      have hin' : l.inClass k = true := by simpa using hin
      have hel : l.eligible = true := by
        unfold Load.inClass at hin'
        exact (Bool.and_eq_true _ _ ▸ hin').2
      have hmin : 1 ≤ l.request ∧ l.minDraw ≤ l.request := by simpa [Load.eligible] using hel
      split
      · exact .inr ⟨hmin.2, le_refl _⟩
      · next hSR =>
        have first_le : ∀ S, R < S → firstShare R S l ≤ l.request := fun S hS => by
          unfold firstShare
          exact Nat.div_le_of_le_mul (by rw [Nat.mul_comm S]; exact Nat.mul_le_mul_left _ hS.le)
        split
        · next hSS =>
          refine .inr ⟨?_, first_le _ (by omega)⟩
          by_contra hlt
          have hout : included k R (sumRequests (Load.inClass k) ls) l = false := by
            simp only [included, Bool.and_eq_false_iff, decide_eq_false_iff_not]
            exact .inr hlt
          have fewer : ∀ S, included k R S l = false →
              sumRequests (included k R S) ls < sumRequests (Load.inClass k) ls := by
            intro S hS
            unfold sumRequests
            rw [sum_filter_eq, sum_filter_eq]
            apply List.sum_lt_sum
            · intro x _
              by_cases hx : x.inClass k <;> simp [included, hx]
              split <;> omega
            · exact ⟨l, hl, by simp [hS, hin']; omega⟩
          have := fewer _ hout
          omega
        · split
          · unfold secondShare
            dsimp only
            split
            · exact .inl rfl
            · next h => exact .inr ⟨by omega, min_le_left _ _⟩
          · exact .inl rfl

/-- A class is granted no more than the remainder it is served from (R143, R144). -/
theorem classGrant_sum (shed : Bool) (ls : List Load) (R k : Nat) :
    ((ls.filter (fun l => l.cls == k)).map (classGrant shed ls R k)).sum ≤ R := by
  by_cases hshed : (shed && decide (2 ≤ k)) = true
  · have : ∀ l, classGrant shed ls R k l = 0 := fun l => by simp only [classGrant, hshed, if_true]
    rw [List.map_congr_left (g := fun _ => 0) (fun l _ => this l)]
    simp
  set S := sumRequests (Load.inClass k) ls with hS
  set S' := sumRequests (included k R S) ls with hS'
  have hg : ∀ l, classGrant shed ls R k l
      = if !(l.inClass k) then 0 else if S ≤ R then l.request else if S' = S then firstShare R S l
        else if included k R S l then secondShare R S' l else 0 := fun l => by
    simp only [classGrant, ← hS, ← hS', hshed, if_false, Bool.false_eq_true]
  by_cases hSR : S ≤ R
  · refine le_trans ?_ hSR
    rw [hS, sumRequests, sum_filter_eq, sum_filter_eq]
    apply sum_map_le
    intro l _
    rw [hg]
    by_cases hin : l.inClass k <;> by_cases hk : l.cls == k <;> simp [hin, hk, hSR]
  · have div_sum : ∀ (p : Load → Bool) (T : Nat), T = sumRequests p ls →
        (ls.map (fun l => if p l then l.request * R / T else 0)).sum ≤ R := by
      intro p T hT
      by_cases hT0 : T = 0
      · simp [hT0]
      · have h := sum_div_le R T (fun l => if p l then l.request else 0) ls
        rw [← sum_filter_eq, ← sumRequests, ← hT, Nat.mul_comm T R] at h
        have h2 := Nat.le_of_mul_le_mul_right h (by omega)
        refine le_trans (le_of_eq ?_) h2
        congr 1
        apply List.map_congr_left
        intro l _
        split <;> simp
    rw [sum_filter_eq]
    by_cases hSS : S' = S
    · refine le_trans (sum_map_le ?_) (div_sum (Load.inClass k) S hS)
      intro l _
      rw [hg]
      by_cases hin : l.inClass k <;> by_cases hk : l.cls == k <;> simp [hin, hk, hSR, hSS, firstShare]
    · refine le_trans (sum_map_le ?_) (div_sum (included k R S) S' hS')
      intro l _
      rw [hg]
      by_cases hin : l.inClass k
      · by_cases hi : included k R S l
        · by_cases hk : l.cls == k
          · simp only [hk, hin, hSR, hSS, hi, if_true, if_false, Bool.not_true, Bool.false_eq_true, secondShare]
            split
            · exact Nat.zero_le _
            · exact min_le_right _ _
          · simp [hk]
        · simp [hin, hSR, hSS, hi]
      · simp [hin]

/-- A pass from `budget` after the classes below `k`: what is granted and what remains make up the budget, every grant
lies within its bounds, later classes are granted nothing yet. -/
def PassInv (shed : Bool) (budget k : Nat) (x : Nat × List Load) : Prop :=
  x.1 + (x.2.map Load.grant).sum = budget
    ∧ ∀ l ∈ x.2, (k ≤ l.cls → l.grant = 0) ∧ (shed = true → 2 ≤ l.cls → l.grant = 0)
      ∧ (l.grant = 0 ∨ (l.minDraw ≤ l.grant ∧ l.grant ≤ l.request))

theorem serveClass_sum (shed : Bool) (R k : Nat) (ls : List Load) (h : ∀ l ∈ ls, k ≤ l.cls → l.grant = 0) :
    ((serveClass shed R k ls).map Load.grant).sum = (ls.map Load.grant).sum + classSum k (serveClass shed R k ls)
      ∧ classSum k (serveClass shed R k ls) = ((ls.filter (fun l => l.cls == k)).map (classGrant shed ls R k)).sum := by
  unfold serveClass classSum
  generalize hg : classGrant shed ls R k = g
  clear hg
  induction ls with
  | nil => exact ⟨rfl, rfl⟩
  | cons l ls ih =>
    have ih' := ih fun x hx => h x (List.mem_cons_of_mem _ hx)
    by_cases hk : l.cls = k
    · have h0 : l.grant = 0 := h l (List.mem_cons_self ..) (by omega)
      simp only [List.map_cons, List.sum_cons, hk, if_true, List.filter_cons, beq_self_eq_true, h0]
      omega
    · simp only [List.map_cons, List.sum_cons, hk, if_false, List.filter_cons, beq_iff_eq]
      omega

theorem passClass_inv {shed : Bool} {budget k : Nat} {x : Nat × List Load} (h : PassInv shed budget k x) :
    PassInv shed budget (k + 1) (passClass shed k x) := by
  obtain ⟨hs, hb⟩ := h
  have h1 := serveClass_sum shed x.1 k x.2 fun l hl => (hb l hl).1
  have h2 := classGrant_sum shed x.2 x.1 k
  refine ⟨?_, ?_⟩
  · simp only [passClass]
    rw [← h1.2] at h2
    rw [h1.1]
    omega
  · intro l hl
    simp only [passClass, serveClass, List.mem_map] at hl
    obtain ⟨l0, hl0, rfl⟩ := hl
    have hb0 := hb l0 hl0
    have hc := classGrant_bounds shed x.2 x.1 k l0 hl0
    split
    · next hk =>
      dsimp only
      exact ⟨fun h => by omega, fun hsh h => hc.2 hsh (by omega), hc.1⟩
    · exact ⟨fun h => hb0.1 (by omega), hb0.2⟩

/-- The sum of the grants of a pass is the budget less the remainder, and every grant lies within its bounds (R143,
R144). -/
theorem passLoads_inv (shed : Bool) (budget : Nat) (ls : List Load) :
    PassInv shed budget 4 (passLoads shed budget ls) := by
  refine passClass_inv (passClass_inv (passClass_inv (passClass_inv ⟨?_, ?_⟩)))
  · simp [List.map_map, Function.comp_def]
  · intro l hl
    simp only [List.mem_map] at hl
    obtain ⟨l0, _, rfl⟩ := hl
    exact ⟨fun _ => rfl, fun _ _ => rfl, .inl rfl⟩

theorem allocate_law (s : State) : PowerLaw (allocate s) := by
  have h := passLoads_inv s.power.shed s.mgmt.site.budget s.power.loads
  refine ⟨?_, fun l hl => (h.2 l hl).2.1, fun l hl => (h.2 l hl).2.2⟩
  have := h.1
  show ((passLoads s.power.shed s.mgmt.site.budget s.power.loads).2.map Load.grant).sum ≤ s.mgmt.site.budget
  omega

theorem formGrants_power (s : State) : PowerLaw (formGrants s) := allocate_law (takeRequests s)

theorem formGrants_output (s : State) : OutputLaw (formGrants s) := formLevels_law _

theorem formGrants_light (s : State) : LightLaw (formGrants s) := deliverGroups_law (allocate (takeRequests s))

theorem formGrants_discharge (s : State) : DischargeLaw (formGrants s) := formLevels_discharge _

/-- The laws that hold whenever results have just been formed. -/
structure SettledLaws (s : State) : Prop where
  condition : ConditionLaw s
  occupancy : OccupancyLaw s
  permit : PermitLaw s
  discharge : DischargeLaw s
  power : PowerLaw s
  output : OutputLaw s
  light : LightLaw s

theorem round_laws (s : State) : SettledLaws (round false s) where
  condition := round_condition s
  occupancy := round_occupancy s
  permit := round_permit s
  discharge := formGrants_discharge (formResults false s)
  power := formGrants_power (formResults false s)
  output := formGrants_output (formResults false s)
  light := formGrants_light (formResults false s)

theorem rounds_laws (n : Nat) (s : State) : SettledLaws (rounds false n s) := rounds_last round_laws n s

end Sys2Proof.Machine
end

