-- ==== Sys2Proof/Laws/Moves.lean ====
section
/-! SUPPORT. The moves a settled handling makes: the shows on the beginning of rain and of the dry condition, and the
cycles in STOPPING to RINSING on the causes of R116 and on BACKWASH_POS. -/

namespace Sys2Proof.Machine

/-! ### The rounds -/

theorem nextRound_eq (s : State) : nextRound s = formStarts (round false s) := rfl

theorem roundsFrom_zero (s : State) : roundsFrom 0 s = s := rfl

theorem roundsFrom_succ (n : Nat) (s : State) : roundsFrom (n + 1) s = roundsFrom n (nextRound s) := by
  unfold roundsFrom
  induction n with
  | zero => rfl
  | succ n ih => exact congrArg nextRound ih

theorem rounds_succ (n : Nat) (s : State) [Decidable (Quiet s)] :
    rounds false (n + 1) s = if Quiet s then round false s else rounds false n (nextRound s) := by
  simp only [rounds, startTest, Quiet, nextRound, Bool.false_eq_true, if_false]
  congr

/-- What the rounds give: the round after the first quiet one, or the last one allowed. -/
theorem rounds_handled (n : Nat) (s : State) :
    ∃ m, m ≤ n ∧ rounds false n s = round false (roundsFrom m s) ∧ (∀ i, i < m → ¬ Quiet (roundsFrom i s))
      ∧ (m = n ∨ Quiet (roundsFrom m s)) := by
  classical
  induction n generalizing s with
  | zero => exact ⟨0, le_refl _, rfl, fun i hi => absurd hi (Nat.not_lt_zero i), .inl rfl⟩
  | succ n ih =>
    rw [rounds_succ]
    split
    · next hq => exact ⟨0, Nat.zero_le _, rfl, fun i hi => absurd hi (Nat.not_lt_zero i), .inr hq⟩
    · next hq =>
      obtain ⟨m, h1, h2, h3, h4⟩ := ih (nextRound s)
      refine ⟨m + 1, Nat.succ_le_succ h1, ?_, fun i hi => ?_, ?_⟩
      · rw [roundsFrom_succ, h2]
      · cases i with
        | zero => exact hq
        | succ i => rw [roundsFrom_succ]; exact h3 i (Nat.lt_of_succ_lt_succ hi)
      · rw [roundsFrom_succ]
        exact h4.imp (congrArg (· + 1)) id

theorem settle_eq (s : State) : settle s = rounds false 40 s := rfl

theorem settle_handled (s : State) : Handled s (settle s) := rounds_handled 40 s

theorem nextRound_later (s : State) : LaterFrom (round false s) (nextRound s) := formStarts_later _

theorem nextRound_settled (s : State) : SettledFrom s (nextRound s) :=
  (round_settled false s).trans (nextRound_later s).base

/-! ### Shows -/

theorem Player.weather_none (p : Player) : Player.weather false false p = p := by simp [Player.weather]

theorem round_shows (s : State) :
    (round false s).water.shows
      = s.water.shows.map (Player.weather (rainNow s && !s.water.rain) (dryNow s && !s.water.dry)) := by
  rw [(round_later s).players]
  rfl

theorem SettledFrom.conditions {s t : State} (h : SettledFrom s t) :
    rainNow t = rainNow s ∧ dryNow t = dryNow s ∧ pondNow t = pondNow s := by
  simp only [rainNow, dryNow, pondNow, liveCode_congr h.nodes, h.site, and_self]

theorem nextRound_condition (s : State) : ConditionLaw (nextRound s) :=
  (nextRound_later s).condition (round_condition s)

theorem rounds_shows (n : Nat) (s : State) :
    (rounds false n s).water.shows
      = s.water.shows.map (Player.weather (rainNow s && !s.water.rain) (dryNow s && !s.water.dry)) := by
  classical
  induction n generalizing s with
  | zero => exact round_shows s
  | succ n ih =>
    rw [rounds_succ]
    split
    · exact round_shows s
    · obtain ⟨hr, hd, -⟩ := nextRound_condition s
      rw [ih, hr, hd, (nextRound_later s).players, round_shows, List.map_map]
      apply List.map_congr_left
      intro p _
      simp [Player.weather_none]

theorem rounds_showsFollow (n : Nat) (s : State) : ShowsFollow s (rounds false n s) := by
  have hc := (rounds_settled false n s).conditions
  obtain ⟨hr, hd, -⟩ := rounds_last round_condition n s
  intro i
  have hp : playerAt (rounds false n s) i
      = Player.weather (rainNow s && !s.water.rain) (dryNow s && !s.water.dry) (playerAt s i) := by
    simp only [playerAt, rounds_shows, List.getD_eq_getElem?_getD, List.getElem?_map]
    cases s.water.shows[i]? with
    | none => simp [Player.weather, Player.blank]
    | some p => rfl
  dsimp only
  rw [hp, hr, hd, hc.1, hc.2.1]
  cases hs : (playerAt s i).state <;> cases rainNow s <;> cases s.water.rain <;> cases dryNow s <;> cases s.water.dry <;>
    simp [Player.weather, hs]

/-! ### Cycles: the conditions -/

theorem usableValve_eq (s : State) (r : ChannelRec) (x : Nat × Nat) :
    usableValve s r = some x ↔ x.1 = r.valve ∧ UsableValve s r x.2 := by
  obtain ⟨v, n⟩ := x
  unfold usableValve UsableValve Node.kindIs
  cases hc : (channelAt s r.valve).cfg with
  | none => simp
  | some q =>
    cases hk : q.kind <;> cases hn : q.node <;> simp_all
    rename_i m
    constructor
    · rintro ⟨h, rfl, rfl⟩
      refine ⟨rfl, rfl, ?_⟩
      cases hi : (nodeAt s m).ident with
      | none => simp [hi] at h
      | some y => simpa [hi] using h
    · rintro ⟨rfl, rfl, y, hy, hk⟩
      exact ⟨by simp [hy, hk], rfl, rfl⟩

theorem usableValve_none (s : State) (r : ChannelRec) : usableValve s r = none ↔ ∀ n, ¬ UsableValve s r n := by
  constructor
  · intro h n hn
    have := (usableValve_eq s r (r.valve, n)).mpr ⟨rfl, hn⟩
    rw [h] at this
    cases this
  · intro h
    cases hu : usableValve s r with
    | none => rfl
    | some x => exact absurd ((usableValve_eq s r x).mp hu).2 (h x.2)

theorem UsableValve.unique {s : State} {r : ChannelRec} {m n : Nat} (hm : UsableValve s r m) (hn : UsableValve s r n) :
    m = n := by
  have h1 := (usableValve_eq s r (r.valve, m)).mpr ⟨rfl, hm⟩
  rw [(usableValve_eq s r (r.valve, n)).mpr ⟨rfl, hn⟩] at h1
  cases h1
  rfl

theorem valveCode_iff (s : State) (r : ChannelRec) (k : Nat) : (valveCode s r == some k) = true ↔ ValveHolds s r k := by
  unfold valveCode ValveHolds
  cases hu : usableValve s r with
  | none => simp [(usableValve_none s r).mp hu]
  | some x =>
    obtain ⟨-, h⟩ := (usableValve_eq s r x).mp hu
    simp only [beq_iff_eq]
    constructor
    · exact fun hc => ⟨x.2, h, hc⟩
    · rintro ⟨n, hn, hc⟩
      rwa [h.unique hn]

theorem abortCause_some (s : State) (c : Channel) (r : ChannelRec) (k : Nat) (h : abortCause s c r = some k) :
    AbortCause s c r k := by
  unfold abortCause pondLevel at h
  unfold AbortCause
  split at h
  · next hp =>
    cases h
    exact .inl ⟨by rcases hpo : s.water.pond with _ | _ | _ | _ | n <;> simp_all, rfl⟩
  · next hp =>
    have hlow : ¬ (s.water.pond = some 1 ∨ s.water.pond = some 2) := by rintro (h' | h') <;> simp [h'] at hp
    right
    split at h
    · next hl => cases h; exact .inl ⟨hlow, hl, rfl⟩
    · next hl =>
      have hl' : c.latch = false := by simpa using hl
      right
      split at h
      · next ha => cases h; exact .inl ⟨hlow, hl', by simpa using ha, rfl⟩
      · next ha =>
        have ha' : channelNodeActive s c = true := by simpa using ha
        right
        split at h
        · next hu =>
          cases h
          exact .inl ⟨hlow, hl', ha', fun ⟨n, hn, _⟩ => (usableValve_none s r).mp hu n hn, rfl⟩
        · next v n hu =>
          obtain ⟨hv, hn⟩ := (usableValve_eq s r (v, n)).mp hu
          dsimp only at hv hn
          subst hv
          split at h
          · next hs =>
            cases h
            refine .inl ⟨hlow, hl', ha', fun ⟨m, hm, hm'⟩ => ?_, rfl⟩
            rw [hm.unique hn] at hm'
            simp [hm'] at hs
          · next hs =>
            split at h
            · next hj => cases h; exact .inr ⟨hlow, hl', ha', ⟨n, hn, by simpa using hs⟩, hj, rfl⟩
            · cases h

theorem AbortCause.unique {s : State} {c : Channel} {r : ChannelRec} {j k : Nat} (hj : AbortCause s c r j)
    (hk : AbortCause s c r k) : j = k := by
  unfold AbortCause at hj hk
  dsimp only at hj hk
  rcases hj with h | h | h | h | h <;> rcases hk with g | g | g | g | g <;> simp_all

theorem abortCause_none (s : State) (c : Channel) (r : ChannelRec) (h : abortCause s c r = none) (k : Nat) :
    ¬ AbortCause s c r k := by
  intro hk
  unfold abortCause pondLevel at h
  unfold AbortCause at hk
  dsimp only at hk
  split at h
  · cases h
  · next hp =>
    have hlow : ¬ (s.water.pond = some 1 ∨ s.water.pond = some 2) := by rintro (h' | h') <;> simp [h'] at hp
    split at h
    · cases h
    · next hl =>
      split at h
      · cases h
      · next ha =>
        split at h
        · cases h
        · next v n hu =>
          obtain ⟨hv, hn⟩ := (usableValve_eq s r (v, n)).mp hu
          dsimp only at hv hn
          subst hv
          split at h
          · cases h
          · next hs =>
            split at h
            · cases h
            · next hj =>
              have : ∃ n, UsableValve s r n ∧ (nodeAt s n).state = .active := ⟨n, hn, by simpa using hs⟩
              simp_all

/-- What the causes and the valve conditions rest on. -/
theorem SettledFrom.valve {s t : State} (h : SettledFrom s t) (c : Nat) :
    (channelAt t c).cfg = (channelAt s c).cfg ∧ (channelAt t c).latch = (channelAt s c).latch := by
  have h' := map_getD _ h.channels c Channel.blank
  exact Prod.mk.injEq .. ▸ h'

theorem SettledFrom.usable {s t : State} (h : SettledFrom s t) (r : ChannelRec) (n : Nat) :
    UsableValve t r n ↔ UsableValve s r n := by
  unfold UsableValve
  rw [(SettledFrom.valve h r.valve).1]
  simp only [nodeAt, h.nodes]

theorem SettledFrom.holds {s t : State} (h : SettledFrom s t) (r : ChannelRec) (k : Nat) :
    ValveHolds t r k ↔ ValveHolds s r k := by
  unfold ValveHolds
  simp only [h.usable, nodeAt, h.nodes]

theorem SettledFrom.cause {s t : State} (h : SettledFrom s t) (hp : t.water.pond = s.water.pond) (c : Nat)
    (r : ChannelRec) (k : Nat) : AbortCause t (channelAt t c) r k ↔ AbortCause s (channelAt s c) r k := by
  have ha : channelNodeActive t (channelAt t c) = channelNodeActive s (channelAt s c) := by
    unfold channelNodeActive
    rw [(SettledFrom.valve h c).1]
    simp only [activeOf_congr h.nodes]
  unfold AbortCause
  rw [hp, (SettledFrom.valve h c).2, (SettledFrom.valve h r.valve).2, ha]
  simp only [h.usable, nodeAt, h.nodes]

/-! ### Cycles: one round -/

/-- The cycle and the filter monitor of a channel. -/
structure Cycle where
  stage : Stage
  timer : Nat
  cause : Nat
  count : Nat
  filt : Option Nat
  clogged : Bool

def Channel.cycle (c : Channel) : Cycle := ⟨c.stage, c.timer, c.cause, c.count, c.filt, c.clogged⟩

theorem Channel.cycle_stage (c : Channel) : c.cycle.stage = c.stage := rfl

/-- What the moves of a cycle rest on: its channel is FILTER with an ACTIVE node, its auto backwash, the cause that
holds, the valve node's NORMAL_POS and BACKWASH_POS, the stop and wash frames. -/
structure Setting where
  live : Bool
  auto : Bool
  abort : Option Nat
  home : Bool
  away : Bool
  stop : Nat
  wash : Nat

def settingOf (s : State) (i : Nat) (r : ChannelRec) : Setting :=
  ⟨r.kind == .filter && channelNodeActive s (channelAt s i), r.auto, abortCause s (channelAt s i) r,
    valveCode s r == some 0, valveCode s r == some 1, r.stopFrames, r.washFrames⟩

/-- The filter monitor and the automatic request (R108, R109). -/
def Cycle.monitored (k : Setting) (c : Cycle) : Cycle :=
  let m := if k.live then c else { c with filt := none, clogged := false }
  if k.live && m.clogged && k.auto && m.stage == .idle then { m with stage := .requested, cause := 0 } else m

/-- The move of a cycle that has left REQUESTED. -/
def Cycle.move (k : Setting) (c : Cycle) : Cycle :=
  match c.stage with
  | .idle | .requested => c
  | .restoring => if k.home then { c with stage := .idle, timer := 0, count := inc16 c.count } else c
  | .aborting => if k.home then { c with stage := .idle, timer := 0 } else c
  | .stopping | .reversing | .washing | .rinsing =>
    match k.abort with
    | some j => { c with stage := .aborting, timer := 250, cause := j }
    | none => if c.stage == .reversing && k.away then { c with stage := .washing, timer := k.wash } else c

def Cycle.round (k : Setting) (c : Cycle) : Cycle := (c.monitored k).move k

/-- The entry to STOPPING (R112). -/
def Cycle.start (k : Setting) (c : Cycle) : Cycle :=
  { c with stage := .stopping, timer := k.stop, filt := none, clogged := false }

theorem LastFrom.cycleEq {s t : State} (h : LastFrom s t) (c : Nat) :
    (channelAt t c).cycle = (channelAt s c).cycle := by
  have h' := map_getD _ h.cycles c Channel.blank
  simp only [Prod.mk.injEq] at h'
  simp only [Channel.cycle, channelAt, h']

theorem channelAt_setChannel (i j : Nat) (f : Channel → Channel) (s : State) (h : j ≠ i) :
    channelAt (setChannel i f s) j = channelAt s j := by
  simp [channelAt, setChannel, List.getD_eq_getElem?_getD, Ne.symm h]

theorem channelAt_setChannel_self (i : Nat) (f : Channel → Channel) (s : State) (r : ChannelRec)
    (h : (channelAt s i).cfg = some r) : channelAt (setChannel i f s) i = f (channelAt s i) := by
  simp only [channelAt, setChannel, List.getD_eq_getElem?_getD, List.getElem?_modify] at *
  cases hc : s.water.channels[i]? with
  | none => simp [hc, Channel.blank] at h
  | some c => simp

theorem cycleStep_other (i j : Nat) (s : State) (h : j ≠ i) : channelAt (cycleStep i s) j = channelAt s j := by
  have hs : ∀ f, channelAt (setChannel i f s) j = channelAt s j := fun f => channelAt_setChannel i j f s h
  unfold cycleStep
  dsimp only
  cases (channelAt s i).cfg with
  | none => rfl
  | some r =>
    dsimp only
    split
    · rfl
    · rfl
    · split
      · exact hs (fun c => { c.idle with count := inc16 c.count })
      · rfl
    · split
      · exact hs Channel.idle
      · rfl
    all_goals
      split
      · exact hs _
      · split
        · exact hs _
        · rfl

/-- `f i` among `f 0` to `f (n - 1)`: what comes before it and what comes after. -/
theorem eachIx_split (f : Nat → State → State) (i n : Nat) (hi : i < n) (s : State) :
    ∃ rest : List Nat, i ∉ rest
      ∧ eachIx f n s = rest.foldl (fun t j => f j t) (f i ((List.range i).foldl (fun t j => f j t) s)) := by
  have hsplit : List.range n = List.range i ++ i :: (List.range n).drop (i + 1) := by
    have h := (List.take_append_drop i (List.range n)).symm
    rw [List.take_range, min_eq_left hi.le, List.drop_eq_getElem_cons (by simpa using hi), List.getElem_range] at h
    exact h
  refine ⟨(List.range n).drop (i + 1), ?_, ?_⟩
  · intro hmem
    obtain ⟨k, hk, he⟩ := List.mem_iff_getElem.mp hmem
    simp at he
    omega
  · unfold eachIx
    conv_lhs => rw [hsplit]
    rw [List.foldl_append, List.foldl_cons]

/-- The move of cycle `i` in a round: it is made on the channel as the moves of the others leave it, and they leave it
alone. -/
theorem formCycles_at (i : Nat) (hi : i < 8) (s : State) :
    ∃ v, LaterFrom s v ∧ LaterFrom v (formCycles s) ∧ channelAt v i = channelAt s i
      ∧ channelAt (formCycles s) i = channelAt (cycleStep i v) i := by
  obtain ⟨rest, hn, hr⟩ := eachIx_split cycleStep i 8 hi s
  have keep : ∀ (l : List Nat) (u : State), i ∉ l →
      LaterFrom u (l.foldl (fun t j => cycleStep j t) u)
        ∧ channelAt (l.foldl (fun t j => cycleStep j t) u) i = channelAt u i := by
    intro l
    induction l with
    | nil => exact fun u _ => ⟨.refl u, rfl⟩
    | cons j l ih =>
      intro u hl
      obtain ⟨h1, h2⟩ := ih (cycleStep j u) (fun h => hl (.tail _ h))
      exact ⟨(cycleStep_later j u).trans h1,
        h2.trans (cycleStep_other j i u (fun h => hl (h ▸ .head _)))⟩
  obtain ⟨h1, h2⟩ := keep (List.range i) s (by simp)
  obtain ⟨h3, h4⟩ := keep rest (cycleStep i ((List.range i).foldl (fun t j => cycleStep j t) s)) hn
  refine ⟨_, h1, (cycleStep_later i _).trans ?_, h2, ?_⟩ <;> unfold formCycles <;> rw [hr]
  · exact h3
  · exact h4

/-- The monitors in one channel (R108, R109). -/
theorem formMonitors_cycle (s : State) (i : Nat) (r : ChannelRec) (h : (channelAt s i).cfg = some r) :
    (channelAt (formMonitors false s) i).cycle
      = (channelAt s i).cycle.monitored (settingOf s i r) := by
  simp only [channelAt, formMonitors, List.getD_eq_getElem?_getD, List.getElem?_map] at *
  cases hc : s.water.channels[i]? with
  | none => simp [hc, Channel.blank] at h
  | some c =>
    simp only [hc, Option.getD_some] at h
    simp only [Option.map_some, Option.getD_some, Bool.false_eq_true, if_false, settingOf, channelAt,
      List.getD_eq_getElem?_getD, hc, Channel.monitored, Channel.autoRequest, Channel.kindIs, h, Option.any_some,
      Cycle.monitored, Channel.cycle]
    cases hk : r.kind == .filter <;> cases channelNodeActive s c <;> simp [h, hk]
    split <;> simp_all

theorem formKeepouts_channel (s : State) (i : Nat) : channelAt (formKeepouts s) i = channelAt s i := by
  show (postEntries s.zone.keep (keepoutSets s) s).water.channels.getD i _ = _
  rw [postEntries_water]
  rfl

theorem round_split (s : State) :
    LastFrom (formKeepouts (formCycles (formMonitors false (formOccupancy (formConditions s))))) (round false s) := by
  rw [round_eq, formResults]
  exact (formEnd_last _).trans (formGrants_last _)

/-- What the setting of a cycle rests on. -/
theorem settingOf_congr {s t : State} (hn : nodeAt t = nodeAt s)
    (hv : ∀ c, (channelAt t c).cfg = (channelAt s c).cfg ∧ (channelAt t c).latch = (channelAt s c).latch)
    (hp : t.water.pond = s.water.pond) (i : Nat) (r : ChannelRec) : settingOf t i r = settingOf s i r := by
  have ha : channelNodeActive t (channelAt t i) = channelNodeActive s (channelAt s i) := by
    unfold channelNodeActive activeOf
    rw [(hv i).1, hn]
  have hu : usableValve t r = usableValve s r := by
    unfold usableValve
    rw [(hv r.valve).1, hn]
  have hl : pondLevel t = pondLevel s := by simp only [pondLevel, hp]
  have hc : abortCause t (channelAt t i) r = abortCause s (channelAt s i) r := by
    unfold abortCause
    rw [ha, hu, hl, (hv i).2, hn]
    cases usableValve s r with
    | none => rfl
    | some x =>
      obtain ⟨v, n⟩ := x
      dsimp only
      rw [(hv v).2]
  have hq : valveCode t r = valveCode s r := by
    unfold valveCode
    rw [hu, hn]
  simp only [settingOf, ha, hc, hq]

/-- The setting of a cycle is the same throughout a handling. -/
theorem SettledFrom.setting {s t : State} (h : SettledFrom s t) (hp : t.water.pond = s.water.pond) (i : Nat)
    (r : ChannelRec) : settingOf t i r = settingOf s i r :=
  settingOf_congr (funext fun n => by simp only [nodeAt, h.nodes]) (SettledFrom.valve h) hp i r

theorem cycleStep_cycle (i : Nat) (s : State) (r : ChannelRec) (h : (channelAt s i).cfg = some r) :
    (channelAt (cycleStep i s) i).cycle = (channelAt s i).cycle.move (settingOf s i r) := by
  have hset : ∀ f : Channel → Channel, channelAt (setChannel i f s) i = f (channelAt s i) := fun f =>
    channelAt_setChannel_self i f s r h
  have hpost : ∀ k x d u, channelAt (post k x d u) i = channelAt u i := fun _ _ _ _ => rfl
  unfold cycleStep Cycle.move settingOf
  dsimp only
  rw [h]
  dsimp only
  cases hst : (channelAt s i).stage <;> simp only [Channel.cycle, hst]
  case restoring =>
    split
    · simp only [cycleDone, hpost, hset, Channel.idle]
    · simp only [hst]
  case aborting =>
    split
    · simp only [cycleAborted, hpost, hset, Channel.idle]
    · simp only [hst]
  case stopping | reversing | washing | rinsing =>
    cases abortCause s (channelAt s i) r with
    | some k => simp only [hset, Channel.abort]
    | none =>
      dsimp only
      split <;> simp_all [Channel.enterWashing]

/-- One round in one cycle. -/
theorem round_cycle (i : Nat) (hi : i < 8) (s : State) (r : ChannelRec) (h : (channelAt s i).cfg = some r) :
    (channelAt (round false s) i).cycle = (channelAt s i).cycle.round (settingOf (round false s) i r) := by
  have hs : channelAt (formOccupancy (formConditions s)) i = channelAt s i := rfl
  have hall := round_later s
  have hend := round_split s
  generalize formOccupancy (formConditions s) = u at hs hall hend
  have hu : (channelAt u i).cfg = some r := by rw [hs, h]
  obtain ⟨v, h1, h2, h3, h4⟩ := formCycles_at i hi (formMonitors false u)
  have hv : (channelAt v i).cfg = some r := by
    rw [h3, (SettledFrom.valve (formMonitors_later false u).base i).1, hu]
  have hl := (h2.trans (formKeepouts_later _)).trans hend.later
  rw [hend.cycleEq i, formKeepouts_channel, h4, cycleStep_cycle i v r hv, h3, formMonitors_cycle u i r hu, hs,
    SettledFrom.setting hall.base hall.pond i r]
  unfold Cycle.round
  rw [← SettledFrom.setting hall.base hall.pond i r, ← SettledFrom.setting hl.base hl.pond i r]

/-! ### The test of R112 -/


theorem mayStop_iff (s : State) (i : Nat) (r : ChannelRec) :
    mayStop s i (channelAt s i) r = true ↔ StartConditions s i r := by
  have hv : valveReady s r = true
      ↔ (∃ n, UsableValve s r n ∧ (nodeAt s n).state = .active) ∧ (channelAt s r.valve).latch = false := by
    unfold valveReady
    cases hu : usableValve s r with
    | none =>
      have := (usableValve_none s r).mp hu
      simp only [Bool.false_eq_true, false_iff, not_and]
      rintro ⟨n, hn, -⟩
      exact absurd hn (this n)
    | some x =>
      obtain ⟨v, n⟩ := x
      obtain ⟨h1, h2⟩ := (usableValve_eq s r (v, n)).mp hu
      dsimp only at h1 h2
      subst h1
      simp only [Bool.and_eq_true, Bool.not_eq_true', beq_iff_eq]
      constructor
      · exact fun h => ⟨⟨n, h2, h.2⟩, h.1⟩
      · rintro ⟨⟨m, hm, ha⟩, hl⟩
        rw [hm.unique h2] at ha
        exact ⟨hl, ha⟩
  have hp : (pondLevel s == 0) = true ↔ s.water.pond = none ∨ s.water.pond = some 0 := by
    unfold pondLevel
    cases s.water.pond <;> simp
  unfold mayStop StartConditions washingDraw washingLevel floorLevel
  rw [Bool.and_eq_true, Bool.and_eq_true, Bool.and_eq_true, Bool.and_eq_true, hv, hp]
  simp only [beq_iff_eq, decide_eq_true_eq]
  tauto

/-- No cause of R116 holds where a cycle may start. -/
theorem mayStop_sound {s : State} {i : Nat} {r : ChannelRec} (hr : (channelAt s i).cfg = some r)
    (h : StartConditions s i r) : (settingOf s i r).abort = none := by
  show abortCause s (channelAt s i) r = none
  obtain ⟨-, hp, ⟨n, hu, hn⟩, hl, hs, -⟩ := h
  have h1 := (usableValve_eq s r (r.valve, n)).mpr ⟨rfl, hu⟩
  unfold channelStateOf at hs
  rw [hr] at hs
  dsimp only at hs
  unfold abortCause
  rw [h1]
  have hq : (pondLevel s == 1 || pondLevel s == 2) = false := by
    unfold pondLevel
    rcases hp with hp | hp <;> simp [hp]
  have hc : (channelAt s i).latch = false ∧ channelNodeActive s (channelAt s i) = true := by
    split at hs
    · cases hs
    · split at hs
      · cases hs
      · split at hs
        · cases hs
        · simp_all
  simp [hq, hc, hl, hn]

theorem cycleStart_at (i : Nat) (s : State) (r : ChannelRec) (h : (channelAt s i).cfg = some r) :
    channelAt (cycleStart i s) i
      = if (channelAt s i).stage == .requested && mayStop s i (channelAt s i) r then (channelAt s i).enterStopping r
        else channelAt s i := by
  unfold cycleStart
  dsimp only
  rw [h]
  dsimp only
  split
  · exact channelAt_setChannel_self i _ s r h
  · rfl

/-- What the test of one cycle leaves alone: everything but the channel's cycle and its monitor. -/
theorem cycleStart_frame (i : Nat) (s : State) :
    cycleStart i s = { s with water := { s.water with channels := (cycleStart i s).water.channels } }
      ∧ (cycleStart i s).water.channels.length = s.water.channels.length
      ∧ ∀ j, j ≠ i → channelAt (cycleStart i s) j = channelAt s j := by
  unfold cycleStart
  dsimp only
  cases (channelAt s i).cfg with
  | none => exact ⟨rfl, rfl, fun _ _ => rfl⟩
  | some r =>
    dsimp only
    split
    · exact ⟨rfl, List.length_modify .., fun j hj => channelAt_setChannel i j _ s hj⟩
    · exact ⟨rfl, rfl, fun _ _ => rfl⟩

/-- The conditions of one cycle do not rest on the cycles of other channels. -/
theorem mayStop_congr {s t : State} (h : t = { s with water := { s.water with channels := t.water.channels } })
    (hv : ∀ c, (channelAt t c).cfg = (channelAt s c).cfg ∧ (channelAt t c).latch = (channelAt s c).latch) (i : Nat)
    (r : ChannelRec) (hi : channelAt t i = channelAt s i) :
    mayStop t i (channelAt t i) r = mayStop s i (channelAt s i) r := by
  have hn : nodeAt t = nodeAt s := by rw [h]; rfl
  have hz : t.zone = s.zone := by rw [h]
  have hw : loadAt t = loadAt s := by rw [h]; rfl
  have hp : pondLevel t = pondLevel s := by rw [h]; rfl
  have hu : usableValve t r = usableValve s r := by
    unfold usableValve
    rw [(hv r.valve).1, hn]
  have hr : valveReady t r = valveReady s r := by
    unfold valveReady
    rw [hu, hn]
    cases usableValve s r with
    | none => rfl
    | some x =>
      obtain ⟨v, n⟩ := x
      dsimp only
      rw [(hv v).2]
  have ha : ∀ c, channelStateOf t c = channelStateOf s c := by
    intro c
    have h1 : activeOf t = activeOf s := funext fun x => funext fun k => activeOf_congr (by rw [h]) x k
    have h2 : codeOf t = codeOf s := by
      funext x k
      unfold codeOf
      rw [hn]
    unfold channelStateOf channelNodeActive
    rw [h1, h2]
  unfold mayStop washingDraw
  rw [hz, hw, hp, hr, ha, hi]

/-- What the tests of some cycles leave alone. -/
theorem starts_frame (l : List Nat) (s : State) :
    LaterFrom s (l.foldl (fun t j => cycleStart j t) s)
      ∧ l.foldl (fun t j => cycleStart j t) s
        = { s with water := { s.water with channels := (l.foldl (fun t j => cycleStart j t) s).water.channels } }
      ∧ (l.foldl (fun t j => cycleStart j t) s).water.channels.length = s.water.channels.length
      ∧ ∀ i, i ∉ l → channelAt (l.foldl (fun t j => cycleStart j t) s) i = channelAt s i := by
  induction l generalizing s with
  | nil => exact ⟨.refl s, rfl, rfl, fun _ _ => rfl⟩
  | cons j l ih =>
    rw [List.foldl_cons]
    have hlater := cycleStart_later j s
    obtain ⟨g2, g3, g4⟩ := cycleStart_frame j s
    obtain ⟨h1, h2, h3, h4⟩ := ih (cycleStart j s)
    generalize l.foldl (fun t j => cycleStart j t) (cycleStart j s) = t at h1 h2 h3 h4
    generalize cycleStart j s = u at *
    refine ⟨hlater.trans h1, ?_, h3.trans g3, fun i hi => ?_⟩
    · rw [h2, g2]
    · rw [h4 i (fun h => hi (.tail _ h)), g4 i (fun h => hi (h ▸ .head _))]

/-- The test of R112 of cycle `i` finds what it would find alone. -/
theorem formStarts_at (i : Nat) (hi : i < 8) (s : State) :
    ((channelAt s i).cfg = none → channelAt (formStarts s) i = channelAt s i)
      ∧ ∀ r, (channelAt s i).cfg = some r →
        channelAt (formStarts s) i
          = if (channelAt s i).stage == .requested && mayStop s i (channelAt s i) r then (channelAt s i).enterStopping r
            else channelAt s i := by
  obtain ⟨rest, hn, he⟩ := eachIx_split cycleStart i 8 hi s
  obtain ⟨g1, g2, -, g4⟩ := starts_frame (List.range i) s
  have hi' := g4 i (by simp)
  generalize (List.range i).foldl (fun t j => cycleStart j t) s = u at *
  obtain ⟨-, -, -, k4⟩ := starts_frame rest (cycleStart i u)
  have hat : channelAt (formStarts s) i = channelAt (cycleStart i u) i := by
    unfold formStarts
    rw [he, k4 i hn]
  rw [hat]
  refine ⟨fun hr => ?_, fun r hr => ?_⟩
  · unfold cycleStart
    dsimp only
    rw [hi', hr]
    exact hi'
  · rw [cycleStart_at i u r (by rw [hi', hr]), ← mayStop_congr g2 (SettledFrom.valve g1.base) i r hi', hi']

theorem formStarts_follow (s : State) : StartsFollow s (formStarts s) := by
  have hat := formStarts_at
  have hframe := starts_frame (List.range 8) s
  have he : formStarts s = (List.range 8).foldl (fun t j => cycleStart j t) s := by
    unfold formStarts eachIx
    rfl
  rw [← he] at hframe
  obtain ⟨-, h1, h2, h3⟩ := hframe
  refine ⟨h1, h2, fun i => ⟨fun r hi hr hst hc => ?_, fun h => ?_⟩⟩
  · rw [(hat i hi s).2 r hr, hst, (mayStop_iff s i r).mpr hc]
    rfl
  · by_cases hi : i < 8
    · cases hr : (channelAt s i).cfg with
      | none => exact (hat i hi s).1 hr
      | some r =>
        rw [(hat i hi s).2 r hr, if_neg]
        rw [Bool.and_eq_true, mayStop_iff, beq_iff_eq]
        rintro ⟨g1, g2⟩
        rcases h with h | h | h
        · omega
        · exact h g1
        · exact h r hr g2
    · exact h3 i (by simpa using hi)

/-- The test of R112 in one cycle. -/
theorem formStarts_cycle (i : Nat) (hi : i < 8) (s : State) (r : ChannelRec) (h : (channelAt s i).cfg = some r) :
    ((channelAt s i).stage = .requested → StartConditions s i r →
        (channelAt (formStarts s) i).cycle = (channelAt s i).cycle.start (settingOf s i r))
      ∧ (((channelAt s i).stage ≠ .requested ∨ ¬ StartConditions s i r) →
        (channelAt (formStarts s) i).cycle = (channelAt s i).cycle) := by
  obtain ⟨-, -, hf⟩ := formStarts_follow s
  refine ⟨fun h1 h2 => ?_, fun h1 => ?_⟩
  · rw [(hf i).1 r hi h h1 h2]
    rfl
  · rw [(hf i).2]
    refine .inr (h1.imp id fun hn r' hr' => ?_)
    rw [h, Option.some.injEq] at hr'
    exact hr' ▸ hn

/-! ### Cycles: the rounds -/

/-- What the monitor leaves of F and the clogged flag. -/
def Cycle.kept (k : Setting) (c : Cycle) : Cycle := if k.live then c else { c with filt := none, clogged := false }

/-- A cycle in IDLE, requested anew where it is clogged with auto backwash set. -/
def Cycle.asked (k : Setting) (c : Cycle) : Cycle :=
  if k.live && c.clogged && k.auto then { c with stage := .requested, cause := 0 } else c

/-- Where rounds carry a cycle, the test of R112 apart. -/
def Cycle.rest (k : Setting) (c : Cycle) : Cycle :=
  let m := c.kept k
  match c.stage with
  | .idle => m.asked k
  | .requested => m
  | .restoring => if k.home then { m with stage := .idle, timer := 0, count := inc16 c.count }.asked k else m
  | .aborting => if k.home then { m with stage := .idle, timer := 0 }.asked k else m
  | .stopping | .reversing | .washing | .rinsing =>
    match k.abort with
    | some j =>
      if k.home then { m with stage := .idle, timer := 0, cause := j }.asked k
      else { m with stage := .aborting, timer := 250, cause := j }
    | none => if c.stage == .reversing && k.away then { m with stage := .washing, timer := k.wash } else m

/-- How many moves a cycle has before it, at most. -/
def Cycle.rank (c : Cycle) : Nat :=
  match c.stage with
  | .requested => 0
  | .idle => 1
  | .restoring | .aborting => 2
  | .stopping | .washing | .rinsing => 3
  | .reversing => 4

theorem Cycle.rest_round (k : Setting) (c : Cycle) : (c.round k).rest k = c.rest k := by
  obtain ⟨st, x, j, n, f, cl⟩ := c
  obtain ⟨live, auto, ab, home, away, stop, wash⟩ := k
  cases st
  case idle =>
    cases live <;> cases cl <;> cases auto <;>
      simp [Cycle.round, Cycle.monitored, Cycle.move, Cycle.rest, Cycle.kept, Cycle.asked]
  case requested => cases live <;> simp [Cycle.round, Cycle.monitored, Cycle.move, Cycle.rest, Cycle.kept]
  case restoring | aborting =>
    cases home <;> cases live <;> cases cl <;> cases auto <;>
      simp [Cycle.round, Cycle.monitored, Cycle.move, Cycle.rest, Cycle.kept, Cycle.asked]
  all_goals
    cases ab
    · cases away <;> cases live <;> simp [Cycle.round, Cycle.monitored, Cycle.move, Cycle.rest, Cycle.kept]
    · cases home <;> cases live <;> cases cl <;> cases auto <;>
        simp [Cycle.round, Cycle.monitored, Cycle.move, Cycle.rest, Cycle.kept, Cycle.asked]

theorem Cycle.round_rest (k : Setting) (c : Cycle) : (c.rest k).round k = c.rest k := by
  obtain ⟨st, x, j, n, f, cl⟩ := c
  obtain ⟨live, auto, ab, home, away, stop, wash⟩ := k
  cases st
  case idle =>
    cases live <;> cases cl <;> cases auto <;>
      simp [Cycle.round, Cycle.monitored, Cycle.move, Cycle.rest, Cycle.kept, Cycle.asked]
  case requested => cases live <;> simp [Cycle.round, Cycle.monitored, Cycle.move, Cycle.rest, Cycle.kept]
  case restoring | aborting =>
    cases home <;> cases live <;> cases cl <;> cases auto <;>
      simp [Cycle.round, Cycle.monitored, Cycle.move, Cycle.rest, Cycle.kept, Cycle.asked]
  all_goals
    cases ab
    · cases away <;> cases live <;> simp [Cycle.round, Cycle.monitored, Cycle.move, Cycle.rest, Cycle.kept]
    · cases home <;> cases live <;> cases cl <;> cases auto <;>
        simp [Cycle.round, Cycle.monitored, Cycle.move, Cycle.rest, Cycle.kept, Cycle.asked]

/-- A round that moves no stage, or brings a cycle to REQUESTED, brings it to rest. -/
theorem Cycle.round_still (k : Setting) (c : Cycle)
    (h : (c.round k).stage = c.stage ∨ (c.round k).stage = .requested) : c.round k = c.rest k := by
  obtain ⟨st, x, j, n, f, cl⟩ := c
  obtain ⟨live, auto, ab, home, away, stop, wash⟩ := k
  revert h
  cases st
  case idle =>
    cases live <;> cases cl <;> cases auto <;>
      simp [Cycle.round, Cycle.monitored, Cycle.move, Cycle.rest, Cycle.kept, Cycle.asked]
  case requested => cases live <;> simp [Cycle.round, Cycle.monitored, Cycle.move, Cycle.rest, Cycle.kept]
  case restoring | aborting =>
    cases home <;> cases live <;> cases cl <;> cases auto <;>
      simp [Cycle.round, Cycle.monitored, Cycle.move, Cycle.rest, Cycle.kept, Cycle.asked]
  all_goals
    cases ab
    · cases away <;> cases live <;> simp [Cycle.round, Cycle.monitored, Cycle.move, Cycle.rest, Cycle.kept]
    · cases home <;> cases live <;> cases cl <;> cases auto <;>
        simp [Cycle.round, Cycle.monitored, Cycle.move, Cycle.rest, Cycle.kept, Cycle.asked]

/-- A round that moves a stage leaves fewer moves; it brings no cycle to STOPPING, and none from there to REQUESTED. -/
theorem Cycle.round_rank (k : Setting) (c : Cycle) :
    ((c.round k).stage ≠ c.stage → (c.round k).rank < c.rank)
      ∧ ((c.round k).stage = .stopping → c.stage = .stopping)
      ∧ ((c.round k).stage = .requested → c.stage ≠ .stopping) := by
  obtain ⟨st, x, j, n, f, cl⟩ := c
  obtain ⟨live, auto, ab, home, away, stop, wash⟩ := k
  cases st
  case idle => cases live <;> cases cl <;> cases auto <;> simp [Cycle.round, Cycle.monitored, Cycle.move, Cycle.rank]
  case requested => cases live <;> simp [Cycle.round, Cycle.monitored, Cycle.move, Cycle.rank]
  case restoring | aborting =>
    cases home <;> cases live <;> cases cl <;> cases auto <;>
      simp [Cycle.round, Cycle.monitored, Cycle.move, Cycle.rank]
  all_goals
    cases ab
    · cases away <;> cases live <;> simp [Cycle.round, Cycle.monitored, Cycle.move, Cycle.rank]
    · cases home <;> cases live <;> cases cl <;> cases auto <;>
        simp [Cycle.round, Cycle.monitored, Cycle.move, Cycle.rank]

/-- A cycle that has just entered STOPPING stays there while no cause holds. -/
theorem Cycle.round_start (k : Setting) (c : Cycle) (h : k.abort = none) :
    (c.start k).round k = c.start k ∧ (c.start k).rest k = c.start k := by
  obtain ⟨live, auto, ab, home, away, stop, wash⟩ := k
  simp only at h
  subst h
  cases live <;> simp [Cycle.round, Cycle.monitored, Cycle.move, Cycle.rest, Cycle.kept, Cycle.start]

theorem Quiet.stage {s : State} (h : Quiet s) (i : Nat) :
    (channelAt (nextRound s) i).cycle.stage = (channelAt s i).cycle.stage := by
  unfold Quiet stages at h
  have h' := map_getD Channel.stage h.1 i Channel.blank
  simpa only [Channel.cycle_stage, channelAt] using h'

theorem round_setting (i : Nat) (r : ChannelRec) (s : State) :
    settingOf (round false (nextRound s)) i r = settingOf (round false s) i r := by
  refine SettledFrom.setting ((nextRound_later s).base.trans (round_settled false _)) ?_ i r
  rw [(round_condition _).2.2, (round_condition s).2.2, (round_settled false (nextRound s)).conditions.2.2,
    (nextRound_settled s).conditions.2.2, (round_settled false s).conditions.2.2]

/-- Where the rounds leave a cycle: at rest, or from REQUESTED in STOPPING by the test of R112. -/
theorem rounds_cycle (n i : Nat) (hi : i < 8) (s : State) (r : ChannelRec) (k : Setting) (a : Cycle)
    (hr : (channelAt s i).cfg = some r) (hk : settingOf (round false s) i r = k) (ha : (channelAt s i).cycle = a)
    (hn : a.rank ≤ n ∨ a.round k = a.rest k) :
    let d := (channelAt (rounds false n s) i).cycle
    (d = a.rest k ∨ ((a.rest k).stage = .requested ∧ k.abort = none ∧ d = (a.rest k).start k))
      ∧ ((a.round k).stage = .requested → StartConditions (round false s) i r → 0 < n → d = (a.rest k).start k)
      ∧ (a.stage ≠ .stopping → d.stage = .stopping →
        ∃ m, m ≤ n ∧ StartConditions (round false (roundsFrom m s)) i r) := by
  classical
  induction n generalizing s a with
  | zero =>
    have h := round_cycle i hi s r hr
    rw [hk, ha] at h
    obtain ⟨hrank, hstop, -⟩ := Cycle.round_rank k a
    have hstill : a.round k = a.rest k := by
      refine hn.elim (fun h0 => Cycle.round_still _ _ (by_contra fun hne => ?_)) id
      have := hrank (fun h => hne (.inl h))
      omega
    refine ⟨.inl (h.trans hstill), fun _ _ h0 => absurd h0 (Nat.lt_irrefl 0), fun h1 h2 => ?_⟩
    rw [rounds, h] at h2
    exact absurd (hstop h2) h1
  | succ n ih =>
    have hround := round_cycle i hi s r hr
    rw [hk, ha] at hround
    have hr' : (channelAt (round false s) i).cfg = some r := by
      rw [(SettledFrom.valve (round_settled false s) i).1, hr]
    have hr'' : (channelAt (nextRound s) i).cfg = some r := by
      rw [(SettledFrom.valve (nextRound_settled s) i).1, hr]
    have hstart := formStarts_cycle i hi (round false s) r hr'
    rw [hk, ← nextRound_eq] at hstart
    have hst : (channelAt (round false s) i).stage = (a.round k).stage := by
      rw [← Channel.cycle_stage, hround]
    rw [hst, hround] at hstart
    obtain ⟨hrank, hstop, hreq⟩ := Cycle.round_rank k a
    have hsound : StartConditions (round false s) i r → k.abort = none := fun h => by
      rw [← hk]
      exact mayStop_sound hr' h
    rw [rounds_succ]
    by_cases hs : (a.round k).stage = .requested ∧ StartConditions (round false s) i r
    · have hnext : (channelAt (nextRound s) i).cycle = (a.rest k).start k := by
        rw [← Cycle.round_still k a (.inr hs.1)]
        exact hstart.1 hs.1 hs.2
      have hq : ¬ Quiet s := fun h => by
        have h' := h.stage i
        rw [hnext, ha] at h'
        exact hreq hs.1 h'.symm
      rw [if_neg hq]
      obtain ⟨g1, g2⟩ := Cycle.round_start k (a.rest k) (hsound hs.2)
      obtain ⟨h1, -, -⟩ := ih (nextRound s) _ hr'' ((round_setting i r s).trans hk) hnext (.inr (g1.trans g2.symm))
      have hd : (channelAt (rounds false n (nextRound s)) i).cycle = (a.rest k).start k := by
        rcases h1 with h1 | ⟨h1, -, -⟩
        · exact h1.trans g2
        · rw [g2] at h1
          cases h1
      have hrest : (a.rest k).stage = .requested := by rw [← Cycle.round_still k a (.inr hs.1)]; exact hs.1
      dsimp only
      refine ⟨.inr ⟨hrest, hsound hs.2, hd⟩, fun _ _ _ => hd, fun _ _ => Exists.intro 0 (And.intro (Nat.zero_le _) ?_)⟩
      rw [roundsFrom_zero]
      exact hs.2
    · have hnext : (channelAt (nextRound s) i).cycle = a.round k := 
        hstart.2 (not_and_or.mp hs)
      split
      · next hq =>
        have h' := hq.stage i
        rw [hnext, ha] at h'
        dsimp only
        rw [hround]
        exact
          ⟨.inl (Cycle.round_still k a (.inl h')), fun h1 h2 => absurd ⟨h1, h2⟩ hs,
            fun h1 h2 => absurd (hstop h2) h1⟩
      · have hn' : (a.round k).rank ≤ n ∨ (a.round k).round k = (a.round k).rest k := by
          rcases hn with hn | hn
          · by_cases he : (a.round k).stage = a.stage
            · right
              rw [Cycle.rest_round, Cycle.round_still k a (.inl he), Cycle.round_rest]
            · left
              have := hrank he
              omega
          · right
            rw [Cycle.rest_round, hn, Cycle.round_rest]
        obtain ⟨h1, -, h3⟩ := ih (nextRound s) _ hr'' ((round_setting i r s).trans hk) hnext hn'
        rw [Cycle.rest_round] at h1
        refine ⟨h1, fun h4 h5 => absurd ⟨h4, h5⟩ hs, fun h4 h5 => ?_⟩
        obtain ⟨m, hm, hc⟩ := h3 (fun h => h4 (hstop h)) h5
        exact ⟨m + 1, Nat.succ_le_succ hm, by rw [roundsFrom_succ]; exact hc⟩

theorem rounds_setting (n i : Nat) (r : ChannelRec) (s : State) :
    settingOf (rounds false n s) i r = settingOf (round false s) i r := by
  have h := rounds_settled false n s
  have g := round_settled false s
  have hp : (rounds false n s).water.pond = (round false s).water.pond := by
    rw [(rounds_last round_condition n s).2.2, h.conditions.2.2, (round_condition s).2.2, g.conditions.2.2]
  have hs := SettledFrom.valve h
  have hg := SettledFrom.valve g
  have hn : nodeAt (rounds false n s) = nodeAt (round false s) := by
    funext m
    simp only [nodeAt, h.nodes, g.nodes]
  exact settingOf_congr hn (fun c => ⟨(hs c).1.trans (hg c).1.symm, (hs c).2.trans (hg c).2.symm⟩) hp i r

/-- What the setting of a cycle says of its channel. -/
theorem settingOf_iff (s : State) (i : Nat) (r : ChannelRec) :
    ((settingOf s i r).live = true ↔ r.kind = .filter ∧ channelNodeActive s (channelAt s i) = true)
      ∧ ((settingOf s i r).home = true ↔ ValveHolds s r 0) ∧ ((settingOf s i r).away = true ↔ ValveHolds s r 1)
      ∧ ∀ j, (settingOf s i r).abort = some j ↔ AbortCause s (channelAt s i) r j := by
  refine ⟨?_, valveCode_iff s r 0, valveCode_iff s r 1, fun j => ⟨abortCause_some s _ r j, fun h => ?_⟩⟩
  · show (r.kind == .filter && channelNodeActive s (channelAt s i)) = true ↔ _
    rw [Bool.and_eq_true, beq_iff_eq]
  · show abortCause s (channelAt s i) r = some j
    cases hc : abortCause s (channelAt s i) r with
    | none => exact absurd h (abortCause_none s _ r hc j)
    | some l => rw [(abortCause_some s _ r l hc).unique h]

/-- What `Cycle.rest` and the test of R112 give, stage by stage. -/
theorem Cycle.follows (k : Setting) (a b : Cycle)
    (h : b = a.rest k ∨ ((a.rest k).stage = .requested ∧ k.abort = none ∧ b = (a.rest k).start k)) :
    let asks := k.live = true ∧ a.clogged = true ∧ k.auto = true
    let stays := b.stage = a.stage ∧ b.timer = a.timer ∧ b.cause = a.cause
    let begun := fun (timer : Nat) =>
      b.cause = 0 ∧ ((b.stage = .requested ∧ b.timer = timer) ∨ (b.stage = .stopping ∧ b.timer = k.stop))
    let ended := fun (cause : Nat) =>
      (¬ asks → b.stage = .idle ∧ b.timer = 0 ∧ b.cause = cause) ∧ (asks → begun 0)
    (a.stage = .idle → (¬ asks → stays) ∧ (asks → begun a.timer))
      ∧ (a.stage = .requested → stays ∨ (b.stage = .stopping ∧ b.timer = k.stop ∧ b.cause = a.cause))
      ∧ ((a.stage = .restoring ∨ a.stage = .aborting) → (k.home = true → ended a.cause) ∧ (¬ k.home = true → stays))
      ∧ ((a.stage = .stopping ∨ a.stage = .reversing ∨ a.stage = .washing ∨ a.stage = .rinsing) →
        (∀ j, k.abort = some j →
            (k.home = true → ended j) ∧ (¬ k.home = true → b.stage = .aborting ∧ b.timer = 250 ∧ b.cause = j))
          ∧ ((∀ j, ¬ k.abort = some j) →
            (a.stage = .reversing → k.away = true → b.stage = .washing ∧ b.timer = k.wash ∧ b.cause = a.cause)
              ∧ ((a.stage ≠ .reversing ∨ ¬ k.away = true) → stays)))
      ∧ ((a.stage = .restoring ∧ k.home = true) → b.count = inc16 a.count)
      ∧ ((a.stage ≠ .restoring ∨ ¬ k.home = true) → b.count = a.count)
      ∧ (k.live = true → (a.stage = .stopping ∨ b.stage ≠ .stopping) → b.filt = a.filt ∧ b.clogged = a.clogged)
      ∧ ((¬ k.live = true ∨ (a.stage ≠ .stopping ∧ b.stage = .stopping)) → b.filt = none ∧ b.clogged = false) := by
  obtain ⟨st, x, j, n, f, cl⟩ := a
  obtain ⟨live, auto, ab, home, away, stop, wash⟩ := k
  rcases h with h | ⟨h1, h2, h⟩ <;> subst h
  · cases st
    case idle => cases live <;> cases cl <;> cases auto <;> simp [Cycle.rest, Cycle.kept, Cycle.asked]
    case requested => cases live <;> simp [Cycle.rest, Cycle.kept]
    case restoring | aborting =>
      cases home <;> cases live <;> cases cl <;> cases auto <;> simp [Cycle.rest, Cycle.kept, Cycle.asked]
    all_goals
      cases ab
      · cases away <;> cases live <;> simp [Cycle.rest, Cycle.kept]
      · cases home <;> cases live <;> cases cl <;> cases auto <;> simp [Cycle.rest, Cycle.kept, Cycle.asked]
  · simp only at h2
    subst h2
    revert h1
    cases st
    case idle => cases live <;> cases cl <;> cases auto <;> simp [Cycle.rest, Cycle.kept, Cycle.asked, Cycle.start]
    case requested => cases live <;> simp [Cycle.rest, Cycle.kept, Cycle.start]
    case restoring | aborting =>
      cases home <;> cases live <;> cases cl <;> cases auto <;>
        simp [Cycle.rest, Cycle.kept, Cycle.asked, Cycle.start]
    all_goals cases away <;> cases live <;> simp [Cycle.rest, Cycle.kept]

/-- One round in an empty record. -/
theorem round_empty (i : Nat) (hi : i < 8) (s : State) (h : (channelAt s i).cfg = none) :
    (channelAt (round false s) i).cycle = { (channelAt s i).cycle with filt := none, clogged := false } := by
  have hs : channelAt (formOccupancy (formConditions s)) i = channelAt s i := rfl
  have hend := round_split s
  generalize formOccupancy (formConditions s) = u at hs hend
  obtain ⟨v, h1, h2, h3, h4⟩ := formCycles_at i hi (formMonitors false u)
  have hm : (channelAt (formMonitors false u) i).cycle = { (channelAt u i).cycle with filt := none, clogged := false } := by
    rw [← hs] at h
    simp only [channelAt, formMonitors, List.getD_eq_getElem?_getD, List.getElem?_map] at *
    cases hc : u.water.channels[i]? with
    | none => rfl
    | some c =>
      simp only [hc, Option.getD_some] at h
      simp [Channel.monitored, Channel.kindIs, Channel.autoRequest, Channel.cycle, h]
  have hv : (channelAt v i).cfg = none := by
    rw [h3, (SettledFrom.valve (formMonitors_later false u).base i).1, hs, h]
  have hstep : cycleStep i v = v := by
    unfold cycleStep
    dsimp only
    rw [hv]
  rw [hend.cycleEq i, formKeepouts_channel, h4, hstep, h3, hm, hs]

theorem rounds_empty (n i : Nat) (hi : i < 8) (s : State) (h : (channelAt s i).cfg = none) :
    (channelAt (rounds false n s) i).cycle = { (channelAt s i).cycle with filt := none, clogged := false } := by
  classical
  have h1 := round_empty i hi s h
  induction n generalizing s with
  | zero => exact h1
  | succ n ih =>
    rw [rounds_succ]
    split
    · exact h1
    · have hn : (channelAt (nextRound s) i).cfg = none := by
        rw [(SettledFrom.valve (nextRound_settled s) i).1, h]
      have hr : (channelAt (round false s) i).cfg = none := by
        rw [(SettledFrom.valve (round_settled false s) i).1, h]
      have hst : channelAt (nextRound s) i = channelAt (round false s) i :=
        ((formStarts_follow (round false s)).2.2 i).2 (.inr (.inr fun r hr' => by rw [hr] at hr'; cases hr'))
      rw [ih (nextRound s) hn (round_empty i hi _ hn), hst, h1]

theorem settle_cyclesFollow (s : State) : CyclesFollow s (settle s) := by
  refine ⟨fun i hi h => ?_, fun i r hi hr => ?_⟩
  · have he := rounds_empty 40 i hi s h
    rw [← settle_eq] at he
    generalize settle s = t at he ⊢
    dsimp only
    simp only [Channel.cycle, Cycle.mk.injEq] at he
    exact he
  have hc := rounds_cycle 40 i hi s r _ _ hr rfl rfl
    (.inl (by unfold Cycle.rank; cases (channelAt s i).cycle.stage <;> decide))
  rw [← rounds_setting 40 i r s, ← settle_eq] at hc
  have hk := settingOf_iff (settle s) i r
  have hk' : (settingOf (settle s) i r).auto = r.auto ∧ (settingOf (settle s) i r).stop = r.stopFrames
      ∧ (settingOf (settle s) i r).wash = r.washFrames := ⟨rfl, rfl, rfl⟩
  generalize settle s = t at hc hk hk' ⊢
  generalize settingOf t i r = k at hc hk hk'
  dsimp only at hc
  obtain ⟨h1, h2, h3⟩ := hc
  obtain ⟨hl, hh, ha, hab⟩ := hk
  obtain ⟨hauto, hstop, hwash⟩ := hk'
  dsimp only
  simp only [← hl, ← hh, ← ha, ← hab, ← hauto, ← hstop, ← hwash]
  obtain ⟨f1, f2, f3, f4, f5, f6, f7, f8⟩ := Cycle.follows _ _ _ h1
  generalize StartConditions (round false s) i r = starts at h2 ⊢
  generalize (∃ n, n ≤ 40 ∧ StartConditions (round false (roundsFrom n s)) i r) = some at h3 ⊢
  generalize channelAt s i = a at *
  generalize channelAt t i = b at *
  have started : (a.cycle.round k).stage = .requested → starts → b.stage = .stopping := fun g1 g2 => by
    rw [← Channel.cycle_stage, h2 g1 g2 (by decide)]
    rfl
  refine ⟨fun g => ⟨(f1 g).1, fun g' => ⟨(f1 g).2 g', started ?_⟩⟩, fun g => ⟨f2 g, started ?_⟩, fun g g' => h3 g g', f3,
    f4, f5, f6, f7, f8⟩
  · rw [← Channel.cycle_stage] at g
    have g1 : a.cycle.clogged = true := g'.2.1
    simp [Cycle.round, Cycle.monitored, Cycle.move, g, g'.1, g1, g'.2.2]
  · rw [← Channel.cycle_stage] at g
    cases hlive : k.live <;> simp [Cycle.round, Cycle.monitored, Cycle.move, g, hlive]

/-- At the end of a quiet round a cycle waits in REQUESTED because a condition of R112 fails. -/
theorem quiet_requestsWait (s : State) (h : Quiet s) : RequestsWait (round false s) := by
  intro i r hi hr hst hc
  have hr0 : (channelAt s i).cfg = some r := by rw [← (SettledFrom.valve (round_settled false s) i).1, hr]
  have h1 := (formStarts_cycle i hi (round false s) r hr).1 hst hc
  rw [← nextRound_eq] at h1
  have h2 := h.stage i
  rw [h1] at h2
  have h3 := round_cycle i hi s r hr0
  rw [← Channel.cycle_stage, h3] at hst
  exact (Cycle.round_rank _ _).2.2 hst h2.symm

end Sys2Proof.Machine
end

