-- ==== Sys2Proof/Laws/Results.lean ====
section
/-! SUPPORT. The values a settled handling leaves: the spray caps and presence flags, the channels' states and levels, the
light groups' results, the requests and the grants are those their rules give. -/

namespace Sys2Proof.Machine

/-! ### Nodes and channels -/

theorem LiveNode_iff (s : State) (ix : Option Nat) (k : NodeKind) :
    activeOf s ix k = true ↔ ∃ n, LiveNode s ix k n := by
  unfold activeOf LiveNode
  cases ix with
  | none => simp
  | some i =>
    simp only [Node.kindIs, Bool.and_eq_true, beq_iff_eq, Option.any_eq_true]
    constructor
    · rintro ⟨⟨x, hx, hk⟩, ha⟩
      exact ⟨_, i, x, rfl, rfl, hx, hk, ha⟩
    · rintro ⟨n, j, x, hj, rfl, hx, hk, ha⟩
      cases hj
      exact ⟨⟨x, hx, hk⟩, ha⟩

theorem liveCode_iff (s : State) (ix : Option Nat) (k : NodeKind) (c : Nat) :
    liveCode s ix k = some c ↔ ∃ n, LiveNode s ix k n ∧ n.code = some c := by
  unfold liveCode
  by_cases h : activeOf s ix k = true
  · rw [if_pos h]
    obtain ⟨n, i, x, rfl, rfl, hx, hk, ha⟩ := (LiveNode_iff s ix k).1 h
    have : codeOf s (some i) k = (nodeAt s i).code := by simp [codeOf, Node.kindIs, hx, hk]
    rw [this]
    constructor
    · exact fun hc => ⟨_, ⟨i, x, rfl, rfl, hx, hk, ha⟩, hc⟩
    · rintro ⟨_, ⟨j, _, hj, rfl, _⟩, hc⟩
      cases hj
      exact hc
  · rw [if_neg h]
    constructor
    · nofun
    · rintro ⟨n, hn, _⟩
      exact absurd ((LiveNode_iff s ix k).2 ⟨n, hn⟩) h

theorem channelHealthy_iff (s : State) (c : Channel) (r : ChannelRec) (hr : c.cfg = some r) :
    (channelNodeActive s c && (codeOf s r.node r.kind.nodeKind).isSome) = true
      ↔ ∃ n, LiveNode s r.node (if r.kind = .valve then .valve else .pump) n ∧ n.code ≠ none := by
  have hk : r.kind.nodeKind = if r.kind = .valve then .valve else .pump := by cases r.kind <;> rfl
  have hl : (channelNodeActive s c && (codeOf s r.node r.kind.nodeKind).isSome) = (liveCode s r.node r.kind.nodeKind).isSome := by
    unfold channelNodeActive liveCode
    rw [hr]
    by_cases h : activeOf s r.node r.kind.nodeKind = true <;> simp [h]
  rw [hl, ← hk, Option.isSome_iff_exists]
  constructor
  · rintro ⟨k, hk⟩
    obtain ⟨n, hn, hc⟩ := (liveCode_iff ..).1 hk
    exact ⟨n, hn, by simp [hc]⟩
  · rintro ⟨n, hn, hc⟩
    obtain ⟨k, hk⟩ := Option.ne_none_iff_exists'.1 hc
    exact ⟨k, (liveCode_iff ..).2 ⟨n, hn, hk⟩⟩

theorem showLevel_none (s : State) (i : Nat)
    (h : ∀ p : Player, ¬ (p ∈ s.water.shows ∧ p.state = .playing ∧ ∃ q, p.cfg = some q ∧ i ∈ q.channels)) :
    showLevel s i = 0 := by
  unfold showLevel
  rw [List.findSome?_eq_none_iff.2]
  · rfl
  · intro p hp
    unfold Player.levelFor
    split
    · next q hq hs =>
      rw [Option.map_eq_none_iff, List.findIdx?_eq_none_iff]
      intro x hx
      have := fun hi => h p ⟨hp, hs, q, hq, hi⟩
      by_contra hc
      simp only [Bool.not_eq_false, beq_iff_eq] at hc
      exact this (hc ▸ hx)
    · rfl

theorem showLevel_some (s : State) (i : Nat) (p : Player) (q : ShowRec) (j : Nat)
    (hp : p ∈ s.water.shows ∧ p.state = .playing ∧ ∃ q, p.cfg = some q ∧ i ∈ q.channels)
    (hu : ∀ p' : Player, (p' ∈ s.water.shows ∧ p'.state = .playing ∧ ∃ q, p'.cfg = some q ∧ i ∈ q.channels) → p' = p)
    (hq : p.cfg = some q) (hj : q.channels.findIdx? (· == i) = some j) :
    showLevel s i = levelAt p.levels j := by
  unfold showLevel
  have hl : p.levelFor i = some (levelAt p.levels j) := by
    unfold Player.levelFor
    rw [hq, hp.2.1]
    simp [hj]
  have : s.water.shows.findSome? (fun p => p.levelFor i) = some (levelAt p.levels j) := by
    cases hf : s.water.shows.findSome? (fun p => p.levelFor i) with
    | none =>
      have := List.findSome?_eq_none_iff.1 hf p hp.1
      rw [hl] at this
      cases this
    | some v =>
      obtain ⟨p', hp', hv⟩ := List.exists_of_findSome?_eq_some hf
      have : p' = p := by
        apply hu
        unfold Player.levelFor at hv
        split at hv
        · next q' hq' hs' =>
          rw [Option.map_eq_some_iff] at hv
          obtain ⟨k, hk, _⟩ := hv
          rw [List.findIdx?_eq_some_iff_getElem] at hk
          obtain ⟨hlt, he, _⟩ := hk
          exact ⟨hp', hs', q', hq', by rw [← (beq_iff_eq.1 he)]; exact List.getElem_mem hlt⟩
        · cases hv
      subst this
      rw [← hv, hl]
  rw [this]
  rfl

theorem requested_law (s : State) (i : Nat) (c : Channel) (r : ChannelRec) (hr : c.cfg = some r)
    (hq : c.requested = requestedOf s i c) : RequestedLaw s i c r := by
  unfold RequestedLaw
  dsimp only
  rw [hq]
  unfold requestedOf
  rw [hr]
  dsimp only
  refine ⟨fun hk => ?_, fun hk => ⟨fun hn => ?_, fun p q j hp hu hcfg hj hlt => ?_⟩, fun hk => ?_⟩
  · rw [hk]
    cases hst : c.stage <;> simp [Stage.inCycle, stageLevel, isNight]
  · rw [hk]
    exact showLevel_none s i hn
  · rw [hk]
    rw [showLevel_some s i p q j hp hu hcfg hj]
    match j, hlt with
    | 0, _ => rfl
    | 1, _ => rfl
    | 2, _ => rfl
    | 3, _ => rfl
  · rw [hk]
    have hv : valveCommanded s i = true ↔ ∃ f ∈ s.water.channels, ∃ q, f.cfg = some q ∧ q.kind = .filter ∧ q.valve = i
        ∧ (f.stage = .reversing ∨ f.stage = .washing ∨ f.stage = .rinsing) := by
      unfold valveCommanded
      simp only [List.any_eq_true, Bool.and_eq_true, Option.any_eq_true, beq_iff_eq]
      constructor
      · rintro ⟨f, hf, hs, q, hq, hk, hv⟩
        refine ⟨f, hf, q, hq, hk, hv, ?_⟩
        revert hs
        cases f.stage <;> simp [Stage.commandsValve]
      · rintro ⟨f, hf, q, hq, hk, hv, hs⟩
        refine ⟨f, hf, ?_, q, hq, hk, hv⟩
        rcases hs with h | h | h <;> rw [h] <;> rfl
    exact ⟨fun h => by simp [hv.2 h], fun h => by simp [Bool.eq_false_iff.2 (fun hc => h (hv.1 hc))]⟩


theorem valveCommanded_congr {s t : State}
    (h : t.water.channels.map (fun c => (c.cfg, c.stage)) = s.water.channels.map (fun c => (c.cfg, c.stage))) (i : Nat) :
    valveCommanded t i = valveCommanded s i := by
  have := congrArg (fun l : List (Option ChannelRec × Stage) =>
    l.any (fun x => x.2.commandsValve && x.1.any (fun r => r.kind == .filter && r.valve == i))) h
  simpa [List.any_map, valveCommanded, Function.comp_def] using this

theorem LastFrom.stages {s t : State} (h : LastFrom s t) :
    t.water.channels.map (fun c => (c.cfg, c.stage)) = s.water.channels.map (fun c => (c.cfg, c.stage)) := by
  have := congrArg (List.map (fun x : Option ChannelRec × Bool × Option Nat × Bool × Stage × Nat × Nat × Nat =>
    (x.1, x.2.2.2.2.1))) h.cycles
  simpa [List.map_map, Function.comp_def] using this

/-- What forming the level of a channel gives (R90, R93 to R95, R111). -/
theorem formLevel_formed (s : State) (i : Nat) (c0 : Channel) :
    let c := formLevel s i c0
    (c.cfg = none → c.state = .off ∧ c.requested = 0 ∧ c.output = 0 ∧ c.reqLevel = 0 ∧ c.reqDraw = 0)
      ∧ ∀ r, c.cfg = some r →
        let healthy := ∃ n, LiveNode s r.node (if r.kind = .valve then .valve else .pump) n ∧ n.code ≠ none
        let washes := r.kind = .filter ∧ (c.stage = .stopping ∨ c.stage = .reversing ∨ c.stage = .washing
          ∨ c.stage = .rinsing ∨ c.stage = .restoring)
        let runs := (c.state = .running ∨ c.state = .backwash) ∧ r.kind ≠ .valve
        c.requested = requestedOf s i c
          ∧ (r.node = none → c.state = .off)
          ∧ (r.node ≠ none → c.latch = true → c.state = .fault)
          ∧ (r.node ≠ none → c.latch = false → ¬ healthy → c.state = .held)
          ∧ (r.node ≠ none → c.latch = false → healthy → washes → c.state = .backwash)
          ∧ (r.node ≠ none → c.latch = false → healthy → ¬ washes → c.state = .running)
          ∧ (¬ runs → c.output = 0 ∧ c.reqLevel = 0 ∧ c.reqDraw = 0)
          ∧ (runs → ∀ v, v = levelBeforeGrant s i r c.requested →
            c.output = floorLevel r.minLevel (min v (grantCap s i))
              ∧ c.reqLevel
                = (if c.stage = .requested ∧ r.kind = .filter then max (floorLevel r.minLevel v) (washingLevel r)
                  else floorLevel r.minLevel v)
              ∧ c.reqDraw = drawAt (loadAt s i).fullDraw c.reqLevel) := by
  obtain ⟨hcfg, hlatch, -, -, hstage, -⟩ := formLevel_frame s i c0
  dsimp only
  rw [hcfg, hlatch, hstage]
  cases hc : c0.cfg with
  | none => exact ⟨fun _ => by simp [formLevel, hc, channelStateOf, requestedOf], nofun⟩
  | some r0 =>
    refine ⟨nofun, ?_⟩
    rintro r ⟨rfl⟩
    have hst : (formLevel s i c0).state = channelStateOf s c0 := by
      unfold formLevel; rw [hc]; dsimp only; split <;> rfl
    have hreq : (formLevel s i c0).requested = requestedOf s i c0 := by
      unfold formLevel; rw [hc]; dsimp only; split <;> rfl
    have hreq2 : requestedOf s i (formLevel s i c0) = requestedOf s i c0 := by
      unfold requestedOf; rw [hcfg, hstage]
    have hh := channelHealthy_iff s c0 r0 hc
    rw [hst, hreq, hreq2]
    have hs : channelStateOf s c0 = if r0.node.isNone then .off else if c0.latch then .fault
        else if !(channelNodeActive s c0) || (codeOf s r0.node r0.kind.nodeKind).isNone then .held
        else if r0.kind == .filter && c0.stage.inCycle then .backwash else .running := by
      unfold channelStateOf; rw [hc]
    have hd : (!(channelNodeActive s c0) || (codeOf s r0.node r0.kind.nodeKind).isNone)
        = !(channelNodeActive s c0 && (codeOf s r0.node r0.kind.nodeKind).isSome) := by
      cases channelNodeActive s c0 <;> cases codeOf s r0.node r0.kind.nodeKind <;> rfl
    rw [hd] at hs
    have hw : (r0.kind == .filter && c0.stage.inCycle) = true ↔ r0.kind = .filter ∧ (c0.stage = .stopping
        ∨ c0.stage = .reversing ∨ c0.stage = .washing ∨ c0.stage = .rinsing ∨ c0.stage = .restoring) := by
      rw [Bool.and_eq_true, beq_iff_eq]
      cases c0.stage <;> simp [Stage.inCycle]
    have hruns : ((channelStateOf s c0 == .running || channelStateOf s c0 == .backwash) && r0.kind != .valve) = true
        ↔ (channelStateOf s c0 = .running ∨ channelStateOf s c0 = .backwash) ∧ r0.kind ≠ .valve := by
      simp
    refine ⟨rfl, fun h => ?_, fun h h2 => ?_, fun h h2 h3 => ?_, fun h h2 h3 h4 => ?_, fun h h2 h3 h4 => ?_, fun h => ?_,
      fun h v hv => ?_⟩
    · rw [hs, h]; rfl
    · rw [hs, h2]; simp [h]
    · rw [hs, h2, Bool.eq_false_iff.2 (fun e => h3 (hh.1 e))]; simp [h]
    · rw [hs, h2, hh.2 h3, hw.2 h4]; simp [h]
    · rw [hs, h2, hh.2 h3, Bool.eq_false_iff.2 (fun e => h4 (hw.1 e))]; simp [h]
    · rw [← hruns] at h
      unfold formLevel; rw [hc]; dsimp only; rw [if_neg h]; exact ⟨rfl, rfl, rfl⟩
    · rw [← hruns] at h
      subst hv
      unfold formLevel; rw [hc]; dsimp only; rw [if_pos h]; simp

theorem formLevels_channels (s : State) : ChannelLaw (formLevels s) := by
  intro i c hc
  rw [formLevels_getElem?] at hc
  cases h0 : s.water.channels[i]? with
  | none => simp [h0] at hc
  | some c0 =>
    rw [h0, Option.map_some, Option.some.injEq] at hc
    subst hc
    have h := formLevel_formed s i c0
    refine ⟨h.1, fun r hr => ?_⟩
    obtain ⟨h1, h2, h3, h4, h5, h6, h7, h8⟩ := h.2 r hr
    have hq : requestedOf (formLevels s) i (formLevel s i c0) = requestedOf s i (formLevel s i c0) := by
      unfold requestedOf
      rw [valveCommanded_congr (formLevels_last s).stages i]
      rfl
    refine ⟨requested_law _ i _ r hr (h1.trans hq.symm), h2, h3, h4, h5, h6, h7, fun hrun v hs ho => ?_⟩
    refine h8 hrun v ?_
    by_cases hst : (r.kind = .fountain ∧ (s.water.rain = true ∨ s.water.pond = some 1 ∨ s.water.pond = some 2))
        ∨ (r.kind = .filter ∧ s.water.pond = some 2)
    · rw [levelBeforeGrant_stopped s i r _ hst]; exact hs hst
    · rw [levelBeforeGrant_open s i r _ hst]; exact ho hst

/-! ### Zones -/

theorem lowest_none (l : List Nat) : lowest l = none ↔ l = [] := by
  cases l with
  | nil => simp [lowest]
  | cons a l => simp only [lowest]; split <;> simp

theorem lowest_some (l : List Nat) (m : Nat) : lowest l = some m ↔ m ∈ l ∧ ∀ x ∈ l, m ≤ x := by
  induction l generalizing m with
  | nil => simp [lowest]
  | cons a l ih =>
    simp only [lowest]
    cases h : lowest l with
    | none =>
      rw [(lowest_none l).1 h]
      simp only [Option.some.injEq, List.mem_singleton, forall_eq]
      exact ⟨fun h => ⟨h.symm, h ▸ le_refl _⟩, fun h => h.1.symm⟩
    | some b =>
      obtain ⟨hb, hle⟩ := (ih b).1 h
      simp only [Option.some.injEq, List.mem_cons, forall_eq_or_imp]
      constructor
      · rintro rfl
        refine ⟨?_, min_le_left _ _, fun x hx => le_trans (min_le_right _ _) (hle x hx)⟩
        rcases Nat.le_total a b with hab | hab
        · exact .inl (min_eq_left hab)
        · exact .inr (by rw [min_eq_right hab]; exact hb)
      · rintro ⟨hm, h1, h2⟩
        have := h2 b hb
        rcases hm with rfl | hm
        · exact min_eq_left this
        · have := hle m hm
          omega

/-- The spray caps and the presence flags of the occupancies just formed (R79, R80). -/
theorem formOccupancy_results (s : State) : ZoneResultLaw (formOccupancy s) := by
  refine ⟨fun c hc => ?_, fun g hg => ?_⟩
  · have e : (formOccupancy s).zone.sprayCaps.getD c none = sprayCapOf s (formOccupancy s).zone.counts c := by
      simp [formOccupancy, List.getD_eq_getElem?_getD, hc]
    have mem : ∀ x, x ∈ (List.range 32).filterMap
        (fun z =>
          match zoneAt s z with
          | none => none
          | some r =>
            if r.kind == .spray && r.channels.contains c && decide (1 ≤ (formOccupancy s).zone.counts.getD z 0) then some r.cap
            else none)
        ↔ ∃ (r : ZoneRec) (z : Nat), (z < 32 ∧ zoneAt s z = some r ∧ r.kind = .spray ∧ c ∈ r.channels
          ∧ 1 ≤ (formOccupancy s).zone.counts.getD z 0) ∧ r.cap = x := by
      intro x
      simp only [List.mem_filterMap, List.mem_range]
      constructor
      · rintro ⟨z, hz, h⟩
        cases hr : zoneAt s z with
        | none => rw [hr] at h; cases h
        | some r =>
          rw [hr] at h
          simp only [Option.ite_none_right_eq_some, Bool.and_eq_true, beq_iff_eq, List.contains_iff_mem, decide_eq_true_eq,
            Option.some.injEq] at h
          exact ⟨r, z, ⟨hz, hr, h.1.1.1, h.1.1.2, h.1.2⟩, h.2⟩
      · rintro ⟨r, z, ⟨hz, hr, hk, hm, hn⟩, rfl⟩
        refine ⟨z, hz, ?_⟩
        rw [hr]
        simp only [hk, beq_self_eq_true, List.contains_iff_mem.2 hm, hn, decide_true, Bool.and_self, if_true]
    rw [e]
    dsimp only
    refine ⟨fun cap h => ?_, fun h r z hz => ?_⟩
    · obtain ⟨h1, h2⟩ := (lowest_some _ _).1 h
      exact ⟨(mem cap).1 h1, fun r z hz => h2 r.cap ((mem _).2 ⟨r, z, hz, rfl⟩)⟩
    · have := (mem r.cap).2 ⟨r, z, hz, rfl⟩
      exact List.not_mem_nil (Eq.subst (motive := fun l => r.cap ∈ l) ((lowest_none _).1 h) this)
  · have e : (formOccupancy s).zone.presence.getD g false = presenceOf s (formOccupancy s).zone.counts g := by
      simp [formOccupancy, List.getD_eq_getElem?_getD, hg]
    rw [e]
    unfold presenceOf
    simp only [List.any_eq_true, List.mem_range, Option.any_eq_true, Bool.and_eq_true, beq_iff_eq, List.contains_iff_mem,
      decide_eq_true_eq]
    constructor
    · rintro ⟨z, hz, r, hr, ⟨hk, hm⟩, hn⟩
      exact ⟨r, z, hz, hr, hk, hm, hn⟩
    · rintro ⟨r, z, hz, hr, hk, hm, hn⟩
      exact ⟨z, hz, r, hr, ⟨hk, hm⟩, hn⟩

theorem ZoneResultLaw.congr {s t : State} (h : ZoneResultLaw s) (hz : t.zone.zones = s.zone.zones)
    (hc : t.zone.counts = s.zone.counts) (hs : t.zone.sprayCaps = s.zone.sprayCaps)
    (hp : t.zone.presence = s.zone.presence) : ZoneResultLaw t := by
  unfold ZoneResultLaw zoneAt at *
  rw [hz, hc, hs, hp]
  exact h

theorem round_zones (s : State) : ZoneResultLaw (round false s) :=
  have h := round_later s
  (formOccupancy_results _).congr h.base.zones h.counts h.sprayCaps h.presence

/-! ### Groups -/

theorem darkNow_law (s : State) (g : LightGroup) (h : g.dark = darkNow s (g.mode == .off)) : DarkLaw s g := by
  unfold DarkLaw
  dsimp only
  unfold darkNow at h
  refine ⟨fun n c hn hc => ?_, fun hs hv => ?_, fun hs hv => ?_⟩
  · rw [(liveCode_iff ..).2 ⟨n, hn, hc⟩] at h
    rw [h]
    simp [isDarkCode, or_assoc]
  all_goals
    have hl : liveCode s s.mgmt.site.weather .weather = none := by
      cases hc : liveCode s s.mgmt.site.weather .weather with
      | none => rfl
      | some c =>
        obtain ⟨n, hn, hc⟩ := (liveCode_iff ..).1 hc
        exact absurd ⟨n, hn, by simp [hc]⟩ hs
    rw [hl] at h
    simp only [hv] at h
    rw [h]
  · rfl
  · unfold LightGroup.mode
    cases g.cfg <;> simp

theorem source_iff (s : State) (i : Nat) (r : LightRec) :
    sourceHolds s i r = true ↔ s.zone.presence.getD i false = true
      ∨ ∃ m ∈ r.motion, ∃ n, LiveNode s (some m) .motion n ∧ n.code = some 1 := by
  unfold sourceHolds
  simp only [Bool.or_eq_true, List.any_eq_true, beq_iff_eq, liveCode_iff]

theorem presenceMove_active (b : Bool) (h : Nat) (g : LightGroup) : (presenceMove b h g).presence = .active ↔ b = true := by
  unfold presenceMove
  cases hp : g.presence <;> cases b <;> simp [hp]
  split <;> simp

theorem reaim_frame (fresh : Bool) (a : Nat) (g : LightGroup) :
    (g.reaim fresh a).online = g.online ∧ (g.reaim fresh a).dark = g.dark ∧ (g.reaim fresh a).evening = g.evening
      ∧ (g.reaim fresh a).presence = g.presence ∧ (g.reaim fresh a).hold = g.hold
      ∧ (g.reaim fresh a).scheduled = g.scheduled ∧ (g.reaim fresh a).target = g.target ∧ (g.reaim fresh a).aim = a
      ∧ (g.reaim fresh a).reqDraw = g.reqDraw ∧ (g.reaim fresh a).cap = g.cap
      ∧ (g.online = false → g.acc = 0 → (g.reaim fresh a).current = g.current ∧ (g.reaim fresh a).acc = 0) := by
  unfold LightGroup.reaim
  cases g.cfg with
  | none => simp +contextual
  | some r =>
    dsimp only
    split
    · next h =>
      refine ⟨rfl, rfl, rfl, rfl, rfl, rfl, rfl, rfl, rfl, rfl, fun ho _ => ?_⟩
      rw [ho] at h
      simp at h
    · simp +contextual


/-- A group's results before the grants are delivered (R125 to R130). -/
def GroupFormed (s : State) (i : Nat) (g : LightGroup) : Prop :=
  DarkLaw s g
    ∧ (g.cfg = none → g.online = false ∧ g.scheduled = 0 ∧ g.target = 0)
    ∧ (∀ r, g.cfg = some r →
      let source := s.zone.presence.getD i false = true
        ∨ ∃ m ∈ r.motion, ∃ n, LiveNode s (some m) .motion n ∧ n.code = some 1
      (g.online = true ↔ ∃ n, LiveNode s r.node .light n)
        ∧ (g.presence = .active ↔ source)
        ∧ g.scheduled
          = (match r.mode with
            | .off => 0
            | .always => r.onLevel
            | .duskToDawn => if g.dark then r.onLevel else 0
            | .duskToTime =>
              if !g.dark then 0
              else if !s.mgmt.clock.valid then r.onLevel
              else
                match g.evening with
                | .early => r.onLevel
                | .late => r.lateLevel
                | .done => 0)
        ∧ g.target
          = (if g.dark = true ∧ (g.presence = .active ∨ g.presence = .holding) then max g.scheduled r.presLevel
            else g.scheduled))
    ∧ g.reqDraw = (if g.online then drawAt (loadAt s (8 + i)).fullDraw g.target else 0)
    ∧ (g.online = false → g.current = 0 ∧ g.acc = 0)

theorem formInputs_frame (s : State) (i : Nat) (g : LightGroup) :
    (formInputs s i g).cfg = g.cfg ∧ (formInputs s i g).online = onlineOf s g
      ∧ (formInputs s i g).dark = darkNow s (g.mode == .off)
      ∧ ∀ r, g.cfg = some r → ((formInputs s i g).presence = .active ↔ sourceHolds s i r = true) := by
  unfold formInputs
  cases hg : g.cfg with
  | none => exact ⟨rfl, rfl, rfl, nofun⟩
  | some r =>
    dsimp only
    refine ⟨?_, ?_, ?_, ?_⟩
    · unfold presenceMove; dsimp only; split <;> first | rfl | (split <;> rfl)
    · unfold presenceMove; dsimp only; split <;> first | rfl | (split <;> rfl)
    · unfold presenceMove; dsimp only; split <;> first | rfl | (split <;> rfl)
    · rintro _ ⟨rfl⟩
      exact presenceMove_active ..

theorem formGroup_formed (s : State) (i : Nat) (g0 : LightGroup) : GroupFormed s i (formGroup s i g0) := by
  obtain ⟨hcfg, hon, hdark, hpres⟩ := formInputs_frame s i g0
  unfold formGroup
  dsimp only
  set g1 := formInputs s i g0 with hg1
  clear_value g1
  set g2 := { g1 with scheduled := scheduledOf s g1, target := targetOf (scheduledOf s g1) g1 } with hg2
  set g3 := g2.settleOnline (loadAt s (8 + i)).fullDraw with hg3
  have h3 : g3.cfg = g1.cfg ∧ g3.online = g1.online ∧ g3.dark = g1.dark ∧ g3.evening = g1.evening ∧ g3.presence = g1.presence
      ∧ g3.scheduled = g2.scheduled ∧ g3.target = g2.target
      ∧ g3.reqDraw = (if g1.online then drawAt (loadAt s (8 + i)).fullDraw g2.target else 0)
      ∧ (g1.online = false → g3.current = 0 ∧ g3.acc = 0) := by
    rw [hg3, hg2]
    unfold LightGroup.settleOnline
    dsimp only
    cases g1.online <;> simp
  obtain ⟨a1, a2, a3, a4, a5, a6, a7, a8, a9⟩ := h3
  obtain ⟨b2, b3, b4, b5, -, b6, b7, b8, b9, -, b10⟩ := reaim_frame (g2.online && !g0.online) (min (targetOf (scheduledOf s g1) g1) g2.cap) g3
  set g4 := g3.reaim (g2.online && !g0.online) (min (targetOf (scheduledOf s g1) g1) g2.cap)
  have c1 : g4.cfg = g0.cfg := (reaim_cfg ..).trans (a1.trans hcfg)
  clear_value g4
  rw [a2] at b2
  rw [a3] at b3
  rw [a4] at b4
  rw [a5] at b5
  rw [a6] at b6
  rw [a7] at b7
  rw [a8] at b9
  rw [a2] at b10
  have hmode : g4.mode = g0.mode := by simp only [LightGroup.mode, c1]
  refine ⟨darkNow_law s g4 (by rw [b3, hdark, hmode]), fun hn => ?_, fun r hr => ?_, ?_, fun ho => ?_⟩
  · have h0 : g0.cfg = none := c1.symm.trans hn
    have h1 : g1.cfg = none := hcfg.trans h0
    refine ⟨by rw [b2, hon]; simp [onlineOf, h0], ?_, ?_⟩
    · rw [b6]; simp [hg2, scheduledOf, h1]
    · rw [b7]; simp [hg2, targetOf, scheduledOf, h1]
  · have h0 : g0.cfg = some r := c1.symm.trans hr
    have h1 : g1.cfg = some r := hcfg.trans h0
    dsimp only
    have hs : g4.scheduled = scheduledOf s g1 := b6
    have ht : g4.target = targetOf (scheduledOf s g1) g1 := b7
    refine ⟨?_, ?_, ?_, ?_⟩
    · rw [b2, hon]
      unfold onlineOf
      rw [h0]
      exact LiveNode_iff ..
    · rw [b5, hpres r h0]
      exact source_iff ..
    · rw [hs, b3, b4]
      unfold scheduledOf
      cases hm : r.mode <;> cases g1.evening <;> simp [h1, hm]
    · rw [ht, hs, b3, b5]
      unfold targetOf
      rw [h1]
      dsimp only
      cases g1.presence <;> cases g1.dark <;> simp
  · rw [b9, b2, b7]
  · have ho1 : g1.online = false := b2.symm.trans ho
    obtain ⟨h1, h2⟩ := a9 ho1
    obtain ⟨h3, h4⟩ := b10 ho1 h2
    exact ⟨h3.trans h1, h4⟩

/-- The grants delivered to the groups formed (R133). -/
theorem deliverGroup_law {s : State} {i : Nat} {g : LightGroup} (h : GroupFormed s i g) :
    GroupFormed s i (deliverGroup s i g)
      ∧ (deliverGroup s i g).cap = capLevel (loadAt s (8 + i)).fullDraw (loadAt s (8 + i)).grant
      ∧ (deliverGroup s i g).aim = min (deliverGroup s i g).target (deliverGroup s i g).cap := by
  obtain ⟨hd, hn, hr, hq, ho⟩ := h
  have e : ∃ g1 : LightGroup, deliverGroup s i g = g1.reaim false (min g.target g1.cap)
      ∧ g1.cap = capLevel (loadAt s (8 + i)).fullDraw (loadAt s (8 + i)).grant
      ∧ g1.cfg = g.cfg ∧ g1.online = g.online ∧ g1.dark = g.dark ∧ g1.evening = g.evening ∧ g1.presence = g.presence
      ∧ g1.scheduled = g.scheduled ∧ g1.target = g.target ∧ g1.reqDraw = g.reqDraw
      ∧ (g.current = 0 → g.acc = 0 → g1.current = 0 ∧ g1.acc = 0) := by
    unfold deliverGroup
    dsimp only
    split
    · next hlt => exact ⟨_, rfl, rfl, rfl, rfl, rfl, rfl, rfl, rfl, rfl, rfl, fun h => by omega⟩
    · exact ⟨_, rfl, rfl, rfl, rfl, rfl, rfl, rfl, rfl, rfl, rfl, fun h h2 => ⟨h, h2⟩⟩
  obtain ⟨g1, he, h0, h1, h2, h3, h4, h5, h6, h7, h8, h9⟩ := e
  rw [he]
  obtain ⟨b2, b3, b4, b5, -, b6, b7, b8, b9, b10, b11⟩ := reaim_frame false (min g.target g1.cap) g1
  have b1 := reaim_cfg false (min g.target g1.cap) g1
  set g2 := g1.reaim false (min g.target g1.cap)
  clear_value g2
  rw [h1] at b1
  rw [h2] at b2 b11
  rw [h3] at b3
  rw [h4] at b4
  rw [h5] at b5
  rw [h6] at b6
  rw [h7] at b7
  rw [h8] at b9
  refine ⟨⟨?_, ?_, ?_, ?_, ?_⟩, ?_, ?_⟩
  · unfold DarkLaw at *
    rw [b1, b3]
    exact hd
  · rw [b1, b2, b6, b7]
    exact hn
  · rw [b1, b2, b3, b4, b5, b6, b7]
    exact hr
  · rw [b9, b2, b7]
    exact hq
  · rw [b2]
    intro hoff
    obtain ⟨x, y⟩ := ho hoff
    obtain ⟨x1, y1⟩ := h9 x y
    obtain ⟨x2, y2⟩ := b11 hoff y1
    exact ⟨x2.trans x1, y2⟩
  · rw [b10, h0]
  · rw [b8, b7, b10]

/-- What the results of a group rest on. -/
theorem GroupFormed.congr {s t : State} {i : Nat} {g : LightGroup} (h : GroupFormed s i g) (hn : t.nodes = s.nodes)
    (hm : t.mgmt = s.mgmt) (hp : t.zone.presence = s.zone.presence)
    (hl : (loadAt t (8 + i)).fullDraw = (loadAt s (8 + i)).fullDraw) : GroupFormed t i g := by
  unfold GroupFormed DarkLaw LiveNode nodeAt at *
  rw [hn, hm, hp, hl]
  exact h


/-! ### The end of a round -/

theorem formGrants_light? (s : State) (i : Nat) :
    (formGrants s).light[i]? = s.light[i]?.map (deliverGroup (allocate (takeRequests s)) i) := by
  show (deliverGroups (allocate (takeRequests s))).light[i]? = _
  simp only [deliverGroups, mapIx_getElem?, Nat.zero_add]
  rfl

theorem formShed_light (s : State) : (formShed s).light = s.light := by
  have h : ∀ c t, (setShed c t).light = t.light := fun c t => by
    unfold setShed
    split
    · rfl
    · unfold postDetail
      split <;> rfl
  unfold formShed
  dsimp only
  split
  · exact h ..
  · rfl

theorem LastFrom.fullDraw {s t : State} (h : LastFrom s t) (j : Nat) :
    (loadAt t j).fullDraw = (loadAt s j).fullDraw :=
  congrArg (fun x => x.2.2.1)
    (map_getD (fun l : Load => (l.cls, l.minDraw, l.fullDraw, l.node)) h.later.base.loads j Load.blank)

/-- The groups at the end of a round. -/
theorem formEnd_groups (w : State) : GroupLaw (formGrants (formShed (formGroups w))) := by
  intro i g hg
  rw [formGrants_light?, formShed_light] at hg
  have hlA : LastFrom w (allocate (takeRequests (formShed (formGroups w)))) :=
    ((formGroups_last w).trans (formShed_last _)).trans ((takeRequests_last _).trans (allocate_last _))
  generalize hA : allocate (takeRequests (formShed (formGroups w))) = A at *
  have hg' : (w.light[i]?.map (formGroup w i)).map (deliverGroup A i) = some g := by
    simpa only [formGroups, mapIx_getElem?, Nat.zero_add] using hg
  have hf := formGrants_last (formShed (formGroups w))
  cases h0 : w.light[i]? with
  | none => simp [h0] at hg'
  | some g0 =>
    rw [h0, Option.map_some, Option.map_some, Option.some.injEq] at hg'
    have f1 : GroupFormed A i (formGroup w i g0) :=
      (formGroup_formed w i g0).congr hlA.later.base.nodes hlA.later.base.mgmt hlA.later.presence (hlA.fullDraw _)
    obtain ⟨f2, hcap, haim⟩ := deliverGroup_law f1
    rw [hg'] at f2 hcap haim
    have el : ∀ j, loadAt (formGrants (formShed (formGroups w))) j = loadAt A j := fun j => by rw [← hA]; rfl
    have fl : LastFrom A (formGrants (formShed (formGroups w))) := by
      rw [← hA]
      exact (deliverGroups_last _).trans (formLevels_last _)
    obtain ⟨x1, x2, x3, x4, x5⟩ := f2.congr fl.later.base.nodes fl.later.base.mgmt fl.later.presence (fl.fullDraw _)
    refine ⟨x1, x2, x3, ?_, haim, x4, x5⟩
    rw [el]
    exact hcap

/-! ### Requests and grants -/

/-- What the level before the grant rests on; forming it again changes no request draw (R95, R96). -/
theorem formLevel_reqDraw {s t : State} (i : Nat) (c : Channel) (hn : t.nodes = s.nodes) (hm : t.mgmt = s.mgmt)
    (hz : t.zone = s.zone) (hr : t.water.rain = s.water.rain) (hp : t.water.pond = s.water.pond)
    (hs : t.water.shows = s.water.shows) (hv : valveCommanded t i = valveCommanded s i)
    (hf : (loadAt t i).fullDraw = (loadAt s i).fullDraw) :
    (formLevel t i (formLevel s i c)).reqDraw = (formLevel s i c).reqDraw := by
  obtain ⟨hcfg, hlatch, -, -, hstage, -⟩ := formLevel_frame s i c
  have e1 : channelStateOf t (formLevel s i c) = channelStateOf s c := by
    unfold channelStateOf channelNodeActive activeOf codeOf nodeAt
    rw [hcfg, hlatch, hstage, hn]
  have e2 : requestedOf t i (formLevel s i c) = requestedOf s i c := by
    unfold requestedOf isNight showLevel
    rw [hcfg, hstage, hv, hm, hs]
  have e3 : ∀ r q, levelBeforeGrant t i r q = levelBeforeGrant s i r q := fun r q => by
    unfold levelBeforeGrant sprayCapHolds rainCapHolds pondCapHolds pondLevel
    rw [hz, hr, hp]
  have draw : ∀ u d, (formLevel u i d).reqDraw
      = match d.cfg with
        | none => 0
        | some r =>
          if (channelStateOf u d == .running || channelStateOf u d == .backwash) && r.kind != .valve then
            drawAt (loadAt u i).fullDraw
              (if d.stage == .requested && r.kind == .filter then
                max (floorLevel r.minLevel (levelBeforeGrant u i r (requestedOf u i d))) (washingLevel r)
              else floorLevel r.minLevel (levelBeforeGrant u i r (requestedOf u i d)))
          else 0 := fun u d => by
    unfold formLevel
    cases d.cfg with
    | none => rfl
    | some r => dsimp only; split <;> rfl
  rw [draw t, draw s, hcfg, hstage, e1, e2]
  cases c.cfg with
  | none => rfl
  | some r => dsimp only; rw [e3, hf]

theorem deliverGroup_reqDraw (s : State) (i : Nat) (g : LightGroup) : (deliverGroup s i g).reqDraw = g.reqDraw := by
  unfold deliverGroup
  dsimp only
  rw [(reaim_frame ..).2.2.2.2.2.2.2.2.1]
  split <;> rfl

theorem contentField_top (w : Content) : contentField w 31 20 = w.toNat / 2 ^ 20 := by
  unfold contentField
  have := w.isLt
  omega

theorem dockRequest_law (s : State) (l : Load) :
    (∀ n w, LiveNode s l.node .dock n → n.code ≠ some 2 → n.sample = some w →
        dockRequest s l = min (w.toNat / 2 ^ 20) l.fullDraw)
      ∧ ((∀ n w, LiveNode s l.node .dock n → n.code ≠ some 2 → n.sample ≠ some w) → dockRequest s l = 0) := by
  unfold dockRequest
  constructor
  · rintro n w hn hc hw
    have ha := (LiveNode_iff s l.node .dock).2 ⟨n, hn⟩
    obtain ⟨i, x, hi, rfl, -⟩ := hn
    rw [hi] at ha ⊢
    dsimp only
    rw [if_pos (by simp [ha, hc]), hw]
    dsimp only
    rw [contentField_top]
  · intro h
    cases hi : l.node with
    | none => rfl
    | some i =>
      dsimp only
      split
      · next hc =>
        rw [Bool.and_eq_true, bne_iff_ne] at hc
        obtain ⟨n, hn⟩ := (LiveNode_iff s (some i) .dock).1 hc.1
        have hn' := hn
        obtain ⟨j, x, hj, rfl, -⟩ := hn
        cases hj
        cases hw : (nodeAt s i).sample with
        | none => rfl
        | some w => exact absurd hw (h _ w (hi ▸ hn') hc.2)
      · rfl

theorem formEnd_requests (w : State) : RequestLaw (formGrants (formShed (formGroups (formLevels w)))) := by
  set u := formShed (formGroups (formLevels w)) with hu
  have hlw : LastFrom w u := formEnd_last w
  have hw : LastFrom (formLevels w) u := (formGroups_last _).trans (formShed_last _)
  have huch : u.water.channels = (formLevels w).water.channels := by
    rw [hu]
    have : ∀ c t, (setShed c t).water = t.water := fun c t => by
      unfold setShed
      split
      · rfl
      · unfold postDetail
        split <;> rfl
    show (formShed _).water.channels = _
    unfold formShed
    dsimp only
    split
    · rw [this]; rfl
    · rfl
  clear_value u
  have hlf := formGrants_last u
  have hT : (formGrants u).power.loads = (passLoads (takeRequests u).power.shed (takeRequests u).mgmt.site.budget
      (takeRequests u).power.loads).2 := rfl
  have hasked := passLoads_frame (takeRequests u).power.shed (takeRequests u).mgmt.site.budget (takeRequests u).power.loads
  rw [← hT] at hasked
  intro i l hl
  have h1 := congrArg (fun x : List (Nat × Nat × Nat × Option Nat × Nat) => x[i]?) hasked
  have h2 : (takeRequests u).power.loads[i]? = u.power.loads[i]?.map (fun l => { l with request := requestOf u i l }) := by
    simp only [takeRequests, mapIx_getElem?, Nat.zero_add]
  simp only [List.getElem?_map, hl, h2, Option.map_some, Option.map_map] at h1
  cases h0 : u.power.loads[i]? with
  | none => simp [h0] at h1
  | some l0 =>
    simp only [h0, Option.map_some, Function.comp, Load.asked, Option.some.injEq, Prod.mk.injEq] at h1
    obtain ⟨-, -, hfull, hnode, hreq⟩ := h1
    have hq : l.request = requestOf u i l0 := hreq
    have hfull' : l.fullDraw = l0.fullDraw := hfull
    have hnode' : l.node = l0.node := hnode
    refine ⟨fun hi => ?_, fun hi hi2 => ?_, fun hi => ?_⟩
    · rw [hq]
      unfold requestOf
      rw [if_pos hi]
      unfold channelAt
      rw [List.getD_eq_getElem?_getD, List.getD_eq_getElem?_getD]
      have e : (formGrants u).water.channels[i]?
          = (u.water.channels[i]?).map (formLevel (deliverGroups (allocate (takeRequests u))) i) :=
        formLevels_getElem? _ i
      rw [e, huch, formLevels_getElem?]
      cases w.water.channels[i]? with
      | none => rfl
      | some c0 =>
        simp only [Option.map_some, Option.getD_some]
        have hv : LastFrom w (deliverGroups (allocate (takeRequests u))) :=
          ((hlw.trans (takeRequests_last _)).trans (allocate_last _)).trans (deliverGroups_last _)
        exact (formLevel_reqDraw i c0 hv.later.base.nodes hv.later.base.mgmt hv.zone hv.later.rain hv.later.pond
          hv.later.players (valveCommanded_congr hv.stages i) (hv.fullDraw i)).symm
    · rw [hq]
      unfold requestOf
      rw [if_neg (by omega), if_pos hi2]
      unfold groupAt
      rw [List.getD_eq_getElem?_getD, List.getD_eq_getElem?_getD, formGrants_light?]
      cases u.light[i - 8]? with
      | none => rfl
      | some g => exact (deliverGroup_reqDraw ..).symm
    · have := dockRequest_law u l0
      have hq' : l.request = dockRequest u l0 := by
        rw [hq]
        unfold requestOf
        rw [if_neg (by omega), if_neg (by omega)]
      unfold LiveNode nodeAt at *
      rw [hlf.later.base.nodes, hq', hfull', hnode']
      exact this

theorem sumRequests_congr {p : Load → Bool} (q : Nat × Nat × Nat × Option Nat × Nat → Bool) (hp : ∀ l, p l = q l.asked)
    {ls ls' : List Load} (h : ls.map Load.asked = ls'.map Load.asked) : sumRequests p ls = sumRequests p ls' := by
  have e : ∀ x : List Load, sumRequests p x = (((x.map Load.asked).filter q).map (fun a => a.2.2.2.2)).sum := fun x => by
    have : p = q ∘ Load.asked := funext hp
    rw [this, sumRequests, List.filter_map, List.map_map]
    rfl
  rw [e, e, h]

/-- What a class is granted rests on the loads' asked fields alone. -/
theorem classGrant_congr {ls ls' : List Load} (h : ls.map Load.asked = ls'.map Load.asked) (shed : Bool) (R k : Nat)
    (l : Load) : classGrant shed ls R k l = classGrant shed ls' R k l := by
  have h1 : ∀ k, sumRequests (Load.inClass k) ls = sumRequests (Load.inClass k) ls' := fun k =>
    sumRequests_congr (fun a => a.1 == k && (decide (1 ≤ a.2.2.2.2) && decide (a.2.1 ≤ a.2.2.2.2))) (fun _ => rfl) h
  have h2 : ∀ S, sumRequests (included k R S) ls = sumRequests (included k R S) ls' := fun S =>
    sumRequests_congr
      (fun a => (a.1 == k && (decide (1 ≤ a.2.2.2.2) && decide (a.2.1 ≤ a.2.2.2.2))) && decide (a.2.1 ≤ a.2.2.2.2 * R / S))
      (fun _ => rfl) h
  unfold classGrant
  dsimp only
  rw [h1, h2]

/-- The grants of the classes below `k`. -/
def below (k : Nat) (ls : List Load) : Nat := ((ls.filter (fun l => decide (l.cls < k))).map Load.grant).sum

/-- A pass from `budget` after the classes below `k`: each of them has its grant from what the classes before it left. -/
def PassDone (shed : Bool) (budget k : Nat) (x : Nat × List Load) : Prop :=
  x.1 + below k x.2 = budget
    ∧ ∀ l ∈ x.2, l.cls < k → l.grant = classGrant shed x.2 (budget - below l.cls x.2) l.cls l

theorem serveClass_below (shed : Bool) (R k j : Nat) (hj : j ≤ k) (ls : List Load) :
    below j (serveClass shed R k ls) = below j ls := by
  unfold below serveClass
  generalize classGrant shed ls R k = g
  induction ls with
  | nil => rfl
  | cons l ls ih =>
    simp only [List.map_cons, List.filter_cons]
    by_cases hk : l.cls = k
    · have : ¬ l.cls < j := by omega
      simp only [hk, if_true, decide_eq_true_eq]
      rw [if_neg (by omega), if_neg (by omega), ih]
    · simp only [hk, if_false]
      split
      · simp [ih]
      · exact ih

theorem below_succ (k : Nat) (ls : List Load) : below (k + 1) ls = below k ls + classSum k ls := by
  unfold below classSum
  rw [sum_filter_eq, sum_filter_eq, sum_filter_eq]
  induction ls with
  | nil => rfl
  | cons l ls ih =>
    simp only [decide_eq_true_eq, beq_iff_eq] at ih
    simp only [List.map_cons, List.sum_cons, ih, decide_eq_true_eq, beq_iff_eq]
    rcases Nat.lt_trichotomy l.cls k with h | h | h
    · rw [if_pos (by omega), if_pos h, if_neg (by omega)]; omega
    · rw [if_pos (by omega), if_neg (by omega), if_pos h]; omega
    · rw [if_neg (by omega), if_neg (by omega), if_neg (by omega)]; omega

theorem passClass_done {shed : Bool} {budget k : Nat} {x : Nat × List Load} (h : PassDone shed budget k x) :
    PassDone shed budget (k + 1) (passClass shed k x) := by
  obtain ⟨hs, hb⟩ := h
  have hfr := serveClass_frame shed x.1 k x.2
  have hle : classSum k (serveClass shed x.1 k x.2) ≤ x.1 := by
    have := classGrant_sum shed x.2 x.1 k
    refine le_trans (le_of_eq ?_) this
    unfold classSum serveClass
    generalize classGrant shed x.2 x.1 k = g
    generalize x.2 = ls
    induction ls with
    | nil => rfl
    | cons l ls ih =>
      by_cases hk : l.cls = k
      · simp only [List.map_cons, hk, if_true, List.filter_cons, beq_self_eq_true, List.sum_cons, ih]
      · simp only [List.map_cons, hk, if_false, List.filter_cons, beq_iff_eq, ih]
  refine ⟨?_, fun l hl hlt => ?_⟩
  · simp only [passClass]
    rw [below_succ, serveClass_below shed x.1 k k (le_refl _)]
    omega
  · simp only [passClass] at hl ⊢
    rw [classGrant_congr hfr, serveClass_below shed x.1 k l.cls (by omega)]
    unfold serveClass at hl
    rw [List.mem_map] at hl
    obtain ⟨l0, hl0, rfl⟩ := hl
    by_cases hk : l0.cls = k
    · subst hk
      simp only [if_true]
      have : budget - below l0.cls x.2 = x.1 := by omega
      rw [this]
      rfl
    · simp only [hk, if_false] at hlt ⊢
      exact hb l0 hl0 (by omega)

theorem passLoads_done (shed : Bool) (budget : Nat) (ls : List Load) :
    PassDone shed budget 4 (passLoads shed budget ls) := by
  refine passClass_done (passClass_done (passClass_done (passClass_done ⟨?_, fun l _ h => absurd h (Nat.not_lt_zero _)⟩)))
  simp [below]

theorem formGrants_grants (s : State) : GrantLaw (formGrants s) := by
  have hd := passLoads_done s.power.shed s.mgmt.site.budget (takeRequests s).power.loads
  have hi := passLoads_inv s.power.shed s.mgmt.site.budget (takeRequests s).power.loads
  have h1 : (formGrants s).power.loads = (passLoads s.power.shed s.mgmt.site.budget (takeRequests s).power.loads).2 := rfl
  have h2 : (formGrants s).power.remainder = (passLoads s.power.shed s.mgmt.site.budget (takeRequests s).power.loads).1 := rfl
  have h3 : (formGrants s).mgmt.site.budget = s.mgmt.site.budget := rfl
  have h4 : (formGrants s).power.shed = s.power.shed := rfl
  unfold GrantLaw
  rw [h1, h2, h3, h4]
  clear h1 h2 h3 h4
  generalize passLoads s.power.shed s.mgmt.site.budget (takeRequests s).power.loads = x at *
  generalize s.power.shed = shed at *
  generalize s.mgmt.site.budget = budget at *
  refine ⟨hi.1, fun l hl hk => ?_⟩
  have hg := hd.2 l hl (by omega)
  dsimp only
  change l.grant = classGrant shed x.2 (budget - below l.cls x.2) l.cls l at hg
  change (_ → _ → _) ∧ _
  set R := budget - below l.cls x.2 with hR
  have hR' : budget - ((x.2.filter (fun y => decide (y.cls < l.cls))).map Load.grant).sum = R := rfl
  rw [hR']
  clear_value R
  have hin : ∀ y : Load, decide (y.cls = l.cls ∧ 1 ≤ y.request ∧ y.minDraw ≤ y.request) = y.inClass l.cls := fun y => by
    unfold Load.inClass Load.eligible
    by_cases h1 : y.cls = l.cls <;> simp [h1]
  have hin2 : decide (True ∧ 1 ≤ l.request ∧ l.minDraw ≤ l.request) = l.inClass l.cls := by rw [← hin l]; simp
  simp only [hin, hin2]
  have hS : ((x.2.filter (fun y => y.inClass l.cls)).map Load.request).sum = sumRequests (Load.inClass l.cls) x.2 := rfl
  rw [hS]
  set S := sumRequests (Load.inClass l.cls) x.2 with hSd
  have hst : ∀ y : Load, (y.inClass l.cls && decide (y.minDraw ≤ y.request * R / S)) = included l.cls R S y := fun y => rfl
  simp only [hst]
  have hS' : ((x.2.filter (fun y => included l.cls R S y)).map Load.request).sum = sumRequests (included l.cls R S) x.2 := rfl
  rw [hS']
  set S' := sumRequests (included l.cls R S) x.2 with hSd'
  have hgr : l.grant = if shed && decide (2 ≤ l.cls) then 0
      else if !(l.inClass l.cls) then 0 else if S ≤ R then l.request else if S' = S then firstShare R S l
      else if included l.cls R S l then secondShare R S' l else 0 := hg
  refine ⟨fun h h2 => ?_, fun hns => ⟨fun h => ?_, fun h hle => ?_, fun h hlt hall => ?_, fun h hlt hex => ?_⟩⟩
  · rw [hgr, h]; simp [h2]
  all_goals
    have hs0 : (shed && decide (2 ≤ l.cls)) = false := by
      rcases hns with h | h
      · rw [h]; rfl
      · simp [h]
    rw [hs0] at hgr
    simp only [h, Bool.not_true, Bool.not_false, if_true, if_false, Bool.false_eq_true] at hgr
  · exact hgr
  · rw [hgr, if_pos hle]
  · rw [hgr, if_neg (by omega), if_pos]
    · rfl
    · rw [hSd', hSd]
      unfold sumRequests
      congr 2
      apply List.filter_congr
      intro y hy
      cases hy2 : y.inClass l.cls with
      | true => exact hall y hy hy2
      | false => simp [included, hy2]
  · have hne : S' ≠ S := by
      obtain ⟨y, hy, hy1, hy2⟩ := hex
      have fewer : ∀ T, included l.cls R T y = false →
          sumRequests (included l.cls R T) x.2 < sumRequests (Load.inClass l.cls) x.2 := by
        intro T hT
        unfold sumRequests
        rw [sum_filter_eq, sum_filter_eq]
        apply List.sum_lt_sum
        · intro z _
          by_cases hz : z.inClass l.cls <;> simp [included, hz]
          split <;> omega
        · refine ⟨y, hy, ?_⟩
          rw [hT, hy1]
          have : 1 ≤ y.request := by
            unfold Load.inClass Load.eligible at hy1
            simp only [Bool.and_eq_true, decide_eq_true_eq] at hy1
            exact hy1.2.1
          simpa using by omega
      exact ne_of_lt (fewer S hy2)
    rw [hgr, if_neg (by omega), if_neg hne]
    unfold secondShare
    dsimp only
    by_cases hinc : included l.cls R S l = true
    · simp only [hinc, if_true, true_and]
      split
      · rw [if_neg (by omega)]
      · rw [if_pos (by omega)]
    · simp [hinc]

/-! ### The shed state -/

theorem supplyUsable_iff (s : State) : supplyUsable s = true ↔ ∃ n, LiveNode s s.mgmt.site.supply .supply n :=
  LiveNode_iff s _ _

theorem foldback_iff (s : State) :
    foldback s = true ↔ ∃ n, LiveNode s s.mgmt.site.supply .supply n ∧ n.code = some 2 := by
  unfold foldback
  rw [beq_iff_eq, liveCode_iff]

theorem ShedLaw.congr {s t : State} (h : ShedLaw s) (hn : t.nodes = s.nodes) (hm : t.mgmt = s.mgmt)
    (hs : t.power.shed = s.power.shed) (hr : t.power.run = s.power.run) : ShedLaw t := by
  unfold ShedLaw LiveNode nodeAt at *
  rw [hn, hm, hs, hr]
  exact h

theorem setShed_shed (c : ShedCause) (s : State) : (setShed c s).power.shed = true := by
  unfold setShed postDetail
  split
  · assumption
  · split <;> rfl

theorem setShed_run (c : ShedCause) (s : State) : (setShed c s).power.run = s.power.run := by
  unfold setShed postDetail
  split
  · rfl
  · split <;> rfl

theorem formShed_law (s : State) : ShedLaw (formShed s) := by
  have hrun : (formShed s).power.run = if supplyUsable s then s.power.run else 0 := by
    unfold formShed
    dsimp only
    split
    · rw [setShed_run]; rfl
    · rfl
  have hl := formShed_last s
  have hn : (formShed s).nodes = s.nodes := hl.later.base.nodes
  have hm : (formShed s).mgmt = s.mgmt := hl.later.base.mgmt
  have hlive : ∀ n, LiveNode (formShed s) (formShed s).mgmt.site.supply .supply n
      ↔ LiveNode s s.mgmt.site.supply .supply n := by
    intro n
    unfold LiveNode nodeAt
    rw [hn, hm]
  refine ⟨fun h => ?_, fun n h hc => ?_⟩
  · rw [hrun, if_neg]
    rw [supplyUsable_iff]
    rintro ⟨n, hu⟩
    exact h n ((hlive n).mpr hu)
  · have hf : foldback (dropRun s) = true := (foldback_iff s).mpr ⟨n, (hlive n).mp h, hc⟩
    unfold formShed
    dsimp only
    rw [if_pos hf]
    exact setShed_shed _ _

/-! ### Rounds -/

/-- The values of the results, as their rules give them. -/
structure ResultLaws (s : State) : Prop where
  zones : ZoneResultLaw s
  channels : ChannelLaw s
  groups : GroupLaw s
  requests : RequestLaw s
  grants : GrantLaw s
  shed : ShedLaw s

theorem formGrants_channels (w : State) : ChannelLaw (formGrants w) := formLevels_channels (deliverGroups _)

theorem round_end (s : State) : ∃ w, round false s = formGrants (formShed (formGroups (formLevels w))) := by
  rw [round_eq]
  unfold formResults
  exact ⟨_, rfl⟩

theorem round_results (s : State) : ResultLaws (round false s) := by
  have hz := round_zones s
  obtain ⟨w, hw⟩ := round_end s
  rw [hw] at hz ⊢
  exact ⟨hz, formGrants_channels _, formEnd_groups _, formEnd_requests w, formGrants_grants _,
    (formShed_law _).congr (formGrants_last _).later.base.nodes (formGrants_last _).later.base.mgmt rfl rfl⟩

theorem rounds_results (n : Nat) (s : State) : ResultLaws (rounds false n s) := rounds_last round_results n s

/-! ### Step 9 of a load -/

/-- The test of R112 moves channels alone. -/
theorem formStarts_channels (s : State) : (formStarts s).power = s.power ∧ (formStarts s).light = s.light := by
  refine eachIx_keeps (P := fun t => t.power = s.power ∧ t.light = s.light) (fun i t h => ?_) 8 ⟨rfl, rfl⟩
  unfold cycleStart
  dsimp only
  split
  · exact h
  · split
    · exact h
    · exact h

/-- The pass of step 9 allocates over the loaded records and the requests handed before it (R148, R172). -/
theorem loadPass_power (x : Tables) (u : State) (hu : u.power.loads.length = 28) (hx : x.loads.length = 28) :
    let asked := fun (i : Nat) (l : LoadImage) =>
      let a : Load :=
        { cls := l.cls, minDraw := l.minDraw, fullDraw := l.fullDraw, node := l.node, request := 0, grant := 0 }
      { a with
        request :=
          if i < 8 then (channelAt (formLevels (formMonitors false u)) i).reqDraw
          else if i < 24 then (groupAt u (i - 8)).reqDraw else dockRequest u a }
    ((loadPass x u).power.remainder, (loadPass x u).power.loads)
      = passLoads u.power.shed u.mgmt.site.budget (mapIx asked 0 x.loads) := by
  intro asked
  have hp : (loadPass x u).power = (formGrants (loadLoads x (formLevels (formMonitors false u)))).power :=
    (formStarts_channels _).1
  rw [hp]
  show passLoads u.power.shed u.mgmt.site.budget _ = _
  unfold passLoads
  refine congrArg (fun l => passClass _ 3 (passClass _ 2 (passClass _ 1 (passClass _ 0 (_, l))))) ?_
  show List.map _ (mapIx _ 0 (mapIx _ 0 u.power.loads)) = _
  apply List.ext_getElem?
  intro i
  simp only [List.getElem?_map, mapIx_getElem?, Nat.zero_add, Option.map_map]
  by_cases hi : i < 28
  · rw [List.getElem?_eq_getElem (show i < u.power.loads.length by omega), List.getElem?_eq_getElem (show i < x.loads.length by omega)]
    simp only [Option.map_some, Function.comp_apply, Option.some.injEq]
    rfl
  · rw [List.getElem?_eq_none (by omega), List.getElem?_eq_none (by omega)]
    rfl

theorem deliverGroups_at (s : State) {j : Nat} (hj : j < s.light.length) :
    groupAt (deliverGroups s) j = deliverGroup s j (groupAt s j) := by
  simp [groupAt, deliverGroups, List.getD_eq_getElem?_getD, mapIx_getElem?, List.getElem?_eq_getElem hj]

/-- What a delivered grant makes of a group (R133). -/
theorem deliverGroup_result (s : State) (j : Nat) (g : LightGroup) :
    let cap := capLevel (loadAt s (8 + j)).fullDraw (loadAt s (8 + j)).grant
    (deliverGroup s j g).cap = cap ∧ (deliverGroup s j g).current ≤ cap ∧ (deliverGroup s j g).reqDraw = g.reqDraw := by
  intro cap
  unfold deliverGroup
  dsimp only
  refine
    ⟨(reaim_frame ..).2.2.2.2.2.2.2.2.2.1.trans ?_, (reaim_bound false _ cap _ (min_le_right _ _) ?_).1,
      (reaim_frame ..).2.2.2.2.2.2.2.2.1.trans ?_⟩
  · split <;> rfl
  · split
    · exact le_refl _
    · next h => exact Nat.le_of_not_lt h
  · split <;> rfl

/-- The pass of step 9 leaves each light group at or below the cap level it delivers, its request as it stood (R133, R148). -/
theorem loadPass_lights (x : Tables) (u : State) (hl : u.light.length = 16) (j : Nat) (hj : j < 16) :
    let w := loadPass x u
    (groupAt w j).cap = capLevel (loadAt w (8 + j)).fullDraw (loadAt w (8 + j)).grant
      ∧ (groupAt w j).current ≤ (groupAt w j).cap ∧ (groupAt w j).reqDraw = (groupAt u j).reqDraw := by
  intro w
  have hs := formStarts_channels (formGrants (loadLoads x (formLevels (formMonitors false u))))
  have hg : groupAt w j
      = groupAt (deliverGroups (allocate (takeRequests (loadLoads x (formLevels (formMonitors false u)))))) j :=
    congrArg (fun l : List LightGroup => l.getD j LightGroup.blank) hs.2
  have hp : loadAt w (8 + j)
      = loadAt (allocate (takeRequests (loadLoads x (formLevels (formMonitors false u))))) (8 + j) :=
    congrArg (fun p : Power => p.loads.getD (8 + j) Load.blank) hs.1
  have h := deliverGroup_result (allocate (takeRequests (loadLoads x (formLevels (formMonitors false u))))) j (groupAt u j)
  rw [hg, hp, deliverGroups_at _ (hl.symm ▸ hj)]
  exact ⟨h.1, h.2.1.trans h.1.symm.le, h.2.2⟩

end Sys2Proof.Machine
end

