-- ==== Sys2Proof/Laws/Follow.lean ====
section
/-! SUPPORT. What a round does besides forming results: the presence and the levels of the light groups, the shed state,
the notices; and what of it a whole handling keeps. -/

namespace Sys2Proof.Machine

/-! ### What each part leaves alone -/

theorem cycleStep_frame (i : Nat) (s : State) :
    cycleStep i s
      = { s with
          water := { s.water with channels := (cycleStep i s).water.channels }
          notices := (cycleStep i s).notices } := by
  unfold cycleStep
  dsimp only
  cases (channelAt s i).cfg with
  | none => rfl
  | some r =>
    dsimp only
    cases (channelAt s i).stage <;> dsimp only
    case restoring | aborting => split <;> rfl
    case stopping | reversing | washing | rinsing =>
      cases abortCause s (channelAt s i) r with
      | some k => rfl
      | none => dsimp only; split <;> rfl

theorem formCycles_frame (s : State) :
    formCycles s
      = { s with
          water := { s.water with channels := (formCycles s).water.channels }
          notices := (formCycles s).notices } := by
  unfold formCycles
  refine eachIx_keeps
    (P := fun t => t = { s with water := { s.water with channels := t.water.channels }, notices := t.notices })
    (fun i t h => ?_) 8 rfl
  rw [cycleStep_frame i t, h]

theorem postEntries_frame (a b : List (List Nat)) (s : State) :
    postEntries a b s = { s with notices := (postEntries a b s).notices } := by
  unfold postEntries
  refine eachIx_keeps (P := fun t => t = { s with notices := t.notices }) (fun z t h => ?_) 32 rfl
  refine eachIx_keeps (P := fun u => u = { s with notices := u.notices }) (fun m u hu => ?_) 4 h
  split
  · rw [hu]
    rfl
  · exact hu

/-- The part of a round before the light groups. -/
def formEarlier (s : State) : State :=
  formLevels (formKeepouts (formCycles (formMonitors false (formOccupancy (formConditions s)))))

theorem round_parts (s : State) : round false s = formGrants (formShed (formGroups (formEarlier s))) := by
  rw [round_eq]
  unfold formResults formEarlier
  rfl

theorem formConditions_frame (s : State) :
    (formConditions s).light = s.light ∧ (formConditions s).power = s.power ∧ (formConditions s).zone = s.zone := by
  have h : (postUnknown s.water.pond (pondNow s) s).light = s.light
      ∧ (postUnknown s.water.pond (pondNow s) s).power = s.power
      ∧ (postUnknown s.water.pond (pondNow s) s).zone = s.zone := by
    unfold postUnknown
    split <;> exact ⟨rfl, rfl, rfl⟩
  exact h

theorem formCycles_later (s : State) : LaterFrom s (formCycles s) := .eachIx cycleStep_later 8 s

theorem formEarlier_later (s : State) : LaterFrom (formOccupancy (formConditions s)) (formEarlier s) := by
  unfold formEarlier
  generalize formOccupancy (formConditions s) = u
  exact (((formMonitors_later false u).trans (formCycles_later _)).trans (formKeepouts_later _)).trans
    (formLevels_last _).later

theorem formKeepouts_frame (s : State) : (formKeepouts s).light = s.light ∧ (formKeepouts s).power = s.power := by
  unfold formKeepouts
  dsimp only
  rw [postEntries_frame]
  exact ⟨rfl, rfl⟩

theorem formCycles_light (s : State) : (formCycles s).light = s.light ∧ (formCycles s).power = s.power := by
  rw [formCycles_frame]
  exact ⟨rfl, rfl⟩

theorem formLevels_rest (s : State) : (formLevels s).light = s.light ∧ (formLevels s).power = s.power := ⟨rfl, rfl⟩

theorem formMonitors_light (s : State) :
    (formMonitors false s).light = s.light ∧ (formMonitors false s).power = s.power := ⟨rfl, rfl⟩

theorem formOccupancy_light (s : State) :
    (formOccupancy s).power = s.power
      ∧ (formOccupancy s).light
        = mapIx (fun i g => g.handed (s.zone.presence.getD i false) ((formOccupancy s).zone.presence.getD i false)) 0
            s.light := ⟨rfl, rfl⟩

theorem formEarlier_frame (s : State) :
    (formEarlier s).power = s.power
      ∧ (formEarlier s).light
        = mapIx
            (fun i g => g.handed (s.zone.presence.getD i false) ((formEarlier s).zone.presence.getD i false)) 0 s.light := by
  obtain ⟨c1, c2, c3⟩ := formConditions_frame s
  rw [(formEarlier_later s).presence]
  unfold formEarlier
  rw [(formLevels_rest _).1, (formLevels_rest _).2, (formKeepouts_frame _).1, (formKeepouts_frame _).2,
    (formCycles_light _).1, (formCycles_light _).2, (formMonitors_light _).1, (formMonitors_light _).2,
    (formOccupancy_light _).1, (formOccupancy_light _).2, c1, c2, c3]
  exact ⟨rfl, rfl⟩

/-! ### Light groups -/

/-- What presence and the evening phase rest on. -/
def LightGroup.input (g : LightGroup) : Option LightRec × Presence × Nat × Evening × Bool :=
  (g.cfg, g.presence, g.hold, g.evening, g.dark)

/-- The move of presence and of the evening phase in a round. -/
def LightGroup.moved (before after source dark : Bool) (g : LightGroup) : LightGroup :=
  let g' := g.handed before after
  let h := { g' with dark := dark, evening := if dark && !g'.dark then .early else g'.evening }
  match h.cfg with
  | none => h
  | some r => presenceMove source r.presHold h

/-- Some source of group `i` holds. -/
def sourceAt (s : State) (i : Nat) (g : LightGroup) : Bool := g.cfg.any (sourceHolds s i)

theorem presenceMove_input (b : Bool) (n : Nat) {g h : LightGroup} (e : g.input = h.input) :
    (presenceMove b n g).input = (presenceMove b n h).input := by
  simp only [LightGroup.input, Prod.mk.injEq] at e
  obtain ⟨e1, e2, e3, e4, e5⟩ := e
  unfold presenceMove
  rw [e2]
  cases h.presence <;> cases b <;> dsimp only <;> (try split) <;> simp [LightGroup.input, *]

theorem handed_input (a b : Bool) {g h : LightGroup} (e : g.input = h.input) :
    (g.handed a b).input = (h.handed a b).input := by
  have e' := e
  simp only [LightGroup.input, Prod.mk.injEq] at e
  obtain ⟨e1, e2, e3, e4, e5⟩ := e
  unfold LightGroup.handed
  rw [e1]
  cases h.cfg <;> cases a <;> cases b <;> simp [LightGroup.input, *]

/-- The move rests on no more, and made twice it is made once. -/
theorem moved_input (a b c d : Bool) {g h : LightGroup} (e : g.input = h.input) :
    (g.moved a b c d).input = (h.moved a b c d).input := by
  have e' := handed_input a b e
  unfold LightGroup.moved
  dsimp only
  generalize g.handed a b = g' at e'
  generalize h.handed a b = h' at e'
  have e'' := e'
  simp only [LightGroup.input, Prod.mk.injEq] at e''
  obtain ⟨e1, e2, e3, e4, e5⟩ := e''
  rw [e1, e4, e5]
  cases hc : h'.cfg with
  | none => simp [LightGroup.input, e2, e3]
  | some r =>
    dsimp only
    apply presenceMove_input
    simp [LightGroup.input, e2, e3]

theorem moved_twice (a b c d : Bool) (g : LightGroup) :
    ((g.moved a b c d).moved b b c d).input = (g.moved a b c d).input := by
  obtain ⟨cfg, on, dark, eve, pres, hold, sch, tgt, aim, cur, acc, rq, cap⟩ := g
  cases cfg with
  | none => cases a <;> cases b <;> cases d <;> simp [LightGroup.moved, LightGroup.handed, LightGroup.input]
  | some r =>
    by_cases h0 : r.presHold = 0 <;> cases pres <;> cases c <;> cases d <;>
      simp [LightGroup.moved, LightGroup.handed, LightGroup.input, presenceMove, h0]

theorem reaim_input (fresh : Bool) (a : Nat) (g : LightGroup) : (g.reaim fresh a).input = g.input := by
  obtain ⟨-, h2, h3, h4, h5, -⟩ := reaim_frame fresh a g
  simp only [LightGroup.input, reaim_cfg, h2, h3, h4, h5]

theorem formGroup_input (s : State) (i : Nat) (g : LightGroup) : (formGroup s i g).input = (formInputs s i g).input := by
  unfold formGroup
  dsimp only
  rw [reaim_input]
  unfold LightGroup.settleOnline
  split <;> rfl

theorem deliverGroup_input (s : State) (i : Nat) (g : LightGroup) : (deliverGroup s i g).input = g.input := by
  unfold deliverGroup
  dsimp only
  rw [reaim_input]
  split <;> rfl

theorem sourceAt_some (s : State) (i : Nat) {g : LightGroup} {r : LightRec} (h : g.cfg = some r) :
    sourceAt s i g = sourceHolds s i r := by
  unfold sourceAt
  rw [h, Option.any_some]

theorem sourceAt_congr {s t : State} (hn : t.nodes = s.nodes) (hp : t.zone.presence = s.zone.presence) (i : Nat)
    (g : LightGroup) : sourceAt t i g = sourceAt s i g := by
  unfold sourceAt sourceHolds
  simp only [hp, liveCode_congr hn]

theorem darkNow_congr {s t : State} (hn : t.nodes = s.nodes) (hm : t.mgmt = s.mgmt) (b : Bool) :
    darkNow t b = darkNow s b := by
  unfold darkNow
  rw [hm, liveCode_congr hn]

theorem formInputs_moved (s : State) (i : Nat) (a : Bool) (g : LightGroup) :
    (formInputs s i (g.handed a (s.zone.presence.getD i false))).input
      = (g.moved a (s.zone.presence.getD i false) (sourceAt s i g) (darkNow s (g.mode == .off))).input := by
  have hc : (g.handed a (s.zone.presence.getD i false)).cfg = g.cfg := handed_cfg ..
  have hmode : (g.handed a (s.zone.presence.getD i false)).mode = g.mode := by simp only [LightGroup.mode, hc]
  unfold formInputs LightGroup.moved sourceAt
  dsimp only
  rw [hmode]
  generalize g.handed a (s.zone.presence.getD i false) = h at hc
  rw [hc]
  cases hg : g.cfg with
  | none => simp [LightGroup.input]
  | some r =>
    dsimp only
    exact presenceMove_input _ _ rfl

theorem formGrants_loads (s : State) : loadAt (formGrants s) = loadAt (allocate (takeRequests s)) := rfl

theorem formGroups_getElem? (s : State) (i : Nat) : (formGroups s).light[i]? = s.light[i]?.map (formGroup s i) := by
  simp only [formGroups, mapIx_getElem?, Nat.zero_add]

/-- A round in the light groups, one by one. -/
theorem round_group (s : State) (i : Nat) :
    ∃ A, (round false s).light[i]?
        = s.light[i]?.map
            (fun g => deliverGroup A i (formGroup (formEarlier s) i
              (g.handed (s.zone.presence.getD i false) ((formEarlier s).zone.presence.getD i false))))
      ∧ loadAt (round false s) = loadAt A := by
  refine ⟨allocate (takeRequests (formShed (formGroups (formEarlier s)))), ?_, by rw [round_parts, formGrants_loads]⟩
  rw [round_parts, formGrants_light?, formShed_light, formGroups_getElem?]
  generalize allocate (takeRequests (formShed (formGroups (formEarlier s)))) = A
  have h : (formEarlier s).light[i]?
      = s.light[i]?.map
          (fun g => g.handed (s.zone.presence.getD i false) ((formEarlier s).zone.presence.getD i false)) := by
    conv_lhs => rw [(formEarlier_frame s).2, mapIx_getElem?, Nat.zero_add]
  rw [h]
  cases s.light[i]? <;> simp

theorem formEarlier_round (s : State) : LaterFrom (formEarlier s) (round false s) := by
  rw [round_parts]
  exact (((formGroups_last _).trans (formShed_last _)).trans (formGrants_last _)).later

/-- The presence, the hold, the phase and the darkness of a group after a round. -/
theorem round_input (s : State) (i : Nat) (hi : i < s.light.length) :
    (groupAt (round false s) i).input
      = ((groupAt s i).moved (s.zone.presence.getD i false) ((round false s).zone.presence.getD i false)
          (sourceAt (round false s) i (groupAt s i)) (darkNow s ((groupAt s i).mode == .off))).input := by
  obtain ⟨A, hA, -⟩ := round_group s i
  have hl := formEarlier_round s
  have hs := round_settled false s
  have hn : (formEarlier s).nodes = s.nodes := hl.base.nodes.symm.trans hs.nodes
  have hm : (formEarlier s).mgmt = s.mgmt := hl.base.mgmt.symm.trans hs.mgmt
  rw [hl.presence, sourceAt_congr hl.base.nodes hl.presence]
  simp only [groupAt, List.getD_eq_getElem?_getD, hA]
  rw [List.getElem?_eq_getElem hi]
  simp only [Option.map_some, Option.getD_some]
  rw [deliverGroup_input, formGroup_input, ← List.getD_eq_getElem?_getD, ← List.getD_eq_getElem?_getD, formInputs_moved,
    darkNow_congr hn hm]

/-- The zone presence flags rest on the zones and the mowers. -/
theorem formOccupancy_presence {s t : State} (hz : t.zone.zones = s.zone.zones) (hp : t.pos = s.pos) :
    (formOccupancy t).zone.presence = (formOccupancy s).zone.presence := by
  have h1 : zoneAt t = zoneAt s := funext fun i => by simp only [zoneAt, hz]
  have h2 : mowerAt t = mowerAt s := funext fun i => by simp only [mowerAt, hp]
  have h3 : loopAt t = loopAt s := funext fun i => by simp only [loopAt, hp]
  have h4 : occupancySets t = occupancySets s := by
    unfold occupancySets occupancySet
    rw [h1, h2, h3]
  have h5 : presenceOf t = presenceOf s := by
    funext c g
    unfold presenceOf
    rw [h1]
  unfold formOccupancy
  dsimp only
  rw [h4, h5]

theorem round_presence {s t : State} (h : SettledFrom s t) :
    (round false t).zone.presence = (round false s).zone.presence := by
  have hs := formConditions_settled s
  have ht := formConditions_settled t
  rw [(round_later t).presence, (round_later s).presence]
  exact formOccupancy_presence (ht.zones.trans (h.zones.trans hs.zones.symm)) (ht.pos.trans (h.pos.trans hs.pos.symm))

theorem nextRound_light (s : State) :
    (nextRound s).light = (round false s).light ∧ (nextRound s).power = (round false s).power := by
  obtain ⟨h, -, -⟩ := formStarts_follow (round false s)
  rw [nextRound_eq]
  generalize round false s = u at h
  rw [h]
  exact ⟨rfl, rfl⟩

/-- Further rounds leave the presence, the hold, the phase and the darkness as the first has made them. -/
theorem rounds_input (n : Nat) (s : State) (i : Nat) (hi : i < s.light.length) :
    (groupAt (rounds false n s) i).input = (groupAt (round false s) i).input := by
  classical
  induction n generalizing s with
  | zero => rfl
  | succ n ih =>
    rw [rounds_succ]
    split
    · rfl
    · have hs := nextRound_settled s
      have hi' : i < (nextRound s).light.length := by
        have := congrArg List.length hs.lights
        simp only [List.length_map] at this
        omega
      have hl := (nextRound_light s).1
      have hg : groupAt (nextRound s) i = groupAt (round false s) i := by simp only [groupAt, hl]
      have hp := round_presence hs
      have hq := (nextRound_later s).presence
      have hn : (round false (nextRound s)).nodes = (round false s).nodes := by
        rw [(round_settled false _).nodes, hs.nodes, (round_settled false s).nodes]
      have h0 := round_input s i hi
      have hcfg : (groupAt (round false s) i).cfg = (groupAt s i).cfg := by
        simp only [groupAt]
        exact map_getD LightGroup.cfg (round_settled false s).lights i LightGroup.blank
      have hmode : (groupAt (round false s) i).mode = (groupAt s i).mode := by simp only [LightGroup.mode, hcfg]
      have hsrc : sourceAt (round false s) i (groupAt (round false s) i) = sourceAt (round false s) i (groupAt s i) := by
        unfold sourceAt
        rw [hcfg]
      rw [ih (nextRound s) hi', round_input (nextRound s) i hi', hg, hmode, hq, hp, sourceAt_congr hn hp, hsrc,
        darkNow_congr hs.nodes hs.mgmt, moved_input _ _ _ _ h0, moved_twice, ← h0]

theorem rounds_presence (n : Nat) (s : State) :
    (rounds false n s).zone.presence = (round false s).zone.presence := by
  classical
  induction n generalizing s with
  | zero => rfl
  | succ n ih =>
    rw [rounds_succ]
    split
    · rfl
    · exact (ih _).trans (round_presence (nextRound_settled s))

/-- What the move gives, case by case. -/
theorem moved_cases (before after source dark : Bool) (g h : LightGroup)
    (e : h.input = (g.moved before after source dark).input) :
    (∀ r, g.cfg = some r →
        (source = true → h.presence = .active ∧ h.hold = if g.presence = .holding then 0 else g.hold)
          ∧ (¬ source = true → g.presence = .active → r.presHold ≠ 0 → h.presence = .holding ∧ h.hold = r.presHold)
          ∧ (¬ source = true → g.presence = .active → r.presHold = 0 → h.presence = .inactive ∧ h.hold = 0)
          ∧ (¬ source = true → g.presence ≠ .active → h.presence = g.presence ∧ h.hold = g.hold))
      ∧ (g.cfg = none →
        (¬ after = true → h.presence = .inactive ∧ h.hold = 0)
          ∧ (after = true → before = false → h.presence = .active ∧ h.hold = g.hold)
          ∧ (after = true → before = true → h.presence = g.presence ∧ h.hold = g.hold))
      ∧ (g.dark = false → h.dark = true → h.evening = .early)
      ∧ ((g.dark = true ∨ h.dark = false) → h.evening = g.evening) := by
  obtain ⟨cfg, on, drk, eve, pres, hold, sch, tgt, aim, cur, acc, rq, cap⟩ := g
  simp only [LightGroup.input, Prod.mk.injEq] at e
  obtain ⟨e1, e2, e3, e4, e5⟩ := e
  rw [e2, e3, e4, e5]
  clear e1 e2 e3 e4 e5
  cases cfg with
  | none =>
    cases before <;> cases after <;> cases dark <;> cases drk <;> simp [LightGroup.moved, LightGroup.handed]
  | some r =>
    by_cases h0 : r.presHold = 0 <;> cases pres <;> cases source <;> cases dark <;> cases drk <;>
      simp [LightGroup.moved, LightGroup.handed, presenceMove, h0]

theorem settle_groupsFollow (s : State) : GroupsFollow s (settle s) := by
  intro i hi
  have h := rounds_input 40 s i hi
  rw [← settle_eq, round_input s i hi] at h
  have hf := rounds_settled false 40 s
  rw [← settle_eq] at hf
  have hr := round_settled false s
  have hp : (settle s).zone.presence = (round false s).zone.presence := by
    rw [settle_eq]
    exact rounds_presence 40 s
  have hn : (settle s).nodes = (round false s).nodes := hf.nodes.trans hr.nodes.symm
  rw [← hp, ← sourceAt_congr hn hp] at h
  obtain ⟨h1, h2, h3, h4⟩ := moved_cases _ _ _ _ _ _ h
  refine ⟨fun r hg => ?_, h2, h3, h4⟩
  have h1 := h1 r hg
  rw [sourceAt_some _ i hg] at h1
  generalize settle s = t at h1 ⊢
  dsimp only
  rw [← source_iff]
  exact h1

/-! ### Levels of the light groups -/

theorem reaim_reaimed (fresh : Bool) (a : Nat) (g : LightGroup) (r : LightRec) (hr : g.cfg = some r)
    (ho : g.online = true) :
    reaimed r (fresh = true) g.aim a (g.current, g.acc) ((g.reaim fresh a).current, (g.reaim fresh a).acc) := by
  have hl : g.leaps fresh a r = true
      ↔ (r.upInt = 0 ∧ r.upFrac = 0 ∧ g.current < a ∧ (fresh = true ∨ g.aim < a))
        ∨ (r.downInt = 0 ∧ r.downFrac = 0 ∧ a < g.current ∧ a < g.aim) := by
    unfold LightGroup.leaps
    simp only [Bool.or_eq_true, Bool.and_eq_true, beq_iff_eq, decide_eq_true_eq, and_assoc]
  have hs : senseLost g.aim a g.current = true
      ↔ (g.current < g.aim ∧ a < g.current) ∨ (g.aim < g.current ∧ g.current < a) ∨ a = g.current := by
    unfold senseLost
    simp only [Bool.or_eq_true, Bool.and_eq_true, beq_iff_eq, decide_eq_true_eq, or_assoc]
  unfold reaimed LightGroup.reaim
  dsimp only
  rw [← hl, ← hs, hr, ho]
  refine ⟨fun h => ?_, fun h h' => ?_, fun h h' => ?_⟩
  · simp [h]
  · simp [h, h']
  · simp [h, h']

/-- What the forming of the inputs of a group leaves alone. -/
theorem formInputs_levels (s : State) (i : Nat) (g : LightGroup) :
    (formInputs s i g).current = g.current ∧ (formInputs s i g).acc = g.acc ∧ (formInputs s i g).aim = g.aim
      ∧ (formInputs s i g).cap = g.cap := by
  unfold formInputs
  cases g.cfg with
  | none => exact ⟨rfl, rfl, rfl, rfl⟩
  | some r =>
    dsimp only
    unfold presenceMove
    dsimp only
    split
    case h_4 => split <;> exact ⟨rfl, rfl, rfl, rfl⟩
    all_goals exact ⟨rfl, rfl, rfl, rfl⟩

/-- The levels of an online group after the forming of its results. -/
theorem formGroup_levels (s : State) (i : Nat) (g : LightGroup) (r : LightRec) (hr : g.cfg = some r)
    (ho : (formGroup s i g).online = true) :
    reaimed r (g.online = false) g.aim (min (formGroup s i g).target g.cap) (g.current, g.acc)
        ((formGroup s i g).current, (formGroup s i g).acc)
      ∧ (formGroup s i g).aim = min (formGroup s i g).target g.cap := by
  obtain ⟨h1, h2, h3, h4⟩ := formInputs_levels s i g
  obtain ⟨hc, -⟩ := formInputs_frame s i g
  unfold formGroup at ho ⊢
  dsimp only at ho ⊢
  generalize formInputs s i g = f at *
  obtain ⟨b2, -, -, -, -, -, b7, b8, -⟩ := reaim_frame (f.online && !g.online)
    (min (targetOf (scheduledOf s f) f) f.cap)
    (({ f with scheduled := scheduledOf s f, target := targetOf (scheduledOf s f) f } : LightGroup).settleOnline
      (loadAt s (8 + i)).fullDraw)
  have hset : ∀ (x : LightGroup) (d : Nat), (x.settleOnline d).online = x.online ∧ (x.settleOnline d).target = x.target
      ∧ (x.settleOnline d).cfg = x.cfg ∧ (x.settleOnline d).aim = x.aim
      ∧ (x.online = true → (x.settleOnline d).current = x.current ∧ (x.settleOnline d).acc = x.acc) := by
    intro x d
    unfold LightGroup.settleOnline
    cases x.online <;> simp
  rw [b2, (hset _ _).1] at ho
  obtain ⟨c1, c2, c3, c4, c5⟩ := hset { f with scheduled := scheduledOf s f, target := targetOf (scheduledOf s f) f }
    (loadAt s (8 + i)).fullDraw
  obtain ⟨c5, c6⟩ := c5 ho
  have hre := reaim_reaimed (f.online && !g.online) (min (targetOf (scheduledOf s f) f) f.cap) _ r
    (c3.trans (hc.trans hr)) (c1.trans ho)
  have e : ((f.online && !g.online) = true) = (g.online = false) := by
    dsimp only at ho
    rw [ho]
    simp
  rw [e, c4, c5, c6] at hre
  rw [b7, b8, c2, ← h1, ← h2, ← h3, ← h4]
  exact ⟨hre, rfl⟩

/-- The levels of an online group after the delivery of its grant. -/
theorem deliverGroup_levels (s : State) (i : Nat) (g : LightGroup) (r : LightRec) (hr : g.cfg = some r)
    (ho : g.online = true) :
    ∃ q : Nat × Nat, ((deliverGroup s i g).cap < g.current → q = ((deliverGroup s i g).cap, 0))
      ∧ (g.current ≤ (deliverGroup s i g).cap → q = (g.current, g.acc))
      ∧ reaimed r False g.aim (min g.target (deliverGroup s i g).cap) q
          ((deliverGroup s i g).current, (deliverGroup s i g).acc) := by
  have hf : ((false : Bool) = true) = False := by simp
  unfold deliverGroup
  dsimp only
  split
  · next h =>
    have hre := reaim_reaimed false (min g.target (capLevel (loadAt s (8 + i)).fullDraw (loadAt s (8 + i)).grant))
      { g with
        cap := capLevel (loadAt s (8 + i)).fullDraw (loadAt s (8 + i)).grant
        current := capLevel (loadAt s (8 + i)).fullDraw (loadAt s (8 + i)).grant, acc := 0 } r hr ho
    rw [hf] at hre
    have hcap := fun a (x : LightGroup) => (reaim_frame false a x).2.2.2.2.2.2.2.2.2.1
    simp only [hcap]
    exact ⟨_, fun _ => rfl, fun h' => absurd h (Nat.not_lt.mpr h'), hre⟩
  · next h =>
    have hre := reaim_reaimed false (min g.target (capLevel (loadAt s (8 + i)).fullDraw (loadAt s (8 + i)).grant))
      { g with cap := capLevel (loadAt s (8 + i)).fullDraw (loadAt s (8 + i)).grant } r hr ho
    rw [hf] at hre
    have hcap := fun a (x : LightGroup) => (reaim_frame false a x).2.2.2.2.2.2.2.2.2.1
    simp only [hcap]
    exact ⟨_, fun h' => absurd h' h, fun _ => rfl, hre⟩

theorem deliverGroup_frame (s : State) (i : Nat) (g : LightGroup) :
    (deliverGroup s i g).online = g.online ∧ (deliverGroup s i g).target = g.target := by
  unfold deliverGroup
  dsimp only
  obtain ⟨b2, -, -, -, -, -, b7, -⟩ := reaim_frame false
    (min g.target (capLevel (loadAt s (8 + i)).fullDraw (loadAt s (8 + i)).grant))
    (if capLevel (loadAt s (8 + i)).fullDraw (loadAt s (8 + i)).grant < g.current then
      { g with
        cap := capLevel (loadAt s (8 + i)).fullDraw (loadAt s (8 + i)).grant
        current := capLevel (loadAt s (8 + i)).fullDraw (loadAt s (8 + i)).grant, acc := 0 }
    else { g with cap := capLevel (loadAt s (8 + i)).fullDraw (loadAt s (8 + i)).grant })
  rw [b2, b7]
  split <;> exact ⟨rfl, rfl⟩

theorem round_levels (s : State) : LevelsFollow s (round false s) := by
  intro i hi
  dsimp only
  obtain ⟨A, hA, -⟩ := round_group s i
  have hlaw := (round_results s).groups
  have hg : s.light[i]? = some (groupAt s i) := by
    rw [groupAt, List.getD_eq_getElem?_getD, List.getElem?_eq_getElem hi, Option.getD_some]
  have hat : groupAt (round false s) i
      = deliverGroup A i (formGroup (formEarlier s) i ((groupAt s i).handed (s.zone.presence.getD i false)
          ((formEarlier s).zone.presence.getD i false))) := by
    conv_lhs => rw [groupAt, List.getD_eq_getElem?_getD, hA, hg]
    rw [Option.map_some, Option.getD_some]
  refine ⟨fun h => ?_, fun r h hr => ?_⟩
  · have hmem : (round false s).light[i]? = some (groupAt (round false s) i) := by
      rw [hat, hA, hg, Option.map_some]
    exact (hlaw i _ hmem).2.2.2.2.2.2 h
  · have hh : (groupAt s i).handed (s.zone.presence.getD i false) ((formEarlier s).zone.presence.getD i false)
        = groupAt s i := by
      unfold LightGroup.handed
      simp [hr]
    rw [hh] at hat
    generalize round false s = t at *
    generalize formEarlier s = w at *
    generalize groupAt s i = g at *
    rw [hat] at h ⊢
    obtain ⟨f1, f2⟩ := deliverGroup_frame A i (formGroup w i g)
    rw [f1] at h
    obtain ⟨l1, l2⟩ := formGroup_levels w i g r hr h
    have hc : (formGroup w i g).cfg = some r := (formGroup_cfg w i g).trans hr
    obtain ⟨q, q1, q2, q3⟩ := deliverGroup_levels A i (formGroup w i g) r hc h
    rw [f2]
    rw [l2] at q3
    exact ⟨_, q, l1, q1, q2, q3⟩

/-! ### The shed state -/

theorem formShed_power (s : State) :
    (formShed s).power.run = (if supplyUsable s then s.power.run else 0)
      ∧ (foldback s = true → s.power.shed = false →
        (formShed s).power.shed = true ∧ (formShed s).power.cause = some .foldback)
      ∧ ((foldback s = false ∨ s.power.shed = true) →
        (formShed s).power.shed = s.power.shed ∧ (formShed s).power.cause = s.power.cause) := by
  have hf : foldback (dropRun s) = foldback s := rfl
  have hs : (dropRun s).power.shed = s.power.shed := rfl
  have hset : ∀ c u, (setShed c u).power.run = u.power.run
      ∧ (u.power.shed = false → (setShed c u).power.shed = true ∧ (setShed c u).power.cause = some c)
      ∧ (u.power.shed = true → setShed c u = u) := by
    intro c u
    unfold setShed postDetail
    cases h : u.power.shed <;> cases hm : u.power.measured <;> simp [post]
  obtain ⟨s1, s2, s3⟩ := hset .foldback (dropRun s)
  rw [hs] at s2 s3
  unfold formShed
  dsimp only
  rw [hf]
  cases hfb : foldback s with
  | false => simp [dropRun]
  | true =>
    simp only [if_true]
    refine ⟨s1, fun _ h => s2 h, fun h => ?_⟩
    rw [s3 (by simpa using h)]
    exact ⟨rfl, rfl⟩

theorem formGrants_shed (s : State) :
    (formGrants s).power.run = s.power.run ∧ (formGrants s).power.shed = s.power.shed
      ∧ (formGrants s).power.cause = s.power.cause := ⟨rfl, rfl, rfl⟩

theorem ShedFollow.trans {s t u : State} (hn : t.nodes = s.nodes) (hm : t.mgmt = s.mgmt) (a : ShedFollow s t)
    (b : ShedFollow t u) : ShedFollow s u := by
  unfold ShedFollow LiveNode nodeAt at *
  rw [hn, hm] at b
  dsimp only at *
  obtain ⟨a1, a2, a3, a4⟩ := a
  obtain ⟨b1, b2, b3, b4⟩ := b
  refine ⟨fun h1 h2 => ?_, fun h => ?_, fun h => (b3 h).trans (a3 h), b4⟩
  · obtain ⟨c1, c2⟩ := a1 h1 h2
    obtain ⟨d1, d2⟩ := b2 (.inr c1)
    exact ⟨d1.trans c1, d2.trans c2⟩
  · obtain ⟨c1, c2⟩ := a2 h
    obtain ⟨d1, d2⟩ := b2 (h.imp id (fun h => c1.trans h))
    exact ⟨d1.trans c1, d2.trans c2⟩

theorem ShedFollow.congr {s t u : State} (h : ShedFollow s t) (hp : u.power = t.power) : ShedFollow s u := by
  unfold ShedFollow at *
  rw [hp]
  exact h

theorem round_shed (s : State) : ShedFollow s (round false s) := by
  obtain ⟨h1, h2, h3⟩ := formShed_power (formGroups (formEarlier s))
  have hn : (formGroups (formEarlier s)).nodes = s.nodes :=
    ((formGroups_last _).later.base.nodes.trans (formEarlier_round s).base.nodes.symm).trans (round_settled false s).nodes
  have hm : (formGroups (formEarlier s)).mgmt = s.mgmt :=
    ((formGroups_last _).later.base.mgmt.trans (formEarlier_round s).base.mgmt.symm).trans (round_settled false s).mgmt
  have hf : foldback (formGroups (formEarlier s)) = foldback s := by
    unfold foldback
    rw [hm, liveCode_congr hn]
  have hu : supplyUsable (formGroups (formEarlier s)) = supplyUsable s := by
    unfold supplyUsable
    rw [hm, activeOf_congr hn]
  rw [formGroups_power, (formEarlier_frame s).1] at h1 h2 h3
  rw [hf] at h2 h3
  rw [hu] at h1
  obtain ⟨g1, g2, g3⟩ := formGrants_shed (formShed (formGroups (formEarlier s)))
  rw [← round_parts] at g1 g2 g3
  rw [← g1] at h1
  rw [← g2, ← g3] at h2 h3
  generalize round false s = t at *
  refine ⟨fun h => h2 ((foldback_iff s).mpr h), fun h => h3 (h.imp (fun h => ?_) id), fun h => ?_, fun h => ?_⟩
  · rw [← Bool.not_eq_true, foldback_iff]
    exact h
  · rw [h1, if_pos ((supplyUsable_iff s).mpr h)]
  · rw [h1, if_neg]
    rw [supplyUsable_iff]
    rintro ⟨n, hn⟩
    exact h n hn

theorem rounds_shed (n : Nat) (s : State) : ShedFollow s (rounds false n s) := by
  classical
  induction n generalizing s with
  | zero => exact round_shed s
  | succ n ih =>
    rw [rounds_succ]
    split
    · exact round_shed s
    · have hs := nextRound_settled s
      exact ShedFollow.trans hs.nodes hs.mgmt ((round_shed s).congr (nextRound_light s).2) (ih _)

theorem settle_shedFollow (s : State) : ShedFollow s (settle s) := rounds_shed 40 s

/-! ### Notices -/

/-- A list of notices joins the list of notices. -/
def Notices.joinAll (l : Notices) (ns : List Notice) : Notices := ns.foldl (fun l n => l.join n) l

theorem post_notices (k : NoticeKind) (x : Option Nat) (d : Nat) (s t : State) (hm : s.mgmt = t.mgmt)
    (hl : s.line = t.line) : (post k x d s).notices = s.notices.join (noticeNow t k x d) := by
  simp only [post, noticeNow, minuteStamp, hm, hl]

/-- What a cycle that ends in a round posts. -/
def endedNotice (x y : State) (i : Nat) : Option Notice :=
  match (channelAt x i).stage, (channelAt y i).stage with
  | .restoring, .idle => some (noticeNow x .backwashDone (some i) (channelAt y i).count)
  | .aborting, .idle => some (noticeNow x .backwashAborted (some i) (channelAt y i).cause)
  | _, _ => none

theorem cycleStep_notices (i : Nat) (s : State) :
    (cycleStep i s).notices = s.notices.joinAll (endedNotice s (cycleStep i s) i).toList := by
  cases hr : (channelAt s i).cfg with
  | none =>
    have h : cycleStep i s = s := by
      unfold cycleStep
      dsimp only
      rw [hr]
    rw [h]
    unfold endedNotice
    cases (channelAt s i).stage <;> rfl
  | some r =>
    have hset : ∀ f : Channel → Channel, channelAt (setChannel i f s) i = f (channelAt s i) := fun f =>
      channelAt_setChannel_self i f s r hr
    have hpost : ∀ k x d u, channelAt (post k x d u) i = channelAt u i := fun _ _ _ _ => rfl
    unfold cycleStep endedNotice
    dsimp only
    rw [hr]
    dsimp only
    cases hst : (channelAt s i).stage <;> dsimp only
    case restoring =>
      split
      · simp only [cycleDone, hpost, hset, Channel.idle]
        exact post_notices _ _ _ _ s rfl rfl
      · rw [hst]
        rfl
    case aborting =>
      split
      · simp only [cycleAborted, hpost, hset, Channel.idle]
        exact post_notices _ _ _ _ s rfl rfl
      · rw [hst]
        rfl
    case stopping | reversing | washing | rinsing =>
      cases abortCause s (channelAt s i) r with
      | some k => rfl
      | none => dsimp only; split <;> rfl
    all_goals rfl

/-- The cycles in increasing channel index: each posts by its own stages. -/
theorem cycles_notices (l : List Nat) (hl : l.Nodup) (s : State) :
    (l.foldl (fun t j => cycleStep j t) s).notices
      = s.notices.joinAll (l.filterMap (endedNotice s (l.foldl (fun t j => cycleStep j t) s))) := by
  have keep : ∀ (l : List Nat) (u : State) (i : Nat), i ∉ l →
      channelAt (l.foldl (fun t j => cycleStep j t) u) i = channelAt u i := by
    intro l
    induction l with
    | nil => exact fun u i _ => rfl
    | cons j l ih =>
      intro u i hi
      rw [List.foldl_cons, ih _ i (fun h => hi (.tail _ h)), cycleStep_other j i u (fun h => hi (h ▸ .head _))]
  induction l generalizing s with
  | nil => rfl
  | cons j l ih =>
    rw [List.nodup_cons] at hl
    rw [List.foldl_cons, ih hl.2, cycleStep_notices]
    have hb := (cycleStep_later j s).base
    have h1 : endedNotice s (l.foldl (fun t j => cycleStep j t) (cycleStep j s)) j = endedNotice s (cycleStep j s) j := by
      unfold endedNotice
      rw [keep l (cycleStep j s) j hl.1]
    have h2 : ∀ y, ∀ i ∈ l, endedNotice (cycleStep j s) y i = endedNotice s y i := by
      intro y i hi
      unfold endedNotice noticeNow
      rw [cycleStep_other j i s (fun h => hl.1 (h ▸ hi)), hb.mgmt, hb.line]
    rw [List.filterMap_cons, h1, List.filterMap_congr (h2 _)]
    unfold Notices.joinAll
    cases endedNotice s (cycleStep j s) j <;> simp

/-- The zones that join a keepout set, in the order in which they are posted. -/
def entryNotices (s : State) (a b : List (List Nat)) : List Notice :=
  (List.range 32).flatMap
    (fun z => (List.range 4).filterMap
      (fun m => if z ∈ b.getD m [] ∧ z ∉ a.getD m [] then some (noticeNow s .keepoutEntry (some m) z) else none))

theorem foldl_notices (f : Nat → State → State) (g : Nat → List Notice) (s : State)
    (h : ∀ i u, u.mgmt = s.mgmt → u.line = s.line →
      (f i u).mgmt = s.mgmt ∧ (f i u).line = s.line ∧ (f i u).notices = u.notices.joinAll (g i))
    (l : List Nat) (u : State) (hm : u.mgmt = s.mgmt) (hl : u.line = s.line) :
    (l.foldl (fun t i => f i t) u).mgmt = s.mgmt ∧ (l.foldl (fun t i => f i t) u).line = s.line
      ∧ (l.foldl (fun t i => f i t) u).notices = u.notices.joinAll (l.flatMap g) := by
  induction l generalizing u with
  | nil => exact ⟨hm, hl, rfl⟩
  | cons i l ih =>
    obtain ⟨h1, h2, h3⟩ := h i u hm hl
    obtain ⟨g1, g2, g3⟩ := ih (f i u) h1 h2
    refine ⟨g1, g2, ?_⟩
    rw [List.foldl_cons, g3, h3, List.flatMap_cons]
    unfold Notices.joinAll
    rw [List.foldl_append]

theorem postEntries_notices (a b : List (List Nat)) (s : State) :
    (postEntries a b s).notices = s.notices.joinAll (entryNotices s a b) := by
  unfold postEntries entryNotices eachIx
  refine (foldl_notices _ _ s (fun z u hm hl => ?_) (List.range 32) s rfl rfl).2.2
  rw [List.filterMap_eq_flatMap_toList]
  refine foldl_notices _ _ s (fun m w hm hl => ?_) _ u hm hl
  simp only [Bool.and_eq_true, Bool.not_eq_true', List.contains_eq_mem, decide_eq_true_eq, decide_eq_false_iff_not]
  by_cases h : z ∈ b.getD m [] ∧ z ∉ a.getD m []
  · rw [if_pos h, if_pos h]
    exact ⟨hm, hl, post_notices _ _ _ _ s hm hl⟩
  · rw [if_neg h, if_neg h]
    exact ⟨hm, hl, rfl⟩

theorem formConditions_notices (s : State) :
    (formConditions s).notices
      = s.notices.joinAll
          (match s.water.pond, pondNow s with
            | some c, none => [noticeNow s .levelUnknown s.mgmt.site.level c]
            | _, _ => []) := by
  show (postUnknown s.water.pond (pondNow s) s).notices = _
  unfold postUnknown
  cases s.water.pond with
  | none => rfl
  | some c =>
    cases pondNow s with
    | none => exact post_notices _ _ _ _ s rfl rfl
    | some d => rfl

theorem formShed_notices (s : State) :
    ∃ detail, (∀ m, s.power.measured = some m → detail = m)
      ∧ (formShed s).notices
        = s.notices.joinAll
            (if (formShed s).power.shed = true ∧ s.power.shed = false then
              [noticeNow s .overloadShed s.mgmt.site.supply detail] else []) := by
  have hs : (dropRun s).power.shed = s.power.shed := rfl
  have hm : (dropRun s).power.measured = s.power.measured := rfl
  obtain ⟨-, h2, h3⟩ := formShed_power s
  cases hb : s.power.shed with
  | true =>
    refine ⟨s.power.measured.getD 0, fun m h => by rw [h]; rfl, ?_⟩
    simp only [Bool.true_eq_false, and_false, if_false]
    unfold formShed setShed
    dsimp only
    rw [hs, hb]
    split <;> rfl
  | false =>
    cases hf : foldback s with
    | false =>
      refine ⟨s.power.measured.getD 0, fun m h => by rw [h]; rfl, ?_⟩
      rw [(h3 (.inl hf)).1, hb]
      simp only [Bool.false_eq_true, false_and, if_false]
      unfold formShed
      dsimp only
      rw [show foldback (dropRun s) = false from hf]
      rfl
    | true =>
      rw [(h2 hf hb).1]
      unfold formShed setShed postDetail
      dsimp only
      rw [show foldback (dropRun s) = true from hf, hs, hb, hm]
      cases hd : s.power.measured with
      | some m =>
        refine ⟨m, fun k hk => Option.some.inj hk, ?_⟩
        exact post_notices _ _ _ _ s rfl rfl
      | none =>
        refine ⟨(Config.freeDetail (dropRun s).free).toNat, nofun, ?_⟩
        exact post_notices _ _ _ _ s rfl rfl

theorem formGrants_notices (s : State) : (formGrants s).notices = s.notices := rfl

theorem formKeepouts_notices (s : State) :
    (formKeepouts s).notices = s.notices.joinAll (entryNotices s s.zone.keep (formKeepouts s).zone.keep) := by
  have h : (formKeepouts s).zone.keep = keepoutSets s := rfl
  rw [h]
  exact postEntries_notices _ _ s

theorem entryNotices_congr {s t : State} (hm : t.mgmt = s.mgmt) (hl : t.line = s.line) (a b : List (List Nat)) :
    entryNotices t a b = entryNotices s a b := by
  unfold entryNotices noticeNow
  rw [hm, hl]

theorem formCycles_notices (s : State) :
    (formCycles s).notices = s.notices.joinAll ((List.range 8).filterMap (endedNotice s (formCycles s))) :=
  cycles_notices (List.range 8) (List.nodup_range) s

theorem roundNotices_eq (x y : State) (detail : Nat) :
    roundNotices x y detail
      = (match x.water.pond, y.water.pond with
          | some c, none => [noticeNow x .levelUnknown x.mgmt.site.level c]
          | _, _ => [])
        ++ (List.range 8).filterMap (endedNotice x y) ++ entryNotices x x.zone.keep y.zone.keep
        ++ if y.power.shed = true ∧ x.power.shed = false then
            [noticeNow x .overloadShed x.mgmt.site.supply detail] else [] := rfl

/-- The monitors bring no cycle out of RESTORING or ABORTING, nor into them. -/
theorem formMonitors_stage (s : State) (i : Nat) :
    (channelAt (formMonitors false s) i).stage = (channelAt s i).stage
      ∨ ((channelAt s i).stage = .idle ∧ (channelAt (formMonitors false s) i).stage = .requested) := by
  have hm : ∀ c : Channel, (c.monitored s).stage = c.stage := by
    intro c
    unfold Channel.monitored
    split <;> rfl
  have ha : ∀ c : Channel, c.autoRequest.stage = c.stage ∨ (c.stage = .idle ∧ c.autoRequest.stage = .requested) := by
    intro c
    unfold Channel.autoRequest
    cases c.cfg with
    | none => exact .inl rfl
    | some r =>
      dsimp only
      split
      · next h =>
        simp only [Bool.and_eq_true, beq_iff_eq] at h
        exact .inr ⟨h.2, rfl⟩
      · exact .inl rfl
  simp only [channelAt, formMonitors, List.getD_eq_getElem?_getD, List.getElem?_map]
  cases s.water.channels[i]? with
  | none => exact .inl rfl
  | some c =>
    simp only [Option.map_some, Option.getD_some, Bool.false_eq_true, if_false]
    have := ha (c.monitored s)
    rwa [hm] at this

theorem endedNotice_congr {s t x y : State} (hm : t.mgmt = s.mgmt) (hl : t.line = s.line) (i : Nat)
    (hx : (channelAt t i).stage = (channelAt s i).stage
      ∨ ((channelAt s i).stage = .idle ∧ (channelAt t i).stage = .requested))
    (hy : (channelAt y i).cycle = (channelAt x i).cycle) : endedNotice t x i = endedNotice s y i := by
  have h1 : (channelAt y i).stage = (channelAt x i).stage := congrArg Cycle.stage hy
  have h2 : (channelAt y i).count = (channelAt x i).count := congrArg Cycle.count hy
  have h3 : (channelAt y i).cause = (channelAt x i).cause := congrArg Cycle.cause hy
  unfold endedNotice noticeNow
  rw [h1, h2, h3, hm, hl]
  rcases hx with hx | ⟨hx, hx'⟩
  · rw [hx]
  · rw [hx, hx']

/-- The part of a round before the shed state is formed: its notices. -/
theorem formEarlier_notices (s : State) :
    (formEarlier s).notices
      = ((s.notices.joinAll
          (match s.water.pond, (round false s).water.pond with
            | some c, none => [noticeNow s .levelUnknown s.mgmt.site.level c]
            | _, _ => [])).joinAll
          ((List.range 8).filterMap (endedNotice s (round false s)))).joinAll
          (entryNotices s s.zone.keep (round false s).zone.keep) := by
  have hsplit := round_split s
  have hp : (round false s).water.pond = pondNow s := by
    rw [(round_condition s).2.2, (round_settled false s).conditions.2.2]
  obtain ⟨-, -, c3⟩ := formConditions_frame s
  have hc := formConditions_settled s
  have ho := formOccupancy_settled (formConditions s)
  have hcn := formConditions_notices s
  have hos : ∀ i, channelAt (formOccupancy (formConditions s)) i = channelAt s i := fun i => rfl
  have hok : (formOccupancy (formConditions s)).zone.keep = (formConditions s).zone.keep := rfl
  have hon : (formOccupancy (formConditions s)).notices = (formConditions s).notices := rfl
  unfold formEarlier
  rw [hp]
  generalize round false s = t at *
  rw [c3] at hok
  rw [hcn] at hon
  have hum : (formOccupancy (formConditions s)).mgmt = s.mgmt := ho.mgmt.trans hc.mgmt
  have hul : (formOccupancy (formConditions s)).line = s.line := ho.line.trans hc.line
  generalize formOccupancy (formConditions s) = u at *
  clear hc ho hcn c3 hp
  have hmn : (formMonitors false u).notices = u.notices := rfl
  have hmk : (formMonitors false u).zone = u.zone := rfl
  have hml := formMonitors_later false u
  have hms : ∀ i, (channelAt (formMonitors false u) i).stage = (channelAt s i).stage
      ∨ ((channelAt s i).stage = .idle ∧ (channelAt (formMonitors false u) i).stage = .requested) := fun i => by
    rw [← hos i]
    exact formMonitors_stage u i
  have hmm : (formMonitors false u).mgmt = s.mgmt := hml.base.mgmt.trans hum
  have hmll : (formMonitors false u).line = s.line := hml.base.line.trans hul
  generalize formMonitors false u = v at *
  have hcl := formCycles_later v
  have hck : (formCycles v).zone = v.zone := by rw [formCycles_frame]
  have hy : ∀ i, (channelAt t i).cycle = (channelAt (formCycles v) i).cycle := fun i => by
    rw [hsplit.cycleEq i, formKeepouts_channel]
  have he : ∀ i ∈ List.range 8, endedNotice v (formCycles v) i = endedNotice s t i := fun i _ =>
    endedNotice_congr hmm hmll i (hms i) (hy i)
  have hz : (formKeepouts (formCycles v)).zone.keep = t.zone.keep := by rw [hsplit.zone]
  rw [formLevels_notices, formKeepouts_notices, formCycles_notices, hz,
    entryNotices_congr (hcl.base.mgmt.trans hmm) (hcl.base.line.trans hmll), hck, hmk, hok, hmn, hon,
    List.filterMap_congr he]

theorem round_notices (s : State) : NoticesFollow s (round false s) := by
  obtain ⟨d, hd, h⟩ := formShed_notices (formGroups (formEarlier s))
  obtain ⟨g1, g2, g3⟩ := formGrants_shed (formShed (formGroups (formEarlier s)))
  have hm : (formGroups (formEarlier s)).mgmt = s.mgmt :=
    ((formGroups_last _).later.base.mgmt.trans (formEarlier_round s).base.mgmt.symm).trans (round_settled false s).mgmt
  have hl : (formGroups (formEarlier s)).line = s.line :=
    ((formGroups_last _).later.base.line.trans (formEarlier_round s).base.line.symm).trans (round_settled false s).line
  rw [formGroups_power, (formEarlier_frame s).1] at hd
  rw [← g2, ← formGrants_notices (formShed (formGroups (formEarlier s))), ← round_parts, formGroups_power,
    (formEarlier_frame s).1, hm] at h
  have hs : noticeNow (formGroups (formEarlier s)) = noticeNow s := by
    funext k x e
    unfold noticeNow
    rw [hm, hl]
  rw [formGroups_notices, hs, formEarlier_notices] at h
  refine ⟨d, hd, ?_⟩
  rw [h, roundNotices_eq]
  generalize round false s = t
  unfold Notices.joinAll
  simp only [List.foldl_append]

end Sys2Proof.Machine
end

