-- ==== Sys2Proof/Laws/Layout.lean ====
section
/-! SUPPORT. The bytes of fields and of downstream fragments: what a field list spells, piece by piece, in the functions of
Layout. -/

namespace Sys2Proof.Machine

@[simp] theorem Fields.bytes_nil : Fields.bytes [] = [] := rfl

@[simp] theorem Fields.bytes_append (a b : Fields) : Fields.bytes (a ++ b) = a.bytes ++ b.bytes := List.flatMap_append

@[simp] theorem Fields.bytes_one (v : Option Nat) (fs : Fields) : Fields.bytes ((1, v) :: fs) = opt1 v ++ fs.bytes := by
  cases v <;> rfl

@[simp] theorem Fields.bytes_two (v : Option Nat) (fs : Fields) : Fields.bytes ((2, v) :: fs) = opt2 v ++ fs.bytes := by
  cases v <;> rfl

@[simp] theorem Fields.bytes_three (v : Option Nat) (fs : Fields) : Fields.bytes ((3, v) :: fs) = opt3 v ++ fs.bytes := by
  cases v <;> rfl

@[simp] theorem Fields.bytes_four (v : Nat) (fs : Fields) : Fields.bytes ((4, some v) :: fs) = beBytes 4 v ++ fs.bytes := rfl

@[simp] theorem opt1_some (v : Nat) : opt1 (some v) = b1 v := rfl

@[simp] theorem opt2_some (v : Nat) : opt2 (some v) = b2 v := rfl

@[simp] theorem opt3_some (v : Nat) : opt3 (some v) = b3 v := rfl

@[simp] theorem beBytes_length (n v : Nat) : (beBytes n v).length = n := by
  induction n generalizing v with
  | zero => rfl
  | succ n ih => rw [beBytes, List.length_append, ih, List.length_singleton]

/-- The length of an entry is the sum of the widths of its fields. -/
theorem Fields.bytes_length (fs : Fields) : fs.bytes.length = (fs.map Prod.fst).sum := by
  induction fs with
  | nil => rfl
  | cons f fs ih =>
    have h : Fields.bytes (f :: fs) = (f.2.map (beBytes f.1)).getD (List.replicate f.1 0xFF#8) ++ Fields.bytes fs := rfl
    rw [h]
    rcases f with ⟨n, _ | v⟩ <;> simp [ih]

@[simp] theorem places_two_bytes (l : List Nat) : (places 2 l).bytes = listBytes 2 l := by
  rcases l with _ | ⟨a, _ | ⟨b, l⟩⟩ <;> simp [places, List.range_succ, listBytes, opt1, ffs, b1, beBytes]

@[simp] theorem places_four_bytes (l : List Nat) : (places 4 l).bytes = listBytes 4 l := by
  rcases l with _ | ⟨a, _ | ⟨b, _ | ⟨c, _ | ⟨d, l⟩⟩⟩⟩ <;> simp [places, List.range_succ, listBytes, opt1, ffs, b1, beBytes]

@[simp] theorem recordFields_bytes {α : Type} (n : Nat) (form : α → Fields) (r : Option α) :
    (recordFields n form r).bytes = orEmpty n (fun x => (form x).bytes) r := by
  cases r
  · simp [recordFields, orEmpty, Fields.bytes, ffs]
  · rfl

/-- The sum of the flags' powers of two, read from a place on, is the nested form that flagsByte computes. -/
theorem bitsOf_from (l : List Bool) (k : Nat) :
    ((l.zipIdx k).map (fun f => if f.1 = true then 2 ^ f.2 else 0)).sum
      = 2 ^ k * l.foldr (fun f n => f.toNat + 2 * n) 0 := by
  induction l generalizing k with
  | nil => simp
  | cons a l ih =>
    rw [List.zipIdx_cons, List.map_cons, List.sum_cons, ih, pow_succ, List.foldr_cons, Nat.mul_add, Nat.mul_assoc]
    cases a <;> simp

@[simp] theorem bitsOf_byte (l : List Bool) : b1 (bitsOf l) = flagsByte l := by
  have h := bitsOf_from l 0
  rw [pow_zero, Nat.one_mul] at h
  exact congrArg b1 h

/-- The lead byte of an address is 80H plus that address (R174). -/
theorem leadByte_eq {address : Nat} (h : address < 64) : leadByte address = BitVec.ofNat 8 (128 + address) := by
  revert address
  decide

end Sys2Proof.Machine
end

