-- ==== Sys2Proof/Laws/Within.lean ====
section
/-! SUPPORT. What no handling changes unless the line, the queue or the part itself moves: the frame in progress, the
active slot map, the line counters, the request queue, the queue of commands. One lemma for each shared operation. -/

namespace Sys2Proof.Machine

/-- What the blocks and the request processor leave alone in every handling. -/
structure Within (s t : State) : Prop where
  mode : t.mode = s.mode
  pending : t.pending = s.pending
  frame : t.line.frame = s.line.frame
  active : t.line.active = s.line.active
  attention : t.line.attention = s.line.attention
  header : t.line.header = s.line.header
  down : t.line.down = s.line.down
  fragCount : t.line.fragCount = s.line.fragCount
  checkErrCount : t.line.checkErrCount = s.line.checkErrCount
  running : s.line.state = .running →
    t.line.state = .running ∧ t.line.breakCount = s.line.breakCount ∧ t.line.field = s.line.field
  queue : t.mgmt.queue = s.mgmt.queue
  heldReq : t.mgmt.heldReq = s.mgmt.heldReq

theorem Within.refl (s : State) : Within s s := by constructor <;> first | rfl | exact fun h => ⟨h, rfl, rfl⟩

theorem Within.trans {s t u : State} (a : Within s t) (b : Within t u) : Within s u :=
  ⟨b.mode.trans a.mode, b.pending.trans a.pending, b.frame.trans a.frame, b.active.trans a.active,
    b.attention.trans a.attention, b.header.trans a.header, b.down.trans a.down,
    b.fragCount.trans a.fragCount, b.checkErrCount.trans a.checkErrCount,
    fun h =>
      let x := a.running h
      let y := b.running x.1
      ⟨y.1, y.2.1.trans x.2.1, y.2.2.trans x.2.2⟩,
    b.queue.trans a.queue,
    b.heldReq.trans a.heldReq⟩

theorem Within.after {s t u : State} (b : Within t u) (a : Within s t) : Within s u := a.trans b

/-- An update that leaves the part, the line and the management state alone. -/
theorem Within.of {s t : State} (h1 : t.mode = s.mode) (h2 : t.pending = s.pending) (h3 : t.line = s.line)
    (h4 : t.mgmt = s.mgmt) : Within s t := by
  constructor <;> first | exact fun h => ⟨by rw [h3, h], by rw [h3], by rw [h3]⟩ | simp only [h1, h2, h3, h4]

theorem Within.eachIx {f : Nat → State → State} (hf : ∀ i t, Within t (f i t)) (n : Nat) (s : State) :
    Within s (eachIx f n s) :=
  eachIx_keeps (P := Within s) (fun i t h => h.trans (hf i t)) n (.refl s)

theorem SettledFrom.within {s t : State} (h : SettledFrom s t) : Within s t := by
  exact .of h.mode h.pending h.line h.mgmt

theorem settle_within (s : State) : Within s (settle s) := (rounds_settled false 40 s).within

theorem settleDeferred_within (s : State) : Within s (settleDeferred s) := (rounds_settled true 40 s).within

theorem post_within (k : NoticeKind) (x : Option Nat) (d : Nat) (s : State) : Within s (post k x d s) :=
  .of rfl rfl rfl rfl

theorem postDetail_within (k : NoticeKind) (x d : Option Nat) (s : State) : Within s (postDetail k x d s) :=
  (postDetail_last k x d s).later.base.within

theorem setNode_within (i : Nat) (f : Node → Node) (s : State) : Within s (setNode i f s) := .of rfl rfl rfl rfl
theorem setMower_within (i : Nat) (f : Mower → Mower) (s : State) : Within s (setMower i f s) := .of rfl rfl rfl rfl
theorem setChannel_within (i : Nat) (f : Channel → Channel) (s : State) : Within s (setChannel i f s) :=
  .of rfl rfl rfl rfl
theorem setPlayer_within (i : Nat) (f : Player → Player) (s : State) : Within s (setPlayer i f s) :=
  .of rfl rfl rfl rfl
theorem setGroup_within (i : Nat) (f : LightGroup → LightGroup) (s : State) : Within s (setGroup i f s) :=
  .of rfl rfl rfl rfl
theorem beginWrite_within (w : StoreWrite) (s : State) : Within s (beginWrite w s) := .of rfl rfl rfl rfl
theorem reportToMowers_within (n : Nat) (a b : Node) (s : State) : Within s (reportToMowers n a b s) :=
  .of rfl rfl rfl rfl

/-! ### Node table and position -/

theorem changeNode_within (n : Nat) (f : Node → Node) (s : State) : Within s (changeNode n f s) :=
  (settle_within _).after ((reportToMowers_within ..).after (setNode_within n f s))

theorem codeReport_within (n : Nat) (k : NodeKind) (old : Option Nat) (c : Nat) (s : State) :
    Within s (codeReport n k old c s) := by
  have latch : ∀ ks kind d i t, Within t (latchFault ks kind d n i t) := fun ks kind d i t => by
    unfold latchFault
    split
    · exact (post_within ..).after (setChannel_within ..)
    · exact .refl t
  unfold codeReport
  split
  · split
    · exact .eachIx (fun i t => by split; exacts [postDetail_within .., .refl t]) 4 s
    · exact .refl s
  · split
    · exact .refl s
    · exact .eachIx (latch _ _ _) 8 s
  · split
    · exact .eachIx (latch _ _ _) 8 s
    · exact .refl s
  · split
    · exact .refl s
    · exact .eachIx (fun i t => by split; exacts [post_within .., .refl t]) 16 s
  · split
    · exact post_within ..
    · exact .refl s
  all_goals exact .refl s

theorem spacingCheck_within (i : Nat) (l : LoopRec) (a b : Nat) (s : State) : Within s (spacingCheck i l a b s) := by
  have h : ∀ f d, Within s (post .referenceMismatch (some i) d (setMower i f s)) :=
    fun f d => (post_within ..).after (setMower_within i f s)
  unfold spacingCheck
  split
  · exact setMower_within ..
  · dsimp only
    split
    all_goals first
      | exact h _ _
      | exact (post_within ..).after ((setMower_within i Mower.lose _).after (h _ _))

theorem markerEvent_within (i : Nat) (l : LoopRec) (slip : Bool) (s : State) : Within s (markerEvent i l slip s) := by
  unfold markerEvent
  dsimp only
  split
  · exact setMower_within ..
  · split
    · exact .refl s
    · split
      · exact setMower_within ..
      · exact (spacingCheck_within ..).after (setMower_within ..)
      · exact .refl s

theorem askOffsetWrite_within (i : Nat) (l : LoopRec) (s : State) : Within s (askOffsetWrite i l s) := by
  unfold askOffsetWrite
  split
  · exact .refl s
  · split
    · exact beginWrite_within ..
    · exact setMower_within ..

theorem dockEvent_within (i : Nat) (l : LoopRec) (slip : Bool) (s : State) : Within s (dockEvent i l slip s) := by
  unfold dockEvent
  dsimp only
  split
  · exact .refl s
  · split
    · exact .refl s
    · exact (askOffsetWrite_within ..).after (setMower_within ..)

theorem ite_within {s a b : State} {c : Prop} [Decidable c] (ha : Within s a) (hb : Within s b) :
    Within s (if c then a else b) := by
  split <;> assumption

theorem mowerSample_within (i : Nat) (w : Content) (s : State) : Within s (mowerSample i w s) := by
  unfold mowerSample
  refine (setMower_within ..).after ?_
  refine ite_within ((dockEvent_within ..).after ?_) ?_
  all_goals
    refine ite_within ((markerEvent_within ..).after ?_) ?_
    all_goals exact ite_within ((post_within ..).after (setMower_within ..)) (setMower_within ..)

theorem formClogged_within (i : Nat) (s : State) : Within s (formClogged i s) := by
  unfold formClogged
  dsimp only
  split
  · exact setChannel_within ..
  · split
    · exact (post_within ..).after (setChannel_within ..)
    · exact setChannel_within ..

theorem handOver_within (n : Nat) (k : NodeKind) (w : Content) (s : State) : Within s (handOver n k w s) := by
  unfold handOver
  split
  · exact .eachIx (fun i t => by
      split
      · exact (settle_within _).after (mowerSample_within ..)
      · exact .refl t) 4 s
  · refine Within.trans (.eachIx (fun i t => ?_) 8 s) (settle_within _)
    split
    · unfold filterSample
      dsimp only
      split
      · exact (formClogged_within ..).after (setChannel_within ..)
      · exact .refl t
    · exact .refl t
  · split
    · refine Within.trans ?_ (settle_within _)
      unfold supplySample
      exact ite_within ((setShed_last ..).later.base.within.after (.of rfl rfl rfl rfl)) (.of rfl rfl rfl rfl)
    · exact .refl s
  all_goals exact .refl s

theorem goodSample_within (n : Nat) (noisy : Bool) (w : Content) (s : State) : Within s (goodSample n noisy w s) := by
  unfold goodSample
  split
  · exact .refl s
  · dsimp only
    refine (handOver_within ..).after ((settle_within _).after ?_)
    have h : ∀ a b f, Within s (reportToMowers n a b (setNode n f s)) := fun a b f =>
      (reportToMowers_within ..).after (setNode_within n f s)
    split
    · exact h _ _ _
    · split
      · exact h _ _ _
      · exact (codeReport_within ..).after (h _ _ _)

theorem giveAnswer_within (a : JoinAnswer) (s : State) : Within s (giveAnswer a s) := by constructor <;> first | rfl | exact fun h => ⟨h, rfl, rfl⟩

theorem unknownJoin_within (serial : Serial) (k : Nat) (s : State) : Within s (unknownJoin serial k s) := by
  unfold unknownJoin
  dsimp only
  split
  · exact .of rfl rfl rfl rfl
  · split
    · exact (post_within ..).after (.of rfl rfl rfl rfl)
    · exact .of rfl rfl rfl rfl

theorem refuseJoin_within (serial : Serial) (x : Option Nat) (k : Nat) (s : State) :
    Within s (refuseJoin serial x k s) := (post_within ..).after (giveAnswer_within ..)

theorem joinRecord_within (i : Nat) (x : NodeIdent) (b : Bool) (s : State) : Within s (joinRecord i x b s) :=
  (changeNode_within ..).after ((post_within ..).after (giveAnswer_within ..))

theorem joinNode_within (serial : Serial) (k : Nat) (s : State) : Within s (joinNode serial k s) := by
  unfold joinNode
  split
  · exact refuseJoin_within ..
  · split
    · exact unknownJoin_within ..
    · split
      · exact .refl s
      · split
        · exact refuseJoin_within ..
        · split
          · exact ite_within (giveAnswer_within ..) (joinRecord_within ..)
          · exact ite_within (giveAnswer_within ..) (joinRecord_within ..)
          all_goals exact joinRecord_within ..

/-! ### Entry writes -/

theorem ite_fst {s : State} {c : Prop} [Decidable c] {x y : State × Status} (hx : Within s x.1) (hy : Within s y.1) :
    Within s (if c then x else y).1 := by
  split <;> assumption

theorem kept {s t : State} {st : Status} (h : Within s t) : Within s ((t, st) : State × Status).1 := h

theorem settled_within {s t : State} (h : Within s t) : Within s (settle t) := (settle_within t).after h

theorem writeSlot_within (i : Nat) (w : Option SlotWrite) (s : State) : Within s (writeSlot i w s).1 := by
  have put : ∀ p, Within s (setNext i p s) := fun p => by constructor <;> first | rfl | exact fun h => ⟨h, rfl, rfl⟩
  unfold writeSlot
  refine ite_fst (kept (.refl s)) ?_
  cases w with
  | none => exact kept (put none)
  | some w => exact ite_fst (kept (.refl s)) (ite_fst (kept (.refl s)) (kept (put _)))

theorem writeNode_within (i : Nat) (w : Option NodeWrite) (s : State) : Within s (writeNode i w s).1 := by
  have drop : ∀ x, Within s (dropJoiner x s) := fun x => .of rfl rfl rfl rfl
  unfold writeNode
  refine ite_fst (kept (.refl s)) ?_
  cases w with
  | none => exact ite_fst (kept (.refl s)) (kept (changeNode_within ..))
  | some w =>
    dsimp only
    cases NodeKind.ofNumber w.kind with
    | none => exact kept (.refl s)
    | some k => exact ite_fst (kept (.refl s)) (ite_fst (kept (.refl s)) 
        (kept (ite_within (drop _) ((changeNode_within ..).after (drop _)))))

theorem writeJoiner_within (i : Nat) (b : Bool) (s : State) : Within s (writeJoiner i b s).1 :=
  ite_fst (kept (.refl s)) (ite_fst (kept (.refl s)) (kept (.of rfl rfl rfl rfl)))

theorem writeLoop_within (i : Nat) (w : Option LoopWrite) (s : State) : Within s (writeLoop i w s).1 := by
  have put : ∀ l u, Within u (setLoop i l u) := fun l u => .of rfl rfl rfl rfl
  have change : ∀ u, Within u (changeLoop i u) := fun u => .of rfl rfl rfl rfl
  unfold writeLoop
  refine ite_fst (kept (.refl s)) ?_
  cases w with
  | none => exact ite_fst (kept (.refl s)) (kept (settled_within ((change _).after (put _ _))))
  | some w =>
    dsimp only
    cases s.pos.loops.getD i none with
    | none => exact kept (settled_within (put _ _))
    | some old =>
      refine ite_fst (kept (.refl s)) (kept (settled_within ((change _).after ((put _ _).after ?_))))
      exact ite_within (.refl s) (.of rfl rfl rfl rfl)

theorem writeMower_within (i : Nat) (w : MowerWrite) (s : State) : Within s (writeMower i w s).1 :=
  ite_fst (kept (.refl s)) (ite_fst (kept (.refl s)) (kept (settled_within (setMower_within ..))))

theorem writeZone_within (i : Nat) (w : Option ZoneWrite) (s : State) : Within s (writeZone i w s).1 := by
  have put : ∀ z, Within s (setZone i z s) := fun z => .of rfl rfl rfl rfl
  unfold writeZone
  refine ite_fst (kept (.refl s)) (ite_fst (kept (.refl s)) ?_)
  cases w with
  | none => exact kept (settled_within (put _))
  | some w =>
    dsimp only
    cases ZoneKind.ofNumber w.kind <;> cases ActiveWhen.ofNumber w.activeWhen
    all_goals first
      | exact kept (.refl s)
      | exact ite_fst (kept (.refl s)) (kept (settled_within (put _)))

theorem writeChannel_within (i : Nat) (w : Option ChannelWrite) (s : State) : Within s (writeChannel i w s).1 := by
  unfold writeChannel
  refine ite_fst (kept (.refl s)) (ite_fst (kept (.refl s)) ?_)
  cases w with
  | none => exact kept (settled_within (setChannel_within ..))
  | some w =>
    dsimp only
    cases ChannelKind.ofNumber w.kind with
    | none => exact kept (.refl s)
    | some k => exact ite_fst (kept (.refl s)) (kept (settled_within ((formClogged_within ..).after (setChannel_within ..))))

theorem writeShow_within (i : Nat) (w : Option ShowWrite) (s : State) : Within s (writeShow i w s).1 := by
  unfold writeShow
  refine ite_fst (kept (.refl s)) (ite_fst (kept (.refl s)) ?_)
  cases w with
  | none => exact kept (settled_within (setPlayer_within ..))
  | some w => exact ite_fst (kept (.refl s)) (ite_fst (kept (.refl s)) (kept (settled_within (setPlayer_within ..))))

theorem writeStep_within (i : Nat) (w : StepWrite) (s : State) : Within s (writeStep i w s).1 :=
  ite_fst (kept (.refl s)) (kept (.of rfl rfl rfl rfl))

theorem writeLight_within (i : Nat) (w : Option LightWrite) (s : State) : Within s (writeLight i w s).1 := by
  unfold writeLight
  refine ite_fst (kept (.refl s)) ?_
  cases w with
  | none => exact kept (settled_within (setGroup_within ..))
  | some w =>
    dsimp only
    cases LightMode.ofNumber w.mode with
    | none => exact kept (.refl s)
    | some m => exact ite_fst (kept (.refl s)) (kept (settled_within (setGroup_within ..)))

theorem writeLoad_within (i : Nat) (w : Option LoadWrite) (s : State) : Within s (writeLoad i w s).1 := by
  unfold writeLoad
  refine ite_fst (kept (.refl s)) ?_
  cases w with
  | none => exact kept (.refl s)
  | some w => exact ite_fst (kept (.refl s)) (kept (settled_within (.of rfl rfl rfl rfl)))

theorem replaceSite_within (x : Site) (s : State) : Within s (replaceSite x s) := by constructor <;> first | rfl | exact fun h => ⟨h, rfl, rfl⟩

theorem writeSite_within (i : Nat) (w : Option SiteWrite) (s : State) : Within s (writeSite i w s).1 := by
  unfold writeSite
  refine ite_fst (kept (.refl s)) ?_
  cases w with
  | none => exact kept (.refl s)
  | some w => exact ite_fst (kept (.refl s)) (kept (settled_within (replaceSite_within ..)))

theorem writeEntry_within (e : EntryWrite) (s : State) : Within s (writeEntry e s).1 := by
  cases e <;> simp only [writeEntry]
  exacts [writeSlot_within .., writeNode_within .., writeJoiner_within .., writeLoop_within .., writeMower_within ..,
    writeZone_within .., writeChannel_within .., writeShow_within .., writeStep_within .., writeLight_within ..,
    writeLoad_within .., writeSite_within ..]

theorem writeAll_within (es : List EntryWrite) (s : State) : Within s (writeAll es s).1 := by
  induction es generalizing s with
  | nil => exact .refl s
  | cons e es ih => exact (writeEntry_within e s).trans (ih _)

/-! ### Requests -/

theorem respond_within (r : Request) (st : Status) (body : List Byte) (s : State) : Within s (respond r st body s) := by
  constructor <;> first | rfl | exact fun h => ⟨h, rfl, rfl⟩

theorem reply_within (r : Request) (st : Status) (s : State) : Within s (reply r st s) := respond_within ..

theorem cyclesBreak_within (k : Nat) (s : State) : Within s (cyclesBreak k s) := by
  refine .eachIx (fun i t => ?_) 8 s
  unfold cycleBreak
  split
  · exact .refl t
  · exact .refl t
  · exact (post_within ..).after (setChannel_within ..)
  all_goals exact setChannel_within ..

theorem loadNodes_within (x : Tables) (s : State) : Within s (loadNodes x s) := by
  unfold loadNodes
  extract_lets moved
  have h : Within s moved := .eachIx (fun i t => (reportToMowers_within ..).after (setNode_within ..)) 48 s
  clear_value moved
  exact h.trans (.of rfl rfl rfl rfl)

theorem loadWater_within (x : Tables) (s : State) : Within s (loadWater x s) := by
  unfold loadWater
  refine Within.after (.eachIx (fun i t => ?_) 8 _) (Within.after (.eachIx formClogged_within 8 _) ?_)
  · exact ite_within ((post_within ..).after (setChannel_within ..)) (.refl t)
  · exact .of rfl rfl rfl rfl

/-- The pass of step 9 of a load forms the results of the loads, the levels and the cycles anew and leaves the rest as the
replaced loads leave it (R172). -/
theorem loadPass_later (x : Tables) (s : State) :
    LaterFrom (loadLoads x (formLevels (formMonitors false s))) (loadPass x s) :=
  (formGrants_last _).later.trans (formStarts_later _)

theorem loadPass_within (x : Tables) (s : State) : Within s (loadPass x s) := by
  have loads : ∀ u, Within u (loadLoads x u) := fun u => .of rfl rfl rfl rfl
  exact (loadPass_later x s).base.within.after
    ((loads _).after ((formLevels_last _).later.base.within.after (formMonitors_later false s).base.within))

theorem deferred_within {s t : State} (h : Within s t) : Within s (settleDeferred t) :=
  (settleDeferred_within t).after h

theorem loadTables_within (x : Tables) (s : State) : Within s (loadTables x s).1 := by
  have halt : ∀ u, Within u (haltShows u) := fun u => .of rfl rfl rfl rfl
  have mowers : ∀ u, Within u (loadMowers x u) := fun u => .of rfl rfl rfl rfl
  have zones : ∀ u, Within u (loadZones x u) := fun u => .of rfl rfl rfl rfl
  have lights : ∀ u, Within u (loadLights x u) := fun u => .of rfl rfl rfl rfl
  unfold loadTables
  extract_lets s1 s2 s3 s4 s5 s6 s7 s8 s9 y
  have h1 : Within s s1 := deferred_within (cyclesBreak_within 9 s)
  have h2 : Within s1 s2 := deferred_within (halt s1)
  have h3 : Within s2 s3 := deferred_within (replaceSite_within _ s2)
  have h4 : Within s3 s4 := deferred_within (loadNodes_within x s3)
  have h5 : Within s4 s5 := mowers s4
  have h6 : Within s5 s6 := deferred_within (zones s5)
  have h7 : Within s6 s7 := deferred_within (loadWater_within x s6)
  have h8 : Within s7 s8 := deferred_within (lights s7)
  have h9 : Within s8 s9 := settled_within (loadPass_within x s8)
  clear_value s1 s2 s3 s4 s5 s6 s7 s8 s9
  have h := (((((((h1.trans h2).trans h3).trans h4).trans h5).trans h6).trans h7).trans h8).trans h9
  exact h.trans (by constructor <;> first | rfl | exact fun h => ⟨h, rfl, rfl⟩)

theorem minuteChanged_within (s : State) : Within s (minuteChanged s) := settled_within (.of rfl rfl rfl rfl)

theorem endForward_within (f : Forwarding) (s : State) : Within s (endForward f s) := reply_within ..

theorem answerForward_within (f : Forwarding) (m : List Byte) (s : State) : Within s (answerForward f m s) :=
  ite_within (reply_within ..) (respond_within ..)

theorem lineToBreak_within {s : State} (hs : s.line.state = .inBreak) : Within s (lineToBreak s) := by
  constructor <;> first | rfl | exact fun h => absurd (hs.symm.trans h) nofun

theorem breakMowers_within (n : Nat) (b : Node) (s : State) : Within s (breakMowers n b s) := .of rfl rfl rfl rfl

theorem nodesBreak_within (s : State) : Within s (nodesBreak s) :=
  .eachIx (fun _ _ => (breakMowers_within ..).after (setNode_within ..)) 48 s

theorem mgmtBreak_within (s : State) : Within s (mgmtBreak s) := by
  have h : Within s { s with mgmt := { s.mgmt with ctx1 := none, ctx2 := none, joinCtx := none, answers := [] } } := by
    constructor <;> first | rfl | exact fun h => ⟨h, rfl, rfl⟩
  unfold mgmtBreak
  dsimp only
  split
  · exact (endForward_within ..).after h
  · exact (endForward_within ..).after h
  all_goals exact h

/-- A restart caused during BREAK begins the count again; one caused while the line runs waits for the frame's end
(R15, R17). -/
theorem enterBreak_within {s : State} (hs : s.line.state = .inBreak) : Within s (enterBreak s) :=
  settled_within ((mgmtBreak_within _).after ((nodesBreak_within _).after
    ((cyclesBreak_within 8 _).after (lineToBreak_within hs))))

theorem causeRestart_within (s : State) : Within s (causeRestart s) := by
  unfold causeRestart
  split
  · constructor <;> first | rfl | exact fun h => ⟨h, rfl, rfl⟩
  · next h _ => exact enterBreak_within h
  · exact .refl s

theorem countBusy_within (s : State) : Within s (countBusy s) := .of rfl rfl rfl rfl

theorem setPointer_within (a b c : Nat) (s : State) : Within s (setPointer a b c s) := by constructor <;> first | rfl | exact fun h => ⟨h, rfl, rfl⟩

theorem readTable_within (r : Request) (sp tb f c : Nat) (t : Table) (st : Status) (s : State) :
    Within s (readTable r sp tb f c t st s) := by
  have h : ∀ x : List Byte × Nat, ∀ u, Within u (respond r st (b1 sp ++ b1 tb ++ x.1) (setPointer sp tb x.2 u)) :=
    fun x u => (respond_within ..).after (setPointer_within ..)
  unfold readTable
  refine ite_within (h _ _) (ite_within ((h _ _).after (setNode_within ..)) (h _ _))

theorem readEntries_within (r : Request) (sp tb f c : Nat) (s : State) : Within s (readEntries r sp tb f c s) := by
  unfold readEntries
  refine ite_within (reply_within ..) ?_
  cases Table.ofNumber tb with
  | none => exact reply_within ..
  | some t =>
    exact ite_within (reply_within ..) (ite_within ((reply_within ..).after (countBusy_within s))
      (ite_within (reply_within ..) (ite_within (reply_within ..) (readTable_within ..))))

/-- Whatever a request does, it leaves the queue it was taken from and the frame in progress alone. -/
theorem process_within (r : Request) (s : State) : Within s (process r s) := by
  have re : ∀ st, Within s (reply r st s) := fun st => reply_within ..
  have after : ∀ {u : State} (st : Status) (body : List Byte), Within s u → Within s (respond r st body u) :=
    fun st body h => (respond_within ..).after h
  have write : ∀ es, Within s (writeRequest r es s) := fun es => after _ _ (writeAll_within ..)
  unfold process
  cases r.body <;> dsimp only
  · exact respond_within ..
  · exact readEntries_within ..
  · unfold continueRead
    split
    · exact re _
    · exact readEntries_within ..
  · unfold writeBytesRequest
    refine ite_within (re _) ?_
    split
    · exact re _
    · refine ite_within (re _) ?_
      split
      · exact re _
      · exact ite_within (re _) (write _)
  · exact write _
  · exact (respond_within ..).after (.of rfl rfl rfl rfl)
  · refine after _ _ ((minuteChanged_within _).after ?_)
    constructor <;> first | rfl | exact fun h => ⟨h, rfl, rfl⟩
  · exact ite_within (after _ _ (countBusy_within s)) (after _ _ (beginWrite_within ..))
  · exact ite_within (after _ _ (countBusy_within s)) (ite_within (re _) (after _ _ (loadTables_within ..)))
  · unfold presetRequest
    refine ite_within (re _) ?_
    dsimp only
    split
    · exact re _
    · exact after _ _ (settled_within ((askOffsetWrite_within ..).after (setMower_within ..)))
  · exact ite_within (re _) (after _ _ (setMower_within ..))
  · exact after _ _ (ite_within (.refl s) (settled_within (.of rfl rfl rfl rfl)))
  · exact after _ _ (ite_within (.refl s) (settled_within (.of rfl rfl rfl rfl)))
  · unfold startShowRequest
    refine ite_within (re _) ?_
    split
    · exact re _
    · exact ite_within (re _) (after _ _ (settled_within (setPlayer_within ..)))
  · exact ite_within (re _) (ite_within (re _) (after _ _ (settled_within (setPlayer_within ..))))
  · unfold startBackwashRequest
    refine ite_within (re _) ?_
    split
    · exact re _
    · exact ite_within (re _) (after _ _ (settled_within (setChannel_within ..)))
  · unfold stopBackwashRequest
    refine ite_within (re _) ?_
    split
    · exact re _
    · exact re _
    · exact re _
    all_goals exact after _ _ (settled_within (setChannel_within ..))
  · exact ite_within (re _) (ite_within (re _) (ite_within (after _ _ (settled_within (setChannel_within ..))) (re _)))
  · exact ite_within (after _ _ (.of rfl rfl rfl rfl))
      (ite_within (re _) (after _ _ (settled_within (.of rfl rfl rfl rfl))))
  · refine (causeRestart_within _).after ?_
    constructor <;> first | rfl | exact fun h => ⟨h, rfl, rfl⟩
  · unfold forwardRequest
    refine ite_within (re _) (ite_within (re _) ?_)
    split
    · exact re _
    · refine ite_within (re _) ?_
      constructor <;> first | rfl | exact fun h => ⟨h, rfl, rfl⟩
  · exact re _
  · exact re _

end Sys2Proof.Machine
end

