-- ==== Sys2Proof/Laws/Requests.lean ====
section
/-! SUPPORT. How a completed request is taken: a request command is the arrival of its request, an arrival at an idle
processor is processed at once, one at a busy processor only joins the queue. -/

namespace Sys2Proof.Machine

theorem exec_asRequest {c : Instr} {r : Request} (h : asRequest c = some r) (s : State) :
    exec c s = whenOn (arrive r) s := by
  cases c <;> cases h <;> rfl

theorem serveUpTo_empty (n : Nat) {s : State} (h : s.mgmt.queue = []) : serveUpTo n s = s := by
  cases n with
  | zero => rfl
  | succ n =>
    unfold serveUpTo
    rw [h]
    cases s.mgmt.proc <;> rfl

theorem serve_busy {s : State} (h : s.mgmt.proc ≠ .idle) : serve s = s := by
  unfold serve serveUpTo
  cases hp : s.mgmt.proc <;> simp_all

/-- A request that reaches an idle processor with an empty queue is processed in the same handling (R153). -/
theorem arrive_ready {s : State} (h : Ready s) (r : Request) : arrive r s = process r s := by
  obtain ⟨-, hp, hq, hh⟩ := h
  have h1 : serve (place r s) = serveUpTo 5 (process r s) := by
    have ht : takeOldest [] (place r s) = s := by
      unfold takeOldest place
      simp only [hq, List.length_nil, Nat.zero_lt_succ, if_true, hh, Option.toList_none, List.append_nil]
      cases s with
      | mk mode line nodes pos zone water light power mgmt notices store free pending =>
        cases mgmt
        simp only at hq hh
        subst hq hh
        rfl
    have hpl : (place r s).mgmt.proc = .idle ∧ (place r s).mgmt.queue = [r] := by
      unfold place
      simp [hq, hp]
    show serveUpTo (5 + 1) (place r s) = _
    rw [serveUpTo]
    simp only [hpl.1, hpl.2, ht]
  unfold arrive
  rw [h1]
  exact serveUpTo_empty 5 (by rw [(process_within r s).queue, hq])

theorem exec_ready {c : Instr} {r : Request} (hc : asRequest c = some r) {s : State} (h : Ready s) :
    exec c s = .next (process r s) := by
  rw [exec_asRequest hc, whenOn, if_pos h.1, arrive_ready h]

/-- A request that finds the processor busy is only placed (R152, R153). -/
theorem arrive_busy {s : State} (h : s.mgmt.proc ≠ .idle) (r : Request) : arrive r s = place r s := by
  unfold arrive
  apply serve_busy
  have : (place r s).mgmt.proc = s.mgmt.proc := by
    unfold place
    split
    · rfl
    · split <;> rfl
  rwa [this]

/-- What an answer of the processor is, in the words of the statements. -/
theorem respond_eq_answer (o : Origin) (k : Byte) (b : Body) (st : Status) (body : List Byte) (s : State) :
    respond ⟨o, some k, b⟩ st body s = answer o k st body s := rfl

theorem reply_eq_answer (o : Origin) (k : Byte) (b : Body) (st : Status) (s : State) :
    reply ⟨o, some k, b⟩ st s = answer o k st [] s := rfl

theorem overall_one (st : Status) (h : st = .done ∨ st = .doneClamped ∨ st.taken = false) : overall [st] = st := by
  cases st <;> simp_all [overall, Status.taken, doneIf]

/-- A write of one entry at an idle processor: its status is the answer's status and the one status byte (R155). -/
theorem exec_write {c : Instr} {o : Origin} {e : EntryWrite} (hc : asRequest c = some ⟨o, some 4#8, .write [e]⟩)
    {s : State} (h : Ready s) : exec c s = .next (writeAnswer o (writeEntry e s).2 (writeEntry e s).1) := by
  rw [exec_ready hc h]
  have ho : overall [(writeEntry e s).2] = (writeEntry e s).2 := by
    apply overall_one
    cases (writeEntry e s).2 <;> simp [Status.taken]
  show Host.Outcome.next (writeRequest ⟨o, some 4#8, .write [e]⟩ [e] s) = _
  simp only [writeRequest, writeAll, ho, respond_eq_answer]
  rfl

end Sys2Proof.Machine
end

