-- ==== Sys2Proof/Laws/NodeTable.lean ====
section
/-! SUPPORT. What the handlings of the Node Table leave alone: the reports of a record's change and the hand-over of a
sample touch no other record, nothing of the line and nothing of the management state. -/

namespace Sys2Proof.Machine

/-- What the blocks leave alone when they take a report or a sample. -/
structure ReportFrom (s t : State) : Prop where
  mode : t.mode = s.mode
  line : t.line = s.line
  nodes : t.nodes = s.nodes
  mgmt : t.mgmt = s.mgmt
  dockAll : t.zone.dockAll = s.zone.dockAll
  zones : t.zone.zones = s.zone.zones
  loops : t.pos.loops = s.pos.loops
  steps : t.water.steps = s.water.steps
  pending : t.pending = s.pending

theorem ReportFrom.refl (s : State) : ReportFrom s s := by constructor <;> rfl

theorem ReportFrom.after {s t u : State} (b : ReportFrom t u) (a : ReportFrom s t) : ReportFrom s u :=
  ⟨b.mode.trans a.mode, b.line.trans a.line, b.nodes.trans a.nodes, b.mgmt.trans a.mgmt, b.dockAll.trans a.dockAll,
    b.zones.trans a.zones, b.loops.trans a.loops, b.steps.trans a.steps, b.pending.trans a.pending⟩

theorem ReportFrom.eachIx {f : Nat → State → State} (hf : ∀ i t, ReportFrom t (f i t)) (n : Nat) (s : State) :
    ReportFrom s (eachIx f n s) :=
  eachIx_keeps (P := ReportFrom s) (fun i t h => (hf i t).after h) n (.refl s)

theorem ReportFrom.ite {s a b : State} {c : Prop} [Decidable c] (ha : ReportFrom s a) (hb : ReportFrom s b) :
    ReportFrom s (if c then a else b) := by
  split <;> assumption

theorem SettledFrom.report {s t : State} (h : SettledFrom s t) : ReportFrom s t :=
  ⟨h.mode, h.line, h.nodes, h.mgmt, h.dockAll, h.zones, by rw [h.pos], h.steps, h.pending⟩

theorem settle_report (s : State) : ReportFrom s (settle s) := (rounds_settled false 40 s).report

theorem post_report (k : NoticeKind) (x : Option Nat) (d : Nat) (s : State) : ReportFrom s (post k x d s) :=
  (post_last k x d s).later.base.report

theorem postDetail_report (k : NoticeKind) (x d : Option Nat) (s : State) : ReportFrom s (postDetail k x d s) :=
  (postDetail_last k x d s).later.base.report

theorem setMower_report (i : Nat) (f : Mower → Mower) (s : State) : ReportFrom s (setMower i f s) := by
  constructor <;> rfl

theorem setChannel_report (i : Nat) (f : Channel → Channel) (s : State) : ReportFrom s (setChannel i f s) := by
  constructor <;> rfl

theorem reportToMowers_report (n : Nat) (a b : Node) (s : State) : ReportFrom s (reportToMowers n a b s) := by
  constructor <;> rfl

theorem codeReport_report (n : Nat) (k : NodeKind) (old : Option Nat) (c : Nat) (s : State) :
    ReportFrom s (codeReport n k old c s) := by
  have latch : ∀ ks kind d i t, ReportFrom t (latchFault ks kind d n i t) := fun ks kind d i t =>
    .ite ((post_report ..).after (setChannel_report ..)) (.refl t)
  cases k
  · exact .refl s
  · exact .ite (.eachIx (fun i t => .ite (postDetail_report ..) (.refl t)) 4 s) (.refl s)
  · exact .ite (.refl s) (.eachIx (latch _ _ _) 8 s)
  · exact .ite (.eachIx (latch _ _ _) 8 s) (.refl s)
  · exact .ite (.refl s) (.eachIx (fun i t => .ite (post_report ..) (.refl t)) 16 s)
  · exact .refl s
  · exact .refl s
  · exact .ite (post_report ..) (.refl s)
  · exact .refl s
  · exact .refl s

theorem markerEvent_report (i : Nat) (l : LoopRec) (slip : Bool) (s : State) : ReportFrom s (markerEvent i l slip s) := by
  have check : ∀ a b t, ReportFrom t (spacingCheck i l a b t) := fun a b t => by
    have h : ∀ f d, ReportFrom t (post .referenceMismatch (some i) d (setMower i f t)) :=
      fun f d => (post_report ..).after (setMower_report i f t)
    refine .ite (setMower_report ..) ?_
    dsimp only
    split
    all_goals first
      | exact h _ _
      | exact (post_report ..).after ((setMower_report i Mower.lose _).after (h _ _))
  refine .ite (setMower_report ..) (.ite (.refl s) ?_)
  split
  · exact setMower_report ..
  · exact (check ..).after (setMower_report ..)
  · exact .refl s

theorem beginWrite_report (w : StoreWrite) (s : State) : ReportFrom s (beginWrite w s) := by constructor <;> rfl

theorem dockEvent_report (i : Nat) (l : LoopRec) (slip : Bool) (s : State) : ReportFrom s (dockEvent i l slip s) := by
  have ask : ∀ t, ReportFrom t (askOffsetWrite i l t) := fun t =>
    .ite (.refl t) (.ite (beginWrite_report ..) (setMower_report ..))
  unfold dockEvent
  dsimp only
  split
  · exact .refl s
  · exact .ite (.refl s) ((ask _).after (setMower_report ..))

theorem mowerSample_report (i : Nat) (w : Content) (s : State) : ReportFrom s (mowerSample i w s) := by
  unfold mowerSample
  refine (setMower_report ..).after ?_
  refine .ite ((dockEvent_report ..).after ?_) ?_
  all_goals
    refine .ite ((markerEvent_report ..).after ?_) ?_
    all_goals exact .ite ((post_report ..).after (setMower_report ..)) (setMower_report ..)

theorem formClogged_report (i : Nat) (s : State) : ReportFrom s (formClogged i s) := by
  unfold formClogged
  dsimp only
  split
  · exact setChannel_report ..
  · exact .ite ((post_report ..).after (setChannel_report ..)) (setChannel_report ..)

/-- Handing a sample on touches no record, nothing of the line and nothing of the management state (R32). -/
theorem handOver_report (n : Nat) (k : NodeKind) (w : Content) (s : State) : ReportFrom s (handOver n k w s) := by
  cases k
  · exact .refl s
  · show ReportFrom s (mowerSamples n w s)
    unfold mowerSamples
    exact .eachIx (fun i t => .ite ((settle_report _).after (mowerSample_report ..)) (.refl t)) 4 s
  · have one : ∀ i t, ReportFrom t (filterSample i w t) := fun i t =>
      .ite ((formClogged_report ..).after (setChannel_report ..)) (.refl t)
    simp only [handOver]
    exact (settle_report _).after (.eachIx (fun i t => .ite (one i t) (.refl t)) 8 s)
  · exact .refl s
  · exact .refl s
  · exact .refl s
  · exact .refl s
  · exact .refl s
  · exact .refl s
  · refine .ite ((settle_report _).after ?_) (.refl s)
    have h : ∀ p : Power, ReportFrom s { s with power := p } := fun p => by constructor <;> rfl
    exact .ite ((setShed_last ..).later.base.report.after (h _)) (h _)

/-- A record changes: its report touches nothing else of the Node Table, the line or the management state (R21). -/
theorem changeNode_report (n : Nat) (f : Node → Node) (s : State) : ReportFrom (setNode n f s) (changeNode n f s) :=
  (settle_report _).after (reportToMowers_report ..)

theorem goodSample_report {n : Nat} {x : NodeIdent} {s : State} (h : (nodeAt s n).ident = some x) (noisy : Bool)
    (w : Content) :
    ReportFrom (setNode n (fun _ => (nodeAt s n).takeSample x.kind noisy w s.line.frame) s) (goodSample n noisy w s) := by
  unfold goodSample
  rw [h]
  refine (handOver_report ..).after ((settle_report _).after ?_)
  split
  · exact reportToMowers_report ..
  · exact .ite (reportToMowers_report ..) ((codeReport_report ..).after (reportToMowers_report ..))

/-! ### Answers -/

/-- The JOIN ANSWER list after an answer is given: in the place of one for the same serial, else at the end of a list with
room, else dropped (R154). -/
theorem giveAnswer_answers (a : JoinAnswer) (s : State) :
    (giveAnswer a s).mgmt.answers
      = if ∃ b ∈ s.mgmt.answers, b.serial = a.serial then
          s.mgmt.answers.map (fun b => if b.serial = a.serial then a else b)
        else if s.mgmt.answers.length < 8 then s.mgmt.answers ++ [a]
        else s.mgmt.answers := by
  simp only [giveAnswer, List.any_eq_true, beq_iff_eq]

/-! ### Bits sent 0 (R176) -/

/-- Two content words that agree in every bit the layout of a kind names. -/
structure SameContent (kind : NodeKind) (w v : Content) : Prop where
  high : w.toNat / 2 ^ kind.lowBit = v.toNat / 2 ^ kind.lowBit
  code : w.toNat % 16 = v.toNat % 16

/-- A field that lies at or above the lowest named bit is a field of the named bits. -/
theorem contentField_high {w v : Content} {low hi lo : Nat} (h : w.toNat / 2 ^ low = v.toNat / 2 ^ low) (hl : low ≤ lo) :
    contentField w hi lo = contentField v hi lo := by
  have e : ∀ x : Content, x.toNat / 2 ^ lo = x.toNat / 2 ^ low / 2 ^ (lo - low) := fun x => by
    rw [Nat.div_div_eq_div_mul, ← Nat.pow_add, Nat.add_sub_cancel' hl]
  unfold contentField
  rw [e w, e v, h]

theorem contentField_code {w v : Content} (h : w.toNat % 16 = v.toNat % 16) : contentField w 3 0 = contentField v 3 0 := by
  simpa [contentField] using h

theorem mowerSample_same {w v : Content} (h : SameContent .mower w v) (i : Nat) (s : State) :
    mowerSample i w s = mowerSample i v s := by
  have e : ∀ hi lo, 6 ≤ lo → contentField w hi lo = contentField v hi lo := fun _ _ => contentField_high h.high
  unfold mowerSample
  rw [e 31 20 (by decide), e 19 8 (by decide), e 7 7 (by decide), e 6 6 (by decide)]

theorem filterSample_same {w v : Content} (h : SameContent .pump w v) (i : Nat) (s : State) :
    filterSample i w s = filterSample i v s := by
  have e : differential w = differential v := by
    unfold differential
    rw [contentField_high (hi := 31) h.high (show (12 : Nat) ≤ 22 by decide), contentField_high (hi := 21) h.high (Nat.le_refl 12)]
  unfold filterSample
  rw [e]

theorem supplySample_same {w v : Content} (h : SameContent .supply w v) (s : State) :
    supplySample w s = supplySample v s := by
  unfold supplySample
  rw [contentField_high (hi := 31) h.high (Nat.le_refl 19)]

/-- The blocks read only what the kind's layout names (R32, R176). -/
theorem handOver_same {kind : NodeKind} {w v : Content} (h : SameContent kind w v) (n : Nat) (s : State) :
    handOver n kind w s = handOver n kind v s := by
  cases kind
  case mower =>
    show mowerSamples n w s = mowerSamples n v s
    unfold mowerSamples
    simp only [mowerSample_same h]
  case pump =>
    simp only [handOver, filterSample_same h]
  case supply =>
    simp only [handOver, supplySample_same h]
  all_goals rfl

theorem sampleTaken_same {kind : NodeKind} {w v : Content} (h : SameContent kind w v) :
    sampleTaken kind w = sampleTaken kind v := by
  unfold sampleTaken codeTaken
  rw [h.high, contentField_code h.code]

theorem takeSample_same {kind : NodeKind} {w v : Content} (h : SameContent kind w v) (noisy : Bool) (frame : Nat)
    (x : Node) : x.takeSample kind noisy w frame = x.takeSample kind noisy v frame := by
  unfold Node.takeSample
  rw [sampleTaken_same h]
  unfold codeTaken
  rw [contentField_code h.code]

/-- A good sample is taken alike whatever the bits that its layout gives as sent 0 (R176). -/
theorem goodSample_same {n : Nat} {x : NodeIdent} {s : State} (hx : (nodeAt s n).ident = some x) {w v : Content}
    (h : SameContent x.kind w v) (noisy : Bool) : goodSample n noisy w s = goodSample n noisy v s := by
  unfold goodSample
  rw [hx]
  simp only [takeSample_same h, handOver_same h]

theorem nodeAt_setNode (i k : Nat) (f : Node → Node) (s : State) :
    nodeAt (setNode i f s) k = if i = k ∧ k < s.nodes.recs.length then f (nodeAt s k) else nodeAt s k := by
  unfold nodeAt setNode
  simp only [List.getD_eq_getElem?_getD, List.getElem?_modify]
  by_cases hk : k < s.nodes.recs.length
  · rw [List.getElem?_eq_getElem hk]
    by_cases h : i = k <;> simp [h, hk]
  · rw [List.getElem?_eq_none (by omega)]
    simp [hk]

theorem nodeAt_lt {s : State} {i : Nat} (h : nodeAt s i ≠ Node.blank) : i < s.nodes.recs.length := by
  by_contra hn
  exact h (by simp only [nodeAt, List.getD_eq_getElem?_getD, List.getElem?_eq_none (Nat.le_of_not_lt hn), Option.getD_none])

/-- A report of a record that has become ACTIVE takes the mowers bound to it as R52 gives, if it is of kind MOWER, and leaves
every other as it stands. -/
theorem mowerAt_report_active {before after : Node} (hb : before.state ≠ .active) (ha : after.state = .active) (n j : Nat)
    (s : State) :
    mowerAt (reportToMowers n before after s) j
      = if (mowerAt s j).node = some n ∧ after.kindIs .mower = true then (mowerAt s j).nodeFound else mowerAt s j := by
  have hl : (before.state == .active) = false := beq_eq_false_iff_ne.mpr hb
  have key : ∀ m : Mower,
      (if m.node = some n then
        if before.kindIs .mower && before.state == .active && after.state != .active then m.nodeLost
        else if after.kindIs .mower && before.state != .active && after.state == .active then m.nodeFound
        else m
      else m) = if m.node = some n ∧ after.kindIs .mower = true then m.nodeFound else m := by
    intro m
    by_cases h1 : m.node = some n <;> by_cases h2 : after.kindIs .mower = true <;> simp [h1, h2, hl, ha, bne]
  unfold mowerAt reportToMowers
  rw [List.getD_eq_getElem?_getD, List.getElem?_map, List.getD_eq_getElem?_getD]
  cases s.pos.mowers[j]? with
  | none => simp [Mower.blank]
  | some m => exact key m

/-- A record that stays ACTIVE moves no mower (R22, R52). -/
theorem report_staysActive {before after : Node} (hb : before.state = .active) (ha : after.state = .active) (n : Nat)
    (s : State) : reportToMowers n before after s = s := by
  unfold reportToMowers
  simp [hb, ha]

end Sys2Proof.Machine
end

