-- ==== Sys2Proof/Laws/Operands.lean ====
section
/-! SUPPORT. What received bytes spell: the lead byte, the check code, the fields of a fragment. -/

namespace Sys2Proof.Machine

/-- A byte carries the lead mark and an address exactly when it is 80H plus that address (R174). -/
theorem leads_iff (b : Byte) {address : Nat} (h : address < 64) :
    (hasLeadMark b && leadAddress b == address) = true ↔ b = BitVec.ofNat 8 (128 + address) := by
  have key : ∀ b : Byte, hasLeadMark b = true → b = BitVec.ofNat 8 (128 + leadAddress b) := by decide +kernel
  have back : ∀ a : Fin 64, hasLeadMark (BitVec.ofNat 8 (128 + a.val)) = true
      ∧ leadAddress (BitVec.ofNat 8 (128 + a.val)) = a.val := by decide +kernel
  rw [Bool.and_eq_true, beq_iff_eq]
  constructor
  · rintro ⟨h1, rfl⟩
    exact key b h1
  · rintro rfl
    exact back ⟨address, h⟩

/-- Bits 7 to 4 of a byte. -/
theorem high_nibble (b : Byte) : (b.extractLsb' 4 4).toNat = b.toNat / 16 := by revert b; decide +kernel

/-- Bits 3 to 1 of a byte. -/
theorem index_bits (b : Byte) : (b.extractLsb' 1 3).toNat = b.toNat / 2 % 8 := by revert b; decide +kernel

/-- Bit 0 of a byte. -/
theorem last_bit (b : Byte) : b.getLsbD 0 = (b.toNat % 2 == 1) := by revert b; decide +kernel

/-- A fragment is read when it is as long as its length field says, opens with the address and closes with the check code
of what stands before it, and not otherwise (R13, R174, R175; log 18). -/
theorem readFragment_spec {address : Nat} (h : address < 64) (bs : List Byte) :
    readFragment address bs
      = if bs.length = (bs.getD 2 0#8).toNat / 16 + 4 ∧ bs.getD 0 0#8 = BitVec.ofNat 8 (128 + address)
            ∧ crc8 (bs.take ((bs.getD 2 0#8).toNat / 16 + 3)) = bs.getD ((bs.getD 2 0#8).toNat / 16 + 3) 0#8 then
          some
            { number := (bs.getD 1 0#8).toNat / 16, index := (bs.getD 1 0#8).toNat / 2 % 8
              last := (bs.getD 1 0#8).toNat % 2 == 1, length := (bs.getD 2 0#8).toNat / 16
              payload := (bs.drop 3).take ((bs.getD 2 0#8).toNat / 16) }
        else none := by
  have e := leads_iff (bs.getD 0 0#8) h
  unfold readFragment byteAt
  dsimp only
  refine if_congr ?_ rfl rfl
  rw [Bool.and_eq_true, Bool.and_assoc, Bool.and_eq_true, e, beq_iff_eq, decide_eq_true_iff, and_assoc]

/-- The check code takes one byte after another (R175). -/
theorem crc8_append (bs : List Byte) (b : Byte) : crc8 (bs ++ [b]) = crcByte (crc8 bs) b := by
  simp only [crc8, List.foldl_append, List.foldl_cons, List.foldl_nil]
end Sys2Proof.Machine
end

