-- ==== Sys2Proof/WellFormed.lean ====
section
/-! DEFINITION. Which commands a sender can really send: the slots that exist, halves of six bytes, fields that
fit the bytes the formats give them (12_formats.md). The meanings are total; a command that is not well formed
still has one, but no line or gateway produces it. -/

namespace Sys2Proof

/-- The origin of a request: a line address 1 to 63 and a four-bit message number. -/
def Origin.wf (o : Origin) : Bool := 1 ≤ o.address && o.address ≤ 63 && o.number ≤ 15

/-- A field of n bytes. -/
def fitsBytes (n v : Nat) : Bool := v < 256 ^ n

/-- A list field of at most k places of one byte each, FFH being a place left over. -/
def listFits (k : Nat) (l : List Nat) : Bool := l.length ≤ k && l.all (· < 255)

/-- An index byte or none. -/
def indexFits (i : Option Nat) : Bool := i.all (· < 255)

/-- A node slot (R4). -/
def nodeSlotOk (slot : Nat) : Bool := 1 ≤ slot && slot ≤ 28

/-- A management slot (R12). -/
def managementSlotOk (slot : Nat) : Bool := 29 ≤ slot && slot ≤ 31

/-- An upstream half is six bytes long. -/
def halfOk (h : Option (List Sampled)) : Bool := h.all (·.length == 6)

/-- A bidder has an address 1 to 63, and its fragment is a lead byte, two further bytes, up to 15 bytes of payload
and a check code. -/
def bidOk (b : Bid) : Bool :=
  1 ≤ b.address && b.address ≤ 63 && 4 ≤ b.fragment.length && b.fragment.length ≤ 19

def SlotWrite.wf (w : SlotWrite) : Bool :=
  fitsBytes 1 w.slot && fitsBytes 1 w.divisor && fitsBytes 1 w.phase && fitsBytes 1 w.node

def NodeWrite.wf (w : NodeWrite) : Bool := fitsBytes 1 w.address && fitsBytes 1 w.kind

def LoopWrite.wf (w : LoopWrite) : Bool :=
  fitsBytes 1 w.n1 && fitsBytes 2 w.tolerance && fitsBytes 2 w.jump && fitsBytes 2 w.body
    && fitsBytes 3 w.dock && fitsBytes 3 w.spacing && fitsBytes 2 w.spacingTol

def MowerWrite.wf (w : MowerWrite) : Bool := indexFits w.node && fitsBytes 1 w.loop

def ZoneWrite.wf (w : ZoneWrite) : Bool :=
  fitsBytes 1 w.kind && fitsBytes 1 w.loop && fitsBytes 3 w.first && fitsBytes 3 w.last
    && fitsBytes 2 w.lookahead && fitsBytes 1 w.activeWhen && fitsBytes 1 w.filter && fitsBytes 1 w.showIx
    && listFits 4 w.channels && fitsBytes 1 w.cap && listFits 4 w.groups

def ChannelWrite.wf (w : ChannelWrite) : Bool :=
  fitsBytes 1 w.kind && indexFits w.node && fitsBytes 1 w.minLevel && fitsBytes 1 w.maxLevel
    && fitsBytes 1 w.day && fitsBytes 1 w.night && fitsBytes 2 w.nightStart && fitsBytes 2 w.nightEnd
    && fitsBytes 2 w.clog && fitsBytes 2 w.clear && fitsBytes 1 w.valve && fitsBytes 1 w.backwash
    && fitsBytes 1 w.rinse && fitsBytes 2 w.stopFrames && fitsBytes 2 w.washFrames
    && fitsBytes 2 w.rinseFrames && fitsBytes 1 w.discharge

def ShowWrite.wf (w : ShowWrite) : Bool :=
  listFits 4 w.channels && fitsBytes 1 w.first && fitsBytes 2 w.loopCount
    && w.startMin.all (· < 65535) && w.stopMin.all (· < 65535)

def Levels.wf (l : Levels) : Bool :=
  fitsBytes 1 l.l0 && fitsBytes 1 l.l1 && fitsBytes 1 l.l2 && fitsBytes 1 l.l3

def StepWrite.wf (w : StepWrite) : Bool := w.levels.wf && fitsBytes 2 w.duration && indexFits w.next

def LightWrite.wf (w : LightWrite) : Bool :=
  indexFits w.node && fitsBytes 1 w.mode && fitsBytes 1 w.onLevel && fitsBytes 1 w.lateLevel
    && fitsBytes 2 w.lateMin && fitsBytes 2 w.offMin && fitsBytes 1 w.presLevel && fitsBytes 2 w.presHold
    && listFits 2 w.motion && w.upInt ≤ 15 && w.upFrac ≤ 15 && w.downInt ≤ 15 && w.downFrac ≤ 15

def LoadWrite.wf (w : LoadWrite) : Bool :=
  fitsBytes 1 w.cls && fitsBytes 2 w.minDraw && fitsBytes 2 w.fullDraw && indexFits w.node

def SiteWrite.wf (w : SiteWrite) : Bool :=
  listFits 2 w.privileged && fitsBytes 2 w.budget && indexFits w.weather && indexFits w.level
    && indexFits w.supply && fitsBytes 2 w.dusk && fitsBytes 2 w.dawn && fitsBytes 1 w.staleLimit
    && fitsBytes 1 w.dropLimit

/-- The request kinds of 12_formats.md, Messages, that a gateway may send (JOIN is not one). -/
def knownKind (k : Byte) : Bool := 1 ≤ k.toNat && k.toNat ≤ 20

def Instr.wf : Instr → Bool
  | .resetAsserted => true
  | .startUp => true
  | .frameStart => true
  | .lineBreak => true
  | .lineResume => true
  | .nodeSlotEnd slot heard => nodeSlotOk slot && halfOk heard
  | .managementSlotEnd slot bids => managementSlotOk slot && bids.all bidOk
  | .readStatus o => o.wf
  | .readEntries o sp tb f c => o.wf && fitsBytes 1 sp && fitsBytes 1 tb && fitsBytes 1 f && fitsBytes 1 c
  | .readNodeChanges o r c => o.wf && fitsBytes 1 r && fitsBytes 1 c
  | .continueRead o c => o.wf && fitsBytes 1 c
  | .writeEntries o sp tb f c bs =>
    o.wf && fitsBytes 1 sp && fitsBytes 1 tb && fitsBytes 1 f && fitsBytes 1 c && bs.length ≤ 91
  | .writeSlotmap o i w => o.wf && fitsBytes 1 i && w.all SlotWrite.wf
  | .writeNodes o i w => o.wf && fitsBytes 1 i && w.all NodeWrite.wf
  | .writeJoiners o i _ => o.wf && fitsBytes 1 i
  | .writeLoops o i w => o.wf && fitsBytes 1 i && w.all LoopWrite.wf
  | .writeMowers o i w => o.wf && fitsBytes 1 i && w.wf
  | .writeZones o i w => o.wf && fitsBytes 1 i && w.all ZoneWrite.wf
  | .writeChannels o i w => o.wf && fitsBytes 1 i && w.all ChannelWrite.wf
  | .writeShows o i w => o.wf && fitsBytes 1 i && w.all ShowWrite.wf
  | .writeSteps o i w => o.wf && fitsBytes 1 i && w.wf
  | .writeLights o i w => o.wf && fitsBytes 1 i && w.all LightWrite.wf
  | .writeLoads o i w => o.wf && fitsBytes 1 i && w.all LoadWrite.wf
  | .writeSite o i w => o.wf && fitsBytes 1 i && w.all SiteWrite.wf
  | .takeNotices o => o.wf
  | .setClock o m => o.wf && fitsBytes 2 m
  | .saveTables o => o.wf
  | .loadTables o => o.wf
  | .presetPosition o m t => o.wf && fitsBytes 1 m && fitsBytes 3 t
  | .releaseCapture o m => o.wf && fitsBytes 1 m
  | .dockAll o => o.wf
  | .resumeAll o => o.wf
  | .startShow o i => o.wf && fitsBytes 1 i
  | .stopShow o i => o.wf && fitsBytes 1 i
  | .startBackwash o c => o.wf && fitsBytes 1 c
  | .stopBackwash o c => o.wf && fitsBytes 1 c
  | .clearFault o c => o.wf && fitsBytes 1 c
  | .restoreSupply o => o.wf
  | .restartLine o => o.wf
  | .forward o n p => o.wf && fitsBytes 1 n && p.length ≤ 94
  | .notPermittedRefusal o _ => o.wf
  | .unknownRequest o k => o.wf && !knownKind k
  | .forwardTimeout => true
  | .dockDebounceExpiry m => m ≤ 3
  | .showStepEnd i => i ≤ 3
  | .holdTimerExpiry g => g ≤ 15
  | .minuteAdvance => true
  | .backwashStopping c => c ≤ 7
  | .stoppingEnd c => c ≤ 7
  | .valveBackwashPos c => c ≤ 7
  | .valveTimeout c => c ≤ 7
  | .washingEnd c => c ≤ 7
  | .rinsingEnd c => c ≤ 7
  | .restoreNormalPos c => c ≤ 7
  | .restoringTimeout c => c ≤ 7
  | .abortNormalPos c => c ≤ 7
  | .abortingTimeout c => c ≤ 7
  | .storeCompletion _ => true
  | .lossOfSupply => true

end Sys2Proof
end

