-- ==== Sys2Proof/Tests/Slice0.lean ====
section
/-! SUPPORT. The model's own tests: ill-formed commands that the check refuses, one or two steps of each command on a
small state, and for every statement with hypotheses a concrete state and operands that meet them. -/

set_option Elab.async false

open Sys2Proof Sys2Proof.Machine

namespace Sys2Proof.Tests

/-! ### Small states -/

def o : Origin := ⟨5, 7#32, 3⟩

/-- The state after a command that answers next. -/
def after (c : Instr) (s : State) : State :=
  match exec c s with
  | .next t => t
  | .fault _ => s
  | .refused _ => s

/-- The first bytes of the response in progress, or of the restart answer. -/
def sent (t : State) : List Byte :=
  match t.mgmt.proc with
  | .sending (f :: _) => f.payload
  | _ => []

/-- Right after start-up. -/
def zero : State := State.reset

/-- The line RUNNING in a frame. -/
def running (n : Nat) : State :=
  { State.reset with line := { State.reset.line with frame := n, state := .running, breakCount := none } }

def putNode (i : Nat) (n : Node) (s : State) : State := setNode i (fun _ => n) s

def aNode (kind : NodeKind) (st : NodeState) (code : Option Nat) : Node :=
  { Node.blank with ident := some ⟨9, 0x11#32, kind⟩, state := st, code := code }

def aLoop : LoopRec :=
  { LoopRec.blank with n1 := 20, tolerance := 512, jump := 100, body := 50, dock := 700, spacing := 100 }

def putLoop (l : LoopRec) (s : State) : State := { s with pos := { s.pos with loops := s.pos.loops.set 0 (some l) } }

def putMower (i : Nat) (m : Mower) (s : State) : State := setMower i (fun _ => m) s

def aMower (st : MowerState) (raw : Option Nat) : Mower :=
  { Mower.blank with node := some 0, state := st, raw := raw, computed := raw, offsetValid := true }

def aChannel : ChannelRec :=
  { kind := .filter, node := some 0, minLevel := 10, maxLevel := 200, day := 120, night := 60, nightStart := 0
    nightEnd := 0, clog := 500, clear := 300, auto := false, valve := 1, backwash := 180, rinse := 90
    stopFrames := 50, washFrames := 400, rinseFrames := 100, discharge := 9 }

def aValve : ChannelRec := { aChannel with kind := .valve, node := some 1 }

def putChannel (i : Nat) (c : Channel) (s : State) : State := setChannel i (fun _ => c) s

/-- A filter channel 0 with its cycle at a stage, its valve channel 1, their pump node 0 and valve node 1 ACTIVE. -/
def cycleAt (stage : Stage) (timer : Nat) (valveCode : Nat) : State :=
  putChannel 0 { Channel.blank with cfg := some aChannel, stage := stage, timer := timer, state := .running }
    (putChannel 1 { Channel.blank with cfg := some aValve }
      (putNode 0 (aNode .pump .active (some 0)) (putNode 1 (aNode .valve .active (some valveCode)) (running 8))))

def aShow : ShowRec := { channels := [2], first := 3, loopCount := 1, startMin := some 100, stopMin := some 200 }

def putPlayer (p : Player) (s : State) : State := setPlayer 0 (fun _ => p) s

def playing (left : Nat) : Player := { Player.blank with cfg := some aShow, state := .playing, step := some 3, remaining := left }

def aLight : LightRec :=
  { node := some 2, mode := .duskToTime, onLevel := 200, lateLevel := 80, lateMin := 100, offMin := 200, presLevel := 255
    presHold := 500, motion := [], upInt := 1, upFrac := 8, downInt := 0, downFrac := 4 }

def placed (p : Placement) (s : State) : State :=
  { s with line := { s.line with active := s.line.active.set 0 (some p), next := s.line.next.set 0 (some p) } }

def half (address : Nat) (bytes : List Byte) : List Sampled :=
  let b := leadByte address :: bytes
  (b ++ [crc8 b]).map Sampled.clean

/-- A bid whose arbitration field is received clean. -/
def bid (address : Nat) (serial : Serial) (fragment : List Sampled) : Bid :=
  let pair := BitVec.ofNat 38 (address * 4294967296 + serial.toNat)
  ⟨address, serial, ⟨pair, pair, pair⟩, fragment⟩

def joinHalf (kind : Byte) : List Sampled := half 63 [0x01#8, 0x20#8, 0x20#8, kind]

def busy (q : Nat) (held : Option Request) : State :=
  { zero with
    mgmt :=
      { zero.mgmt with
        proc := .sending [{ dest := 5, number := 3, index := 0, last := true, payload := [] }]
        queue := List.replicate q ⟨o, some 1#8, .readStatus⟩, heldReq := held } }

def saving : State := after (.saveTables o) zero

def saved : State :=
  { zero with store := { zero.store with image := savedImage Tables.blank 11, imageValid := true } }

/-! ### Ill-formed commands are refused -/

theorem test_wf_slot : (Instr.nodeSlotEnd 29 none).wf = false ∧ (Instr.managementSlotEnd 28 []).wf = false := by decide
theorem test_wf_half : (Instr.nodeSlotEnd 1 (some [])).wf = false := by decide
theorem test_wf_bid : (Instr.managementSlotEnd 29 [bid 0 0#32 []]).wf = false := by decide
theorem test_wf_origin : (Instr.readStatus ⟨0, 0#32, 0⟩).wf = false ∧ (Instr.readStatus ⟨1, 0#32, 16⟩).wf = false := by
  decide
theorem test_wf_reads :
    (Instr.readEntries o 256 0 0 0).wf = false ∧ (Instr.readNodeChanges o 256 0).wf = false
      ∧ (Instr.continueRead o 256).wf = false := by
  decide
theorem test_wf_writeEntries : (Instr.writeEntries o 0 1 0 1 (List.replicate 92 0#8)).wf = false := by decide
theorem test_wf_slotmap : (Instr.writeSlotmap o 0 (some ⟨256, 1, 0, 0⟩)).wf = false := by decide
theorem test_wf_nodes : (Instr.writeNodes o 0 (some ⟨1, 0#32, 256⟩)).wf = false := by decide
theorem test_wf_joiners : (Instr.writeJoiners o 256 true).wf = false := by decide
theorem test_wf_loops : (Instr.writeLoops o 0 (some ⟨256, 0, 1, 0, 0, false, false, false, 1, 0⟩)).wf = false := by decide
theorem test_wf_mowers : (Instr.writeMowers o 0 ⟨some 255, 0⟩).wf = false := by decide
theorem test_wf_zones :
    (Instr.writeZones o 0 (some ⟨0, 0, 0, 0, 0, false, 0, 0, 0, [1, 2, 3, 4, 5], 0, []⟩)).wf = false := by
  decide
theorem test_wf_channels :
    (Instr.writeChannels o 0 (some ⟨0, some 255, 0, 0, 0, 0, 0, 0, 0, 0, false, 0, 0, 0, 1, 1, 1, 0⟩)).wf = false := by
  decide
theorem test_wf_shows : (Instr.writeShows o 0 (some ⟨[], 0, 0, some 65535, none⟩)).wf = false := by decide
theorem test_wf_steps : (Instr.writeSteps o 0 ⟨⟨256, 0, 0, 0⟩, 1, none⟩).wf = false := by decide
theorem test_wf_lights :
    (Instr.writeLights o 0 (some ⟨none, 0, 0, 0, 0, 0, 0, 0, [], 16, 0, 0, 0⟩)).wf = false := by
  decide
theorem test_wf_loads : (Instr.writeLoads o 0 (some ⟨0, 65536, 0, none⟩)).wf = false := by decide
theorem test_wf_site : (Instr.writeSite o 0 (some ⟨[1, 2, 3], 0, none, none, none, 0, 0, 8, 250⟩)).wf = false := by decide
theorem test_wf_requests :
    (Instr.setClock o 65536).wf = false ∧ (Instr.presetPosition o 0 16777216).wf = false
      ∧ (Instr.releaseCapture o 256).wf = false ∧ (Instr.startShow o 256).wf = false
      ∧ (Instr.stopShow o 256).wf = false ∧ (Instr.startBackwash o 256).wf = false
      ∧ (Instr.stopBackwash o 256).wf = false ∧ (Instr.clearFault o 256).wf = false
      ∧ (Instr.forward o 0 (List.replicate 95 0#8)).wf = false ∧ (Instr.unknownRequest o 1#8).wf = false := by
  decide
theorem test_wf_timers :
    (Instr.dockDebounceExpiry 4).wf = false ∧ (Instr.showStepEnd 4).wf = false ∧ (Instr.holdTimerExpiry 16).wf = false
      ∧ (Instr.backwashStopping 8).wf = false ∧ (Instr.stoppingEnd 8).wf = false ∧ (Instr.valveBackwashPos 8).wf = false
      ∧ (Instr.valveTimeout 8).wf = false ∧ (Instr.washingEnd 8).wf = false ∧ (Instr.rinsingEnd 8).wf = false
      ∧ (Instr.restoreNormalPos 8).wf = false ∧ (Instr.restoringTimeout 8).wf = false
      ∧ (Instr.abortNormalPos 8).wf = false ∧ (Instr.abortingTimeout 8).wf = false := by
  decide

/-! ### The commands, one step each -/

theorem test_resetAsserted :
    (after .resetAsserted zero).mode = .held ∧ (after .resetAsserted zero).line.breakCount = none := by
  decide +kernel
theorem test_startUp : after .startUp zero = zero := by decide +kernel
theorem test_frameStart :
    (after .frameStart (running 65535)).line.header.take 5 = [0x80#8, 0x00#8, 0x00#8, 0x80#8, 0x00#8] := by
  decide +kernel
theorem test_lineBreak :
    let s := { running 9 with line := { (running 9).line with restartDue := true } }
    (after .lineBreak s).line.breakCount = some 4 ∧ (after .lineBreak (running 9)).line.state = .running := by
  decide +kernel
theorem test_lineResume : (after .lineResume zero).line.state = .running ∧ (after .lineResume zero).line.frame = 0 := by
  decide +kernel
theorem test_nodeSlotEnd :
    (after (.nodeSlotEnd 1 none) (running 3)).line.down = some (1, [0x80#8, 0x00#8, 0x00#8, 0x0B#8]) := by
  decide +kernel
theorem test_managementSlotEnd :
    (after (.managementSlotEnd 29 [bid 63 0x33#32 (joinHalf 1#8)]) (running 3)).nodes.joiners
      = [{ serial := 0x33#32, kind := 1, first := 3, latest := 3 }] := by
  decide +kernel
theorem test_readStatus :
    sent (after (.readStatus o) zero)
      = [1#8, 0#8, 0#8, 0#8, 1#8, 0#8, 0#8, 0#8, 0#8, 0#8, 1#8, 0#8] := by
  decide +kernel
theorem test_readEntries :
    sent (after (.readEntries o 0 1 63 5) zero) = [2#8, 0#8, 0#8, 1#8, 0xBF#8, 255#8, 255#8, 255#8, 255#8, 0#8] := by
  decide +kernel
theorem test_readNodeChanges : sent (after (.readNodeChanges o 0 1) zero) = [2#8, 0#8, 0#8, 4#8, 176#8] := by
  decide +kernel
theorem test_continueRead : sent (after (.continueRead o 1) zero) = [3#8, 7#8] := by decide +kernel
theorem test_writeEntries :
    stepAt (after (.writeEntries o 0 10 2 1 [1#8, 2#8, 3#8, 4#8, 1#8, 0#8, 255#8]) zero) 2
      = { levels := ⟨1, 2, 3, 4⟩, duration := 256, next := none } := by
  decide +kernel
theorem test_writeSlotmap :
    (after (.writeSlotmap o 0 (some ⟨30, 3, 7, 47⟩)) zero).line.next.getD 0 none = some ⟨28, 4, 3, 47⟩ := by
  decide +kernel
theorem test_writeNodes :
    sent (after (.writeNodes o 0 (some ⟨63, 1#32, 9⟩)) zero) = [4#8, 1#8, 1#8]
      ∧ (nodeAt (after (.writeNodes o 0 (some ⟨63, 1#32, 9⟩)) zero) 0).ident = some ⟨62, 1#32, .supply⟩ := by
  decide +kernel
theorem test_writeJoiners : sent (after (.writeJoiners o 0 false) zero) = [4#8, 8#8, 8#8] := by decide +kernel
theorem test_writeLoops :
    (loopAt (after (.writeLoops o 0 (some ⟨65, 0, 0, 5000, 900000, true, true, true, 0, 0⟩)) zero) 0)
      = ⟨64, 1024, 1, 4095, 262143, true, true, true, 1, 0⟩ := by
  decide +kernel
theorem test_writeMowers :
    sent (after (.writeMowers o 0 ⟨none, 0⟩) zero) = [4#8, 5#8, 5#8]
      ∧ (mowerAt (after (.writeMowers o 0 ⟨some 0, 0⟩) (putLoop aLoop zero)) 0).state = .stale := by
  decide +kernel
theorem test_writeZones :
    (zoneAt (after (.writeZones o 0 (some ⟨1, 0, 90000, 5, 0, true, 0, 0, 0, [], 0, []⟩)) (putLoop aLoop zero)) 0).map
      (fun z => (z.kind, z.first, z.last)) = some (.keepout, 81919, 5) := by
  decide +kernel
theorem test_writeChannels :
    (channelAt (after (.writeChannels o 0 (some ⟨1, none, 200, 100, 0, 0, 0, 0, 0, 0, false, 0, 0, 0, 1, 1, 1, 0⟩)) zero) 0).cfg.map
      (fun r => (r.kind, r.minLevel)) = some (.fountain, 100) := by
  decide +kernel
theorem test_writeShows :
    sent (after (.writeShows o 0 (some ⟨[1, 1], 0, 0, none, none⟩)) zero) = [4#8, 6#8, 6#8] := by
  decide +kernel
theorem test_writeSteps :
    stepAt (after (.writeSteps o 95 ⟨⟨1, 2, 3, 4⟩, 0, some 0⟩) zero) 95 = ⟨⟨1, 2, 3, 4⟩, 1, some 0⟩ := by
  decide +kernel
theorem test_writeLights :
    (groupAt (after (.writeLights o 15 (some ⟨none, 3, 9, 0, 0, 0, 0, 0, [], 0, 0, 0, 0⟩)) zero) 15).scheduled = 9 := by
  decide +kernel
theorem test_writeLoads :
    (loadAt (after (.writeLoads o 27 (some ⟨9, 5000, 4001, none⟩)) zero) 27) = ⟨3, 4000, 4000, none, 0, 0⟩ := by
  decide +kernel
theorem test_writeSite :
    (after (.writeSite o 0 (some ⟨[0, 63], 9000, none, none, none, 0, 0, 1, 1⟩)) zero).mgmt.site
      = ⟨[1, 62], 8000, none, none, none, 0, 0, 8, 250⟩ := by
  decide +kernel
theorem test_takeNotices :
    sent (after (.takeNotices o) zero)
      = [5#8, 0#8, 0#8, 0#8, 0#8, 20#8, 255#8, 255#8, 255#8, 0#8, 0#8, 0#8] := by
  decide +kernel
theorem test_setClock : (after (.setClock o 2000) zero).mgmt.clock = ⟨1439, true, 0⟩ := by decide +kernel
theorem test_saveTables : saving.store.writing = some (.save Tables.blank 1) ∧ sent saving = [7#8, 2#8] := by
  decide +kernel
theorem test_loadTables :
    sent (after (.loadTables o) zero) = [8#8, 7#8] ∧ sent (after (.loadTables o) saved) = [8#8, 0#8, 0#8] := by
  decide +kernel
/-- The first row of R67's example. -/
theorem test_presetPosition :
    let t := after (.presetPosition o 0 40000) (putLoop aLoop (putMower 0 (aMower .tracked (some 33000)) zero))
    (mowerAt t 0).offset = 7000 ∧ (mowerAt t 0).reported = 40000 := by
  decide +kernel
theorem test_releaseCapture :
    mowerAt (after (.releaseCapture o 0) (putMower 0 { aMower .tracked none with capA := some 1, capB := some 2, locked := true } zero)) 0
      = aMower .tracked none := by
  decide +kernel
theorem test_dockAll : (after (.dockAll o) zero).zone.dockAll = true := by decide +kernel
theorem test_resumeAll : sent (after (.resumeAll o) zero) = [12#8, 0#8] := by decide +kernel
theorem test_startShow :
    (playerAt (after (.startShow o 0) (putPlayer { Player.blank with cfg := some aShow } zero)) 0).state = .playing := by
  decide +kernel
theorem test_stopShow : (playerAt (after (.stopShow o 0) (putPlayer (playing 9) zero)) 0).state = .idle := by decide +kernel
theorem test_startBackwash :
    (channelAt (after (.startBackwash o 0) (cycleAt .idle 0 0)) 0).stage = .stopping := by
  decide +kernel
theorem test_stopBackwash :
    (channelAt (after (.stopBackwash o 0) (cycleAt .washing 900 1)) 0).cause = 6 := by
  decide +kernel
theorem test_clearFault :
    let s := setChannel 0 (fun c => { c with latch := true }) (cycleAt .idle 0 0)
    (channelAt (after (.clearFault o 0) s) 0).latch = false := by
  decide +kernel
theorem test_restoreSupply :
    (after (.restoreSupply o) { zero with power := { zero.power with shed := true, cause := some .overrun } }).power.shed
      = false := by
  decide +kernel
theorem test_restartLine : (after (.restartLine o) (running 5)).line.restartDue = true := by decide +kernel
theorem test_forward : sent (after (.forward o 48 []) zero) = [20#8, 5#8] := by decide +kernel
theorem test_notPermittedRefusal :
    (after (.notPermittedRefusal o 4#8) zero).mgmt.notPermitted = 1
      ∧ sent (after (.notPermittedRefusal o 4#8) zero) = [4#8, 8#8] := by
  decide +kernel
theorem test_unknownRequest : sent (after (.unknownRequest o 99#8) zero) = [99#8, 10#8] := by decide +kernel
theorem test_forwardTimeout :
    let f : Forwarding := { request := ⟨o, some 20#8, .forward 0 []⟩, target := 9, reply := none, kept := none }
    let s : State := { running 5 with mgmt := { zero.mgmt with proc := .waiting f 1 } }
    sent (after .forwardTimeout s) = [20#8, 9#8] := by
  decide +kernel
theorem test_dockDebounceExpiry :
    (mowerAt (after (.dockDebounceExpiry 3) (putMower 3 { Mower.blank with debounce := 1 } (running 5))) 3).debounce = 0
      ∧ (mowerAt (after (.dockDebounceExpiry 3) (putMower 3 { Mower.blank with debounce := 1 } zero)) 3).debounce = 1 := by
  decide +kernel
theorem test_showStepEnd : (playerAt (after (.showStepEnd 0) (putPlayer (playing 1) (running 5))) 0).loopsDone = 1 := by
  decide +kernel
theorem test_holdTimerExpiry :
    let s := setGroup 4 (fun g => { g with cfg := some aLight, hold := 1, presence := .holding }) (running 5)
    (groupAt (after (.holdTimerExpiry 4) s) 4).presence = .inactive := by
  decide +kernel
/-- The wrap of R162: 1439 is followed by 0. -/
theorem test_minuteAdvance :
    let s : State := { running 5 with mgmt := { zero.mgmt with clock := ⟨1439, true, 2999⟩ } }
    (after .minuteAdvance s).mgmt.clock = ⟨0, true, 0⟩ := by
  decide +kernel
theorem test_backwashStopping :
    (channelAt (after (.backwashStopping 0) (cycleAt .requested 0 0)) 0).timer = 50 := by
  decide +kernel
theorem test_stoppingEnd : (channelAt (after (.stoppingEnd 0) (cycleAt .stopping 1 0)) 0).stage = .reversing := by
  decide +kernel
theorem test_valveBackwashPos :
    (channelAt (after (.valveBackwashPos 0) (cycleAt .reversing 9 1)) 0).timer = 400 := by
  decide +kernel
theorem test_valveTimeout : (channelAt (after (.valveTimeout 0) (cycleAt .reversing 1 2)) 0).cause = 7 := by decide +kernel
theorem test_washingEnd : (channelAt (after (.washingEnd 0) (cycleAt .washing 1 1)) 0).timer = 100 := by decide +kernel
theorem test_rinsingEnd : (channelAt (after (.rinsingEnd 0) (cycleAt .rinsing 1 1)) 0).stage = .restoring := by
  decide +kernel
theorem test_restoreNormalPos :
    (channelAt (after (.restoreNormalPos 0) (cycleAt .restoring 9 0)) 0).count = 1 := by
  decide +kernel
theorem test_restoringTimeout :
    let t := after (.restoringTimeout 0) (cycleAt .restoring 1 1)
    (channelAt t 0).latch = true ∧ (channelAt t 1).latch = true := by
  decide +kernel
theorem test_abortNormalPos : (channelAt (after (.abortNormalPos 0) (cycleAt .aborting 9 0)) 0).stage = .idle := by
  decide +kernel
theorem test_abortingTimeout :
    ((after (.abortingTimeout 0) (cycleAt .aborting 1 1)).notices.list.map Notice.kind)
      = [.storeInvalid, .backwashAborted] := by
  decide +kernel
theorem test_storeCompletion :
    (after (.storeCompletion true) saving).store.imageValid = true
      ∧ (after (.storeCompletion true) saving).store.image.saveCount = 1 := by
  decide +kernel
theorem test_lossOfSupply : (after .lossOfSupply saving).mode = .off := by decide +kernel

/-! ### The hypotheses of the statements are met -/

theorem ready_zero : Ready zero := ⟨rfl, rfl, rfl, rfl⟩

theorem overlapFree_none (n : Nat) : OverlapFree (List.replicate n none) := by
  intro i j p q _ h _
  simp [List.getElem?_replicate] at h

theorem nodeLaw_zero : NodeLaw zero := by
  intro n hn
  rw [List.eq_of_mem_replicate hn]
  decide

theorem witness_stepRuns :
    (∃ s : State, s.pending = .startUp :: [.frameStart]) ∧ zero.pending = [] :=
  ⟨⟨{ zero with pending := [.startUp, .frameStart] }, rfl⟩, rfl⟩

theorem witness_resetAndLoss :
    (∃ s : State, s.mode = .held ∧ s.mode ≠ .on ∧ Instr.frameStart ≠ .resetAsserted ∧ Instr.frameStart ≠ .startUp)
      ∧ (∃ s : State, s.mode = .off ∧ s.mode ≠ .on) ∧ zero.mode ≠ .off
      ∧ (∃ copy n, saving.store.writing = some (.save copy n))
      ∧ ∀ copy n, zero.store.writing ≠ some (.save copy n) := by
  refine ⟨⟨{ zero with mode := .held }, by decide⟩, ⟨{ zero with mode := .off }, by decide⟩, by decide, ⟨_, _, rfl⟩, ?_⟩
  intro copy n h
  cases h

theorem witness_startUp :
    zero.store.writing = none ∧ zero.store.image.valid = false ∧ saved.store.writing = none
      ∧ saved.store.image.valid = true :=
  ⟨rfl, rfl, rfl, by simp [saved, Image.valid, Image.sealed, savedImage]⟩

theorem witness_frameStart :
    ((running 7).mode = .on ∧ (running 7).line.state = .running ∧ (running 7).line.restartDue = false)
      ∧ (∃ s : State, s.mgmt.restartAnswer.isSome = true)
      ∧ (∃ s : State, ∃ f fs, s.mgmt.restartAnswer = none ∧ s.mgmt.proc = .sending (f :: fs))
      ∧ (∃ s : State, ∃ x f fs, s.mgmt.restartAnswer = none ∧ s.mgmt.proc = .forwarding x (f :: fs))
      ∧ (∃ s : State, ∃ x n a as, s.mgmt.restartAnswer = none ∧ s.mgmt.proc = .waiting x n ∧ s.mgmt.answers = a :: as)
      ∧ zero.mgmt.restartAnswer = none ∧ zero.mgmt.proc = .idle ∧ zero.mgmt.answers = [] := by
  let f : Fragment := { dest := 5, number := 3, index := 0, last := true, payload := [] }
  let x : Forwarding := { request := ⟨o, some 20#8, .forward 0 []⟩, target := 9, reply := none, kept := none }
  exact
    ⟨⟨rfl, rfl, rfl⟩, ⟨{ zero with mgmt := { zero.mgmt with restartAnswer := some f } }, rfl⟩,
      ⟨{ zero with mgmt := { zero.mgmt with proc := .sending [f] } }, f, [], rfl, rfl⟩,
      ⟨{ zero with mgmt := { zero.mgmt with proc := .forwarding x [f] } }, x, f, [], rfl, rfl⟩,
      ⟨{ zero with mgmt := { zero.mgmt with proc := .waiting x 25, answers := [⟨1#32, some 1⟩] } }, x, 25, _, _, rfl, rfl,
        rfl⟩,
      rfl, rfl, rfl⟩

theorem witness_breakCounts :
    ∀ n ∈ [2, 1, 4], ∃ s : State, s.mode = .on ∧ s.line.state = .inBreak ∧ s.line.breakCount = some n := by
  intro n _
  exact ⟨{ zero with line := { zero.line with breakCount := some n } }, rfl, rfl, rfl⟩

theorem witness_fragmentGone :
    let f : Fragment := { dest := 5, number := 3, index := 0, last := false, payload := [] }
    let x : Forwarding := { request := ⟨o, some 20#8, .forward 0 []⟩, target := 9, reply := none, kept := none }
    (∃ u : State, u.mgmt.proc = .sending [f, f]) ∧ (∃ u : State, u.mgmt.proc = .forwarding x [f, f])
      ∧ (∃ u : State, u.mgmt.proc = .sending [f] ∧ u.mgmt.queue = [])
      ∧ ∃ u : State, u.mgmt.proc = .sending [f] ∧ u.mgmt.queue = [⟨o, some 1#8, .readStatus⟩] :=
  ⟨⟨{ zero with mgmt := { zero.mgmt with proc := .sending _ } }, rfl⟩,
    ⟨{ zero with mgmt := { zero.mgmt with proc := .forwarding _ _ } }, rfl⟩,
    ⟨{ zero with mgmt := { zero.mgmt with proc := .sending _ } }, rfl, rfl⟩,
    { zero with mgmt := { zero.mgmt with proc := .sending _, queue := _ } }, rfl, rfl⟩

/-- A group below its aim, one above it, one at it. -/
theorem witness_ramp :
    ∀ current ∈ [9, 10, 11], ∃ u : State, (groupAt u 15).cfg = some aLight ∧ (groupAt u 15).online = true
      ∧ (groupAt u 15).aim = 10 ∧ (groupAt u 15).current = current := by
  intro c _
  exact
    ⟨setGroup 15 (fun g => { g with cfg := some aLight, online := true, aim := 10, current := c }) zero, rfl, rfl, rfl, rfl⟩

/-- A restart is due; nodes of every state that moves, a mower on an ACTIVE node, a FORWARD under way. -/
def breaking : State :=
  let s :=
    putNode 0 (aNode .mower .active (some 0))
      (putNode 1 (aNode .pump .stale none) (putNode 2 (aNode .light .dropped none)
        (putMower 0 (aMower .tracked (some 9)) (running 9))))
  { s with
    line := { s.line with restartDue := true }
    mgmt :=
      { s.mgmt with
        proc := .waiting { request := ⟨o, some 20#8, .forward 0 []⟩, target := 9, reply := none, kept := none } 7 } }

theorem witness_lineBreak :
    breaking.mode = .on ∧ breaking.line.state = .running ∧ breaking.line.restartDue = true
      ∧ (mowerAt breaking 0).node = some 0 ∧ ((nodeAt breaking 0).ident.map NodeIdent.kind) = some .mower
      ∧ (nodeAt breaking 0).state = .active ∧ (mowerAt breaking 0).state ≠ .unused ∧ (mowerAt breaking 0).state ≠ .stale
      ∧ (nodeAt breaking 1).state = .stale ∧ (nodeAt breaking 2).state = .dropped
      ∧ (∃ f n, breaking.mgmt.proc = .waiting f n ∧ f.request.kind = some 20#8) :=
  ⟨by decide, by decide, by decide, by decide, by decide, by decide, by decide, by decide, by decide, by decide, _, _,
    rfl, rfl⟩

/-- After a load a mower can be ACQUIRING while its node is STALE or DROPPED. -/
theorem witness_lineBreakMowers :
    ∀ st ∈ [NodeState.stale, .dropped], ∃ s : State, s.mode = .on ∧ s.line.state = .running ∧ s.line.restartDue = true
      ∧ (mowerAt s 0).node = some 0 ∧ (nodeAt s 0).ident.map NodeIdent.kind = some .mower ∧ (nodeAt s 0).state = st
      ∧ (mowerAt s 0).state = .acquiring := by
  intro st _
  exact
    ⟨putNode 0 (aNode .mower st none) (putMower 0 (aMower .acquiring none) { breaking with mode := .on }), rfl, rfl, rfl,
      rfl, rfl, rfl, rfl⟩

theorem witness_lineBreakCycles :
    ∀ st ∈ [Stage.stopping, .reversing, .washing, .rinsing, .restoring, .aborting, .requested, .idle],
      ∃ s : State, s.mode = .on ∧ s.line.state = .running ∧ s.line.restartDue = true ∧ NodeLaw s
        ∧ s.nodes.recs.length = 48 ∧ s.water.channels.length = 8 ∧ (channelAt s 7).stage = st := by
  intro st _
  let s : State :=
    { setChannel 7 (fun c => { c with stage := st }) (running 9) with
      line := { (running 9).line with restartDue := true } }
  exact ⟨s, rfl, rfl, rfl, nodeLaw_zero, rfl, rfl, rfl⟩

def late : Placement := ⟨1, 8, 7, 0⟩

def always : Placement := ⟨28, 1, 0, 1⟩

def twoPlaced : State := { running 7 with line := { (running 7).line with active := [some late, some always] } }

theorem witness_overlap :
    SlotLaw twoPlaced ∧ twoPlaced.line.active[0]? = some (some late) ∧ twoPlaced.line.active[1]? = some (some always)
      ∧ twoPlaced.line.frame % late.divisor = late.phase ∧ twoPlaced.line.frame % always.divisor = always.phase
      ∧ late.phase < late.divisor ∧ always.phase < always.divisor := by
  refine ⟨⟨?_, ?_, ?_, ?_⟩, rfl, rfl, by decide, by decide, by decide, by decide⟩
  · intro i j a b hij ha hb
    change [some late, some always][i]? = some (some a) at ha
    change [some late, some always][j]? = some (some b) at hb
    rcases i with _ | _ | i <;> rcases j with _ | _ | j <;> simp at ha hb hij <;> subst ha hb <;> decide
  · exact overlapFree_none 64
  · exact overlapFree_none 64
  · intro copy n h
    cases h

theorem witness_placement :
    placementFor 1 twoPlaced = some late ∧ placementFor 28 twoPlaced = some always ∧ placementFor 2 twoPlaced = none := by
  decide

/-- One placement on slot 1 for record 0. -/
def served (kind : NodeKind) (st : NodeState) : State :=
  placed ⟨1, 1, 0, 0⟩ (putNode 0 (aNode kind st (some 0)) (running 5))

theorem witness_idleSlots :
    (served .pump .dropped).line.state = .running ∧ placementFor 1 (served .pump .dropped) = some ⟨1, 1, 0, 0⟩
      ∧ (nodeAt (served .pump .dropped) 0).state ≠ .active ∧ (nodeAt (served .pump .dropped) 0).state ≠ .stale
      ∧ placementFor 2 (served .pump .dropped) = none ∧ zero.line.state = .inBreak ∧ zero.mode = .on := by
  decide

theorem witness_halves :
    (∃ half : List Sampled,
        let bs := half.map Sampled.value
        bs.length = 6 ∧ bs.getD 0 0#8 = BitVec.ofNat 8 (128 + 9) ∧ crc8 (bs.take 5) = bs.getD 5 0#8)
      ∧ ∃ half : List Sampled, (half.map Sampled.value).length ≠ 6 :=
  ⟨⟨half 9 [1#8, 2#8, 3#8, 4#8], by decide +kernel⟩, ⟨[], by decide⟩⟩

theorem witness_commands :
    (∃ s : State, (mowerAt s 0).node = some 0 ∧ s.zone.permits.getD 0 none = some .slow)
      ∧ (∀ i, i < 4 → (mowerAt zero i).node = some 0 → zero.zone.permits.getD i none = none)
      ∧ (∃ c ∈ (cycleAt .idle 0 0).water.channels, ∃ r, c.cfg = some r ∧ r.kind ≠ .valve ∧ r.node = some 0)
      ∧ (∃ s : State, ∃ c ∈ s.water.channels, ∃ r, c.cfg = some r ∧ r.kind = .valve ∧ r.node = some 1 ∧ c.requested = 1)
      ∧ (∃ s : State, ∃ g ∈ s.light, ∃ r, g.cfg = some r ∧ r.node = some 2)
      ∧ ∃ s : State, (loadAt s 27).node = some 0 := by
  refine
    ⟨⟨{ putMower 0 (aMower .tracked none) zero with zone := { zero.zone with permits := [some .slow] } }, rfl, rfl⟩, ?_, ?_,
      ?_, ?_, ?_⟩
  · decide
  · exact ⟨_, List.mem_of_getElem? (i := 0) rfl, _, rfl, by decide, rfl⟩
  · exact
      ⟨putChannel 0 { Channel.blank with cfg := some aValve, requested := 1 } zero, _,
        List.mem_of_getElem? (i := 0) rfl, _, rfl, rfl, rfl, rfl⟩
  · exact
      ⟨setGroup 0 (fun g => { g with cfg := some aLight }) zero, _, List.mem_of_getElem? (i := 0) rfl, _, rfl, rfl⟩
  · exact ⟨{ zero with power := { zero.power with loads := List.replicate 28 { Load.blank with node := some 0 } } }, rfl⟩

theorem witness_goodSample :
    (served .pump .active).mode = .on ∧ (served .pump .active).line.state = .running
      ∧ placementFor 1 (served .pump .active) = some ⟨1, 1, 0, 0⟩ ∧ (nodeAt (served .pump .active) 0).state = .active
      ∧ (nodeAt (served .pump .active) 0).ident = some ⟨9, 0x11#32, .pump⟩
      ∧ judgeHeard 9 0 (some (half 9 [0#8, 0#8, 0#8, 0#8])) = .good false 0#32
      ∧ judgeHeard 9 0 (some (half 9 [0#8, 0#8, 0#8, 3#8])) = .good false 3#32
      ∧ judgeHeard 9 0 (some (half 9 [0#8, 0#8, 0#8, 4#8])) = .good false 4#32
      ∧ judgeHeard 9 0 (some (half 9 [0#8, 0#8, 0x0F#8, 0xF3#8])) = .good false 0xFF3#32
      ∧ (nodeAt (served .pump .active) 0).code = some 0 ∧ (nodeAt (served .pump .active) 0).cand = none := by
  decide +kernel

/-- The bits that a layout gives as sent 0 are held as 0, the code as R27 takes it. -/
theorem test_sampleTaken :
    sampleTaken .mower 0xFFFFFFF2#32 = 0xFFFFFFC2#32 ∧ sampleTaken .pump 0xFFFFFFF9#32 = 0xFFFFF000#32
      ∧ sampleTaken .dock 0xFFFFFFF2#32 = 0xFFF00002#32 ∧ sampleTaken .supply 0xFFFFFFF2#32 = 0xFFF80002#32
      ∧ sampleTaken .weather 0xFFFFFFF5#32 = 5#32 := by
  decide

/-- A MOWER node that was STALE, with a mower that is STALE on it. -/
theorem witness_mowerFound :
    let s := putMower 0 (aMower .stale none) (served .mower .stale)
    placementFor 1 s = some ⟨1, 1, 0, 0⟩ ∧ (nodeAt s 0).state = .stale ∧ (mowerAt s 0).state = .stale
      ∧ (mowerAt s 0).node = some 0 ∧ judgeHeard 9 0 (some (half 9 [0#8, 0#8, 0#8, 0#8])) = .good false 0#32 := by
  decide +kernel

theorem witness_codeReports :
    (∃ u : State, u.mgmt.site.level = some 47) ∧ zero.mgmt.site.level ≠ some 47 :=
  ⟨⟨{ zero with mgmt := { zero.mgmt with site := { zero.mgmt.site with level := some 47 } } }, rfl⟩, by decide⟩

theorem witness_filterMonitor :
    let u := cycleAt .requested 0 0
    ((channelAt u 0).cfg = some aChannel ∧ aChannel.kind = .filter ∧ (channelAt u 0).latch = false
        ∧ (channelAt u 0).stage = .requested ∧ ∃ y, LiveNode u aChannel.node .pump y ∧ y.code ≠ none)
      ∧ (channelAt u 7).cfg = none :=
  ⟨⟨rfl, rfl, rfl, rfl, _, ⟨0, _, rfl, rfl, rfl, rfl, rfl⟩, nofun⟩, rfl⟩

/-- A third draw over the budget with the shed state reset, one with it set, and a draw at the budget. -/
theorem witness_supplySample :
    let u : State := { zero with power := { zero.power with run := 2 } }
    zero.mgmt.site.budget < (0x80000#32).toNat / 524288 ∧ min 3 (u.power.run + 1) = 3 ∧ u.power.shed = false
      ∧ (∃ v : State, v.power.run = 3 ∧ v.power.shed = true) ∧ ¬ zero.mgmt.site.budget < (0#32).toNat / 524288 :=
  ⟨by decide, by decide, rfl, ⟨{ zero with power := { zero.power with run := 3, shed := true } }, rfl, rfl⟩, by decide⟩

theorem witness_missedSample :
    (nodeAt (served .pump .stale) 0).state = .stale ∧ placementFor 1 (served .pump .stale) = some ⟨1, 1, 0, 0⟩
      ∧ judgeHeard 9 0 none = .silence ∧ judgeHeard 9 0 (some (half 10 [0#8, 0#8, 0#8, 0#8])) = .failed := by
  decide +kernel

/-- A MOWER node one missed sample before STALE, a mower in TRACKED bound to it and one bound to nothing. -/
theorem witness_missedMower :
    let s := putMower 0 (aMower .tracked (some 5))
      (putNode 0 { aNode .mower .active (some 1) with missed := 7 } (served .mower .active))
    placementFor 1 s = some ⟨1, 1, 0, 0⟩ ∧ (nodeAt s 0).ident = some ⟨9, 0x11#32, .mower⟩ ∧ (nodeAt s 0).state = .active
      ∧ (nodeAt (after (.nodeSlotEnd 1 none) s) 0).state = .stale ∧ (mowerAt s 0).node = some 0
      ∧ (mowerAt s 0).state = .tracked ∧ (mowerAt s 3).node = none := by
  decide +kernel

theorem witness_managementSlots :
    (running 5).mode = .on ∧ (running 5).line.state = .running
      ∧ (contend [bid 9 1#32 (half 9 [0#8, 0#8])]).map (fun w => readFragment w.address (w.half.map Sampled.value))
        = some (some { number := 0, index := 0, last := false, length := 0, payload := [] })
      ∧ (contend [bid 9 1#32 []]).map (fun w => readFragment w.address (w.half.map Sampled.value)) = some none := by
  decide +kernel

/-- A fragment written out byte by byte, ones in the bits sent 0, passes, as does one of the longest length; without the
lead mark, with another address, with another check code, or one byte short it fails, as does no byte at all. -/
theorem test_readFragment :
    let frag := fun (lead : Byte) (rest : List Byte) => (lead :: rest) ++ [crc8 (lead :: rest)]
    let read := some { number := 10, index := 3, last := true, length := 2, payload := [0x55#8, 0xAA#8] }
    readFragment 9 (frag 0x89#8 [0xA7#8, 0x2F#8, 0x55#8, 0xAA#8]) = read
      ∧ readFragment 9 (frag 0x49#8 [0xA7#8, 0x2F#8, 0x55#8, 0xAA#8]) = none
      ∧ readFragment 9 (frag 0x8A#8 [0xA7#8, 0x2F#8, 0x55#8, 0xAA#8]) = none
      ∧ readFragment 9 [0x89#8, 0xA7#8, 0x2F#8, 0x55#8, 0xAA#8, 0x00#8] = none
      ∧ readFragment 9 (frag 0x89#8 [0xA7#8, 0x2F#8, 0x55#8]) = none
      ∧ readFragment 9 [] = none
      ∧ (readFragment 9 (frag 0x89#8 (0xA7#8 :: 0xF0#8 :: List.replicate 15 1#8))).map UpFragment.length = some 15 := by
  decide +kernel

/-- The premises of the clause on what a fragment gives, at the shortest and the longest length, passing and failing. -/
theorem witness_readFragment :
    let passes := fun (bs : List Byte) =>
      let length := ((bs.getD 2 0#8).extractLsb' 4 4).toNat
      bs.length = length + 4 ∧ bs.getD 0 0#8 = BitVec.ofNat 8 (128 + 63)
        ∧ bs.getD (length + 3) 0#8 = crc8 (bs.take (length + 3))
    let frag := fun (bs : List Byte) => bs ++ [crc8 bs]
    passes (frag [0xBF#8, 0xFF#8, 0x00#8]) ∧ passes (frag (0xBF#8 :: 0x00#8 :: 0xF0#8 :: List.replicate 15 0#8))
      ∧ ¬ passes [] ∧ ¬ passes (frag [0x80#8, 0xFF#8, 0x00#8]) := by
  decide +kernel

theorem witness_lowestPair :
    let b := bid 9 1#32 []
    let noisy : Bid := { b with arbitration := { b.arbitration with a := 0#38 } }
    let pair := fun (d : Bid) => d.address % 64 * 4294967296 + d.serial.toNat
    (contend [noisy, bid 63 0#32 []]).map Won.address = some 9
      ∧ ([noisy, bid 63 0#32 []].filter (fun d => decide (pair d = pair noisy))).length = 1
      ∧ (PairSampled.value noisy.arbitration).toNat = pair noisy := by
  decide +kernel

theorem witness_joins :
    let b := bid 63 0x11#32 (joinHalf 2#8)
    (contend [b]).map (fun w => (w.address, w.serial)) = some (63, 0x11#32)
      ∧ (contend [b]).bind (fun w => readFragment w.address (w.half.map Sampled.value))
        = some { number := 0, index := 0, last := true, length := 2, payload := [0x20#8, BitVec.ofNat 8 NodeKind.pump.number] }
      ∧ (nodeAt (served .pump .provisioned) 0).ident = some ⟨9, 0x11#32, .pump⟩
      ∧ (nodeAt (served .light .provisioned) 0).ident = some ⟨9, 0x11#32, .light⟩
      ∧ (∀ n ∈ (running 5).nodes.recs, n.ident.isNone = true) ∧ (running 5).nodes.joiners.length < 4
      ∧ (running 5).mgmt.answers.length < 8 ∧ (running 5).mgmt.proc = .idle := by
  decide +kernel

/-- A MOWER record that has not joined, the mowers bound to it STALE with and without a valid offset and UNREFERENCED, and
one bound to nothing: how the join takes them; a join taken while the node is ACTIVE moves none. -/
theorem witness_joinsMowers :
    let bound := putMower 3 { aMower .stale none with node := none }
      ∘ putMower 2 { aMower .unreferenced none with offsetValid := false }
      ∘ putMower 1 { aMower .stale none with offsetValid := false } ∘ putMower 0 { aMower .stale none with acquire := 1 }
    let states := fun (st : NodeState) =>
      (after (.managementSlotEnd 29 [bid 63 0x11#32 (joinHalf 1#8)]) (bound (served .mower st))).pos.mowers.map
        (fun m => (m.state, m.acquire))
    (nodeAt (bound (served .mower .provisioned)) 0).ident = some ⟨9, 0x11#32, .mower⟩
      ∧ states .provisioned = [(.acquiring, 0), (.unreferenced, 0), (.unreferenced, 0), (.stale, 0)]
      ∧ states .active = [(.stale, 1), (.stale, 0), (.unreferenced, 0), (.stale, 0)] := by
  decide +kernel

/-- A record that waits for its answer, one that does not, and lists of answers with its serial, full without it, and with
room. -/
theorem witness_joinsAnswers :
    let waits := putNode 0 { aNode .pump .active (some 0) with answerPending := true } (running 5)
    let answer := fun (n : Nat) => ({ serial := BitVec.ofNat 32 n, address := none } : JoinAnswer)
    let full := List.map answer [1, 2, 3, 4, 5, 6, 7, 8]
    (nodeAt waits 0).answerPending = true ∧ (nodeAt waits 0).state = .active
      ∧ (nodeAt waits 0).ident = some ⟨9, 0x11#32, .pump⟩ ∧ waits.mgmt.proc = .idle
      ∧ (nodeAt (served .pump .active) 0).answerPending = false ∧ (nodeAt (served .pump .active) 0).state = .active
      ∧ (∃ b ∈ [answer 1, answer 0x11], b.serial = 0x11#32)
      ∧ full.length = 8 ∧ ¬ ∃ b ∈ full, b.serial = 0x11#32 := by
  decide +kernel

/-- An answer takes the place of one for its serial, joins a list with room, and is dropped by a full list. -/
theorem test_joinAnswers :
    let a : JoinAnswer := { serial := 0x11#32, address := some 9 }
    let answer := fun (n : Nat) => ({ serial := BitVec.ofNat 32 n, address := none } : JoinAnswer)
    let full := List.map answer [1, 2, 3, 4, 5, 6, 7, 8]
    let join := fun (l : List JoinAnswer) =>
      (after (.managementSlotEnd 29 [bid 63 0x11#32 (joinHalf 2#8)])
        { served .pump .provisioned with mgmt := { zero.mgmt with answers := l } }).mgmt.answers
    join [answer 0x11, answer 2] = [a, answer 2] ∧ join [answer 2] = [answer 2, a] ∧ join full = full := by
  decide +kernel

/-- A kind value that is none of the ten, a joiner already listed, and a full list without the joiner. -/
theorem witness_joinsUnknown :
    let b := bid 63 0x11#32 (joinHalf 10#8)
    let joiner := fun (n : Nat) => ({ serial := BitVec.ofNat 32 n, kind := 2, first := 1, latest := 1 } : Joiner)
    (contend [b]).bind (fun w => readFragment w.address (w.half.map Sampled.value))
        = some { number := 0, index := 0, last := true, length := 2, payload := [0x20#8, 10#8] }
      ∧ 10 ≤ (10#8 : Byte).toNat ∧ (∃ j ∈ [joiner 0x11], j.serial = 0x11#32)
      ∧ 4 ≤ (List.map joiner [1, 2, 3, 4]).length ∧ ¬ ∃ j ∈ List.map joiner [1, 2, 3, 4], j.serial = 0x11#32 := by
  decide +kernel

theorem witness_busyProcessor :
    asRequest (.readStatus o) = some ⟨o, some 1#8, .readStatus⟩ ∧ (busy 3 none).mode = .on
      ∧ (busy 3 none).mgmt.proc ≠ .idle ∧ (busy 3 none).mgmt.queue.length < 4
      ∧ (busy 4 none).mgmt.queue.length = 4 ∧ (busy 4 none).mgmt.heldReq = none
      ∧ (busy 4 (some ⟨o, some 1#8, .readStatus⟩)).mgmt.heldReq.isSome = true := by
  decide

theorem witness_readStatus : Ready zero ∧ Ready (running 65535) := ⟨ready_zero, rfl, rfl, rfl, rfl⟩

theorem ready_saved : Ready saved := ⟨rfl, rfl, rfl, rfl⟩

/-- A store that writes, the processor idle again. -/
def writing : State := { saving with mgmt := { saving.mgmt with proc := .idle } }

theorem ready_writing : Ready writing := ⟨rfl, rfl, rfl, rfl⟩

/-- A read pointer that names the STORED space. -/
def pointed : State := { zero with mgmt := { zero.mgmt with readPtr := some ⟨1, 0, 1⟩ } }

theorem witness_readsRefused :
    (Ready pointed ∧ pointed.mgmt.readPtr = some ⟨1, 0, 1⟩)
      ∧ Table.ofNumber 13 = none ∧ Table.ofNumber 22 = none ∧ (Table.ofNumber 3 = some .joiners ∧ Table.joiners.inImage = false)
      ∧ (Ready writing ∧ writing.store.writing.isSome = true ∧ Table.site.inImage = true)
      ∧ (zero.store.writing = none ∧ zero.store.imageValid = false)
      ∧ (saved.store.writing = none ∧ saved.store.imageValid = true ∧ Table.site.size < 2) := by
  refine ⟨⟨⟨rfl, rfl, rfl, rfl⟩, rfl⟩, rfl, rfl, ⟨rfl, rfl⟩, ⟨ready_writing, rfl, rfl⟩, ⟨rfl, rfl⟩, rfl, rfl, by decide⟩

theorem witness_readsGive :
    zero.mgmt.readPtr = none ∧ Table.ofNumber 1 = some .slotmap ∧ Table.slotmap ≠ .nodeChanges
      ∧ 64 ≤ Table.slotmap.size ∧ 63 ≤ Table.slotmap.size ∧ Ready saved ∧ saved.store.imageValid = true
      ∧ saved.store.writing = none ∧ Table.slotmap.inImage = true := by
  refine ⟨rfl, rfl, by decide, by decide, by decide, ready_saved, rfl, rfl, rfl⟩

/-- An empty zone record, a step never written and the summary of GRANTS as they read at power-on (R107, R148, R176), and
the first and last load entries that are not the summary. -/
theorem test_entries :
    workingEntry zero .zones 31 = List.replicate 23 0xFF#8
      ∧ workingEntry zero .steps 95 = [0#8, 0#8, 0#8, 0#8, 0#8, 1#8, 0xFF#8]
      ∧ (workingEntry zero .grants 28).take 5 = [0#8, 0#8, 0#8, 0#8, 0#8]
      ∧ (workingEntry zero .grants 28).drop 6 = [0#8, 0xFF#8, 0xFF#8]
      ∧ (workingEntry zero .grants 27).length = 5 ∧ (workingEntry zero .grants 0).length = 5 := by
  decide +kernel

/-- A FORWARD of 20 bytes goes in two fragments (chapter 10, A FORWARD under a full queue), and the fragments of the
greatest message; a fragment of message 1 to address 30 as its bytes. -/
theorem test_fragments :
    (fragments 30 1 (List.replicate 20 7#8)).map (fun f => (f.index, f.last, f.payload.length)) = [(0, false, 12), (1, true, 8)]
      ∧ (fragments 63 15 (List.replicate 96 7#8)).length = 8
      ∧ (⟨30, 1, 1, true, [7#8]⟩ : Fragment).bytes = [0x9E#8, 0x13#8, 0x10#8, 7#8] := by
  decide +kernel

theorem witness_nodeChanges :
    ∀ l ∈ [[], [(⟨none, 1, 5⟩ : Change)], [⟨none, 1, 5⟩, ⟨some 1, 2, 9⟩]],
      ∃ s, Ready s ∧ (nodeAt s 47).changes = l ∧ (nodeAt s 47).changes.length ≤ 2 := by
  intro l hl
  refine ⟨putNode 47 { Node.blank with changes := l } zero, ⟨rfl, rfl, rfl, rfl⟩, rfl, ?_⟩
  show l.length ≤ 2
  revert l
  decide

theorem witness_nodeChangesPointer :
    ∀ record ∈ [0, 47, 48, 49], ∃ s : State, Ready s ∧ s.mgmt.readPtr = some ⟨0, 4, record⟩ := by
  intro r _
  exact ⟨{ zero with mgmt := { zero.mgmt with readPtr := some ⟨0, 4, r⟩ } }, ⟨rfl, rfl, rfl, rfl⟩, rfl⟩

theorem witness_writeEntries :
    Ready zero ∧ Table.ofNumber 15 = none ∧ (Table.ofNumber 20 = some .grants ∧ Table.grants.written = none)
      ∧ Table.ofNumber 10 = some .steps ∧ Table.steps.written = some 7 ∧ [0#8].length ≠ 1 * 7 := by
  refine ⟨ready_zero, rfl, ⟨rfl, rfl⟩, rfl, rfl, by decide⟩

theorem witness_writeSlotmap :
    ∃ s : State, Ready s ∧ (∃ q, s.line.next[0]? = some (some q) ∧ q = ⟨1, 1, 0, 0⟩)
      ∧ ∀ (j : Nat) (q : Placement), j ≠ 63 → s.line.next[j]? = some (some q) → q.slot ≠ 28 := by
  refine ⟨placed ⟨1, 1, 0, 0⟩ zero, ⟨rfl, rfl, rfl, rfl⟩, ⟨_, rfl, rfl⟩, ?_⟩
  intro j q _ h
  by_cases hj : j = 0
  · subst hj
    have : q = ⟨1, 1, 0, 0⟩ := by
      have h' : some (some (⟨1, 1, 0, 0⟩ : Placement)) = some (some q) := h
      simpa using h'.symm
    subst this
    decide
  · have h' : ((List.replicate 64 (none : Option Placement)).set 0 (some ⟨1, 1, 0, 0⟩))[j]? = some (some q) := h
    rw [List.getElem?_set_ne (Ne.symm hj), List.getElem?_replicate] at h'
    split at h' <;> simp at h'

theorem witness_writeNodes :
    Ready (served .pump .active) ∧ (served .pump .active).nodes.recs.length = 48
      ∧ (nodeAt (served .pump .active) 0).state = .active ∧ (nodeAt (served .pump .active) 47).state = .empty
      ∧ (nodeAt (served .pump .active) 0).ident = some ⟨9, 0x11#32, .pump⟩
      ∧ NodeKind.ofNumber 10 = none ∧ NodeKind.ofNumber 9 = some .supply := by
  refine ⟨⟨rfl, rfl, rfl, rfl⟩, by decide, by decide, by decide, by decide, by decide, by decide⟩

theorem witness_writeLoops :
    ∃ s : State, Ready s ∧ (∃ m ∈ s.pos.mowers, m.node.isSome = true ∧ m.loop = 0)
      ∧ s.pos.loops.getD 0 none = some aLoop ∧ s.pos.loops.getD 3 none = none
      ∧ ¬ ((∃ m ∈ s.pos.mowers, m.node.isSome = true ∧ m.loop = 3)
        ∨ ∃ z ∈ s.zone.zones, ∃ r, z = some r ∧ r.loop = 3) := by
  refine
    ⟨putLoop aLoop (putMower 0 (aMower .tracked none) zero), ⟨rfl, rfl, rfl, rfl⟩,
      ⟨_, List.mem_of_getElem? (i := 0) rfl, rfl, rfl⟩, rfl, rfl, ?_⟩
  rintro (h | ⟨z, hz, r, rfl, _⟩)
  · revert h
    decide
  · have := List.eq_of_mem_replicate (show some r ∈ List.replicate 32 none from hz)
    cases this

theorem witness_writeMowers :
    ∃ s : State, Ready s ∧ (∃ m, s.pos.mowers[3]? = some m ∧ m.loop = 0 ∧ m.node = some 0)
      ∧ s.pos.loops.getD 0 none ≠ none ∧ s.pos.loops.getD 1 none = none :=
  ⟨putLoop aLoop (putMower 3 (aMower .tracked none) zero), ⟨rfl, rfl, rfl, rfl⟩, ⟨_, rfl, rfl, rfl⟩, by decide, rfl⟩

theorem witness_writeZones :
    (∃ s : State, Ready s ∧ ∃ c ∈ s.water.channels, ∃ r, c.cfg = some r ∧ r.kind = .filter ∧ r.discharge = 9 ∧ c.stage ≠ .idle)
      ∧ (∀ c ∈ zero.water.channels, c.cfg.isNone = true) ∧ ZoneKind.ofNumber 4 = none ∧ ActiveWhen.ofNumber 3 = none
      ∧ ZoneKind.ofNumber 3 = some .light ∧ ActiveWhen.ofNumber 2 = some .duringShow
      ∧ (putLoop aLoop zero).pos.loops.getD 0 none = some aLoop :=
  ⟨⟨cycleAt .washing 9 1, ⟨rfl, rfl, rfl, rfl⟩, _, List.mem_of_getElem? (i := 0) rfl, _, rfl, rfl, rfl, by decide⟩,
    by decide, rfl, rfl, rfl, rfl, rfl⟩

/-- A write that leaves F set, F and the clogged flag before it, and the thresholds: the flag goes, stays, comes. -/
theorem witness_clogged :
    let s := fun (f : Option Nat) (on : Bool) =>
      setChannel 0 (fun c => { c with filt := f, clogged := on }) (cycleAt .idle 0 0)
    (∀ (f : Option Nat) (on : Bool), Ready (s f on) ∧ (s f on).water.channels.length = 8
        ∧ (channelAt (s f on) 0).stage = .idle ∧ (channelAt (s f on) 0).cfg = some aChannel
        ∧ (channelAt (s f on) 0).filt = f ∧ (channelAt (s f on) 0).clogged = on)
      ∧ ¬ (∃ c ∈ (s none false).water.channels, ∃ r, c.cfg = some r ∧ r.kind = .filter ∧ r.valve = 0 ∧ c.stage ≠ .idle)
      ∧ 7999 / 16 < aChannel.clog ∧ aChannel.clog ≤ 8000 / 16 := by
  refine ⟨fun f on => ⟨⟨rfl, rfl, rfl, rfl⟩, rfl, rfl, rfl, rfl, rfl⟩, ?_, by decide, by decide⟩
  rintro ⟨c, hc, r, -, -, -, h⟩
  revert c
  decide

theorem witness_writeChannels :
    (Ready (cycleAt .washing 9 1) ∧ (cycleAt .washing 9 1).water.channels.length = 8
        ∧ (channelAt (cycleAt .washing 9 1) 0).stage ≠ .idle)
      ∧ (channelAt zero 7).stage = .idle ∧ (∀ c ∈ zero.water.channels, c.cfg.isNone = true)
      ∧ ChannelKind.ofNumber 3 = none ∧ ChannelKind.ofNumber 2 = some .valve :=
  ⟨⟨⟨rfl, rfl, rfl, rfl⟩, rfl, by decide⟩, by decide, by decide, rfl, rfl⟩

theorem witness_writeShows :
    (playerAt zero 3).state = .idle ∧ (playerAt (putPlayer (playing 9) zero) 0).state ≠ .idle
      ∧ Ready (putPlayer (playing 9) zero) ∧ (playerAt (putPlayer (playing 9) zero) 0).cfg = some aShow :=
  ⟨by decide, by decide, ⟨rfl, rfl, rfl, rfl⟩, rfl⟩

theorem witness_writeLights : LightMode.ofNumber 4 = none ∧ LightMode.ofNumber 3 = some .always ∧ Ready zero :=
  ⟨rfl, rfl, ready_zero⟩

theorem witness_writes : Ready zero ∧ 3 < 4 ∧ 3 ≤ 3 ∧ 27 < 28 ∧ 27 ≤ 27 ∧ 0 < 1 := ⟨ready_zero, by decide⟩

theorem witness_takeNotices : Ready zero ∧ zero.notices.list.length < 16 := ⟨ready_zero, by decide⟩

theorem condition_zero : ConditionLaw zero := ⟨rfl, rfl, rfl⟩

theorem witness_clock :
    (Ready zero ∧ ConditionLaw zero)
      ∧ (∀ count ∈ [2998, 2999], ∃ s : State, s.mode = .on ∧ s.line.state = .running ∧ s.mgmt.clock.valid = true
        ∧ s.mgmt.clock.count = count ∧ ConditionLaw s)
      ∧ zero.mgmt.clock.valid = false ∧ zero.line.state = .inBreak := by
  refine ⟨⟨ready_zero, condition_zero⟩, fun count _ => ?_, rfl, rfl⟩
  exact ⟨{ running 5 with mgmt := { zero.mgmt with clock := ⟨1439, true, count⟩ } }, rfl, rfl, rfl, rfl, rfl, rfl, rfl⟩

/-- The phase of a dark empty group becomes DONE at minute 0. -/
theorem test_emptyGroupMinute :
    let s : State :=
      { running 5 with
        mgmt := { zero.mgmt with clock := ⟨1439, true, 2999⟩, site := { zero.mgmt.site with dusk := 1200, dawn := 360 } } }
    (groupAt s 0).cfg = none ∧ (groupAt (after .minuteAdvance s) 0).dark = true
      ∧ (groupAt (after .minuteAdvance s) 0).evening = .done := by
  decide +kernel

theorem witness_saves :
    (Ready writing ∧ writing.store.writing.isSome = true) ∧ Ready zero ∧ zero.store.writing = none :=
  ⟨⟨ready_writing, rfl⟩, ready_zero, rfl⟩

theorem witness_completion :
    zero.mode = .on ∧ zero.store.writing = none ∧ (∃ copy n, writing.store.writing = some (.save copy n))
      ∧ ∃ s : State, ∃ copy, s.mode = .on ∧ s.store.writing = some (.offsets copy) ∧ copy[3]? = some (5, true)
        ∧ s.store.image.tables.mowers[3]?.isSome = true :=
  ⟨rfl, rfl, ⟨_, _, rfl⟩,
    { zero with store := { zero.store with writing := some (.offsets (List.replicate 4 (5, true))) } }, _, rfl, rfl, rfl,
    rfl⟩

/-- A valid image two of whose slot entries overlap. -/
def overlapping : State :=
  let image := ((List.replicate 64 none).set 0 (some ⟨1, 1, 0, 0⟩)).set 1 (some ⟨1, 2, 1, 0⟩)
  { saved with store := { saved.store with image := savedImage { Tables.blank with slots := image } 11 } }

/-- Of two entries of an image that overlap, the second is left free and counted. -/
theorem test_overlappingImage :
    sent (after (.loadTables o) overlapping) = [8#8, 0#8, 1#8]
      ∧ (after (.loadTables o) overlapping).line.next.getD 1 none = none := by
  decide +kernel

theorem size_zero : SizeLaw zero := by
  refine
    ⟨rfl, rfl, rfl, by decide, rfl, rfl, rfl, rfl, rfl, rfl, rfl, rfl, rfl, rfl, rfl, rfl, rfl, rfl, by decide,
      ⟨rfl, rfl, rfl, rfl, rfl, rfl, rfl, rfl, rfl, rfl⟩, ?_⟩
  intro copy n h
  cases h

theorem slot_zero : SlotLaw zero := by
  refine ⟨overlapFree_none 64, overlapFree_none 64, overlapFree_none 64, ?_⟩
  intro copy n h
  cases h

theorem witness_loads :
    Ready saved ∧ saved.store.writing = none ∧ saved.store.imageValid = true ∧ SizeLaw saved
      ∧ OverlapFree saved.line.next ∧ OverlapFree saved.store.image.tables.slots ∧ zero.store.imageValid = false :=
  ⟨ready_saved, rfl, rfl, size_zero, overlapFree_none 64, overlapFree_none 64, rfl⟩

/-- The premises of an accepted load, at an image whose entries overlap. -/
theorem witness_loadsOverlapping :
    Ready overlapping ∧ overlapping.store.writing = none ∧ overlapping.store.imageValid = true ∧ SizeLaw overlapping
      ∧ OverlapFree overlapping.line.next ∧ ¬ OverlapFree overlapping.store.image.tables.slots := by
  refine ⟨ready_saved, rfl, rfl, size_zero, overlapFree_none 64, fun h => ?_⟩
  have := h 0 1 ⟨1, 1, 0, 0⟩ ⟨1, 2, 1, 0⟩ (by decide) rfl rfl
  exact absurd this (by decide)

/-- A load that finds a cycle in a stage, its valve node in BACKWASH_POS; the image keeps the nodes and the channels. -/
def loading (stage : Stage) : State :=
  let image :=
    { Tables.blank with
      nodes := (List.replicate 48 none).set 0 (some ⟨9, 0x11#32, .pump⟩) |>.set 1 (some ⟨9, 0x11#32, .valve⟩)
      channels := [some aChannel, some aValve, none, none, none, none, none, none] }
  let s := cycleAt stage 9 1
  { s with store := { s.store with image := savedImage image 11, imageValid := true } }

theorem test_loadAborts :
    let move := fun st => let c := channelAt (after (.loadTables o) (loading st)) 0; (c.stage, c.timer, c.cause)
    move .washing = (.aborting, 250, 9) ∧ move .aborting = (.aborting, 9, 0) ∧ move .requested = (.idle, 0, 9) := by
  decide +kernel

/-- Light group 0 at 200 of its full draw 100 and group 1 requesting its full draw 1000; the image gives group 1 a full
draw of 100 and the site a budget of 200. -/
def dimming : State :=
  let light (node : Nat) : LightRec := { aLight with node := some node, mode := .always, onLevel := 255 }
  let load (full : Nat) : LoadImage := { cls := 1, minDraw := 0, fullDraw := full, node := none }
  let loads (full : Nat) := ((List.replicate 28 (load 0)).set 8 (load 100)).set 9 (load full)
  let lamp (address : Nat) : NodeIdent := ⟨address, BitVec.ofNat 32 address, .light⟩
  let image :=
    { Tables.blank with
      site := { Site.blank with budget := 200 }, nodes := (List.replicate 48 none).set 2 (some (lamp 2)) |>.set 3 (some (lamp 3))
      lights := ((List.replicate 16 none).set 0 (some (light 2))).set 1 (some (light 3)), loads := loads 100 }
  let group (node : Nat) : LightGroup :=
    { LightGroup.blank with
      cfg := some (light node), online := true, scheduled := 255, target := 255, aim := 255, current := 200, cap := 255 }
  let lampNode (address : Nat) : Node :=
    { Node.blank with ident := some (lamp address), state := .active, code := some 0 }
  let s := putNode 2 (lampNode 2) (putNode 3 (lampNode 3) (setGroup 0 (fun _ => group 2) (setGroup 1 (fun _ => group 3) zero)))
  settle
    { s with
      power :=
        { s.power with
          loads := (loads 1000).map (fun l =>
            { cls := l.cls, minDraw := l.minDraw, fullDraw := l.fullDraw, node := l.node, request := 0, grant := 0 }) }
      mgmt := { s.mgmt with site := { s.mgmt.site with budget := 2000 } }
      store := { s.store with image := savedImage image 11, imageValid := true } }

/-- The pass of step 9 serves the request of 1000 handed before it: group 0 is granted 18 of 200, a cap level of 45, and
its level falls to it; the next pass grants both groups 100, and the level ramps up from 45. -/
theorem test_loadPass :
    ((groupAt dimming 0).current, (loadAt dimming 8).grant, (loadAt dimming 9).grant) = (200, 100, 1000)
      ∧ let t := after (.loadTables o) dimming
        ((groupAt t 0).current, (groupAt t 0).cap, (loadAt t 8).grant, (loadAt t 9).grant) = (45, 255, 100, 100) := by
  decide +kernel

/-- The premises of the last clause of the load. -/
theorem witness_loadPass :
    dimming.power.loads.length = 28 ∧ dimming.light.length = 16 ∧ dimming.store.image.tables.loads.length = 28 := by
  decide +kernel

theorem witness_loadsCycles :
    ∀ st : Stage, Ready (loading st) ∧ (loading st).store.writing = none ∧ (loading st).store.imageValid = true
      ∧ SizeLaw (loading st) ∧ OverlapFree (loading st).line.next ∧ (channelAt (loading st) 0).stage = st
      ∧ (loading st).store.image.tables.channels.getD 0 none = some aChannel ∧ aChannel.kind = .filter
      ∧ aChannel.auto = false ∧ ¬ ValveHolds (loading st) aChannel 0 := by
  intro st
  refine ⟨⟨rfl, rfl, rfl, rfl⟩, rfl, rfl, ?_, overlapFree_none 64, rfl, rfl, rfl, rfl, ?_⟩
  · refine
      ⟨rfl, rfl, rfl, Nat.zero_le _, rfl, rfl, rfl, rfl, rfl, rfl, rfl, rfl, rfl, rfl, rfl, rfl, rfl, rfl, Nat.zero_le _,
        ⟨rfl, rfl, rfl, rfl, rfl, rfl, rfl, rfl, rfl, rfl⟩, ?_⟩
    intro copy n h
    cases h
  · rw [← valveCode_iff]
    cases st <;> decide +kernel

theorem witness_preset :
    (∀ st ∈ [MowerState.tracked, .slipping, .acquiring, .unreferenced, .lost], ∀ persist : Bool,
        ∃ s : State, Ready s ∧ (mowerAt s 3).state = st ∧ (mowerAt s 3).raw = some 9 ∧ (mowerAt s 3).computed = some 9
          ∧ (loopAt s (mowerAt s 3).loop).persist = persist ∧ s.store.writing = none)
      ∧ (∃ s : State, Ready s ∧ (mowerAt s 3).state = .acquiring ∧ (mowerAt s 3).raw = none)
      ∧ (∃ s : State, Ready s ∧ (mowerAt s 3).state = .lost ∧ (mowerAt s 3).computed = none)
      ∧ (mowerAt zero 0).state = .unused ∧ writing.store.writing.isSome = true := by
  refine ⟨fun st _ persist => ?_, ?_, ?_, by decide, rfl⟩
  · exact
      ⟨putLoop { aLoop with persist := persist } (putMower 3 (aMower st (some 9)) zero), ⟨rfl, rfl, rfl, rfl⟩, rfl, rfl, rfl,
        rfl, rfl⟩
  · exact ⟨putMower 3 (aMower .acquiring none) zero, ⟨rfl, rfl, rfl, rfl⟩, rfl, rfl⟩
  · exact ⟨putMower 3 (aMower .lost none) zero, ⟨rfl, rfl, rfl, rfl⟩, rfl, rfl⟩

theorem witness_release :
    Ready zero ∧ (mowerAt zero 3).capA = none ∧ (mowerAt zero 3).capB = none ∧ (mowerAt zero 3).locked = false :=
  ⟨ready_zero, rfl, rfl, rfl⟩

theorem witness_dockAll :
    ∀ b : Bool, ∃ s : State, Ready s ∧ s.zone.dockAll = b := by
  intro b
  exact ⟨{ zero with zone := { zero.zone with dockAll := b } }, ⟨rfl, rfl, rfl, rfl⟩, rfl⟩

theorem witness_shows :
    (playerAt zero 3).cfg = none
      ∧ (∃ s : State, Ready s ∧ (playerAt s 0).cfg = some aShow ∧ (playerAt s 0).state = .idle)
      ∧ ∃ s : State, Ready s ∧ (playerAt s 0).cfg ≠ none ∧ (playerAt s 0).state ≠ .idle :=
  ⟨rfl, ⟨putPlayer { Player.blank with cfg := some aShow } zero, ⟨rfl, rfl, rfl, rfl⟩, rfl, rfl⟩,
    putPlayer (playing 9) zero, ⟨rfl, rfl, rfl, rfl⟩, by decide, by decide⟩

theorem witness_backwash :
    (channelAt zero 7).cfg = none
      ∧ ∀ st : Stage, ∃ s : State, Ready s ∧ (channelAt s 0).cfg = some aChannel ∧ aChannel.kind = .filter
        ∧ (channelAt s 0).stage = st ∧ (channelAt s 1).cfg = some aValve ∧ aValve.kind ≠ .filter := by
  refine ⟨rfl, fun st => ?_⟩
  exact ⟨cycleAt st 0 0, ⟨rfl, rfl, rfl, rfl⟩, rfl, rfl, rfl, rfl, by decide⟩

theorem witness_clearFault :
    (∃ s : State, Ready s ∧ (channelAt s 0).latch = true ∧ (channelAt s 0).cfg = some aChannel
        ∧ (nodeAt s 0).ident = some ⟨9, 0x11#32, .pump⟩ ∧ (nodeAt s 0).state = .active ∧ (nodeAt s 0).code = some 0)
      ∧ (∃ s : State, Ready s ∧ (channelAt s 7).latch = true ∧ (channelAt s 7).cfg = none)
      ∧ (channelAt zero 7).latch = false :=
  ⟨⟨setChannel 0 (fun c => { c with latch := true }) (cycleAt .idle 0 0), ⟨rfl, rfl, rfl, rfl⟩, rfl, rfl, rfl, rfl, rfl⟩,
    ⟨setChannel 7 (fun c => { c with latch := true }) zero, ⟨rfl, rfl, rfl, rfl⟩, rfl, rfl⟩, rfl⟩

theorem witness_restoreSupply :
    (Ready zero ∧ zero.power.shed = false)
      ∧ (∃ s : State, Ready s ∧ s.power.shed = true ∧ s.mgmt.site.supply = none)
      ∧ ∃ s : State, Ready s ∧ s.power.shed = true ∧ s.mgmt.site.supply = some 0
        ∧ (nodeAt s 0).ident = some ⟨9, 0x11#32, .supply⟩ ∧ (nodeAt s 0).state = .active ∧ (nodeAt s 0).code = some 2 :=
  ⟨⟨ready_zero, rfl⟩, ⟨{ zero with power := { zero.power with shed := true } }, ⟨rfl, rfl, rfl, rfl⟩, rfl, rfl⟩,
    { putNode 0 (aNode .supply .active (some 2)) zero with
      power := { zero.power with shed := true }
      mgmt := { zero.mgmt with site := { zero.mgmt.site with supply := some 0 } } },
    ⟨rfl, rfl, rfl, rfl⟩, rfl, rfl, rfl, rfl, rfl⟩

theorem witness_restartLine :
    (Ready (running 5) ∧ (running 5).line.state = .running)
      ∧ Ready zero ∧ zero.line.state = .inBreak ∧ zero.line.breakCount = some 4 :=
  ⟨⟨⟨rfl, rfl, rfl, rfl⟩, rfl⟩, ready_zero, rfl, rfl⟩

theorem witness_forward :
    (Ready (served .pump .active) ∧ (nodeAt (served .pump .active) 0).state = .active
        ∧ (nodeAt (served .pump .active) 0).ident = some ⟨9, 0x11#32, .pump⟩ ∧ (List.replicate 80 0#8).length ≤ 80)
      ∧ (nodeAt zero 47).state = .empty ∧ 80 < (List.replicate 81 0#8).length
      ∧ (∃ f n, breaking.mgmt.proc = .waiting f n ∧ 1 < n)
      ∧ ∃ s : State, ∃ f k, s.mode = .on ∧ s.mgmt.proc = .waiting f 1 ∧ f.request.kind = some k := by
  refine
    ⟨⟨⟨rfl, rfl, rfl, rfl⟩, by decide, by decide, by decide⟩, by decide, by decide, ⟨_, _, rfl, by decide⟩,
      { zero with
        mgmt :=
          { zero.mgmt with
            proc := .waiting { request := ⟨o, some 20#8, .forward 0 []⟩, target := 9, reply := none, kept := none } 1 } },
      _, _, rfl, rfl, rfl⟩

/-- The FORWARD under way: its last fragment, with and without a reply kept, and what its reply assembly answers. -/
theorem witness_forwardEnds :
    let f : Forwarding := { request := ⟨o, some 20#8, .forward 0 []⟩, target := 9, reply := none, kept := none }
    let x : Fragment := { dest := 9, number := 3, index := 0, last := true, payload := [] }
    let h := fun (last : Bool) => (⟨9, 1#32, ⟨0, 0, last, 1, [7#8]⟩⟩ : Handed)
    (∃ u : State, u.mgmt.proc = .forwarding f [x]) ∧ (∃ u : State, u.mgmt.proc = .forwarding { f with kept := some [] } [x])
      ∧ (∃ u : State, u.mgmt.proc = .waiting f 25) ∧ (h true).address = f.target
      ∧ (assemble false (h true) f.reply).message = some ([7#8], true)
      ∧ (assemble false (h false) f.reply).message = none :=
  ⟨⟨{ zero with mgmt := { zero.mgmt with proc := .forwarding _ _ } }, rfl⟩,
    ⟨{ zero with mgmt := { zero.mgmt with proc := .forwarding _ _ } }, rfl⟩,
    ⟨{ zero with mgmt := { zero.mgmt with proc := .waiting _ _ } }, rfl⟩, rfl, rfl, rfl⟩

/-- The DV4 closed to all but addresses 5 and 6. -/
def closed : State := { zero with mgmt := { zero.mgmt with site := { zero.mgmt.site with privileged := [5, 6] } } }

theorem witness_routing :
    (zero.mgmt.site.privileged = [] ∧ zero.mgmt.proc = .idle)
      ∧ (closed.mgmt.site.privileged.head? = some 5 ∧ (∃ a l, closed.mgmt.site.privileged = a :: 6 :: l ∧ a ≠ 6)
        ∧ closed.mgmt.site.privileged.length ≤ 2 ∧ 7 ∉ closed.mgmt.site.privileged)
      ∧ (assemble true ⟨63, 1#32, ⟨0, 0, true, 2, [0x20#8, 2#8]⟩⟩ none).message = some ([0x20#8, 2#8], true)
      ∧ (assemble true ⟨63, 1#32, ⟨0, 0, true, 1, [0x01#8]⟩⟩ none).message = some ([0x01#8], true)
      ∧ (assemble true ⟨63, 1#32, ⟨0, 0, false, 1, [0x01#8]⟩⟩ none).message = none :=
  ⟨⟨rfl, rfl⟩, ⟨rfl, ⟨5, [], rfl, by decide⟩, by decide, by decide⟩, rfl, rfl, rfl⟩

/-- A context that expects fragment 7 of a message, the fragment that fits it, and some that do not. -/
theorem witness_assembly :
    let a : Assembly := { address := 5, serial := 1#32, number := 3, next := 7, payload := [] }
    (a.address = 5 ∧ a.serial = 1#32 ∧ a.number = 3 ∧ a.next = 7)
      ∧ (∃ b : Assembly, b.address = 5 ∧ b.serial = 1#32 ∧ b.number = 3 ∧ b.next = 1)
      ∧ (a.address ≠ 6 ∧ a.number ≠ 4 ∧ 12 ≤ 12 ∧ 12 < 13) :=
  ⟨⟨rfl, rfl, rfl, rfl⟩, ⟨⟨5, 1#32, 3, 1, []⟩, rfl, rfl, rfl, rfl⟩, by decide⟩

theorem witness_timers :
    (∃ s : State, s.mode = .on ∧ s.line.state = .running ∧ (mowerAt s 3).debounce = 1) ∧ (mowerAt zero 3).debounce ≠ 1
      ∧ (∃ s : State, s.mode = .on ∧ s.line.state = .running ∧ (groupAt s 15).hold = 1) ∧ (groupAt zero 15).hold ≠ 1
      ∧ (playerAt zero 3).state ≠ .playing ∧ zero.line.state = .inBreak ∧ zero.mode = .on
      ∧ (∃ s : State, (playerAt s 0).state = .playing ∧ 1 < (playerAt s 0).remaining ∧ (playerAt s 0).cfg = some aShow)
      ∧ ∀ next : Option Nat, ∀ loops : Nat, ∃ s : State, ∃ r, s.mode = .on ∧ s.line.state = .running
        ∧ (playerAt s 0).state = .playing ∧ (playerAt s 0).remaining ≤ 1 ∧ (playerAt s 0).cfg = some r
        ∧ (playerAt s 0).next = next ∧ r.loopCount = loops := by
  refine
    ⟨⟨putMower 3 { Mower.blank with debounce := 1 } (running 5), rfl, rfl, rfl⟩, by decide,
      ⟨setGroup 15 (fun g => { g with hold := 1 }) (running 5), rfl, rfl, rfl⟩, by decide, by decide, rfl, rfl,
      ⟨putPlayer (playing 2) zero, rfl, by decide, rfl⟩, fun next loops => ?_⟩
  exact
    ⟨putPlayer { playing 1 with next := next, cfg := some { aShow with loopCount := loops } } (running 5), _, rfl, rfl, rfl,
      Nat.le_refl 1, rfl, rfl, rfl⟩

theorem usable_cycleAt (st : Stage) (timer code : Nat) : UsableValve (cycleAt st timer code) aChannel 1 :=
  ⟨aValve, ⟨9, 0x11#32, .valve⟩, rfl, rfl, rfl, rfl, rfl⟩

theorem witness_stageTimers :
    (∀ st : Stage, ∃ s : State, s.mode = .on ∧ s.line.state = .running ∧ (channelAt s 0).cfg = some aChannel
        ∧ (channelAt s 0).timer = 1 ∧ (channelAt s 0).stage = st ∧ UsableValve s aChannel 1)
      ∧ (∃ s : State, s.mode = .on ∧ s.line.state = .running ∧ (channelAt s 7).cfg = some aChannel ∧ (channelAt s 7).timer = 1
        ∧ (channelAt s 7).stage = .restoring ∧ ∀ n, ¬ UsableValve s aChannel n)
      ∧ (channelAt zero 7).timer ≠ 1 ∧ zero.line.state = .inBreak ∧ (channelAt zero 7).timer = 0
      ∧ 1 < (channelAt (cycleAt .washing 2 1) 0).timer := by
  refine ⟨fun st => ⟨cycleAt st 1 0, rfl, rfl, rfl, rfl, rfl, usable_cycleAt st 1 0⟩, ?_, by decide, rfl, rfl, by decide⟩
  refine
    ⟨putChannel 7 { Channel.blank with cfg := some aChannel, stage := .restoring, timer := 1 } (running 8), rfl, rfl, rfl, rfl, rfl,
      ?_⟩
  rintro n ⟨v, x, h, _⟩
  cases h

theorem witness_cycle :
    (∀ st : Stage, ∃ s : State, s.mode = .on ∧ (channelAt s 0).cfg = some aChannel ∧ (channelAt s 0).stage = st
        ∧ ValveHolds s aChannel 0)
      ∧ (∃ s : State, (channelAt s 0).stage = .reversing ∧ ValveHolds s aChannel 1)
      ∧ StartConditions (cycleAt .requested 0 0) 0 aChannel
      ∧ (channelNodeActive (cycleAt .reversing 9 0) (channelAt (cycleAt .reversing 9 0) 0) = true
        ∧ (channelAt (cycleAt .reversing 9 0) 0).latch = false)
      ∧ ∃ s : State, (channelAt s 0).stage = .reversing ∧ s.water.pond = some 1 := by
  refine
    ⟨fun st => ⟨cycleAt st 9 0, rfl, rfl, rfl, 1, usable_cycleAt st 9 0, rfl⟩,
      ⟨cycleAt .reversing 9 1, rfl, 1, usable_cycleAt .reversing 9 1, rfl⟩,
      (mayStop_iff _ _ _).mp (by decide +kernel), by decide +kernel, ?_⟩
  exact
    ⟨{ cycleAt .reversing 9 1 with water := { (cycleAt .reversing 9 1).water with pond := some 1 } }, rfl, rfl⟩

/-- Each cause of 1 to 5 holds after some settled handling of a cycle in WASHING, and after one none does. -/
theorem witness_causes :
    (∀ k ∈ [1, 2, 3, 4, 5], ∃ s : State, (channelAt s 0).cfg = some aChannel ∧ (channelAt s 0).stage = .washing
        ∧ AbortCause (settle s) (channelAt (settle s) 0) aChannel k ∧ ¬ ValveHolds (settle s) aChannel 0)
      ∧ (let s := cycleAt .reversing 9 1
        (channelAt s 0).stage = .reversing ∧ (∀ k, ¬ AbortCause (settle s) (channelAt (settle s) 0) aChannel k)
          ∧ ValveHolds (settle s) aChannel 1) := by
  have holds : ∀ s k, abortCause (settle s) (channelAt (settle s) 0) aChannel = some k →
      (valveCode (settle s) aChannel == some 0) = false → (channelAt s 0).cfg = some aChannel →
      (channelAt s 0).stage = .washing → ∃ s : State, (channelAt s 0).cfg = some aChannel
        ∧ (channelAt s 0).stage = .washing ∧ AbortCause (settle s) (channelAt (settle s) 0) aChannel k
        ∧ ¬ ValveHolds (settle s) aChannel 0 := fun s k h1 h2 h3 h4 =>
    ⟨s, h3, h4, abortCause_some _ _ _ _ h1, by rw [← valveCode_iff, h2]; decide⟩
  let s := cycleAt .washing 9 1
  constructor
  · intro k hk
    fin_cases hk
    · exact
        holds (putNode 2 (aNode .level .active (some 1)) { s with mgmt := { s.mgmt with site := { s.mgmt.site with level := some 2 } } })
          1 (by decide +kernel) (by decide +kernel) rfl rfl
    · exact holds (setChannel 0 (fun c => { c with latch := true }) s) 2 (by decide +kernel) (by decide +kernel) rfl rfl
    · exact holds (setNode 0 (fun n => { n with state := .stale }) s) 3 (by decide +kernel) (by decide +kernel) rfl rfl
    · exact holds (setNode 1 (fun n => { n with state := .stale }) s) 4 (by decide +kernel) (by decide +kernel) rfl rfl
    · exact holds (setChannel 1 (fun c => { c with latch := true }) s) 5 (by decide +kernel) (by decide +kernel) rfl rfl
  · exact ⟨rfl, abortCause_none _ _ _ (by decide +kernel), (valveCode_iff _ _ _).mp (by decide +kernel)⟩

/-- A clogged FILTER channel with auto backwash set and its cycle in a stage, with a grant and as much of a budget. -/
def clogging (stage : Stage) (timer valveCode grant : Nat) : State :=
  let s := setChannel 0
    (fun c => { c with cfg := some { aChannel with auto := true }, filt := some 8000, clogged := true })
    (cycleAt stage timer valveCode)
  { s with
    mgmt := { s.mgmt with site := { s.mgmt.site with budget := grant } }
    power :=
      { s.power with
        loads :=
          s.power.loads.set 0
            { cls := 1, minDraw := 0, fullDraw := 1000, node := none, request := 706, grant := grant } } }

/-- The premises on a cycle that the clogged flag requests, one that waits, one that starts, and those that end. -/
theorem witness_cyclesFollow :
    (∀ st : Stage, (channelAt (clogging st 9 0 706) 0).stage = st
        ∧ (channelAt (clogging st 9 0 706) 0).cfg = some { aChannel with auto := true }
        ∧ (channelAt (clogging st 9 0 706) 0).clogged = true
        ∧ channelNodeActive (settle (clogging .idle 0 0 706)) (channelAt (settle (clogging .idle 0 0 706)) 0) = true)
      ∧ StartConditions (round false (clogging .idle 0 0 706)) 0 { aChannel with auto := true }
      ∧ ¬ StartConditions (round false (clogging .requested 0 0 705)) 0 { aChannel with auto := true }
      ∧ ValveHolds (settle (cycleAt .restoring 9 0)) aChannel 0 ∧ ¬ ValveHolds (settle (cycleAt .restoring 9 1)) aChannel 0
      ∧ (channelAt (cycleAt .idle 0 0) 7).cfg = none := by
  refine ⟨fun st => ⟨rfl, rfl, rfl, by decide +kernel⟩, ?_, ?_, ?_, ?_, rfl⟩
  · rw [← mayStop_iff]
    decide +kernel
  · rw [← mayStop_iff]
    decide +kernel
  · rw [← valveCode_iff]
    decide +kernel
  · rw [← valveCode_iff]
    decide +kernel

/-- Where a round is quiet and a cycle waits; the states of one that is not. -/
theorem witness_quiet :
    let s := settle (clogging .requested 0 0 705)
    Quiet s ∧ (channelAt (round false s) 0).stage = .requested ∧ ¬ Quiet (clogging .requested 0 0 706) := by
  refine ⟨?_, by decide +kernel, ?_⟩ <;> unfold Quiet <;> decide +kernel

/-- The request of the clogged flag, and the start where the grant lets it. -/
theorem test_autoBackwash :
    (channelAt (settle (clogging .idle 0 0 706)) 0).stage = .stopping
      ∧ (channelAt (settle (clogging .idle 0 0 705)) 0).stage = .requested
      ∧ (channelAt (settle (clogging .restoring 9 0 705)) 0).stage = .requested
      ∧ (channelAt (settle (clogging .restoring 9 0 705)) 0).count = 1 := by
  decide +kernel

/-- A WRITE_LOADS that lowers the full draw and with it the washing draw, to 283, starts the cycle by the grant that the
pass then delivers and not by the one before it. -/
theorem test_startAfterThePass :
    let write : Instr := .writeLoads o 0 (some ⟨1, 0, 400, none⟩)
    let scarce := fun budget =>
      let s := setChannel 0 (fun c => { c with filt := none, clogged := false }) (clogging .requested 0 0 budget)
      { s with power := { s.power with loads := s.power.loads.modify 0 (fun l => { l with grant := 300 }) } }
    (channelAt (after write (scarce 282)) 0).stage = .requested
      ∧ (channelAt (after write (scarce 283)) 0).stage = .stopping := by
  decide +kernel

/-- The weather node holds a code while a show stands in a state. -/
def weather (code : Nat) (state : ShowState) : State :=
  putNode 2 (aNode .weather .active (some code))
    (putPlayer { playing 7 with state := state }
      { running 5 with mgmt := { zero.mgmt with site := { zero.mgmt.site with weather := some 2 } } })

theorem witness_showsFollow :
    ((weather 3 .playing).water.rain = false ∧ (settle (weather 3 .playing)).water.rain = true
        ∧ (playerAt (weather 3 .playing) 0).state = .playing ∧ (playerAt (settle (weather 3 .playing)) 0).state = .paused)
      ∧ (weather 0 .paused).water.dry = false ∧ (settle (weather 0 .paused)).water.dry = true
        ∧ (playerAt (weather 0 .paused) 0).state = .paused ∧ (playerAt (settle (weather 0 .paused)) 0).state = .playing := by
  decide +kernel

/-- Light group 0 on node 2, with a presence state, and motion node 3 with a code, at night where dark is so. -/
def lit (r : LightRec) (presence : Presence) (code : Nat) (dark : Bool) : State :=
  putNode 2 (aNode .light .active (some 0))
    (putNode 3 (aNode .motion .active (some code))
      (setGroup 0
        (fun g =>
          { g with cfg := some r, presence := presence, hold := if presence = .holding then 7 else 0, dark := dark })
        { running 5 with
          mgmt :=
            { zero.mgmt with clock := ⟨0, true, 0⟩, site := { zero.mgmt.site with dusk := 1200, dawn := 360 } } }))

def aMotion : LightRec := { aLight with motion := [3] }

/-- The moves of presence, by a source and without one, and the phase as darkness begins. -/
theorem witness_groupsFollow :
    let hold := fun r p code => let h := groupAt (settle (lit r p code false)) 0; (h.presence, h.hold)
    hold aMotion .inactive 1 = (.active, 0) ∧ hold aMotion .holding 1 = (.active, 0)
      ∧ hold aMotion .active 0 = (.holding, 500)
      ∧ hold { aMotion with presHold := 0 } .active 0 = (.inactive, 0) ∧ hold aMotion .holding 0 = (.holding, 7)
      ∧ (groupAt (settle (lit aMotion .active 0 false)) 0).dark = true ∧ (groupAt zero 0).cfg = none := by
  decide +kernel

/-- Group 0 online at a level under an aim, its load granted `grant` of a full draw of 255. -/
def levelled (r : LightRec) (current aim grant : Nat) : State :=
  let s := setGroup 0 (fun g => { g with online := true, current := current, aim := aim, cap := 255, acc := 5 })
    (lit { r with mode := .always } .inactive 0 true)
  { s with
    mgmt := { s.mgmt with site := { s.mgmt.site with budget := grant } }
    power :=
      { s.power with
        loads :=
          s.power.loads.set 8
            { cls := 1, minDraw := 0, fullDraw := 255, node := none, request := 0, grant := grant } } }

/-- A level kept with its accumulator, one that an immediate rate carries to the aim, one whose sense is reversed, one
that the cap lowers. -/
theorem witness_levelsFollow :
    let level := fun r c a g => let h := groupAt (round false (levelled r c a g)) 0; (h.online, h.current, h.acc)
    level aLight 90 150 255 = (true, 90, 5) ∧ level { aLight with upInt := 0, upFrac := 0 } 90 150 255 = (true, 200, 0)
      ∧ level aLight 90 60 255 = (true, 90, 0) ∧ level aLight 90 200 40 = (true, 40, 0) := by
  decide +kernel

/-- The usable supply node holds a code while the shed state stands. -/
def supplied (code : Nat) (shed : Bool) : State :=
  putNode 2 (aNode .supply .active (some code))
    { running 5 with
      mgmt := { zero.mgmt with site := { zero.mgmt.site with supply := some 2 } }
      power :=
        { zero.power with
          shed := shed, cause := if shed then some .overrun else none, run := 2, measured := some 77 } }

theorem witness_shedFollow :
    let t := fun code shed => let p := (settle (supplied code shed)).power; (p.shed, p.cause, p.run)
    t 2 false = (true, some .foldback, 2) ∧ t 2 true = (true, some .overrun, 2) ∧ t 0 false = (false, none, 2)
      ∧ (settle (setNode 2 (fun n => { n with state := .stale }) (supplied 2 false))).power.run = 0
      ∧ ((settle (supplied 2 false)).notices.list.getLast?.map (fun n => (n.kind, n.subject, n.detail)))
        = some (.overloadShed, some 2, 77) := by
  decide +kernel

/-- A mower in TRACKED at tick 100 of loop 0, the KEEPOUT zone 5 there; a known pond level that is lost. -/
theorem test_settlingNotices :
    let z : ZoneRec :=
      { kind := .keepout, loop := 0, first := 90, last := 110, lookahead := 0, assume := false, activeWhen := .always
        filter := 0, showIx := 0, channels := [], cap := 0, groups := [] }
    let s := putMower 3 { aMower .tracked (some 100) with reported := 100 } (putLoop aLoop (running 5))
    let t : State :=
      { s with zone := { s.zone with zones := s.zone.zones.set 5 (some z) }, water := { s.water with pond := some 1 } }
    ((settle t).notices.list.drop 1).map (fun n => (n.kind, n.subject, n.detail))
      = [(.levelUnknown, none, 1), (.keepoutEntry, some 3, 5)] := by
  decide +kernel

theorem witness_draws :
    (∃ s : State, ∀ k, k < 4 → ((loadAt s (24 + k)).node = some 5 ↔ k = 3))
      ∧ ∃ i, i < 28 ∧ (loadAt (settle zero) i).fullDraw = 0 := by
  refine
    ⟨⟨{ zero with power := { zero.power with loads := (List.replicate 28 Load.blank).set 27 { Load.blank with node := some 5 } } }, ?_⟩,
      ⟨27, by decide, by decide +kernel⟩⟩
  decide

theorem witness_vernier : 4 ≤ 4 ∧ 4095 < 4096 ∧ 0 < 4096 := by decide

/-- A sample with and without a slip by residual, near the held position and not, at every state of a mower. -/
theorem witness_judge :
    residualSlip aLoop (vernier 20 0 0) = false ∧ residualSlip aLoop (vernier 20 0 4000) = true
      ∧ withinJump aLoop 9 100 { aMower .tracked (some 0) with lastFrame := some 8 } = true
      ∧ withinJump aLoop 9 101 { aMower .tracked (some 0) with lastFrame := some 8 } = false := by
  decide +kernel

/-- The first markers of R58 and R59: both forms of a pass at the tolerance, and a fail one beyond it. -/
theorem witness_marker :
    (∃ u m, (u : State).pos.mowers[3]? = some m ∧ m.locked = false ∧ m.capA = some 5 ∧ m.raw = some 105)
      ∧ (min 0 (81920 - 100 - 100) ≤ aLoop.spacingTol ∧ aLoop.spacingTol < 1)
      ∧ ∃ m : Mower, m.locked = false ∧ m.capA = none :=
  ⟨⟨putMower 3 { aMower .tracked (some 105) with capA := some 5 } zero, _, rfl, rfl, rfl, rfl⟩, by decide,
    ⟨Mower.blank, rfl, rfl⟩⟩

theorem witness_dockEvent :
    ∀ persist : Bool, ∃ (u : State) (m : Mower) (l : LoopRec), u.pos.mowers[3]? = some m ∧ m.raw = some 9 ∧ m.debounce = 0
      ∧ l.dockPreset = true ∧ l.persist = persist ∧ u.store.writing = none := by
  intro persist
  exact
    ⟨putMower 3 (aMower .lost (some 9)) zero, _, { aLoop with dockPreset := true, persist := persist }, rfl, rfl, rfl, rfl,
      rfl, rfl⟩

/-- A settled state with a cycle in WASHING and a command waiting. -/
def washing : State := settle { cycleAt .washing 400 1 with pending := [.frameStart] }

theorem washing_steps : ∃ t, step washing = .next t := by
  have h : washing.pending = [.frameStart] :=
    (rounds_settled false 40 { cycleAt .washing 400 1 with pending := [.frameStart] }).pending
  unfold step
  rw [h]
  exact ⟨_, rfl⟩

theorem washing_laws : SettledLaws washing := rounds_laws 40 { cycleAt .washing 400 1 with pending := [.frameStart] }

theorem witness_keepoutLaws :
    (ConditionLaw washing ∧ OccupancyLaw washing ∧ PermitLaw washing ∧ DischargeLaw washing)
      ∧ ∃ t, step washing = .next t :=
  have h := washing_laws
  ⟨⟨h.condition, h.occupancy, h.permit, h.discharge⟩, washing_steps⟩

theorem witness_powerLaws : (PowerLaw washing ∧ OutputLaw washing ∧ LightLaw washing) ∧ ∃ t, step washing = .next t :=
  have h := washing_laws
  ⟨⟨h.power, h.output, h.light⟩, washing_steps⟩

theorem witness_listLaws :
    ∃ s t : State, (QueueLaw s ∧ NoticeLaw s ∧ CaptureLaw s) ∧ step s = .next t ∧ s.mgmt.heldReq.isSome = true := by
  refine
    ⟨{ busy 4 (some ⟨o, some 1#8, .readStatus⟩) with pending := [.readStatus o] }, _,
      ⟨⟨by decide, fun _ => rfl⟩, show 1 ≤ 16 by decide, ?_⟩, rfl, rfl⟩
  intro m hm
  rw [List.eq_of_mem_replicate (show m ∈ List.replicate 4 Mower.blank from hm)]
  decide

theorem witness_tableLaws :
    ∃ s t : State, (SlotLaw s ∧ NodeLaw s ∧ SizeLaw s) ∧ step s = .next t ∧ s.pending = [.saveTables o] :=
  ⟨{ zero with pending := [.saveTables o] }, _, ⟨slot_zero, nodeLaw_zero, size_zero⟩, rfl, rfl⟩

end Sys2Proof.Tests
end

namespace Sys2Proof.Machine

/-! ### The table laws, block by block -/

/-- What SlotLaw and SizeLaw ask of the line. -/
structure LineTables (l : Line) : Prop where
  active : OverlapFree l.active
  next : OverlapFree l.next
  activeSize : l.active.length = 64
  nextSize : l.next.length = 64

/-- What NodeLaw asks of one record. -/
structure NodeFits (n : Node) : Prop where
  empty : n.ident.isNone = true ↔ n.state = .empty
  unjoined : n.state = .empty ∨ n.state = .provisioned →
    n.code = none ∧ n.cand = none ∧ n.answerPending = false ∧ n.missed = 0
  changes : n.changes.length ≤ 2

/-- What NodeLaw and SizeLaw ask of the Node Table. -/
structure NodeTables (t : NodeTable) : Prop where
  fits : ∀ n ∈ t.recs, NodeFits n
  size : t.recs.length = 48
  joiners : t.joiners.length ≤ 4

/-- The sizes of the Position Engine's tables. -/
structure PosTables (p : Position) : Prop where
  loops : p.loops.length = 4
  mowers : p.mowers.length = 4

/-- The sizes of the Zone Monitor's results. -/
structure ZoneResults (z : ZoneMon) : Prop where
  occ : z.occ.length = 4
  counts : z.counts.length = 32
  keep : z.keep.length = 4
  permits : z.permits.length = 4
  sprayCaps : z.sprayCaps.length = 8
  presence : z.presence.length = 16

/-- The sizes of the Zone Monitor's tables. -/
structure ZoneTables (z : ZoneMon) : Prop where
  zones : z.zones.length = 32
  results : ZoneResults z

/-- The sizes of the Water Controller's tables. -/
structure WaterTables (w : Water) : Prop where
  channels : w.channels.length = 8
  shows : w.shows.length = 4
  steps : w.steps.length = 96

/-- What SlotLaw and SizeLaw ask of the image and of a copy being saved. -/
structure StoreTables (x : Store) : Prop where
  slots : OverlapFree x.image.tables.slots
  sized : TablesSized x.image.tables
  copies : ∀ copy n, x.writing = some (.save copy n) → OverlapFree copy.slots ∧ TablesSized copy

/-- The three table laws, taken apart by block. -/
structure TableLaws (s : State) : Prop where
  line : LineTables s.line
  nodes : NodeTables s.nodes
  pos : PosTables s.pos
  zone : ZoneTables s.zone
  water : WaterTables s.water
  light : s.light.length = 16
  loads : s.power.loads.length = 28
  answers : s.mgmt.answers.length ≤ 8
  store : StoreTables s.store

theorem tableLaws_iff (s : State) : TableLaws s ↔ SlotLaw s ∧ NodeLaw s ∧ SizeLaw s := by
  constructor
  · rintro ⟨⟨a, b, c, d⟩, ⟨f, g, j⟩, ⟨p, q⟩, ⟨z, ⟨z1, z2, z3, z4, z5, z6⟩⟩, ⟨w1, w2, w3⟩, l, m, n, ⟨x, y, k⟩⟩
    exact ⟨⟨a, b, x, fun copy i h => (k copy i h).1⟩, fun r hr => ⟨(f r hr).empty, (f r hr).unjoined, (f r hr).changes⟩,
      c, d, g, j, p, q, z, z1, z2, z3, z4, z5, z6, w1, w2, w3, l, m, n, y, fun copy i h => (k copy i h).2⟩
  · rintro ⟨⟨a, b, x, k⟩, f, c, d, g, j, p, q, z, z1, z2, z3, z4, z5, z6, w1, w2, w3, l, m, n, y, k'⟩
    exact ⟨⟨a, b, c, d⟩, ⟨fun r hr => ⟨(f r hr).1, (f r hr).2.1, (f r hr).2.2⟩, g, j⟩, ⟨p, q⟩,
      ⟨z, ⟨z1, z2, z3, z4, z5, z6⟩⟩, ⟨w1, w2, w3⟩, l, m, n, ⟨x, y, fun copy i h => ⟨k copy i h, k' copy i h⟩⟩⟩

theorem mapIx_length {α β : Type} (f : Nat → α → β) (k : Nat) (l : List α) : (mapIx f k l).length = l.length := by
  induction l generalizing k with
  | nil => rfl
  | cons a l ih => simp [mapIx, ih]

/-! ### What a settled handling keeps -/

/-- A change that moves no table, and leaves the Zone Monitor's results at their sizes, keeps the table laws. -/
theorem SettledFrom.tables {s t : State} (h : SettledFrom s t) (hz : ZoneResults t.zone) (hs : TableLaws s) :
    TableLaws t where
  line := h.line ▸ hs.line
  nodes := h.nodes ▸ hs.nodes
  pos := h.pos ▸ hs.pos
  zone := ⟨h.zones ▸ hs.zone.zones, hz⟩
  water :=
    { channels := by simpa using (congrArg List.length h.channels).trans (by simpa using hs.water.channels)
      shows := by simpa using (congrArg List.length h.shows).trans (by simpa using hs.water.shows)
      steps := h.steps ▸ hs.water.steps }
  light := by simpa using (congrArg List.length h.lights).trans (by simpa using hs.light)
  loads := by simpa using (congrArg List.length h.loads).trans (by simpa using hs.loads)
  answers := h.mgmt ▸ hs.answers
  store := h.store ▸ hs.store

theorem LastFrom.tables {s t : State} (h : LastFrom s t) (hs : TableLaws s) : TableLaws t :=
  h.later.base.tables (h.zone ▸ hs.zone.results) hs

theorem formOccupancy_results_sized (s : State) :
    (formOccupancy s).zone.occ.length = 4 ∧ (formOccupancy s).zone.counts.length = 32
      ∧ (formOccupancy s).zone.sprayCaps.length = 8 ∧ (formOccupancy s).zone.presence.length = 16 := by
  simp [formOccupancy, occupancySets]

theorem formKeepouts_sets_sized (s : State) :
    (formKeepouts s).zone.keep.length = 4 ∧ (formKeepouts s).zone.permits.length = 4 := by
  simp [formKeepouts, keepoutSets, permitsOf]

theorem formKeepouts_zoneResults {u s : State} (h : LaterFrom (formOccupancy u) s) :
    ZoneResults (formKeepouts s).zone where
  occ := by rw [(formKeepouts_later s).occ, h.occ]; exact (formOccupancy_results_sized u).1
  counts := by rw [(formKeepouts_later s).counts, h.counts]; exact (formOccupancy_results_sized u).2.1
  keep := (formKeepouts_sets_sized s).1
  permits := (formKeepouts_sets_sized s).2
  sprayCaps := by rw [(formKeepouts_later s).sprayCaps, h.sprayCaps]; exact (formOccupancy_results_sized u).2.2.1
  presence := by rw [(formKeepouts_later s).presence, h.presence]; exact (formOccupancy_results_sized u).2.2.2

theorem LastFrom.zoneResults {s t : State} (h : LastFrom s t) (hz : ZoneResults s.zone) : ZoneResults t.zone :=
  h.zone ▸ hz

theorem formResults_zoneResults (d : Bool) (s : State) : ZoneResults (formResults d s).zone := by
  unfold formResults
  exact (formEnd_last _).zoneResults
    (formKeepouts_zoneResults ((formMonitors_later d _).trans (formCycles_later _)))

/-- Every round forms each result of the Zone Monitor at its size. -/
theorem round_zoneResults (d : Bool) (s : State) : ZoneResults (round d s).zone := by
  unfold round
  split
  · exact formResults_zoneResults true s
  · exact (formGrants_last _).zoneResults (formResults_zoneResults false s)

theorem rounds_zoneResults (d : Bool) (n : Nat) (s : State) : ZoneResults (rounds d n s).zone :=
  rounds_last (P := fun s => ZoneResults s.zone) (round_zoneResults d) n s

theorem settle_tables {s : State} (h : TableLaws s) : TableLaws (settle s) :=
  (rounds_settled false 40 s).tables (rounds_zoneResults false 40 s) h

theorem settleDeferred_tables {s : State} (h : TableLaws s) : TableLaws (settleDeferred s) :=
  (rounds_settled true 40 s).tables (rounds_zoneResults true 40 s) h

/-! ### What each operation on a table keeps -/

theorem eachIx_tables {f : Nat → State → State} (hf : ∀ i t, TableLaws t → TableLaws (f i t)) (n : Nat) {s : State}
    (h : TableLaws s) : TableLaws (eachIx f n s) :=
  eachIx_keeps (P := TableLaws) hf n h

theorem ite_tables {a b : State} {c : Prop} [Decidable c] (ha : TableLaws a) (hb : TableLaws b) :
    TableLaws (if c then a else b) := by
  split <;> assumption

/-- The answers aside, no table stands in the management state. -/
theorem TableLaws.withMgmt {s : State} (h : TableLaws s) (m : Mgmt) (hm : m.answers = s.mgmt.answers) :
    TableLaws { s with mgmt := m } :=
  { h with answers := by simpa [hm] using h.answers }

theorem setMower_tables (i : Nat) (f : Mower → Mower) {s : State} (h : TableLaws s) : TableLaws (setMower i f s) :=
  { h with pos := { h.pos with mowers := by simpa [setMower] using h.pos.mowers } }

theorem mapMowers_tables (f : Mower → Mower) {s : State} (h : TableLaws s) :
    TableLaws { s with pos := { s.pos with mowers := s.pos.mowers.map f } } :=
  { h with pos := { h.pos with mowers := by simpa using h.pos.mowers } }

theorem setChannel_tables (i : Nat) (f : Channel → Channel) {s : State} (h : TableLaws s) :
    TableLaws (setChannel i f s) :=
  { h with water := { h.water with channels := by simpa [setChannel] using h.water.channels } }

theorem setPlayer_tables (i : Nat) (f : Player → Player) {s : State} (h : TableLaws s) : TableLaws (setPlayer i f s) :=
  { h with water := { h.water with shows := by simpa [setPlayer] using h.water.shows } }

theorem mapShows_tables (f : Player → Player) {s : State} (h : TableLaws s) :
    TableLaws { s with water := { s.water with shows := s.water.shows.map f } } :=
  { h with water := { h.water with shows := by simpa using h.water.shows } }

theorem setGroup_tables (i : Nat) (f : LightGroup → LightGroup) {s : State} (h : TableLaws s) :
    TableLaws (setGroup i f s) :=
  { h with light := by simpa [setGroup] using h.light }

theorem mapLight_tables (f : LightGroup → LightGroup) {s : State} (h : TableLaws s) :
    TableLaws { s with light := s.light.map f } :=
  { h with light := by simpa using h.light }

theorem post_tables (k : NoticeKind) (x : Option Nat) (d : Nat) {s : State} (h : TableLaws s) :
    TableLaws (post k x d s) := (post_last k x d s).tables h

theorem postDetail_tables (k : NoticeKind) (x d : Option Nat) {s : State} (h : TableLaws s) :
    TableLaws (postDetail k x d s) := (postDetail_last k x d s).tables h

/-- A record changed to one that fits its state keeps the laws; so does a change of a record that is not there. -/
theorem setNode_tables (i : Nat) (f : Node → Node) {s : State} (h : TableLaws s)
    (hf : i < 48 → NodeFits (f (nodeAt s i))) : TableLaws (setNode i f s) := by
  refine { h with nodes := { h.nodes with fits := ?_, size := by simpa [setNode] using h.nodes.size } }
  intro n hn
  obtain ⟨j, hj⟩ := List.mem_iff_getElem?.1 hn
  have hj' : (s.nodes.recs.modify i f)[j]? = some n := hj
  rw [List.getElem?_modify] at hj'
  obtain ⟨m, hm, rfl⟩ := Option.map_eq_some_iff.1 hj'
  obtain ⟨lt, -⟩ := List.getElem?_eq_some_iff.1 hm
  split
  · next e =>
    subst e
    have : nodeAt s i = m := by rw [nodeAt, List.getD_eq_getElem?_getD, hm]; rfl
    exact this ▸ hf (h.nodes.size ▸ lt)
  · exact h.nodes.fits m (List.mem_of_getElem? hm)

theorem TableLaws.nodeAt_fits {s : State} (h : TableLaws s) (i : Nat) : NodeFits (nodeAt s i) := by
  rw [nodeAt, List.getD_eq_getElem?_getD]
  cases e : s.nodes.recs[i]? with
  | none => exact ⟨by simp [Node.blank], fun _ => ⟨rfl, rfl, rfl, rfl⟩, Nat.zero_le _⟩
  | some n => exact h.nodes.fits n (List.mem_of_getElem? e)

theorem mapNodes_tables (f : Node → Node) {s : State} (h : TableLaws s) (hf : ∀ n, NodeFits n → NodeFits (f n)) :
    TableLaws { s with nodes := { s.nodes with recs := s.nodes.recs.map f } } :=
  { h with
    nodes :=
      { h.nodes with
        fits := by simpa using fun n hn => hf n (h.nodes.fits n hn)
        size := by simpa using h.nodes.size } }

theorem reportToMowers_tables (n : Nat) (a b : Node) {s : State} (h : TableLaws s) :
    TableLaws (reportToMowers n a b s) := mapMowers_tables _ h

/-- A store write that begins leaves the image's tables as they are. -/
theorem beginWrite_tables (w : StoreWrite) {s : State} (h : TableLaws s)
    (hw : ∀ copy n, w = .save copy n → OverlapFree copy.slots ∧ TablesSized copy) : TableLaws (beginWrite w s) :=
  { h with store := ⟨h.store.slots, h.store.sized, fun copy n e => hw copy n (Option.some.inj e)⟩ }

end Sys2Proof.Machine

namespace Sys2Proof.Machine

/-! ### Node table and position -/

theorem changeNode_tables (n : Nat) (f : Node → Node) {s : State} (h : TableLaws s)
    (hf : n < 48 → NodeFits (f (nodeAt s n))) : TableLaws (changeNode n f s) :=
  settle_tables (reportToMowers_tables n _ _ (setNode_tables n f h hf))

theorem latchFault_tables (ks : List ChannelKind) (kind : NoticeKind) (d n i : Nat) {s : State} (h : TableLaws s) :
    TableLaws (latchFault ks kind d n i s) :=
  ite_tables (post_tables _ _ _ (setChannel_tables _ _ h)) h

theorem codeReport_tables (n : Nat) (k : NodeKind) (old : Option Nat) (c : Nat) {s : State} (h : TableLaws s) :
    TableLaws (codeReport n k old c s) := by
  cases k with
  | mower =>
    exact ite_tables (eachIx_tables (fun i t ht => ite_tables (postDetail_tables _ _ _ ht) ht) 4 h) h
  | pump => exact ite_tables h (eachIx_tables (fun i t ht => latchFault_tables _ _ _ _ _ ht) 8 h)
  | valve => exact ite_tables (eachIx_tables (fun i t ht => latchFault_tables _ _ _ _ _ ht) 8 h) h
  | light => exact ite_tables h (eachIx_tables (fun i t ht => ite_tables (post_tables _ _ _ ht) ht) 16 h)
  | level => exact ite_tables (post_tables _ _ _ h) h
  | gateway | dock | weather | motion | supply => exact h

theorem spacingCheck_tables (i : Nat) (l : LoopRec) (a b : Nat) {s : State} (h : TableLaws s) :
    TableLaws (spacingCheck i l a b s) := by
  unfold spacingCheck
  refine ite_tables (setMower_tables _ _ h) ?_
  have mismatch : TableLaws (post .referenceMismatch (some i) (min (spacingError l a b) 65535)
      (setMower i (fun m => { m with mismatches := inc16 m.mismatches, verified := false }) s)) :=
    post_tables _ _ _ (setMower_tables _ _ h)
  dsimp only
  cases (mowerAt s i).state with
  | tracked | slipping | acquiring => exact post_tables _ _ _ (setMower_tables _ _ mismatch)
  | unreferenced | lost | stale | unused => exact mismatch

theorem markerEvent_tables (i : Nat) (l : LoopRec) (slip : Bool) {s : State} (h : TableLaws s) :
    TableLaws (markerEvent i l slip s) := by
  unfold markerEvent
  refine ite_tables (setMower_tables _ _ h) (ite_tables h ?_)
  cases (mowerAt s i).capA with
  | none => exact setMower_tables _ _ h
  | some a =>
    cases (mowerAt s i).raw with
    | none => exact h
    | some b => exact spacingCheck_tables _ _ _ _ (setMower_tables _ _ h)

theorem askOffsetWrite_tables (i : Nat) (l : LoopRec) {s : State} (h : TableLaws s) :
    TableLaws (askOffsetWrite i l s) :=
  ite_tables h (ite_tables (beginWrite_tables _ h nofun) (setMower_tables _ _ h))

theorem dockEvent_tables (i : Nat) (l : LoopRec) (slip : Bool) {s : State} (h : TableLaws s) :
    TableLaws (dockEvent i l slip s) := by
  unfold dockEvent
  dsimp only
  cases (mowerAt s i).raw with
  | none => exact h
  | some raw => exact ite_tables h (askOffsetWrite_tables _ _ (setMower_tables _ _ h))

theorem mowerSample_tables (i : Nat) (w : Content) {s : State} (h : TableLaws s) :
    TableLaws (mowerSample i w s) := by
  unfold mowerSample
  have lost : ∀ j : Judged, TableLaws (if j.lost then post .mowerLost (some i) 1 (setMower i (fun _ => j.mower) s)
      else setMower i (fun _ => j.mower) s) :=
    fun j => ite_tables (post_tables _ _ _ (setMower_tables _ _ h)) (setMower_tables _ _ h)
  have marked : ∀ (c : Bool) l slip u, TableLaws u → TableLaws (if c then markerEvent i l slip u else u) :=
    fun c l slip u hu => ite_tables (markerEvent_tables _ _ _ hu) hu
  exact setMower_tables _ _ (ite_tables (dockEvent_tables _ _ _ (marked _ _ _ _ (lost _))) (marked _ _ _ _ (lost _)))

theorem mowerSamples_tables (n : Nat) (w : Content) {s : State} (h : TableLaws s) : TableLaws (mowerSamples n w s) :=
  eachIx_tables (fun _ _ ht => ite_tables (settle_tables (mowerSample_tables _ _ ht)) ht) 4 h

theorem formClogged_tables (i : Nat) {s : State} (h : TableLaws s) : TableLaws (formClogged i s) := by
  unfold formClogged
  dsimp only
  cases (channelAt s i).cfg with
  | none => exact setChannel_tables _ _ h
  | some r => exact ite_tables (post_tables _ _ _ (setChannel_tables _ _ h)) (setChannel_tables _ _ h)

theorem filterSample_tables (i : Nat) (w : Content) {s : State} (h : TableLaws s) : TableLaws (filterSample i w s) :=
  ite_tables (formClogged_tables _ (setChannel_tables _ _ h)) h

theorem supplySample_tables (w : Content) {s : State} (h : TableLaws s) : TableLaws (supplySample w s) := by
  have draw : ∀ m r, TableLaws { s with power := { s.power with measured := m, run := r } } :=
    fun _ _ => { h with loads := h.loads }
  exact ite_tables ((setShed_last _ _).tables (draw _ _)) (draw _ _)

theorem handOver_tables (n : Nat) (k : NodeKind) (w : Content) {s : State} (h : TableLaws s) :
    TableLaws (handOver n k w s) := by
  cases k with
  | mower => exact mowerSamples_tables _ _ h
  | pump => exact settle_tables (eachIx_tables (fun _ _ ht => ite_tables (filterSample_tables _ _ ht) ht) 8 h)
  | supply => exact ite_tables (settle_tables (supplySample_tables _ h)) h
  | valve | light | dock | weather | level | motion | gateway => exact h

/-! ### Records that fit their states -/

theorem enterChange_length (c : Change) (l : List Change) : (enterChange c l).length ≤ 2 := by
  match l with
  | [] => simp [enterChange]
  | [_] => simp [enterChange]
  | _ :: _ :: _ => simp [enterChange]

/-- A record that has joined fits its state whatever its code and counts. -/
theorem NodeFits.joined {n : Node} (hi : n.ident.isSome) (hs : n.state ≠ .empty) (hp : n.state ≠ .provisioned)
    (hc : n.changes.length ≤ 2) : NodeFits n where
  empty := by simp [hs, Option.isSome_iff_ne_none.1 hi]
  unjoined := by simp [hs, hp]
  changes := hc

theorem confirm_frame (code frame : Nat) (n : Node) :
    (n.confirm code frame).ident = n.ident ∧ (n.confirm code frame).state = n.state
      ∧ (n.changes.length ≤ 2 → (n.confirm code frame).changes.length ≤ 2) := by
  unfold Node.confirm
  split
  · exact ⟨rfl, rfl, id⟩
  · split
    · exact ⟨rfl, rfl, fun _ => enterChange_length _ _⟩
    · exact ⟨rfl, rfl, id⟩

theorem takeSample_frame (kind : NodeKind) (noisy : Bool) (w : Content) (frame : Nat) (n : Node) :
    (n.takeSample kind noisy w frame).ident = n.ident ∧ (n.takeSample kind noisy w frame).state = .active
      ∧ (n.changes.length ≤ 2 → (n.takeSample kind noisy w frame).changes.length ≤ 2) :=
  confirm_frame (codeTaken kind w) frame _

theorem takeSample_fits (kind : NodeKind) (noisy : Bool) (w : Content) (frame : Nat) {n : Node} (hi : n.ident.isSome)
    (h : NodeFits n) : NodeFits (n.takeSample kind noisy w frame) := by
  obtain ⟨ident, state, changes⟩ := takeSample_frame kind noisy w frame n
  exact .joined (ident ▸ hi) (by simp [state]) (by simp [state]) (changes h.changes)

theorem missedState_joined {st : NodeState} (h : st = .active ∨ st = .stale) (m : Nat) :
    missedState st m ≠ .empty ∧ missedState st m ≠ .provisioned := by
  rcases h with rfl | rfl <;> simp only [missedState] <;> split <;> simp

theorem served_iff (n : Node) : n.served = true ↔ n.state = .active ∨ n.state = .stale := by
  simp [Node.served]

theorem NodeFits.ident {n : Node} (h : NodeFits n) (hs : n.state ≠ .empty) : n.ident.isSome := by
  by_contra hn
  exact hs (h.empty.1 (by simpa using hn))

theorem miss_fits (e : Bool) {n : Node} (h : NodeFits n) (hs : n.served) : NodeFits (n.miss e) := by
  have st := (served_iff n).1 hs
  have ident : n.ident.isSome := h.ident (by rcases st with h | h <;> simp [h])
  unfold Node.miss
  dsimp only
  split
  · exact ⟨h.empty, h.unjoined, h.changes⟩
  · exact .joined ident (missedState_joined st _).1 (missedState_joined st _).2 h.changes

theorem provision_fits (x : Option NodeIdent) : NodeFits (Node.provision x) where
  empty := by cases x <;> simp [Node.provision]
  unjoined := fun _ => ⟨rfl, rfl, rfl, rfl⟩
  changes := Nat.zero_le _

theorem lineBreak_fits {n : Node} (h : NodeFits n) : NodeFits n.lineBreak := by
  unfold Node.lineBreak
  cases e : n.state with
  | active | stale | dropped =>
    have ident : n.ident.isSome := h.ident (by simp [e])
    exact ⟨by simp [Option.isSome_iff_ne_none.1 ident], fun _ => ⟨rfl, rfl, rfl, rfl⟩, h.changes⟩
  | empty | provisioned => exact h

theorem loadIdent_fits (x : Option NodeIdent) {n : Node} (h : NodeFits n) : NodeFits (n.loadIdent x) := by
  unfold Node.loadIdent
  split
  exacts [h, provision_fits x]

/-! ### Samples and joins -/

theorem goodSample_tables (n : Nat) (noisy : Bool) (w : Content) {s : State} (h : TableLaws s) :
    TableLaws (goodSample n noisy w s) := by
  unfold goodSample
  cases e : (nodeAt s n).ident with
  | none => exact h
  | some x =>
    have fits := takeSample_fits x.kind noisy w s.line.frame (by simp [e]) (h.nodeAt_fits n)
    have put : ∀ a b, TableLaws (reportToMowers n a b
        (setNode n (fun _ => (nodeAt s n).takeSample x.kind noisy w s.line.frame) s)) :=
      fun a b => reportToMowers_tables n a b (setNode_tables n _ h fun _ => fits)
    refine handOver_tables n x.kind w (settle_tables ?_)
    split
    · exact put _ _
    · exact ite_tables (put _ _) (codeReport_tables _ _ _ _ (put _ _))

theorem missedSample_tables (n : Nat) (e : Bool) {s : State} (h : TableLaws s) (hs : (nodeAt s n).served) :
    TableLaws (missedSample n e s) :=
  changeNode_tables n _ h fun _ => miss_fits e (h.nodeAt_fits n) hs

theorem giveAnswer_tables (a : JoinAnswer) {s : State} (h : TableLaws s) : TableLaws (giveAnswer a s) := by
  refine { h with answers := ?_ }
  have := h.answers
  rw [giveAnswer_answers]
  split
  · simpa using this
  · split
    · simp; omega
    · exact this

theorem unknownJoin_tables (serial : Serial) (k : Nat) {s : State} (h : TableLaws s) :
    TableLaws (unknownJoin serial k s) := by
  unfold unknownJoin
  dsimp only
  split
  · exact { h with nodes := { h.nodes with joiners := by simpa using h.nodes.joiners } }
  · split
    · next lt =>
      exact post_tables _ _ _ { h with nodes := { h.nodes with joiners := by simpa using lt } }
    · exact { h with nodes := { h.nodes with joiners := h.nodes.joiners } }

theorem refuseJoin_tables (serial : Serial) (x : Option Nat) (k : Nat) {s : State} (h : TableLaws s) :
    TableLaws (refuseJoin serial x k s) := post_tables _ _ _ (giveAnswer_tables _ h)

theorem joinRecord_tables (i : Nat) (x : NodeIdent) (b : Bool) {s : State} (h : TableLaws s)
    (hi : (nodeAt s i).ident = some x) : TableLaws (joinRecord i x b s) := by
  refine changeNode_tables i _ (post_tables _ _ _ (giveAnswer_tables _ h)) fun _ => ?_
  have same : nodeAt (post .nodeJoined (some i) ((nodeAt s i).join b).rejoin
      (giveAnswer { serial := x.serial, address := some x.address } s)) i = nodeAt s i := rfl
  rw [same]
  exact .joined (by simp [Node.join, hi]) (by simp [Node.join]) (by simp [Node.join]) (h.nodeAt_fits i).changes

theorem joinNode_tables (serial : Serial) (k : Nat) {s : State} (h : TableLaws s) :
    TableLaws (joinNode serial k s) := by
  unfold joinNode
  cases NodeKind.ofNumber k with
  | none => exact refuseJoin_tables _ _ _ h
  | some kind =>
    cases findSerial serial s with
    | none => exact unknownJoin_tables _ _ h
    | some i =>
      dsimp only
      cases e : (nodeAt s i).ident with
      | none => exact h
      | some x =>
        refine ite_tables (refuseJoin_tables _ _ _ h) ?_
        cases (nodeAt s i).state with
        | active | stale => exact ite_tables (giveAnswer_tables _ h) (joinRecord_tables _ _ _ h e)
        | provisioned | dropped | empty => exact joinRecord_tables _ _ _ h e

end Sys2Proof.Machine

namespace Sys2Proof.Machine

/-! ### Slot maps -/

theorem overlap_comm (p q : Placement) : overlap p q = overlap q p := by
  simp only [overlap, Nat.min_comm q.divisor p.divisor]
  rw [Bool.eq_iff_iff]
  simp only [Bool.and_eq_true, beq_iff_eq]
  exact ⟨fun h => ⟨h.1.symm, h.2.symm⟩, fun h => ⟨h.1.symm, h.2.symm⟩⟩

/-- Nothing of the map but entry `i` overlaps `p`: what the test of R8, step 3, finds. -/
theorem overlapsOther_false {i : Nat} {p : Placement} {map : List (Option Placement)}
    (h : overlapsOther i p map = false) {j : Nat} {q : Placement} (hj : j ≠ i) (hq : map[j]? = some (some q)) :
    overlap p q = false := by
  obtain ⟨lt, e⟩ := List.getElem?_eq_some_iff.1 hq
  have test := List.any_eq_false.1 h j (List.mem_range.2 lt)
  simpa [hj, lt, e] using test

/-- A map stays overlap-free when every entry it gains or keeps was there or meets no other. -/
theorem OverlapFree.of_sub {map map' : List (Option Placement)} (h : OverlapFree map)
    (hs : ∀ (i : Nat) (p : Placement), map'[i]? = some (some p) → map[i]? = some (some p)) : OverlapFree map' :=
  fun i j p q ij hp hq => h i j p q ij (hs i p hp) (hs j q hq)

theorem OverlapFree.set_none {map : List (Option Placement)} (h : OverlapFree map) (i : Nat) :
    OverlapFree (map.set i none) := by
  refine h.of_sub fun j p hp => ?_
  rw [List.getElem?_set] at hp
  split at hp
  · split at hp <;> simp at hp
  · exact hp

theorem OverlapFree.set_some {map : List (Option Placement)} (h : OverlapFree map) {i : Nat} {p : Placement}
    (hp : overlapsOther i p map = false) : OverlapFree (map.set i (some p)) := by
  have entry : ∀ (j : Nat) (q : Placement), (map.set i (some p))[j]? = some (some q) →
      (j = i ∧ q = p) ∨ (j ≠ i ∧ map[j]? = some (some q)) := by
    intro j q hq
    by_cases e : i = j
    · subst e
      rw [List.getElem?_set_self'] at hq
      obtain ⟨_, -, same⟩ := Option.map_eq_some_iff.1 hq
      exact .inl ⟨rfl, (Option.some.inj same).symm⟩
    · exact .inr ⟨fun x => e x.symm, by rwa [List.getElem?_set_ne e] at hq⟩
  intro j k q r jk hq hr
  rcases entry j q hq with ⟨ji, qp⟩ | ⟨ji, old⟩ <;> rcases entry k r hr with ⟨ki, rp⟩ | ⟨ki, old'⟩
  · exact absurd (ji.trans ki.symm) jk
  · exact qp ▸ overlapsOther_false hp ki old'
  · rw [overlap_comm]; exact rp ▸ overlapsOther_false hp ji old
  · exact h j k q r jk old old'

theorem OverlapFree.blank (n : Nat) : OverlapFree (List.replicate n none) := by
  intro i j p q _ hp _
  have := List.eq_of_mem_replicate (List.mem_of_getElem? hp)
  simp at this

theorem setNext_tables (i : Nat) (p : Option Placement) {s : State} (h : TableLaws s)
    (hp : OverlapFree (s.line.next.set i p)) : TableLaws (setNext i p s) :=
  { h with line := { h.line with next := hp, nextSize := by simpa [setNext] using h.line.nextSize } }

/-! ### Entry writes -/

theorem ite_fst_tables {c : Prop} [Decidable c] {x y : State × Status} (hx : TableLaws x.1) (hy : TableLaws y.1) :
    TableLaws (if c then x else y).1 := by
  split <;> assumption

theorem kept_tables {t : State} {st : Status} (h : TableLaws t) : TableLaws ((t, st) : State × Status).1 := h

theorem writeSlot_tables (i : Nat) (w : Option SlotWrite) {s : State} (h : TableLaws s) :
    TableLaws (writeSlot i w s).1 := by
  unfold writeSlot
  refine ite_fst_tables h ?_
  cases w with
  | none => exact kept_tables <| setNext_tables i none h (h.line.next.set_none i)
  | some w =>
    refine ite_fst_tables h ?_
    dsimp only
    split
    · exact h
    · next free => exact kept_tables <| setNext_tables i _ h (h.line.next.set_some (Bool.not_eq_true _ ▸ free))

theorem filterJoiners_tables (p : Joiner → Bool) {s : State} (h : TableLaws s) :
    TableLaws { s with nodes := { s.nodes with joiners := s.nodes.joiners.filter p } } :=
  { h with nodes := { h.nodes with joiners := (List.length_filter_le _ _).trans h.nodes.joiners } }

theorem dropJoiner_tables (x : Serial) {s : State} (h : TableLaws s) : TableLaws (dropJoiner x s) :=
  filterJoiners_tables _ h

theorem writeNode_tables (i : Nat) (w : Option NodeWrite) {s : State} (h : TableLaws s) :
    TableLaws (writeNode i w s).1 := by
  unfold writeNode
  refine ite_fst_tables h ?_
  cases w with
  | none => exact ite_fst_tables h (kept_tables <| changeNode_tables i _ h fun _ => provision_fits none)
  | some w =>
    dsimp only
    cases NodeKind.ofNumber w.kind with
    | none => exact h
    | some k =>
      refine ite_fst_tables h (ite_fst_tables h (kept_tables <| ite_tables (dropJoiner_tables _ h) ?_))
      exact changeNode_tables i _ (dropJoiner_tables _ h) fun _ => provision_fits _

theorem writeJoiner_tables (i : Nat) (b : Bool) {s : State} (h : TableLaws s) : TableLaws (writeJoiner i b s).1 := by
  refine ite_fst_tables h (ite_fst_tables h { h with nodes := { h.nodes with joiners := ?_ } })
  exact (List.length_eraseIdx_le _ _).trans h.nodes.joiners

theorem setLoop_tables (i : Nat) (l : Option LoopRec) {s : State} (h : TableLaws s) : TableLaws (setLoop i l s) :=
  { h with pos := { h.pos with loops := by simpa [setLoop] using h.pos.loops } }

theorem changeLoop_tables (i : Nat) {s : State} (h : TableLaws s) : TableLaws (changeLoop i s) := mapMowers_tables _ h

theorem limitZones_tables (i L : Nat) {s : State} (h : TableLaws s) : TableLaws (limitZones i L s) :=
  { h with zone := { zones := by simpa [limitZones] using h.zone.zones, results := { h.zone.results with occ := h.zone.results.occ } } }

theorem writeLoop_tables (i : Nat) (w : Option LoopWrite) {s : State} (h : TableLaws s) :
    TableLaws (writeLoop i w s).1 := by
  unfold writeLoop
  refine ite_fst_tables h ?_
  cases w with
  | none => exact ite_fst_tables h (kept_tables <| settle_tables (changeLoop_tables _ (setLoop_tables _ _ h)))
  | some w =>
    dsimp only
    cases s.pos.loops.getD i none with
    | none => exact kept_tables <| settle_tables (setLoop_tables _ _ h)
    | some old =>
      refine ite_fst_tables h (kept_tables <| settle_tables (changeLoop_tables _ (setLoop_tables _ _ ?_)))
      exact ite_tables h (limitZones_tables _ _ h)

theorem writeMower_tables (i : Nat) (w : MowerWrite) {s : State} (h : TableLaws s) : TableLaws (writeMower i w s).1 :=
  ite_fst_tables h (ite_fst_tables h (kept_tables <| settle_tables (setMower_tables _ _ h)))

theorem setZone_tables (i : Nat) (z : Option ZoneRec) {s : State} (h : TableLaws s) : TableLaws (setZone i z s) :=
  { h with zone := { zones := by simpa [setZone] using h.zone.zones, results := { h.zone.results with occ := h.zone.results.occ } } }

theorem writeZone_tables (i : Nat) (w : Option ZoneWrite) {s : State} (h : TableLaws s) :
    TableLaws (writeZone i w s).1 := by
  unfold writeZone
  refine ite_fst_tables h (ite_fst_tables h ?_)
  cases w with
  | none => exact kept_tables <| settle_tables (setZone_tables _ _ h)
  | some w =>
    dsimp only
    split
    · exact ite_fst_tables h (kept_tables <| settle_tables (setZone_tables _ _ h))
    · exact h

theorem writeChannel_tables (i : Nat) (w : Option ChannelWrite) {s : State} (h : TableLaws s) :
    TableLaws (writeChannel i w s).1 := by
  unfold writeChannel
  refine ite_fst_tables h (ite_fst_tables h ?_)
  cases w with
  | none => exact kept_tables <| settle_tables (setChannel_tables _ _ h)
  | some w =>
    dsimp only
    cases ChannelKind.ofNumber w.kind with
    | none => exact h
    | some k => exact ite_fst_tables h (kept_tables <| settle_tables (formClogged_tables _ (setChannel_tables _ _ h)))

theorem writeShow_tables (i : Nat) (w : Option ShowWrite) {s : State} (h : TableLaws s) :
    TableLaws (writeShow i w s).1 := by
  unfold writeShow
  refine ite_fst_tables h (ite_fst_tables h ?_)
  cases w with
  | none => exact kept_tables <| settle_tables (setPlayer_tables _ _ h)
  | some w => exact ite_fst_tables h (ite_fst_tables h (kept_tables <| settle_tables (setPlayer_tables _ _ h)))

theorem writeStep_tables (i : Nat) (w : StepWrite) {s : State} (h : TableLaws s) : TableLaws (writeStep i w s).1 :=
  ite_fst_tables h { h with water := { h.water with steps := by simpa using h.water.steps } }

theorem writeLight_tables (i : Nat) (w : Option LightWrite) {s : State} (h : TableLaws s) :
    TableLaws (writeLight i w s).1 := by
  unfold writeLight
  refine ite_fst_tables h ?_
  cases w with
  | none => exact kept_tables <| settle_tables (setGroup_tables _ _ h)
  | some w =>
    dsimp only
    cases LightMode.ofNumber w.mode with
    | none => exact h
    | some m => exact ite_fst_tables h (kept_tables <| settle_tables (setGroup_tables _ _ h))

theorem writeLoad_tables (i : Nat) (w : Option LoadWrite) {s : State} (h : TableLaws s) :
    TableLaws (writeLoad i w s).1 := by
  unfold writeLoad
  refine ite_fst_tables h ?_
  cases w with
  | none => exact h
  | some w => exact ite_fst_tables h (kept_tables <| settle_tables { h with loads := by simpa using h.loads })

theorem replaceSite_tables (x : Site) {s : State} (h : TableLaws s) : TableLaws (replaceSite x s) :=
  { h with loads := h.loads, answers := h.answers }

theorem writeSite_tables (i : Nat) (w : Option SiteWrite) {s : State} (h : TableLaws s) :
    TableLaws (writeSite i w s).1 := by
  unfold writeSite
  refine ite_fst_tables h ?_
  cases w with
  | none => exact h
  | some w => exact ite_fst_tables h (kept_tables <| settle_tables (replaceSite_tables _ h))

theorem writeEntry_tables (e : EntryWrite) {s : State} (h : TableLaws s) : TableLaws (writeEntry e s).1 := by
  cases e with
  | slotmap i w => exact writeSlot_tables i w h
  | nodes i w => exact writeNode_tables i w h
  | joiners i b => exact writeJoiner_tables i b h
  | loops i w => exact writeLoop_tables i w h
  | mowers i w => exact writeMower_tables i w h
  | zones i w => exact writeZone_tables i w h
  | channels i w => exact writeChannel_tables i w h
  | shows i w => exact writeShow_tables i w h
  | steps i w => exact writeStep_tables i w h
  | lights i w => exact writeLight_tables i w h
  | loads i w => exact writeLoad_tables i w h
  | site i w => exact writeSite_tables i w h

theorem writeAll_tables (es : List EntryWrite) {s : State} (h : TableLaws s) : TableLaws (writeAll es s).1 := by
  induction es generalizing s with
  | nil => exact h
  | cons e es ih => exact ih (writeEntry_tables e h)

/-! ### The store -/

theorem workingTables_sized {s : State} (h : TableLaws s) : TablesSized (workingTables s) := by
  obtain ⟨⟨-, -, -, next⟩, ⟨-, recs, -⟩, ⟨loops, mowers⟩, ⟨zones, -⟩, ⟨channels, shows, steps⟩, light, loads, -, -⟩ := h
  simp [TablesSized, workingTables, *]

theorem beginSave_tables {s : State} (h : TableLaws s) : TableLaws (beginSave s) := by
  refine beginWrite_tables _ h fun copy n e => ?_
  cases e
  exact ⟨h.line.next, workingTables_sized h⟩

theorem clearUnsaved_tables (copy : List (Nat × Bool)) {s : State} (h : TableLaws s) :
    TableLaws (clearUnsaved copy s) :=
  { h with pos := { h.pos with mowers := by simpa [clearUnsaved, mapIx_length] using h.pos.mowers } }

theorem setUnsaved_tables {s : State} (h : TableLaws s) : TableLaws (setUnsaved s) := mapMowers_tables _ h

theorem offsetImage_tables (copy : List (Nat × Bool)) (v : Bool) {x : Image} (hs : OverlapFree x.tables.slots)
    (ht : TablesSized x.tables) :
    OverlapFree (offsetImage copy v x).tables.slots ∧ TablesSized (offsetImage copy v x).tables := by
  refine ⟨hs, ?_⟩
  simpa [TablesSized, offsetImage, Image.sealed, mapIx_length] using ht

/-- A store that holds an image and no write keeps the laws when the image does. -/
theorem TableLaws.withImage {s : State} (h : TableLaws s) (x : Image) (v : Bool)
    (hx : OverlapFree x.tables.slots ∧ TablesSized x.tables) :
    TableLaws { s with store := { s.store with image := x, imageValid := v, writing := none } } :=
  { h with store := ⟨hx.1, hx.2, nofun⟩ }

theorem completeWrite_tables (good : Bool) {s : State} (h : TableLaws s) : TableLaws (completeWrite good s) := by
  unfold completeWrite
  split
  · exact h
  · next copy count e =>
    exact clearUnsaved_tables _ (post_tables _ _ _ (h.withImage _ _ (h.store.copies _ _ e)))
  · next copy e =>
    exact clearUnsaved_tables _ (h.withImage _ _ (offsetImage_tables copy _ h.store.slots h.store.sized))
  · exact setUnsaved_tables (post_tables _ _ _ (h.withImage _ _ ⟨h.store.slots, h.store.sized⟩))

theorem cutOff_tables {s : State} (h : TableLaws s) : TableLaws (cutOff s) := by
  unfold cutOff
  split
  · exact h
  · exact h.withImage _ _ ⟨h.store.slots, h.store.sized⟩
  · exact { h with store := ⟨h.store.slots, h.store.sized, nofun⟩ }

theorem blank_sized : OverlapFree Tables.blank.slots ∧ TablesSized Tables.blank :=
  ⟨.blank 64, by simp [TablesSized, Tables.blank]⟩

/-- Tables of the right sizes, with an overlap-free map, fill the blocks at their sizes. -/
theorem fillTables_tables {t : Tables} (hs : OverlapFree t.slots) (ht : TablesSized t) {s : State} (h : TableLaws s) :
    TableLaws (fillTables t s) := by
  obtain ⟨slots, nodes, loops, mowers, zones, channels, shows, steps, lights, loads⟩ := ht
  exact
    { line := ⟨hs, hs, slots, slots⟩
      nodes := ⟨by simpa [fillTables] using fun x _ => provision_fits x, by simpa [fillTables] using nodes, Nat.zero_le _⟩
      pos := ⟨loops, by simpa [fillTables] using mowers⟩
      zone := ⟨zones, by constructor <;> rfl⟩
      water := ⟨by simpa [fillTables] using channels, by simpa [fillTables] using shows, steps⟩
      light := by simpa [fillTables] using lights
      loads := by simpa [fillTables] using loads
      answers := Nat.zero_le _
      store := ⟨h.store.slots, h.store.sized, nofun⟩ }

theorem startUp_tables {s : State} (h : TableLaws s) : TableLaws (startUp s) := by
  refine settle_tables (ite_tables ?_ (post_tables _ _ _ ?_)) <;>
  · split
    · exact fillTables_tables h.store.slots h.store.sized h
    · exact fillTables_tables blank_sized.1 blank_sized.2 h

/-! ### Loading -/

theorem cycleBreak_tables (k i : Nat) {s : State} (h : TableLaws s) : TableLaws (cycleBreak k i s) := by
  unfold cycleBreak
  cases (channelAt s i).stage with
  | idle | aborting => exact h
  | requested => exact post_tables _ _ _ (setChannel_tables _ _ h)
  | stopping | reversing | washing | rinsing | restoring => exact setChannel_tables _ _ h

theorem cyclesBreak_tables (k : Nat) {s : State} (h : TableLaws s) : TableLaws (cyclesBreak k s) :=
  eachIx_tables (fun i _ ht => cycleBreak_tables k i ht) 8 h

theorem loadNodes_tables (t : Tables) {s : State} (h : TableLaws s) : TableLaws (loadNodes t s) := by
  refine filterJoiners_tables _ (eachIx_tables (fun i u hu => ?_) 48 h)
  exact reportToMowers_tables _ _ _ (setNode_tables i _ hu fun _ => loadIdent_fits _ (hu.nodeAt_fits i))

theorem loadMowers_tables {t : Tables} (ht : TablesSized t) {s : State} (h : TableLaws s) :
    TableLaws (loadMowers t s) := by
  obtain ⟨-, -, loops, -⟩ := ht
  exact { h with pos := ⟨loops, by simpa [loadMowers, mapIx_length] using h.pos.mowers⟩ }

theorem loadZones_tables {t : Tables} (ht : TablesSized t) {s : State} (h : TableLaws s) :
    TableLaws (loadZones t s) := by
  obtain ⟨-, -, -, -, zones, -⟩ := ht
  exact { h with zone := ⟨zones, { h.zone.results with occ := h.zone.results.occ }⟩ }

theorem loadWater_tables {t : Tables} (ht : TablesSized t) {s : State} (h : TableLaws s) :
    TableLaws (loadWater t s) := by
  obtain ⟨-, -, -, -, -, -, -, steps, -⟩ := ht
  refine eachIx_tables (fun i _ hu => ite_tables (post_tables _ _ _ (setChannel_tables _ _ hu)) hu) 8
    (eachIx_tables (fun i _ hu => formClogged_tables i hu) 8 { h with water := ⟨?_, ?_, steps⟩ })
  · simpa [mapIx_length] using h.water.channels
  · simpa [mapIx_length] using h.water.shows

theorem loadLights_tables (t : Tables) {s : State} (h : TableLaws s) : TableLaws (loadLights t s) :=
  { h with light := by simpa [loadLights, mapIx_length] using h.light }

theorem formStarts_tables {s : State} (h : TableLaws s) : TableLaws (formStarts s) := by
  have frame := (formStarts_follow s).1
  refine (formStarts_later s).base.tables ?_ h
  rw [frame]
  exact h.zone.results

theorem loadPass_tables (t : Tables) {s : State} (h : TableLaws s) : TableLaws (loadPass t s) := by
  have monitors : TableLaws (formMonitors false s) :=
    (formMonitors_later false s).base.tables h.zone.results h
  have levels := (formLevels_last _).tables monitors
  have loads : TableLaws (loadLoads t (formLevels (formMonitors false s))) :=
    { levels with loads := by simpa [loadLoads, mapIx_length] using levels.loads }
  exact formStarts_tables ((formGrants_last _).tables loads)

/-- One entry of the image's map taken into the next map, or left free and counted (R9). -/
def loadSlot (image : List (Option Placement)) (x : List (Option Placement) × Nat) (i : Nat) :
    List (Option Placement) × Nat :=
  match image.getD i none with
  | none => x
  | some p =>
    if x.1.getD i none = some p then x
    else if overlapsOther i p x.1 then (x.1, x.2 + 1)
    else (x.1.set i (some p), x.2)

theorem loadSlots_eq (image next : List (Option Placement)) :
    loadSlots image next
      = (List.range 64).foldl (loadSlot image)
          (mapIx (fun i p => if p = image.getD i none then p else none) 0 next, 0) := rfl

theorem loadSlot_keeps (image : List (Option Placement)) (i : Nat) {x : List (Option Placement) × Nat}
    (h : OverlapFree x.1 ∧ x.1.length = 64) : OverlapFree (loadSlot image x i).1 ∧ (loadSlot image x i).1.length = 64 := by
  unfold loadSlot
  cases image.getD i none with
  | none => exact h
  | some p =>
    dsimp only
    split
    · exact h
    · split
      · exact h
      · next free => exact ⟨h.1.set_some (Bool.not_eq_true _ ▸ free), by simpa using h.2⟩

theorem loadSlots_keeps (image : List (Option Placement)) {next : List (Option Placement)} (h : OverlapFree next)
    (hn : next.length = 64) :
    OverlapFree (loadSlots image next).1 ∧ (loadSlots image next).1.length = 64 := by
  have kept : OverlapFree (mapIx (fun i p => if p = image.getD i none then p else none) 0 next) := by
    refine h.of_sub fun i p hp => ?_
    rw [mapIx_getElem?] at hp
    obtain ⟨q, hq, e⟩ := Option.map_eq_some_iff.1 hp
    split at e
    · rw [hq, e]
    · simp at e
  rw [loadSlots_eq]
  generalize e : (mapIx (fun i p => if p = image.getD i none then p else none) 0 next, 0) = x
  have start : OverlapFree x.1 ∧ x.1.length = 64 := by
    subst e; exact ⟨kept, by simpa [mapIx_length] using hn⟩
  clear e
  induction List.range 64 generalizing x with
  | nil => exact start
  | cons i l ih => exact ih _ (loadSlot_keeps image i start)

theorem withNext_tables {s : State} (h : TableLaws s) (x : List (Option Placement) × Nat)
    (hx : OverlapFree x.1 ∧ x.1.length = 64) :
    TableLaws (({ s with line := { s.line with next := x.1 } }, x.2) : State × Nat).1 :=
  { h with line := { h.line with next := hx.1, nextSize := hx.2 } }

theorem loadTables_tables {t : Tables} (ht : TablesSized t) {s : State} (h : TableLaws s) :
    TableLaws (loadTables t s).1 := by
  have s1 := settleDeferred_tables (cyclesBreak_tables 9 h)
  have s2 : TableLaws (settleDeferred (haltShows (settleDeferred (cyclesBreak 9 s)))) :=
    settleDeferred_tables (mapShows_tables _ s1)
  have s4 := settleDeferred_tables (loadNodes_tables t (settleDeferred_tables (replaceSite_tables t.site s2)))
  have s6 := settleDeferred_tables (loadZones_tables ht (loadMowers_tables ht s4))
  have s8 := settleDeferred_tables (loadLights_tables t (settleDeferred_tables (loadWater_tables ht s6)))
  have s9 := settle_tables (loadPass_tables t s8)
  unfold loadTables
  exact withNext_tables s9 _ (loadSlots_keeps t.slots s9.line.next s9.line.nextSize)

end Sys2Proof.Machine

namespace Sys2Proof.Machine

/-! ### Answers and requests -/

theorem respond_tables (r : Request) (st : Status) (body : List Byte) {s : State} (h : TableLaws s) :
    TableLaws (respond r st body s) := { h with answers := h.answers }

theorem reply_tables (r : Request) (st : Status) {s : State} (h : TableLaws s) : TableLaws (reply r st s) :=
  respond_tables r st [] h

theorem countBusy_tables {s : State} (h : TableLaws s) : TableLaws (countBusy s) :=
  { h with store := { h.store with slots := h.store.slots } }

theorem answerForward_tables (f : Forwarding) (m : List Byte) {s : State} (h : TableLaws s) :
    TableLaws (answerForward f m s) := ite_tables (reply_tables _ _ h) (respond_tables _ _ _ h)

theorem minuteChanged_tables {s : State} (h : TableLaws s) : TableLaws (minuteChanged s) := by
  have dark : TableLaws (formDark s) := mapLight_tables _ h
  exact settle_tables (mapShows_tables _ (mapLight_tables _ dark))

theorem mgmtBreak_tables {s : State} (h : TableLaws s) : TableLaws (mgmtBreak s) := by
  have t : TableLaws { s with mgmt := { s.mgmt with ctx1 := none, ctx2 := none, joinCtx := none, answers := [] } } :=
    { h with answers := Nat.zero_le _ }
  unfold mgmtBreak
  dsimp only
  split
  · exact reply_tables _ _ t
  · exact reply_tables _ _ t
  all_goals exact t

theorem lineToBreak_tables {s : State} (h : TableLaws s) : TableLaws (lineToBreak s) :=
  { h with line := { h.line with next := h.line.next } }

theorem nodesBreak_tables {s : State} (h : TableLaws s) : TableLaws (nodesBreak s) := by
  refine eachIx_tables (fun i u hu => mapMowers_tables _ ?_) 48 h
  exact setNode_tables i _ hu fun _ => lineBreak_fits (hu.nodeAt_fits i)

theorem enterBreak_tables {s : State} (h : TableLaws s) : TableLaws (enterBreak s) :=
  settle_tables (mgmtBreak_tables (nodesBreak_tables (cyclesBreak_tables 8 (lineToBreak_tables h))))

theorem causeRestart_tables {s : State} (h : TableLaws s) : TableLaws (causeRestart s) := by
  unfold causeRestart
  split
  · exact { h with line := { h.line with next := h.line.next } }
  · exact enterBreak_tables h
  · exact h

theorem setPointer_tables (a b c : Nat) {s : State} (h : TableLaws s) : TableLaws (setPointer a b c s) :=
  { h with answers := h.answers }

theorem readTable_tables (r : Request) (sp tb f c : Nat) (t : Table) (st : Status) {s : State} (h : TableLaws s) :
    TableLaws (readTable r sp tb f c t st s) := by
  refine ite_tables (respond_tables _ _ _ (setPointer_tables _ _ _ h)) (ite_tables ?_ ?_)
  · refine respond_tables _ _ _ (setPointer_tables _ _ _ (setNode_tables _ _ h fun _ => ?_))
    exact { h.nodeAt_fits f with changes := Nat.zero_le _ }
  · exact respond_tables _ _ _ (setPointer_tables _ _ _ h)

theorem readEntries_tables (r : Request) (sp tb f c : Nat) {s : State} (h : TableLaws s) :
    TableLaws (readEntries r sp tb f c s) := by
  unfold readEntries
  refine ite_tables (reply_tables _ _ h) ?_
  cases Table.ofNumber tb with
  | none => exact reply_tables _ _ h
  | some t =>
    refine ite_tables (reply_tables _ _ h) (ite_tables (reply_tables _ _ (countBusy_tables h)) ?_)
    exact ite_tables (reply_tables _ _ h) (ite_tables (reply_tables _ _ h) (readTable_tables _ _ _ _ _ _ _ h))

theorem continueRead_tables (r : Request) (c : Nat) {s : State} (h : TableLaws s) : TableLaws (continueRead r c s) := by
  unfold continueRead
  cases s.mgmt.readPtr with
  | none => exact reply_tables _ _ h
  | some p => exact readEntries_tables _ _ _ _ _ h

theorem loadRequest_tables (r : Request) {s : State} (h : TableLaws s) : TableLaws (loadRequest r s) :=
  ite_tables (reply_tables _ _ (countBusy_tables h))
    (ite_tables (reply_tables _ _ h) (respond_tables _ _ _ (loadTables_tables h.store.sized h)))

theorem presetRequest_tables (r : Request) (m t : Nat) {s : State} (h : TableLaws s) :
    TableLaws (presetRequest r m t s) := by
  unfold presetRequest
  refine ite_tables (reply_tables _ _ h) ?_
  dsimp only
  cases (mowerAt s m).base with
  | none => exact reply_tables _ _ h
  | some b => exact respond_tables _ _ _ (settle_tables (askOffsetWrite_tables _ _ (setMower_tables _ _ h)))

theorem startShowRequest_tables (r : Request) (ix : Nat) {s : State} (h : TableLaws s) :
    TableLaws (startShowRequest r ix s) := by
  unfold startShowRequest
  refine ite_tables (reply_tables _ _ h) ?_
  cases (playerAt s ix).cfg with
  | none => exact reply_tables _ _ h
  | some x => exact ite_tables (reply_tables _ _ h) (reply_tables _ _ (settle_tables (setPlayer_tables _ _ h)))

theorem startBackwashRequest_tables (r : Request) (c : Nat) {s : State} (h : TableLaws s) :
    TableLaws (startBackwashRequest r c s) := by
  unfold startBackwashRequest
  refine ite_tables (reply_tables _ _ h) ?_
  cases (channelAt s c).cfg with
  | none => exact reply_tables _ _ h
  | some x => exact ite_tables (reply_tables _ _ h) (reply_tables _ _ (settle_tables (setChannel_tables _ _ h)))

theorem stopBackwashRequest_tables (r : Request) (c : Nat) {s : State} (h : TableLaws s) :
    TableLaws (stopBackwashRequest r c s) := by
  unfold stopBackwashRequest
  refine ite_tables (reply_tables _ _ h) ?_
  cases (channelAt s c).stage with
  | idle | restoring | aborting => exact reply_tables _ _ h
  | requested | stopping | reversing | washing | rinsing =>
    exact reply_tables _ _ (settle_tables (setChannel_tables _ _ h))

theorem restoreRequest_tables (r : Request) {s : State} (h : TableLaws s) : TableLaws (restoreRequest r s) := by
  have power : ∀ p : Power, p.loads = s.power.loads → TableLaws { s with power := p } :=
    fun p e => { h with loads := e ▸ h.loads }
  exact ite_tables (reply_tables _ _ (power _ rfl))
    (ite_tables (reply_tables _ _ h) (reply_tables _ _ (settle_tables (power _ rfl))))

theorem forwardRequest_tables (r : Request) (n : Nat) (p : List Byte) {s : State} (h : TableLaws s) :
    TableLaws (forwardRequest r n p s) := by
  unfold forwardRequest
  refine ite_tables (reply_tables _ _ h) (ite_tables (reply_tables _ _ h) ?_)
  cases (nodeAt s n).ident with
  | none => exact reply_tables _ _ h
  | some x => exact ite_tables (reply_tables _ _ h) (h.withMgmt _ rfl)

theorem writeRequest_tables (r : Request) (es : List EntryWrite) {s : State} (h : TableLaws s) :
    TableLaws (writeRequest r es s) := respond_tables _ _ _ (writeAll_tables es h)

theorem writeBytesRequest_tables (r : Request) (sp tb f c : Nat) (bs : List Byte) {s : State} (h : TableLaws s) :
    TableLaws (writeBytesRequest r sp tb f c bs s) := by
  unfold writeBytesRequest
  refine ite_tables (reply_tables _ _ h) ?_
  cases Table.ofNumber tb with
  | none => exact reply_tables _ _ h
  | some t =>
    refine ite_tables (reply_tables _ _ h) ?_
    cases t.written with
    | none => exact reply_tables _ _ h
    | some len => exact ite_tables (reply_tables _ _ h) (writeRequest_tables _ _ h)

theorem dockAllRequest_tables (r : Request) (on : Bool) {s : State} (h : TableLaws s) :
    TableLaws (dockAllRequest r on s) := by
  refine reply_tables _ _ (ite_tables h (settle_tables ?_))
  exact { h with zone := ⟨h.zone.zones, { h.zone.results with occ := h.zone.results.occ }⟩ }

theorem process_tables (r : Request) {s : State} (h : TableLaws s) : TableLaws (process r s) := by
  unfold process
  cases r.body with
  | readStatus => exact respond_tables _ _ _ h
  | readEntries => exact readEntries_tables _ _ _ _ _ h
  | continueRead => exact continueRead_tables _ _ h
  | writeEntries => exact writeBytesRequest_tables _ _ _ _ _ _ h
  | write => exact writeRequest_tables _ _ h
  | takeNotices => exact respond_tables _ _ _ { h with answers := h.answers }
  | setClock => exact reply_tables _ _ (minuteChanged_tables (h.withMgmt _ rfl))
  | saveTables => exact ite_tables (reply_tables _ _ (countBusy_tables h)) (reply_tables _ _ (beginSave_tables h))
  | loadTables => exact loadRequest_tables _ h
  | presetPosition => exact presetRequest_tables _ _ _ h
  | releaseCapture => exact ite_tables (reply_tables _ _ h) (reply_tables _ _ (setMower_tables _ _ h))
  | dockAll => exact dockAllRequest_tables _ _ h
  | resumeAll => exact dockAllRequest_tables _ _ h
  | startShow => exact startShowRequest_tables _ _ h
  | stopShow =>
    exact ite_tables (reply_tables _ _ h)
      (ite_tables (reply_tables _ _ h) (reply_tables _ _ (settle_tables (setPlayer_tables _ _ h))))
  | startBackwash => exact startBackwashRequest_tables _ _ h
  | stopBackwash => exact stopBackwashRequest_tables _ _ h
  | clearFault =>
    exact ite_tables (reply_tables _ _ h) (ite_tables (reply_tables _ _ h)
      (ite_tables (reply_tables _ _ (settle_tables (setChannel_tables _ _ h))) (reply_tables _ _ h)))
  | restoreSupply => exact restoreRequest_tables _ h
  | restartLine => exact causeRestart_tables { h with answers := h.answers }
  | forward => exact forwardRequest_tables _ _ _ h
  | refusal => exact reply_tables _ _ h
  | malformed => exact reply_tables _ _ h

theorem place_tables (r : Request) {s : State} (h : TableLaws s) : TableLaws (place r s) := by
  unfold place
  refine ite_tables (h.withMgmt _ rfl) ?_
  cases s.mgmt.heldReq with
  | none => exact h.withMgmt _ rfl
  | some lost => exact post_tables _ _ _ (h.withMgmt _ rfl)

theorem serveUpTo_tables (n : Nat) {s : State} (h : TableLaws s) : TableLaws (serveUpTo n s) := by
  induction n generalizing s with
  | zero => exact h
  | succ n ih =>
    unfold serveUpTo
    split
    · exact ih (process_tables _ (h.withMgmt _ rfl))
    · exact h

theorem arrive_tables (r : Request) {s : State} (h : TableLaws s) : TableLaws (arrive r s) :=
  serveUpTo_tables 6 (place_tables r h)

/-! ### Management slots -/

theorem countDiscards_tables (n : Nat) {s : State} (h : TableLaws s) : TableLaws (countDiscards n s) :=
  h.withMgmt _ rfl

theorem unprivileged_tables (o : Origin) (b : Bool) (m : List Byte) {s : State} (h : TableLaws s) :
    TableLaws (unprivileged o b m s) := ite_tables (arrive_tables _ h) (arrive_tables _ (h.withMgmt _ rfl))

theorem joinMessage_tables (x : Handed) (b : Bool) (m : List Byte) {s : State} (h : TableLaws s) :
    TableLaws (joinMessage x b m s) := by
  unfold joinMessage
  cases readJoin m with
  | some k => exact joinNode_tables _ _ h
  | none => exact ite_tables (arrive_tables _ h) (unprivileged_tables _ _ _ h)

theorem toFirst_tables (x : Handed) {s : State} (h : TableLaws s) : TableLaws (toFirst x s) := by
  unfold toFirst
  dsimp only
  split
  · exact countDiscards_tables _ (h.withMgmt _ rfl)
  · exact arrive_tables _ (countDiscards_tables _ (h.withMgmt _ rfl))

theorem toSecond_tables (x : Handed) {s : State} (h : TableLaws s) : TableLaws (toSecond x s) := by
  unfold toSecond
  dsimp only
  split
  · exact countDiscards_tables _ (h.withMgmt _ rfl)
  · exact arrive_tables _ (countDiscards_tables _ (h.withMgmt _ rfl))

theorem toJoin_tables (x : Handed) {s : State} (h : TableLaws s) : TableLaws (toJoin x s) := by
  unfold toJoin
  dsimp only
  split
  · exact countDiscards_tables _ (h.withMgmt _ rfl)
  · exact joinMessage_tables _ _ _ (countDiscards_tables _ (h.withMgmt _ rfl))

theorem toReply_tables (x : Handed) (f : Forwarding) (n : Nat) {s : State} (h : TableLaws s) :
    TableLaws (toReply x f n s) := by
  unfold toReply
  dsimp only
  split
  · exact countDiscards_tables _ (h.withMgmt _ rfl)
  · exact answerForward_tables _ _ (countDiscards_tables _ (h.withMgmt _ rfl))

theorem routeBySender_tables (x : Handed) {s : State} (h : TableLaws s) : TableLaws (routeBySender x s) :=
  ite_tables (toJoin_tables x h) (ite_tables h (ite_tables (toFirst_tables x h)
    (ite_tables (toFirst_tables x h) (ite_tables (toSecond_tables x h)
      (ite_tables (unprivileged_tables _ _ _ h) h)))))

theorem route_tables (x : Handed) {s : State} (h : TableLaws s) : TableLaws (route x s) := by
  unfold route
  cases s.mgmt.proc with
  | forwarding f frags => exact ite_tables (countDiscards_tables _ (h.withMgmt _ rfl)) (routeBySender_tables x h)
  | waiting f n => exact ite_tables (toReply_tables _ _ _ h) (routeBySender_tables x h)
  | idle => exact routeBySender_tables x h
  | sending => exact routeBySender_tables x h

/-- A change of the line that moves neither slot map keeps the table laws. -/
theorem TableLaws.withLine {s : State} (h : TableLaws s) (l : Line) (ha : l.active = s.line.active)
    (hn : l.next = s.line.next) : TableLaws { s with line := l } :=
  { h with line := ⟨ha ▸ h.line.active, hn ▸ h.line.next, ha ▸ h.line.activeSize, hn ▸ h.line.nextSize⟩ }

theorem managementSlot_tables (bids : List Bid) {s : State} (h : TableLaws s) : TableLaws (managementSlot bids s) := by
  unfold managementSlot
  refine ite_tables h ?_
  cases contend bids with
  | none => exact h
  | some w =>
    dsimp only
    split
    · exact h.withLine _ rfl rfl
    · exact route_tables _ (h.withLine _ rfl rfl)

/-! ### Frames -/

theorem outgoingGone_tables {s : State} (h : TableLaws s) : TableLaws (outgoingGone s) := by
  unfold outgoingGone
  split
  · exact h.withMgmt _ rfl
  · exact serveUpTo_tables 6 (h.withMgmt _ rfl)
  · exact h.withMgmt _ rfl
  · unfold beginWait
    split
    · exact answerForward_tables _ _ h
    · exact h.withMgmt _ rfl
  all_goals exact h

theorem answerGone_tables (serial : Serial) {s : State} (h : TableLaws s) : TableLaws (answerGone serial s) := by
  have nodes := (mapNodes_tables (fun n => if n.ident.any (fun x => x.serial == serial) then
    { n with answerPending := false, answeredNow := n.answeredNow || n.answerPending } else n) h ?_).nodes
  · exact { h with nodes := nodes, answers := (List.length_filter_le _ _).trans h.answers }
  · intro n hn
    split
    · exact ⟨hn.empty, fun e => have ⟨a, b, _, d⟩ := hn.unjoined e; ⟨a, b, rfl, d⟩, hn.changes⟩
    · exact hn

theorem fragmentGone_tables (o : Offer) {s : State} (h : TableLaws s) : TableLaws (fragmentGone o s) := by
  cases o with
  | restart f => exact h.withMgmt _ rfl
  | outgoing f => exact outgoingGone_tables h
  | answer a => exact answerGone_tables _ h
  | nothing => exact h

theorem cycleAborted_tables (i : Nat) {s : State} (h : TableLaws s) : TableLaws (cycleAborted i s) :=
  post_tables _ _ _ (setChannel_tables _ _ h)

theorem cycleJammed_tables (i : Nat) (r : ChannelRec) {s : State} (h : TableLaws s) : TableLaws (cycleJammed i r s) :=
  post_tables _ _ _ (ite_tables (setChannel_tables _ _ (setChannel_tables _ _ h)) (setChannel_tables _ _ h))

theorem stageEnd_tables (i : Nat) {s : State} (h : TableLaws s) : TableLaws (stageEnd i s) := by
  unfold stageEnd
  dsimp only
  cases (channelAt s i).cfg with
  | none => exact h
  | some r =>
    cases (channelAt s i).stage with
    | idle | requested => exact h
    | stopping | reversing | washing | rinsing => exact setChannel_tables _ _ h
    | restoring => exact cycleJammed_tables _ _ h
    | aborting => exact cycleAborted_tables _ h

theorem stageFrame_tables (i : Nat) {s : State} (h : TableLaws s) : TableLaws (stageFrame i s) :=
  ite_tables h (ite_tables (stageEnd_tables _ (setChannel_tables _ _ h)) (setChannel_tables _ _ h))

theorem frameTimers_tables {s : State} (h : TableLaws s) : TableLaws (frameTimers s) :=
  mapLight_tables _ (eachIx_tables (fun i _ hu => stageFrame_tables i hu) 8
    (mapShows_tables _ (mapMowers_tables _ h)))

theorem forwardFrame_tables {s : State} (h : TableLaws s) : TableLaws (forwardFrame s) := by
  unfold forwardFrame
  cases s.mgmt.proc with
  | waiting f n => exact ite_tables (reply_tables _ _ h) (h.withMgmt _ rfl)
  | idle => exact h
  | sending => exact h
  | forwarding => exact h

theorem advanceMinute_tables {s : State} (h : TableLaws s) : TableLaws (advanceMinute s) :=
  minuteChanged_tables (h.withMgmt _ rfl)

theorem clockFrame_tables {s : State} (h : TableLaws s) : TableLaws (clockFrame s) :=
  ite_tables h (ite_tables (advanceMinute_tables h) (h.withMgmt _ rfl))

theorem frameEvent_tables {s : State} (h : TableLaws s) : TableLaws (frameEvent s) :=
  clockFrame_tables (forwardFrame_tables (mapLight_tables _ (settle_tables (frameTimers_tables h))))

theorem applyPending_tables {s : State} (h : TableLaws s) : TableLaws (applyPending s) :=
  ite_tables { h with line := ⟨h.line.next, h.line.next, h.line.nextSize, h.line.nextSize⟩ } h

theorem forgetAnswered_tables {s : State} (h : TableLaws s) : TableLaws (forgetAnswered s) :=
  mapNodes_tables _ h fun _ hn => ⟨hn.empty, hn.unjoined, hn.changes⟩

theorem sendHeader_tables {s : State} (h : TableLaws s) : TableLaws (sendHeader s) := h.withLine _ rfl rfl

theorem beginFrame_tables (n : Nat) {s : State} (h : TableLaws s) : TableLaws (beginFrame n s) := by
  refine fragmentGone_tables _ (frameEvent_tables ?_)
  exact sendHeader_tables (applyPending_tables (forgetAnswered_tables (h.withLine _ rfl rfl)))

theorem framePeriod_tables {s : State} (h : TableLaws s) : TableLaws (framePeriod s) := by
  unfold framePeriod
  split
  · exact ite_tables (enterBreak_tables h) (beginFrame_tables _ h)
  · exact h
  · exact ite_tables (beginFrame_tables _ h) (h.withLine _ rfl rfl)

theorem servedIn_served {slot : Nat} {s : State} {n : Nat} {x : NodeIdent} (h : servedIn slot s = some (n, x)) :
    (nodeAt s n).served = true ∧ (nodeAt s n).ident = some x := by
  unfold servedIn at h
  cases e : placementFor slot s with
  | none => simp [e] at h
  | some p =>
    rw [e] at h
    dsimp only at h
    split at h
    · next served =>
      obtain ⟨y, hy, same⟩ := Option.map_eq_some_iff.1 h
      cases same
      exact ⟨served, hy⟩
    · simp at h

theorem nodeSlot_tables (slot : Nat) (heard : Option (List Sampled)) {s : State} (h : TableLaws s) :
    TableLaws (nodeSlot slot heard s) := by
  unfold nodeSlot
  refine ite_tables h ?_
  cases e : servedIn slot s with
  | none => exact h.withLine _ rfl rfl
  | some y =>
    have down : ∀ bs, TableLaws (setDown slot bs s) := fun bs => h.withLine _ rfl rfl
    dsimp only
    cases judgeHeard y.2.address y.1 heard with
    | good noisy w => exact goodSample_tables _ _ _ (down _)
    | failed => exact missedSample_tables _ _ (down _) (servedIn_served e).1
    | silence => exact missedSample_tables _ _ (down _) (servedIn_served e).1

/-! ### Commands -/

theorem whenOn_tables {f : State → State} {s t : State} (hf : TableLaws (f s)) (h : TableLaws s)
    (e : whenOn f s = .next t) : TableLaws t := by
  cases e
  exact ite_tables hf h

theorem whenRunning_tables {f : State → State} {s : State} (hf : TableLaws (f s)) (h : TableLaws s) :
    TableLaws (whenRunning f s) := ite_tables hf h

theorem forwardExpiry_tables {s : State} (h : TableLaws s) : TableLaws (forwardExpiry s) := by
  unfold forwardExpiry
  cases s.mgmt.proc with
  | waiting f n => exact ite_tables (reply_tables _ _ h) h
  | idle => exact h
  | sending => exact h
  | forwarding => exact h

theorem cycleStart_tables (i : Nat) {s : State} (h : TableLaws s) : TableLaws (cycleStart i s) := by
  unfold cycleStart
  dsimp only
  cases (channelAt s i).cfg with
  | none => exact h
  | some r => exact ite_tables (setChannel_tables _ _ h) h

theorem cycleStep_tables (i : Nat) {s : State} (h : TableLaws s) : TableLaws (cycleStep i s) := by
  refine (cycleStep_later i s).base.tables ?_ h
  rw [cycleStep_frame]
  exact h.zone.results

theorem stageExpiry_tables (st : Stage) (c : Nat) {s : State} (h : TableLaws s) : TableLaws (stageExpiry st c s) :=
  ite_tables (settle_tables (stageFrame_tables _ h)) h

theorem stageTest_tables (st : Stage) (c : Nat) {s : State} (h : TableLaws s) : TableLaws (stageTest st c s) :=
  ite_tables (settle_tables (cycleStep_tables _ h)) h

theorem stopPart_tables (m : Mode) {s : State} (h : TableLaws s) : TableLaws (stopPart m s) :=
  { (cutOff_tables h).withLine
      { (cutOff s).line with state := .inBreak, breakCount := none, restartDue := false, rx := none } rfl rfl with
    answers := (cutOff_tables h).answers }

theorem next_tables {u t : State} (h : TableLaws u)
    (e : (Host.Outcome.next u : Host.Outcome State Fault Refusal) = .next t) : TableLaws t := by
  cases e
  exact h

theorem expiry_tables (st : Stage) (c : Nat) {s t : State} (h : TableLaws s)
    (e : whenOn (whenRunning (stageExpiry st c)) s = .next t) : TableLaws t :=
  whenOn_tables (whenRunning_tables (stageExpiry_tables st c h) h) h e

theorem test_tables (st : Stage) (c : Nat) {s t : State} (h : TableLaws s)
    (e : whenOn (stageTest st c) s = .next t) : TableLaws t :=
  whenOn_tables (stageTest_tables st c h) h e

theorem breakIfDue_tables {s : State} (h : TableLaws s) : TableLaws (breakIfDue s) :=
  ite_tables (enterBreak_tables h) h

theorem resumeIfBreak_tables {s : State} (h : TableLaws s) : TableLaws (resumeIfBreak s) :=
  ite_tables (beginFrame_tables 0 h) h

theorem debounceExpiry_tables (i : Nat) {s : State} (h : TableLaws s) : TableLaws (debounceExpiry i s) :=
  ite_tables (setMower_tables _ _ h) h

theorem showExpiry_tables (i : Nat) {s : State} (h : TableLaws s) : TableLaws (showExpiry i s) :=
  ite_tables (settle_tables (setPlayer_tables _ _ h)) h

theorem holdExpiry_tables (g : Nat) {s : State} (h : TableLaws s) : TableLaws (holdExpiry g s) :=
  ite_tables (settle_tables (setGroup_tables _ _ h)) h

theorem minuteExpiry_tables {s : State} (h : TableLaws s) : TableLaws (minuteExpiry s) :=
  ite_tables (advanceMinute_tables h) h

theorem startCondition_tables (c : Nat) {s : State} (h : TableLaws s) : TableLaws (startCondition c s) :=
  ite_tables (settle_tables (cycleStart_tables _ h)) h

/-- Every command keeps the table laws: a request by its arrival, any other by the operation it names. -/
theorem exec_tables (c : Instr) {s t : State} (h : TableLaws s) (e : exec c s = .next t) : TableLaws t := by
  cases r : asRequest c with
  | some r' => exact whenOn_tables (arrive_tables r' h) h ((exec_asRequest r s).symm.trans e)
  | none =>
    cases c with
    | resetAsserted => exact next_tables (ite_tables h (stopPart_tables .held h)) e
    | startUp => exact next_tables (u := startUp (cutOff s)) (startUp_tables (cutOff_tables h)) e
    | lossOfSupply => exact next_tables (u := stopPart .off s) (stopPart_tables .off h) e
    | frameStart => exact whenOn_tables (f := framePeriod) (framePeriod_tables h) h e
    | lineBreak => exact whenOn_tables (f := breakIfDue) (breakIfDue_tables h) h e
    | lineResume => exact whenOn_tables (f := resumeIfBreak) (resumeIfBreak_tables h) h e
    | nodeSlotEnd slot heard => exact whenOn_tables (f := nodeSlot slot heard) (nodeSlot_tables slot heard h) h e
    | managementSlotEnd slot bids => exact whenOn_tables (f := managementSlot bids) (managementSlot_tables bids h) h e
    | notPermittedRefusal o k =>
      refine whenOn_tables (f := fun s => arrive { origin := o, kind := some k, body := .refusal }
        { s with mgmt := { s.mgmt with notPermitted := inc16 s.mgmt.notPermitted } }) ?_ h e
      exact arrive_tables _ (h.withMgmt _ rfl)
    | forwardTimeout =>
      exact whenOn_tables (f := whenRunning forwardExpiry) (whenRunning_tables (forwardExpiry_tables h) h) h e
    | dockDebounceExpiry m =>
      exact whenOn_tables (f := whenRunning (debounceExpiry m)) (whenRunning_tables (debounceExpiry_tables m h) h) h e
    | showStepEnd i =>
      exact whenOn_tables (f := whenRunning (showExpiry i)) (whenRunning_tables (showExpiry_tables i h) h) h e
    | holdTimerExpiry g =>
      exact whenOn_tables (f := whenRunning (holdExpiry g)) (whenRunning_tables (holdExpiry_tables g h) h) h e
    | minuteAdvance =>
      exact whenOn_tables (f := whenRunning minuteExpiry) (whenRunning_tables (minuteExpiry_tables h) h) h e
    | backwashStopping c => exact whenOn_tables (f := startCondition c) (startCondition_tables c h) h e
    | stoppingEnd c => exact expiry_tables .stopping c h e
    | valveTimeout c => exact expiry_tables .reversing c h e
    | washingEnd c => exact expiry_tables .washing c h e
    | rinsingEnd c => exact expiry_tables .rinsing c h e
    | restoringTimeout c => exact expiry_tables .restoring c h e
    | abortingTimeout c => exact expiry_tables .aborting c h e
    | valveBackwashPos c => exact test_tables .reversing c h e
    | restoreNormalPos c => exact test_tables .restoring c h e
    | abortNormalPos c => exact test_tables .aborting c h e
    | storeCompletion good => exact whenOn_tables (f := completeWrite good) (completeWrite_tables good h) h e
    | _ => cases r

theorem TableLaws.withPending {s : State} (h : TableLaws s) (p : List Instr) :
    TableLaws { s with pending := p } := { h with answers := h.answers }

theorem step_tables {s t : State} (h : TableLaws s) (e : step s = .next t) : TableLaws t := by
  unfold step at e
  split at e
  · cases e; exact h
  · exact exec_tables _ (h.withPending _) e

/-- Settles O60: the laws are taken apart by block, every operation keeps them, and so does every command. -/
theorem stepsKeepTheTableLaws : Obligations.StepsKeepTheTableLaws := by
  intro s t laws e
  exact (tableLaws_iff t).1 (step_tables ((tableLaws_iff s).2 laws) e)

end Sys2Proof.Machine

namespace Sys2Proof.Machine

/-! ### Commands while the part runs, is held, or has no supply -/

theorem whenOn_on (f : State → State) {s : State} (h : s.mode = .on) : whenOn f s = .next (f s) := by
  simp [whenOn, h]

theorem whenOn_off (f : State → State) {s : State} (h : s.mode ≠ .on) : whenOn f s = .next s := by
  simp [whenOn, h]

theorem whenRunning_running (f : State → State) {s : State} (h : s.line.state = .running) : whenRunning f s = f s := by
  simp [whenRunning, h]

theorem whenRunning_inBreak (f : State → State) {s : State} (h : s.line.state = .inBreak) : whenRunning f s = s := by
  simp [whenRunning, h]

/-- A command that is neither the reset input, start-up nor the loss of supply acts only while the part runs. -/
theorem exec_whenOn (c : Instr) (hr : c ≠ .resetAsserted) (hs : c ≠ .startUp) (hl : c ≠ .lossOfSupply) :
    ∃ f, ∀ s, exec c s = whenOn f s := by
  cases c with
  | resetAsserted | startUp | lossOfSupply => contradiction
  | _ => exact ⟨_, fun _ => rfl⟩

/-- What a write cut off may leave otherwise: the image's save count and one free value spent (log 14, log 24). -/
theorem cutOff_frame (s : State) :
    cutOff s = { s with
        store := { s.store with
          writing := none, image := { s.store.image with saveCount := (cutOff s).store.image.saveCount } }
        free := (cutOff s).free }
      ∧ ((∀ copy n, s.store.writing ≠ some (.save copy n)) →
        (cutOff s).store.image = s.store.image ∧ (cutOff s).free = s.free) := by
  unfold cutOff
  split
  · next e => exact ⟨by rw [← e], fun _ => ⟨rfl, rfl⟩⟩
  · exact ⟨rfl, fun _ => ⟨rfl, rfl⟩⟩
  · next copy n e => exact ⟨rfl, fun h => absurd e (h copy n)⟩

theorem stopPart_frame (m : Mode) (s : State) :
    stopPart m s = { s with
        mode := m
        line := { s.line with state := .inBreak, breakCount := none, restartDue := false, rx := none }
        store := { s.store with
          writing := none, image := { s.store.image with saveCount := (cutOff s).store.image.saveCount } }
        free := (cutOff s).free } := by
  unfold stopPart
  dsimp only
  rw [(cutOff_frame s).1]

/-- Settles O3: every other command is taken by `whenOn`, and the two that stop the part are `stopPart`. -/
theorem resetAndLossOfSupplyStopThePart : Obligations.ResetAndLossOfSupplyStopThePart := by
  refine ⟨?_, ?_⟩
  · rintro c s hm (⟨hr, hs, hl⟩ | ⟨rfl, ho⟩)
    · obtain ⟨f, hf⟩ := exec_whenOn c hr hs hl
      rw [hf, whenOn_off f hm]
    · exact congrArg Host.Outcome.next (if_pos ho)
  · intro s c m hc
    refine ⟨stopPart m s, ?_, ?_⟩
    · rcases hc with ⟨rfl, rfl, ho⟩ | ⟨rfl, rfl⟩
      · exact congrArg Host.Outcome.next (if_neg ho)
      · rfl
    · have kept := (cutOff_frame s).2
      rw [stopPart_frame]
      refine ⟨rfl, rfl, rfl, rfl, rfl, rfl, fun h => ⟨?_, (kept h).2⟩, rfl, rfl, rfl, rfl, rfl, rfl, rfl, rfl, rfl⟩
      exact congrArg (fun x => { s.store.image with saveCount := x.saveCount }) (kept h).1

/-! ### Placements -/

/-- The divisors a placement can have (R6). -/
def isDivisor (d : Nat) : Prop := d = 1 ∨ d = 2 ∨ d = 4 ∨ d = 8

theorem isDivisor_pow {d : Nat} (h : isDivisor d) : ∃ k, d = 2 ^ k := by
  rcases h with rfl | rfl | rfl | rfl
  exacts [⟨0, rfl⟩, ⟨1, rfl⟩, ⟨2, rfl⟩, ⟨3, rfl⟩]

theorem isDivisor_dvd {d e : Nat} (hd : isDivisor d) (he : isDivisor e) (h : d ≤ e) : d ∣ e := by
  obtain ⟨j, rfl⟩ := isDivisor_pow hd
  obtain ⟨k, rfl⟩ := isDivisor_pow he
  exact Nat.pow_dvd_pow 2 ((Nat.pow_le_pow_iff_right (by decide)).1 h)

/-- Of two phases, that of the coarser divisor leaves the other as its remainder exactly when a frame serves both. -/
theorem common_frame {d e a b : Nat} (h : d ∣ e) (ha : a < d) (hb : b < e) :
    a % d = b % d ↔ ∃ f, f < e ∧ f % d = a ∧ f % e = b := by
  rw [Nat.mod_eq_of_lt ha]
  constructor
  · exact fun same => ⟨b, hb, same.symm, Nat.mod_eq_of_lt hb⟩
  · rintro ⟨f, -, rfl, rfl⟩
    exact (Nat.mod_mod_of_dvd f h).symm

theorem common_frame_min {p q : Placement} (hp : isDivisor p.divisor) (hpp : p.phase < p.divisor)
    (hq : isDivisor q.divisor) (hqp : q.phase < q.divisor) :
    p.phase % min p.divisor q.divisor = q.phase % min p.divisor q.divisor
      ↔ ∃ f, f < max p.divisor q.divisor ∧ f % p.divisor = p.phase ∧ f % q.divisor = q.phase := by
  rcases Nat.le_total p.divisor q.divisor with h | h
  · rw [Nat.min_eq_left h, Nat.max_eq_right h]
    exact common_frame (isDivisor_dvd hp hq h) hpp hqp
  · rw [Nat.min_eq_right h, Nat.max_eq_left h, eq_comm, common_frame (isDivisor_dvd hq hp h) hqp hpp]
    simp only [and_comm (a := _ % q.divisor = q.phase)]

theorem overlap_iff {p q : Placement} (hp : isDivisor p.divisor) (hpp : p.phase < p.divisor)
    (hq : isDivisor q.divisor) (hqp : q.phase < q.divisor) :
    overlap p q = true
      ↔ p.slot = q.slot ∧ ∃ f, f < max p.divisor q.divisor ∧ f % p.divisor = p.phase ∧ f % q.divisor = q.phase := by
  rw [← common_frame_min hp hpp hq hqp, overlap, Bool.and_eq_true, beq_iff_eq, beq_iff_eq]

/-- Placements on one slot that serve one frame, of whatever number, overlap. -/
theorem overlap_of_frame {p q : Placement} (hp : isDivisor p.divisor) (hq : isDivisor q.divisor) {f : Nat}
    (hs : p.slot = q.slot) (hf : f % p.divisor = p.phase) (hg : f % q.divisor = q.phase) : overlap p q = true := by
  have pos : ∀ {d}, isDivisor d → 0 < d := by rintro d (rfl | rfl | rfl | rfl) <;> decide
  refine (overlap_iff hp (hf ▸ Nat.mod_lt _ (pos hp)) hq (hg ▸ Nat.mod_lt _ (pos hq))).2
    ⟨hs, f % max p.divisor q.divisor, Nat.mod_lt _ (lt_max_of_lt_left (pos hp)), ?_, ?_⟩
  · have h : p.divisor ∣ max p.divisor q.divisor := by
      rcases Nat.le_total p.divisor q.divisor with h | h
      · rw [Nat.max_eq_right h]; exact isDivisor_dvd hp hq h
      · rw [Nat.max_eq_left h]
    rw [Nat.mod_mod_of_dvd f h, hf]
  · have h : q.divisor ∣ max p.divisor q.divisor := by
      rcases Nat.le_total p.divisor q.divisor with h | h
      · rw [Nat.max_eq_right h]
      · rw [Nat.max_eq_left h]; exact isDivisor_dvd hq hp h
    rw [Nat.mod_mod_of_dvd f h, hg]

theorem placementFor_some {slot : Nat} {s : State} {p : Placement} (h : placementFor slot s = some p) :
    some p ∈ s.line.active ∧ p.slot = slot ∧ s.line.frame % p.divisor = p.phase := by
  have mem := List.mem_of_find?_eq_some h
  have serves := List.find?_some h
  simp only [Placement.applies, Bool.and_eq_true, beq_iff_eq] at serves
  exact ⟨by simpa using mem, serves⟩

theorem placementFor_none {slot : Nat} {s : State} (h : placementFor slot s = none) {p : Placement}
    (hp : some p ∈ s.line.active) (hs : p.slot = slot) : s.line.frame % p.divisor ≠ p.phase := by
  have no := List.find?_eq_none.1 h p (by simpa using hp)
  simpa [Placement.applies, hs] using no

/-- Settles O9: of two divisors the lesser divides the greater, so phases congruent modulo it meet in one frame. -/
theorem overlapIsServingOneFrame : Obligations.OverlapIsServingOneFrame := by
  refine ⟨?_, ?_, fun s slot => ⟨fun p => placementFor_some, fun h p => placementFor_none h⟩⟩
  · intro p q hp hpp hq hqp
    have bound : max p.divisor q.divisor < 65536 := by
      rcases hp with h | h | h | h <;> rcases hq with h' | h' | h' | h' <;> simp [h, h']
    rw [overlap_iff hp hpp hq hqp]
    refine and_congr_right fun hs => ⟨?_, ?_⟩
    · rintro ⟨f, hf, h⟩
      exact ⟨f, by omega, h⟩
    · rintro ⟨f, -, h, h'⟩
      exact ((overlap_iff hp hpp hq hqp).1 (overlap_of_frame hp hq hs h h')).2
  · intro s i j p q laws ij hi hj hp hq hf hg same
    have free := laws.1 i j p q ij hi hj
    rw [overlap_of_frame hp hq same hf hg] at free
    cases free

end Sys2Proof.Machine

namespace Sys2Proof.Machine

/-! ### Halves -/

theorem idleHalf_bytes : idleHalf = [0x80#8, 0x00#8, 0x00#8, 0x0B#8] := by decide +kernel

theorem servedIn_none {slot : Nat} {s : State}
    (h : ∀ p, placementFor slot s = some p → (nodeAt s p.node).state ≠ .active ∧ (nodeAt s p.node).state ≠ .stale) :
    servedIn slot s = none := by
  unfold servedIn
  cases e : placementFor slot s with
  | none => rfl
  | some p =>
    have idle : (nodeAt s p.node).served = false := by simp [Node.served, h p e]
    simp [idle]

/-- Settles O10: no slot is served in BREAK, and one that serves no record only sends the idle half. -/
theorem idleSlotsChangeNothing : Obligations.IdleSlotsChangeNothing := by
  intro s slot heard on
  refine ⟨fun running idle => ?_, fun inBreak => ⟨?_, fun bids => ?_⟩⟩
  · refine (whenOn_on (nodeSlot slot heard) on).trans ?_
    simp [nodeSlot, running, servedIn_none idle, setDown, idleHalf_bytes]
  · refine (whenOn_on (nodeSlot slot heard) on).trans ?_
    simp [nodeSlot, inBreak]
  · refine (whenOn_on (managementSlot bids) on).trans ?_
    simp [managementSlot, inBreak]

theorem value_getLsbD (x : Sampled) (i : Nat) :
    (Sampled.value x).getLsbD i
      = ((x.a.getLsbD i && x.b.getLsbD i) || (x.a.getLsbD i && x.c.getLsbD i) || (x.b.getLsbD i && x.c.getLsbD i)) := by
  simp [Sampled.value]

theorem noisy_iff (x : Sampled) :
    Sampled.noisy x = true
      ↔ ∃ i, i < 8 ∧ ¬ (x.a.getLsbD i = x.b.getLsbD i ∧ x.b.getLsbD i = x.c.getLsbD i) := by
  have clean : Sampled.noisy x = false
      ↔ ∀ i, i < 8 → x.a.getLsbD i = x.b.getLsbD i ∧ x.b.getLsbD i = x.c.getLsbD i := by
    simp only [Sampled.noisy, Bool.not_eq_false', Bool.and_eq_true, beq_iff_eq, BitVec.eq_of_getLsbD_eq_iff]
    exact ⟨fun h i hi => ⟨h.1 i hi, h.2 i hi⟩, fun h => ⟨fun i hi => (h i hi).1, fun i hi => (h i hi).2⟩⟩
  rw [← Bool.not_eq_false, clean]
  push Not
  rfl

/-- Four bytes read as one number are the 32-bit word that they spell. -/
theorem fourBytes_word (a b c d : Byte) : BitVec.ofNat 32 (beNat [a, b, c, d]) = ((a ++ b) ++ (c ++ d) : BitVec 32) := by
  apply BitVec.eq_of_toNat_eq
  have ha := a.isLt
  have hb := b.isLt
  have hc := c.isLt
  have hd := d.isLt
  rw [BitVec.toNat_append, BitVec.toNat_append, BitVec.toNat_append, ← Nat.shiftLeft_add_eq_or_of_lt hb,
    ← Nat.shiftLeft_add_eq_or_of_lt hd, ← Nat.shiftLeft_add_eq_or_of_lt (by simp only [Nat.shiftLeft_eq]; omega)]
  simp only [beNat, List.foldl_cons, List.foldl_nil, BitVec.toNat_ofNat, Nat.shiftLeft_eq]
  omega

theorem fieldAt_word {bs : List Byte} (h : bs.length = 6) :
    BitVec.ofNat 32 (fieldAt bs 1 4)
      = ((bs.getD 1 0#8 ++ bs.getD 2 0#8) ++ (bs.getD 3 0#8 ++ bs.getD 4 0#8) : BitVec 32) := by
  match bs, h with
  | [_, b, c, d, e, _], _ => exact fourBytes_word b c d e

theorem judgeHalf_passes {address : Nat} (ha : address < 64) (rx : Receive) :
    (halfPasses rx.bytes && leadAddress (rx.bytes.getD 0 0#8) == address) = true
      ↔ rx.bytes.length = 6 ∧ rx.bytes.getD 0 0#8 = BitVec.ofNat 8 (128 + address)
        ∧ crc8 (rx.bytes.take 5) = rx.bytes.getD 5 0#8 := by
  rw [← leads_iff _ ha]
  simp only [halfPasses, Bool.and_eq_true, beq_iff_eq]
  tauto

/-- Settles O11: the majority and the noise bit by bit, and the half by its length, lead byte and check code. -/
theorem halvesAreJudgedByTheirCheck : Obligations.HalvesAreJudgedByTheirCheck := by
  refine ⟨fun x i _ => value_getLsbD x i, noisy_iff, fun address n half ha => ?_⟩
  have judged := judgeHalf_passes ha (receive (some n) half)
  refine ⟨fun passes => ?_, fun fails => ?_, rfl⟩
  · have word := fieldAt_word (bs := half.map Sampled.value) passes.1
    simp only [judgeHeard, judgeHalf, if_pos (judged.2 passes)]
    rw [← word]
    rfl
  · simp only [judgeHeard, judgeHalf, if_neg (fun h => fails (judged.1 h))]

end Sys2Proof.Machine

namespace Sys2Proof.Machine

/-! ### Commands of the owners -/

theorem halfBytes_eq {address : Nat} (h : address < 64) (command : List Byte) :
    halfBytes address command
      = BitVec.ofNat 8 (128 + address) :: command ++ [crc8 (BitVec.ofNat 8 (128 + address) :: command)] := by
  simp only [halfBytes, leadByte_eq h]

/-- The permits of the mower records that name node `n`. -/
def permitsNaming (n : Nat) (s : State) : List Permit :=
  (List.range 4).filterMap (fun i => if (mowerAt s i).node = some n then s.zone.permits.getD i none else none)

theorem mem_permitsNaming (n : Nat) (s : State) (p : Permit) :
    p ∈ permitsNaming n s
      ↔ ∃ i, i < 4 ∧ (mowerAt s i).node = some n ∧ s.zone.permits.getD i none = some p := by
  simp [permitsNaming]

theorem stricter_cases (p q : Permit) :
    (stricter p q = p ∨ stricter p q = q) ∧ p.number ≤ (stricter p q).number ∧ q.number ≤ (stricter p q).number := by
  unfold stricter
  split
  · exact ⟨.inr rfl, by omega, le_rfl⟩
  · exact ⟨.inl rfl, le_rfl, by omega⟩

theorem strictest_spec (ps : List Permit) (p : Permit) :
    ps.foldl stricter p ∈ p :: ps ∧ ∀ q ∈ p :: ps, q.number ≤ (ps.foldl stricter p).number := by
  induction ps generalizing p with
  | nil => simp
  | cons a ps ih =>
    obtain ⟨mem, bound⟩ := ih (stricter p a)
    obtain ⟨which, left, right⟩ := stricter_cases p a
    have top := bound _ List.mem_cons_self
    refine ⟨?_, ?_⟩
    · rw [List.foldl_cons]
      rcases List.mem_cons.1 mem with e | e
      · rw [e]; rcases which with w | w <;> simp [w]
      · exact List.mem_cons_of_mem _ (List.mem_cons_of_mem _ e)
    · intro q hq
      rcases List.mem_cons.1 hq with rfl | hq
      · exact left.trans top
      · rcases List.mem_cons.1 hq with rfl | hq
        · exact right.trans top
        · exact bound q (List.mem_cons_of_mem _ hq)

theorem permitFor_cases (n : Nat) (s : State) :
    (permitsNaming n s = [] ∧ permitFor n s = .hold)
      ∨ (permitFor n s ∈ permitsNaming n s ∧ ∀ q ∈ permitsNaming n s, q.number ≤ (permitFor n s).number) := by
  have unfolded : permitFor n s = match permitsNaming n s with
      | [] => .hold
      | p :: ps => ps.foldl stricter p := rfl
  cases e : permitsNaming n s with
  | nil => exact .inl ⟨rfl, by rw [unfolded, e]⟩
  | cons p ps => exact .inr (by rw [unfolded, e]; exact strictest_spec ps p)

theorem lowestOr0_nil : lowestOr0 [] = 0 := rfl

theorem lowestOr0_mem {l : List Nat} {a : Nat} (h : a ∈ l) : lowestOr0 l ∈ l ∧ lowestOr0 l ≤ a := by
  cases e : lowest l with
  | none => rw [(lowest_none l).1 e] at h; cases h
  | some m =>
    obtain ⟨mem, least⟩ := (lowest_some l m).1 e
    rw [lowestOr0, e]
    exact ⟨mem, least a h⟩

section
variable {α : Type} (l : List α) (p : α → Prop) [DecidablePred p] (f : α → Nat)

/-- The lowest value among the entries that satisfy a condition: 0 when none does. -/
theorem lowestOr0_where_none (h : ∀ a ∈ l, ¬ p a) :
    lowestOr0 (l.filterMap (fun a => if p a then some (f a) else none)) = 0 := by
  have none : l.filterMap (fun a => if p a then some (f a) else none) = [] :=
    List.filterMap_eq_nil_iff.2 fun a ha => if_neg (h a ha)
  rw [none, lowestOr0_nil]

/-- The lowest value among the entries that satisfy a condition is that of one of them. -/
theorem lowestOr0_where_some {a : α} (ha : a ∈ l) (hp : p a) :
    ∃ b ∈ l, p b ∧ f b ≤ f a ∧ lowestOr0 (l.filterMap (fun a => if p a then some (f a) else none)) = f b := by
  have mem : f a ∈ l.filterMap (fun a => if p a then some (f a) else none) :=
    List.mem_filterMap.2 ⟨a, ha, if_pos hp⟩
  obtain ⟨low, least⟩ := lowestOr0_mem mem
  obtain ⟨b, hb, e⟩ := List.mem_filterMap.1 low
  split at e
  · next pb =>
    rw [← Option.some.inj e] at least ⊢
    exact ⟨b, hb, pb, least, rfl⟩
  · cases e

end

/-- The channel levels node `n`: its record is no VALVE and names it. -/
theorem pumped_iff (c : Channel) (n : Nat) :
    (c.cfg.any fun r => r.kind != .valve && r.node == some n) = true
      ↔ ∃ r, c.cfg = some r ∧ r.kind ≠ .valve ∧ r.node = some n := by
  simp [Option.any_eq_true]

theorem valved_iff (c : Channel) (n : Nat) :
    (c.cfg.any (fun r => r.kind == .valve && r.node == some n) && c.requested == 1) = true
      ↔ (∃ r, c.cfg = some r ∧ r.kind = .valve ∧ r.node = some n) ∧ c.requested = 1 := by
  simp [Option.any_eq_true]

theorem lit_iff (g : LightGroup) (n : Nat) :
    (g.cfg.any fun r => r.node == some n) = true ↔ ∃ r, g.cfg = some r ∧ r.node = some n := by
  simp [Option.any_eq_true]

theorem commandBytes_length (k : NodeKind) (n : Nat) (s : State) : (commandBytes k n s).length = 2 := by
  cases k <;> simp [commandBytes, b1, b2]

theorem mowerCommand_none {n : Nat} {s : State}
    (h : ∀ i, i < 4 → (mowerAt s i).node = some n → s.zone.permits.getD i none = none) :
    commandBytes .mower n s = [0x03#8, 0x00#8] := by
  have hold : permitFor n s = .hold := by
    rcases permitFor_cases n s with ⟨-, e⟩ | ⟨mem, -⟩
    · exact e
    · obtain ⟨i, hi, hn, hp⟩ := (mem_permitsNaming n s _).1 mem
      rw [h i hi hn] at hp
      cases hp
  simp only [commandBytes, hold]
  rfl

theorem mowerCommand_some {n i : Nat} {s : State} {p : Permit} (hi : i < 4) (hn : (mowerAt s i).node = some n)
    (hp : s.zone.permits.getD i none = some p) :
    ∃ (j : Nat) (q : Permit), j < 4 ∧ (mowerAt s j).node = some n ∧ s.zone.permits.getD j none = some q
      ∧ p.number ≤ q.number ∧ commandBytes .mower n s = [BitVec.ofNat 8 q.number, 0x00#8] := by
  have named := (mem_permitsNaming n s p).2 ⟨i, hi, hn, hp⟩
  rcases permitFor_cases n s with ⟨e, -⟩ | ⟨mem, strict⟩
  · rw [e] at named; cases named
  · obtain ⟨j, hj, hm, hq⟩ := (mem_permitsNaming n s _).1 mem
    exact ⟨j, _, hj, hm, hq, strict p named, rfl⟩

theorem pumpCommand_none {n : Nat} {s : State}
    (h : ∀ c ∈ s.water.channels, ∀ r, c.cfg = some r → r.kind ≠ .valve → r.node ≠ some n) :
    commandBytes .pump n s = [0x00#8, 0x00#8] := by
  have off : pumpLevelFor n s = 0 := lowestOr0_where_none _ _ _ fun c hc hp => by
    obtain ⟨r, hr, hk, hn⟩ := (pumped_iff c n).1 hp
    exact h c hc r hr hk hn
  simp only [commandBytes, off]
  rfl

theorem pumpCommand_some {n : Nat} {s : State} {c : Channel} {r : ChannelRec} (hc : c ∈ s.water.channels)
    (hr : c.cfg = some r) (hk : r.kind ≠ .valve) (hn : r.node = some n) :
    ∃ d ∈ s.water.channels, ∃ q, d.cfg = some q ∧ q.kind ≠ .valve ∧ q.node = some n ∧ d.output ≤ c.output
      ∧ commandBytes .pump n s = [BitVec.ofNat 8 d.output, 0x00#8] := by
  obtain ⟨d, hd, pd, least, e⟩ := lowestOr0_where_some s.water.channels
    (fun c => (c.cfg.any fun r => r.kind != .valve && r.node == some n) = true) Channel.output hc
    ((pumped_iff c n).2 ⟨r, hr, hk, hn⟩)
  obtain ⟨q, hq, hqk, hqn⟩ := (pumped_iff d n).1 pd
  have level : pumpLevelFor n s = d.output := e
  refine ⟨d, hd, q, hq, hqk, hqn, least, ?_⟩
  simp only [commandBytes, level]
  rfl

theorem valvePosition_iff (n : Nat) (s : State) :
    valvePositionFor n s
      = if ∃ c ∈ s.water.channels, (∃ r, c.cfg = some r ∧ r.kind = .valve ∧ r.node = some n) ∧ c.requested = 1
        then 1 else 0 := by
  unfold valvePositionFor
  refine if_congr ?_ rfl rfl
  rw [List.any_eq_true]
  exact exists_congr fun c => and_congr_right fun _ => valved_iff c n

theorem lampCommand_none {n : Nat} {s : State} (h : ∀ g ∈ s.light, ∀ r, g.cfg = some r → r.node ≠ some n) :
    commandBytes .light n s = [0x00#8, 0x00#8] := by
  have off : lampLevelFor n s = 0 := lowestOr0_where_none _ _ _ fun g hg hp => by
    obtain ⟨r, hr, hn⟩ := (lit_iff g n).1 hp
    exact h g hg r hr hn
  simp only [commandBytes, off]
  rfl

theorem lampCommand_some {n : Nat} {s : State} {g : LightGroup} {r : LightRec} (hg : g ∈ s.light)
    (hr : g.cfg = some r) (hn : r.node = some n) :
    ∃ h ∈ s.light, ∃ q, h.cfg = some q ∧ q.node = some n ∧ h.current ≤ g.current
      ∧ commandBytes .light n s = [BitVec.ofNat 8 h.current, 0x00#8] := by
  obtain ⟨d, hd, pd, least, e⟩ := lowestOr0_where_some s.light
    (fun g => (g.cfg.any fun r => r.node == some n) = true) LightGroup.current hg ((lit_iff g n).2 ⟨r, hr, hn⟩)
  obtain ⟨q, hq, hqn⟩ := (lit_iff d n).1 pd
  have level : lampLevelFor n s = d.current := e
  refine ⟨d, hd, q, hq, hqn, least, ?_⟩
  simp only [commandBytes, level]
  rfl

theorem dockCommand_none {n : Nat} {s : State} (h : ∀ j, j < 4 → (loadAt s (24 + j)).node ≠ some n) :
    commandBytes .dock n s = [0x00#8, 0x00#8] := by
  have off : chargerGrantFor n s = 0 := lowestOr0_where_none _ _ _ fun j hj => h j (List.mem_range.1 hj)
  simp only [commandBytes, off]
  rfl

theorem dockCommand_some {n j : Nat} {s : State} (hj : j < 4) (hn : (loadAt s (24 + j)).node = some n) :
    ∃ k, k < 4 ∧ (loadAt s (24 + k)).node = some n ∧ (loadAt s (24 + k)).grant ≤ (loadAt s (24 + j)).grant
      ∧ commandBytes .dock n s = beBytes 2 (loadAt s (24 + k)).grant := by
  obtain ⟨k, hk, pk, least, e⟩ := lowestOr0_where_some (List.range 4)
    (fun j => (loadAt s (24 + j)).node = some n) (fun j => (loadAt s (24 + j)).grant) (List.mem_range.2 hj) hn
  exact ⟨k, List.mem_range.1 hk, pk, least, congrArg b2 e⟩

/-- Settles O12, kind by kind: the strictest permit, the lowest level or grant, the off command when none is named. -/
theorem commandsAreTheOwners : Obligations.CommandsAreTheOwners := by
  refine ⟨fun address command h => halfBytes_eq h command, commandBytes_length, ⟨rfl, idleHalf_bytes⟩, fun s n => ?_⟩
  refine ⟨?_, mowerCommand_none, fun i p => mowerCommand_some, pumpCommand_none,
    fun c hc r => pumpCommand_some hc, ?_, ?_, lampCommand_none, fun g hg r => lampCommand_some hg,
    dockCommand_none, fun j => dockCommand_some⟩
  · rintro k (rfl | rfl | rfl | rfl | rfl) <;> rfl
  · rintro ⟨c, hc, r, hr, hk, hn, hq⟩
    have position : valvePositionFor n s = 1 := by
      rw [valvePosition_iff, if_pos ⟨c, hc, ⟨r, hr, hk, hn⟩, hq⟩]
    simp only [commandBytes, position]
    rfl
  · intro h
    have position : valvePositionFor n s = 0 := by
      rw [valvePosition_iff, if_neg]
      rintro ⟨c, hc, ⟨r, hr, hk, hn⟩, hq⟩
      exact h c hc r hr hk hn hq
    simp only [commandBytes, position]
    rfl

/-! ### The arbitration -/

theorem bidPair_eq (b : Bid) : bidPair b = b.address % 64 * 4294967296 + b.serial.toNat := rfl

theorem contend_none_iff (bids : List Bid) : contend bids = none ↔ bids = [] := by
  cases bids <;> simp [contend]

theorem contend_some {bids : List Bid} {w : Won} (h : contend bids = some w) :
    w = { address := (receivedPair (winners bids)).toNat / 2 ^ 32
          serial := (receivedPair (winners bids)).setWidth 32
          half := ((winners bids).map Bid.fragment).foldl driveTogether [] } := by
  unfold contend at h
  split at h
  · cases h
  · exact (Option.some.inj h).symm

/-- Some bidder drives the lowest pair, and the winners are those that drive the same. -/
theorem winners_spec {bids : List Bid} (h : bids ≠ []) :
    ∃ b ∈ bids, (∀ d ∈ bids, bidPair b ≤ bidPair d) ∧ winners bids = bids.filter (fun d => decide (bidPair d = bidPair b)) := by
  cases e : winningPair bids with
  | none => exact absurd (List.map_eq_nil_iff.1 ((lowest_none _).1 e)) h
  | some m =>
    obtain ⟨mem, least⟩ := (lowest_some _ m).1 e
    obtain ⟨b, hb, rfl⟩ := List.mem_map.1 mem
    refine ⟨b, hb, fun d hd => least _ (List.mem_map_of_mem hd), ?_⟩
    simp only [winners, e]
    rfl

theorem receivedPair_single (b : Bid) : receivedPair [b] = PairSampled.value b.arbitration := by
  have ones : ∀ x : BitVec 38, BitVec.allOnes 38 &&& x = x := fun x => BitVec.allOnes_and
  simp only [receivedPair, List.map_cons, List.map_nil, List.foldl_cons, List.foldl_nil, bothBid, ones]

theorem pair_split (v : BitVec 38) : v.toNat / 2 ^ 32 * 4294967296 + (v.setWidth 32).toNat = v.toNat := by
  rw [BitVec.toNat_setWidth]
  omega

theorem pairValue_getLsbD (x : PairSampled) (i : Nat) :
    (PairSampled.value x).getLsbD i
      = ((x.a.getLsbD i && x.b.getLsbD i) || (x.a.getLsbD i && x.c.getLsbD i) || (x.b.getLsbD i && x.c.getLsbD i)) := by
  simp [PairSampled.value]

theorem contend_single {bids : List Bid} {w : Won} {b : Bid} (hw : contend bids = some w) (hb : winners bids = [b]) :
    w.half = b.fragment
      ∧ w.address * 4294967296 + w.serial.toNat = (PairSampled.value b.arbitration).toNat := by
  rw [contend_some hw, hb, receivedPair_single]
  exact ⟨rfl, pair_split _⟩

/-- Settles O16: the winners are the bidders of the lowest pair; a single one is received as it drives the line. -/
theorem theLowestPairWins : Obligations.TheLowestPairWins := by
  intro bids
  refine ⟨contend_none_iff bids, fun w hw => ?_⟩
  have some : bids ≠ [] := fun e => by rw [(contend_none_iff bids).2 e] at hw; cases hw
  obtain ⟨b, hb, least, won⟩ := winners_spec some
  refine ⟨b, hb, least, fun alone => ?_⟩
  have single : winners bids = [b] := by
    obtain ⟨c, hc⟩ := List.length_eq_one_iff.1 alone
    have mem : b ∈ bids.filter (fun d => decide (bidPair d = bidPair b)) := List.mem_filter.2 ⟨hb, by simp⟩
    have all : bids.filter (fun d => decide (bidPair d = bidPair b)) = [c] := hc
    rw [all] at mem
    rw [won, all, List.mem_singleton.1 mem]
  obtain ⟨half, both⟩ := contend_single hw single
  refine ⟨half, fun i _ => ?_, fun own => ?_⟩
  · rw [both, BitVec.testBit_toNat, pairValue_getLsbD]
  · rw [own] at both
    have lt := b.serial.isLt
    have lt' := w.serial.isLt
    have parts : w.address = b.address % 64 ∧ w.serial.toNat = b.serial.toNat := by
      dsimp only at both
      omega
    exact ⟨parts.1, BitVec.eq_of_toNat_eq parts.2⟩

end Sys2Proof.Machine

namespace Sys2Proof.Machine

/-! ### What the request queue's service leaves of the line -/

/-- What every handling inside a frame leaves of the line: `Within` but for the queue of requests. -/
structure LineFrom (s t : State) : Prop where
  frame : t.line.frame = s.line.frame
  active : t.line.active = s.line.active
  attention : t.line.attention = s.line.attention
  header : t.line.header = s.line.header
  fragCount : t.line.fragCount = s.line.fragCount
  checkErrCount : t.line.checkErrCount = s.line.checkErrCount
  running : s.line.state = .running →
    t.line.state = .running ∧ t.line.breakCount = s.line.breakCount ∧ t.line.field = s.line.field

theorem Within.lineFrom {s t : State} (h : Within s t) : LineFrom s t :=
  ⟨h.frame, h.active, h.attention, h.header, h.fragCount, h.checkErrCount, h.running⟩

theorem LineFrom.of {s t : State} (h : t.line = s.line) : LineFrom s t := by
  constructor <;> rw [h]
  exact fun running => ⟨running, rfl, rfl⟩

theorem LineFrom.refl (s : State) : LineFrom s s := .of rfl

theorem LineFrom.trans {s t u : State} (a : LineFrom s t) (b : LineFrom t u) : LineFrom s u where
  frame := b.frame.trans a.frame
  active := b.active.trans a.active
  attention := b.attention.trans a.attention
  header := b.header.trans a.header
  fragCount := b.fragCount.trans a.fragCount
  checkErrCount := b.checkErrCount.trans a.checkErrCount
  running := fun h =>
    have ⟨state, count, field⟩ := a.running h
    have ⟨state', count', field'⟩ := b.running state
    ⟨state', count'.trans count, field'.trans field⟩

/-- After an update that leaves the line alone. -/
theorem LineFrom.after {s t u : State} (b : LineFrom t u) (h : t.line = s.line) : LineFrom s u := (LineFrom.of h).trans b

theorem LineFrom.ite {s a b : State} {c : Prop} [Decidable c] (ha : LineFrom s a) (hb : LineFrom s b) :
    LineFrom s (if c then a else b) := by
  split <;> assumption

theorem place_lineFrom (r : Request) (s : State) : LineFrom s (place r s) := by
  unfold place
  refine .ite (.of rfl) ?_
  cases s.mgmt.heldReq with
  | none => exact .of rfl
  | some lost => exact .of rfl

theorem serveUpTo_lineFrom (n : Nat) (s : State) : LineFrom s (serveUpTo n s) := by
  induction n generalizing s with
  | zero => exact .refl s
  | succ n ih =>
    unfold serveUpTo
    split
    · exact ((process_within _ _).lineFrom.trans (ih _)).after rfl
    · exact .refl s

theorem arrive_lineFrom (r : Request) (s : State) : LineFrom s (arrive r s) :=
  (place_lineFrom r s).trans (serveUpTo_lineFrom 6 _)

theorem unprivileged_lineFrom (o : Origin) (b : Bool) (m : List Byte) (s : State) :
    LineFrom s (unprivileged o b m s) :=
  .ite (arrive_lineFrom _ s) ((arrive_lineFrom _ _).after rfl)

theorem toFirst_lineFrom (h : Handed) (s : State) : LineFrom s (toFirst h s) := by
  unfold toFirst
  dsimp only
  split
  · exact .of rfl
  · exact (arrive_lineFrom _ _).after rfl

theorem toSecond_lineFrom (h : Handed) (s : State) : LineFrom s (toSecond h s) := by
  unfold toSecond
  dsimp only
  split
  · exact .of rfl
  · exact (arrive_lineFrom _ _).after rfl

theorem joinMessage_lineFrom (h : Handed) (b : Bool) (m : List Byte) (s : State) :
    LineFrom s (joinMessage h b m s) := by
  unfold joinMessage
  split
  · exact (joinNode_within _ _ s).lineFrom
  · exact .ite (arrive_lineFrom _ s) (unprivileged_lineFrom _ _ _ s)

theorem toJoin_lineFrom (h : Handed) (s : State) : LineFrom s (toJoin h s) := by
  unfold toJoin
  dsimp only
  split
  · exact .of rfl
  · exact (joinMessage_lineFrom _ _ _ _).after rfl

theorem toReply_lineFrom (h : Handed) (f : Forwarding) (n : Nat) (s : State) : LineFrom s (toReply h f n s) := by
  unfold toReply
  dsimp only
  split
  · exact .of rfl
  · exact (answerForward_within _ _ _).lineFrom.after rfl

theorem routeBySender_lineFrom (h : Handed) (s : State) : LineFrom s (routeBySender h s) :=
  .ite (toJoin_lineFrom h s) (.ite (.refl s) (.ite (toFirst_lineFrom h s) (.ite (toFirst_lineFrom h s)
    (.ite (toSecond_lineFrom h s) (.ite (unprivileged_lineFrom _ _ _ s) (.refl s))))))

theorem route_lineFrom (h : Handed) (s : State) : LineFrom s (route h s) := by
  unfold route
  cases s.mgmt.proc with
  | forwarding f frags => exact .ite (.of rfl) (routeBySender_lineFrom h s)
  | waiting f n => exact .ite (toReply_lineFrom h f n s) (routeBySender_lineFrom h s)
  | idle => exact routeBySender_lineFrom h s
  | sending => exact routeBySender_lineFrom h s

/-! ### What a frame leaves of the line once its header is formed -/

theorem stageEnd_within (i : Nat) (s : State) : Within s (stageEnd i s) := by
  unfold stageEnd
  dsimp only
  cases (channelAt s i).cfg with
  | none => exact .refl s
  | some r =>
    cases (channelAt s i).stage with
    | idle | requested => exact .refl s
    | stopping | reversing | washing | rinsing => exact setChannel_within ..
    | restoring =>
      exact (post_within ..).after (ite_within ((setChannel_within ..).after (setChannel_within ..))
        (setChannel_within ..))
    | aborting => exact (post_within ..).after (setChannel_within ..)

theorem stageFrame_within (i : Nat) (s : State) : Within s (stageFrame i s) :=
  ite_within (.refl s)
    (ite_within ((stageEnd_within ..).after (setChannel_within ..)) (setChannel_within ..))

/-- The frame event up to the stage timers: the debounce timers, then the show players. -/
def showsTimed (s : State) : State :=
  { s with
    pos := { s.pos with mowers := s.pos.mowers.map Mower.debounceFrame }
    water := { s.water with shows := s.water.shows.map (Player.frame s) } }

/-- The hold timers, which end the frame event's timers. -/
def holdsTimed (s : State) : State := { s with light := s.light.map LightGroup.holdFrame }

theorem frameTimers_eq (s : State) : frameTimers s = holdsTimed (eachIx stageFrame 8 (showsTimed s)) := rfl

theorem showsTimed_within (s : State) : Within s (showsTimed s) := .of rfl rfl rfl rfl

theorem holdsTimed_within (s : State) : Within s (holdsTimed s) := .of rfl rfl rfl rfl

theorem frameTimers_within (s : State) : Within s (frameTimers s) := by
  rw [frameTimers_eq]
  exact ((showsTimed_within s).trans (.eachIx stageFrame_within 8 _)).trans (holdsTimed_within _)

theorem forwardFrame_lineFrom (s : State) : LineFrom s (forwardFrame s) := by
  unfold forwardFrame
  cases s.mgmt.proc with
  | waiting f n => exact .ite (endForward_within f s).lineFrom (.of rfl)
  | idle => exact .refl s
  | sending => exact .refl s
  | forwarding => exact .refl s

theorem clockFrame_lineFrom (s : State) : LineFrom s (clockFrame s) :=
  .ite (.refl s) (.ite ((minuteChanged_within _).lineFrom.after rfl) (.of rfl))

theorem rampAll_lineFrom (s : State) : LineFrom s (rampAll s) := .of rfl

theorem frameEvent_lineFrom (s : State) : LineFrom s (frameEvent s) := by
  unfold frameEvent
  have settled : LineFrom s (settle (frameTimers s)) := ((frameTimers_within s).trans (settle_within _)).lineFrom
  have ramped : LineFrom s (rampAll (settle (frameTimers s))) := settled.trans (rampAll_lineFrom _)
  exact (ramped.trans (forwardFrame_lineFrom _)).trans (clockFrame_lineFrom _)

theorem outgoingGone_lineFrom (s : State) : LineFrom s (outgoingGone s) := by
  unfold outgoingGone
  split
  · exact .of rfl
  · exact (serveUpTo_lineFrom 6 _).after rfl
  · exact .of rfl
  · unfold beginWait
    split
    · exact (answerForward_within _ _ s).lineFrom
    · exact .of rfl
  all_goals exact .refl s

theorem fragmentGone_lineFrom (o : Offer) (s : State) : LineFrom s (fragmentGone o s) := by
  cases o with
  | restart f => exact .of rfl
  | outgoing f => exact outgoingGone_lineFrom s
  | answer a => exact .of rfl
  | nothing => exact .refl s

/-- The state in which a frame's header has just been sent. -/
def headed (n : Nat) (s : State) : State :=
  sendHeader
    (applyPending
      (forgetAnswered
        { s with line := { s.line with frame := n, state := .running, breakCount := none, rx := none, down := none } }))

theorem beginFrame_eq (n : Nat) (s : State) :
    beginFrame n s = fragmentGone (offer (headed n s)) (frameEvent (headed n s)) := by
  simp only [beginFrame, headed]

theorem beginFrame_lineFrom (n : Nat) (s : State) : LineFrom (headed n s) (beginFrame n s) := by
  rw [beginFrame_eq]
  exact (frameEvent_lineFrom _).trans (fragmentGone_lineFrom _ _)

theorem offer_congr {s t : State} (h : t.mgmt = s.mgmt) : offer t = offer s := by
  simp only [offer, h]

theorem applyPending_eq (s : State) :
    applyPending s
      = { s with line := { s.line with active := if s.line.frame % 8 = 0 then s.line.next else s.line.active } } := by
  unfold applyPending
  split <;> rfl

/-- The header of a frame, from the state before it: the slot map at a superframe start, the attention flag, the field. -/
theorem headed_eq (n : Nat) (s : State) :
    headed n s
      = { s with
          line :=
            { s.line with
              frame := n, state := .running, breakCount := none, rx := none, down := none
              active := if n % 8 = 0 then s.line.next else s.line.active
              attention := attentionNow s, field := (offer s).field
              header := headerBytes n (attentionNow s) (offer s).field }
          nodes := { s.nodes with recs := s.nodes.recs.map (fun x => { x with answeredNow := false }) } } := by
  unfold headed
  rw [applyPending_eq]
  rfl

theorem headed_counts (n : Nat) (s : State) :
    (headed n s).line.fragCount = s.line.fragCount ∧ (headed n s).line.checkErrCount = s.line.checkErrCount := by
  rw [headed_eq]
  exact ⟨rfl, rfl⟩

/-- A restart that begins, whatever the line did before it, follows from the line's entry to BREAK. -/
theorem enterBreak_after (s : State) : Within (lineToBreak s) (enterBreak s) :=
  settled_within ((mgmtBreak_within _).after ((nodesBreak_within _).after (cyclesBreak_within 8 _)))

end Sys2Proof.Machine

namespace Sys2Proof.Machine

/-! ### WRITE_SLOTMAP -/

theorem clampTo_eq (lo hi n : Nat) (h : lo ≤ hi) : clampTo lo hi n = if n < lo then lo else if hi < n then hi else n := by
  unfold clampTo
  split
  · omega
  · split <;> omega

theorem clampDivisor_eq (d : Nat) :
    clampDivisor d = if d = 0 then 1 else if d = 3 then 4 else if 5 ≤ d then 8 else d := by
  match d with
  | 0 | 1 | 2 | 3 | 4 => rfl
  | n + 5 => simp [clampDivisor]

theorem min_eq_ite (m n : Nat) : min n m = if m < n then m else n := by
  split <;> omega

theorem clampPlacement_eq (w : SlotWrite) :
    clampPlacement w
      = let divisor := if w.divisor = 0 then 1 else if w.divisor = 3 then 4 else if 5 ≤ w.divisor then 8 else w.divisor
        { slot := if w.slot < 1 then 1 else if 28 < w.slot then 28 else w.slot, divisor := divisor
          phase := if divisor - 1 < w.phase then divisor - 1 else w.phase, node := w.node } := by
  simp only [clampPlacement, clampDivisor_eq, clampTo_eq 1 28 w.slot (by decide), min_eq_ite]

theorem overlapsOther_iff (i : Nat) (p : Placement) (map : List (Option Placement)) :
    overlapsOther i p map = true
      ↔ ∃ (j : Nat) (q : Placement), j ≠ i ∧ map[j]? = some (some q) ∧ overlap p q = true := by
  constructor
  · intro h
    obtain ⟨j, hj, meets⟩ := List.any_eq_true.1 h
    obtain ⟨other, found⟩ := Bool.and_eq_true_iff.1 meets
    obtain ⟨q, hq, covers⟩ := Option.any_eq_true _ _ |>.1 found
    refine ⟨j, q, by simpa using other, ?_, covers⟩
    rw [List.getElem?_eq_getElem (List.mem_range.1 hj)]
    rw [List.getD_eq_getElem _ _ (List.mem_range.1 hj)] at hq
    rw [hq]
  · rintro ⟨j, q, hj, hq, covers⟩
    by_contra no
    rw [overlapsOther_false (Bool.not_eq_true _ ▸ no) hj hq] at covers
    cases covers

theorem overlap_true_iff (p q : Placement) :
    overlap p q = true
      ↔ p.slot = q.slot ∧ p.phase % min p.divisor q.divisor = q.phase % min p.divisor q.divisor := by
  simp [overlap]

theorem writeSlot_some {i : Nat} {w : SlotWrite} (hi : i ≤ 63) (hn : w.node ≤ 47) (s : State) :
    writeSlot i (some w) s
      = if overlapsOther i (clampPlacement w) s.line.next then (s, .conflict)
        else
          (setNext i (some (clampPlacement w)) s,
            if (clampPlacement w).slot = w.slot ∧ (clampPlacement w).divisor = w.divisor
              ∧ (clampPlacement w).phase = w.phase then .done else .doneClamped) := by
  have kept : ∀ b : Bool, doneIf (!b) = if b = true then .done else .doneClamped := by decide
  simp only [writeSlot, if_neg (Nat.not_lt.2 hi), if_neg (Nat.not_lt.2 hn), kept, Bool.and_eq_true, beq_iff_eq,
    and_assoc]

/-- Settles O24: the refusals in the order of R8, the clamped placement, the next map's entry replaced. -/
theorem writeSlotmapFollowsItsRule : Obligations.WriteSlotmapFollowsItsRule := by
  intro o i s ready
  have run : ∀ w, exec (.writeSlotmap o i w) s = .next (writeAnswer o (writeSlot i w s).2 (writeSlot i w s).1) :=
    fun w => exec_write (e := .slotmap i w) rfl ready
  refine ⟨fun beyond w => ?_, fun hi => ?_, fun w hi => ⟨fun beyond => ?_, fun hn => ?_⟩⟩
  · have refused : writeSlot i w s = (s, .outOfRange) := if_pos beyond
    rw [run, refused]
  · rw [run, writeSlot, if_neg (Nat.not_lt.2 hi)]
    rfl
  · rw [run, writeSlot, if_neg (Nat.not_lt.2 hi)]
    simp only [if_pos beyond]
  · intro slot divisor phase p status
    have clamped : clampPlacement w = p := clampPlacement_eq w
    rw [run, writeSlot_some hi hn, clamped]
    refine ⟨?_, fun free => ?_⟩
    · rintro ⟨j, q, hj, hq, same⟩
      rw [if_pos ((overlapsOther_iff _ _ _).2 ⟨j, q, hj, hq, (overlap_true_iff p q).2 same⟩)]
    · have none : ¬ overlapsOther i p s.line.next = true := by
        intro some
        obtain ⟨j, q, hj, hq, covers⟩ := (overlapsOther_iff _ _ _).1 some
        obtain ⟨slots, phases⟩ := (overlap_true_iff p q).1 covers
        exact free j q hj hq slots phases
      rw [if_neg none]
      rfl

/-! ### The counts of the management slots -/

/-- Both fragment counts stand as they did. -/
def CountsKept (s t : State) : Prop :=
  t.line.fragCount = s.line.fragCount ∧ t.line.checkErrCount = s.line.checkErrCount

theorem LineFrom.counts {s t : State} (h : LineFrom s t) : CountsKept s t := ⟨h.fragCount, h.checkErrCount⟩

theorem enterBreak_counts (s : State) : CountsKept s (enterBreak s) :=
  LineFrom.counts (s := lineToBreak s) (enterBreak_after s).lineFrom

theorem beginFrame_counts (n : Nat) (s : State) : CountsKept s (beginFrame n s) := by
  obtain ⟨frag, check⟩ := (beginFrame_lineFrom n s).counts
  obtain ⟨frag', check'⟩ := headed_counts n s
  exact ⟨frag.trans frag', check.trans check'⟩

theorem ite_counts {s a b : State} {c : Prop} [Decidable c] (ha : CountsKept s a) (hb : CountsKept s b) :
    CountsKept s (if c then a else b) := by
  split <;> assumption

theorem framePeriod_counts (s : State) : CountsKept s (framePeriod s) := by
  unfold framePeriod
  split
  · exact ite_counts (enterBreak_counts s) (beginFrame_counts _ s)
  · exact ⟨rfl, rfl⟩
  · exact ite_counts (beginFrame_counts 0 s) ⟨rfl, rfl⟩

theorem whenOn_counts {f : State → State} {s t : State} (h : CountsKept s (f s)) (e : whenOn f s = .next t) :
    CountsKept s t := by
  cases e
  exact ite_counts h ⟨rfl, rfl⟩

theorem settle_settled (s : State) : SettledFrom s (settle s) := rounds_settled false 40 s

theorem startUp_counts (s : State) : (startUp s).line.fragCount = 0 ∧ (startUp s).line.checkErrCount = 0 := by
  have invalid : ∀ u : State, (postInvalid u).line = u.line := fun u => by unfold postInvalid; split <;> rfl
  rw [startUp, (settle_settled _).line, invalid]
  exact ⟨rfl, rfl⟩

/-- Eight steps of the CRC-8 take one byte (R175). -/
theorem crcByte_steps (c b : Byte) :
    crcByte c b = (fun c : Byte => if c.getLsbD 7 then (c <<< 1) ^^^ 0x07#8 else c <<< 1)^[8] (c ^^^ b) := by
  have bit : crcBit = fun c : Byte => if c.getLsbD 7 then (c <<< 1) ^^^ 0x07#8 else c <<< 1 := by
    funext c
    rw [crcBit, BitVec.msb_eq_getLsbD_last]
  rw [← bit]
  rfl

theorem contend_address {bids : List Bid} {w : Won} (h : contend bids = some w) : w.address < 64 := by
  rw [contend_some h]
  have := (receivedPair (winners bids)).isLt
  dsimp only
  omega

theorem managementSlot_running {s : State} (running : s.line.state = .running) {bids : List Bid} {w : Won}
    (hw : contend bids = some w) :
    managementSlot bids s = match readFragment w.address (w.half.map Sampled.value) with
      | none => { s with line := { s.line with checkErrCount := inc16 s.line.checkErrCount } }
      | some f =>
        route { address := w.address, serial := w.serial, frag := f }
          { s with line := { s.line with fragCount := inc16 s.line.fragCount } } := by
  rw [managementSlot, if_neg (by simp [running]), hw]
  rfl

theorem readFragment_bits {address : Nat} (h : address < 64) (bs : List Byte) :
    let first := bs.getD 1 0#8
    let length := ((bs.getD 2 0#8).extractLsb' 4 4).toNat
    let passes := bs.length = length + 4 ∧ bs.getD 0 0#8 = BitVec.ofNat 8 (128 + address)
      ∧ bs.getD (length + 3) 0#8 = crc8 (bs.take (length + 3))
    (passes →
        readFragment address bs
          = some
              { number := (first.extractLsb' 4 4).toNat, index := (first.extractLsb' 1 3).toNat
                last := first.getLsbD 0, length := length, payload := (bs.drop 3).take length })
      ∧ (¬ passes → readFragment address bs = none) := by
  rw [readFragment_spec h]
  simp only [high_nibble, index_bits, last_bit]
  refine ⟨?_, fun fails => if_neg fun ⟨size, lead, code⟩ => fails ⟨size, lead, code.symm⟩⟩
  rintro ⟨size, lead, code⟩
  exact if_pos ⟨size, lead, code.symm⟩

/-- Settles O15: the slot by its contention and its check, the counts by what leaves the line alone. -/
theorem managementSlotsCountTheirFragments : Obligations.ManagementSlotsCountTheirFragments := by
  refine ⟨fun s slot bids on running => ⟨?_, fun w hw => ⟨fun fails => ?_, fun f passes => ?_⟩⟩, ?_, ?_, fun s => rfl,
    fun address bs h => readFragment_bits h bs, fun bids w => contend_address, rfl,
    fun bs b => (crc8_append bs b).trans (crcByte_steps _ b), by decide +kernel, by decide +kernel, by decide +kernel⟩
  · rintro rfl
    refine (whenOn_on (managementSlot []) on).trans ?_
    simp [managementSlot, contend]
  · refine (whenOn_on (managementSlot bids) on).trans ?_
    rw [managementSlot_running running hw, fails]
    rfl
  · refine ⟨_, whenOn_on (managementSlot bids) on, ?_⟩
    rw [managementSlot_running running hw, passes]
    exact (route_lineFrom _ _).counts
  · intro s t e
    have started : t = startUp (cutOff s) := (Host.Outcome.next.inj e).symm
    rw [started]
    exact startUp_counts _
  · rintro s t c (rfl | rfl | rfl | ⟨o, rfl⟩) e
    · exact whenOn_counts (f := breakIfDue) (ite_counts (enterBreak_counts s) ⟨rfl, rfl⟩) e
    · exact whenOn_counts (f := framePeriod) (framePeriod_counts s) e
    · exact whenOn_counts (f := resumeIfBreak) (ite_counts (beginFrame_counts 0 s) ⟨rfl, rfl⟩) e
    · rw [exec_asRequest rfl] at e
      exact whenOn_counts (arrive_lineFrom _ s).counts e

/-! ### BREAK and frame 0 -/

/-- Settles O6: the count goes down, and at its end or on LINE_RESUME frame 0 begins, a superframe start. -/
theorem breakCountsDownAndResumesAtFrameZero : Obligations.BreakCountsDownAndResumesAtFrameZero := by
  intro s n on inBreak count
  have period : framePeriod s
      = if n ≤ 1 then beginFrame 0 s else { s with line := { s.line with breakCount := some (n - 1) } } := by
    simp only [framePeriod, inBreak, count]
  refine ⟨fun more => ?_, fun c hc => ⟨beginFrame 0 s, ?_, ?_⟩⟩
  · refine (whenOn_on framePeriod on).trans ?_
    rw [period, if_neg (by omega)]
  · rcases hc with ⟨rfl, last⟩ | rfl
    · refine (whenOn_on framePeriod on).trans ?_
      rw [period, if_pos last]
    · refine (whenOn_on resumeIfBreak on).trans ?_
      rw [resumeIfBreak, if_pos (by simp [inBreak, count])]
  · have kept := beginFrame_lineFrom 0 s
    have header := headed_eq 0 s
    obtain ⟨state, none, field⟩ := kept.running (by rw [header])
    rw [kept.frame, state, none, kept.active, kept.attention, field, kept.fragCount, kept.checkErrCount, header]
    exact ⟨rfl, rfl, rfl, rfl, rfl, rfl, rfl, rfl⟩

end Sys2Proof.Machine

namespace Sys2Proof.Machine

/-! ### The header and its fragment -/

theorem headerBytes_eq (n : Nat) (attention : Bool) (field : List Byte) :
    headerBytes n attention field
      = let head := [0x80#8] ++ beBytes 2 n ++ [BitVec.ofNat 8 ((if attention then 128 else 0) + n % 8)] ++ field
        head ++ [crc8 head] := by
  have lead : leadByte 0 = 0x80#8 := by decide
  cases attention <;> simp [headerBytes, lead, b1, b2, beBytes]

theorem offer_restart {s : State} {f : Fragment} (h : s.mgmt.restartAnswer = some f) : offer s = .restart f := by
  simp [offer, h]

theorem offer_outgoing {s : State} {f : Fragment} {fs : List Fragment} (hr : s.mgmt.restartAnswer = none)
    (h : s.mgmt.proc.outgoing = f :: fs) : offer s = .outgoing f := by
  simp [offer, hr, h]

theorem offer_answer {s : State} {a : JoinAnswer} {as : List JoinAnswer} (hr : s.mgmt.restartAnswer = none)
    (hp : s.mgmt.proc.outgoing = []) (h : s.mgmt.answers = a :: as) : offer s = .answer a := by
  simp [offer, hr, hp, h]

theorem offer_nothing {s : State} (hr : s.mgmt.restartAnswer = none) (hp : s.mgmt.proc.outgoing = [])
    (h : s.mgmt.answers = []) : offer s = .nothing := by
  simp [offer, hr, hp, h]

theorem fragment_bytes {f : Fragment} (h : f.dest < 64) :
    f.bytes
      = [BitVec.ofNat 8 (128 + f.dest), BitVec.ofNat 8 (f.number * 16 + f.index * 2 + if f.last then 1 else 0),
          BitVec.ofNat 8 (f.payload.length * 16)]
        ++ f.payload := by
  rw [Fragment.bytes, leadByte_eq h]
  cases f.last <;> rfl

theorem joinAnswer_field (a : JoinAnswer) :
    (Offer.answer a).field
      = [BitVec.ofNat 8 (128 + 63), 0x01#8, 0x60#8, 0x21#8] ++ beBytes 4 a.serial.toNat
        ++ beBytes 1 (a.address.getD 0) := by
  have size : a.fragment.payload.length = 6 := by simp [JoinAnswer.fragment, b1]
  have bytes := fragment_bytes (f := a.fragment) (show 63 < 64 by decide)
  rw [size] at bytes
  exact bytes.trans (by simp [JoinAnswer.fragment, b1, beBytes])

/-- What a cut into `count` fragments is, place by place: index upward, the last flag on the final one, 12 bytes each. -/
def CutInto (dest number index : Nat) (bs : List Byte) (count : Nat) (frags : List Fragment) : Prop :=
  frags.length = count
    ∧ ∀ (i : Nat) (f : Fragment), frags[i]? = some f →
      f = ⟨dest, number, index + i, decide (i + 1 = count), (bs.drop (12 * i)).take 12⟩

theorem cut_short (dest number index : Nat) {bs : List Byte} (h : bs.length ≤ 12) :
    CutInto dest number index bs 1 [⟨dest, number, index, true, bs⟩] := by
  refine ⟨rfl, fun i f e => ?_⟩
  match i, e with
  | 0, e =>
    cases e
    rw [Nat.mul_zero, List.drop_zero, List.take_of_length_le h]
    rfl

theorem cut_long {dest number index count : Nat} {bs : List Byte} {frags : List Fragment} (hc : count ≠ 0)
    (h : CutInto dest number (index + 1) (bs.drop 12) count frags) :
    CutInto dest number index bs (count + 1) (⟨dest, number, index, false, bs.take 12⟩ :: frags) := by
  obtain ⟨size, each⟩ := h
  refine ⟨congrArg (· + 1) size, fun i f e => ?_⟩
  match i, e with
  | 0, e =>
    cases e
    rw [decide_eq_false (by omega)]
    rfl
  | i + 1, e =>
    have place : index + 1 + i = index + (i + 1) := by omega
    have start : 12 + 12 * i = 12 * (i + 1) := by omega
    simp only [each i f e, List.drop_drop, Nat.add_right_cancel_iff, place, start]

/-- A message is cut into as many fragments of 12 as it fills, an empty one into one. -/
theorem cut_spec (dest number n index : Nat) (bs : List Byte) (h : bs.length ≤ 12 * (n + 1)) :
    CutInto dest number index bs (max 1 ((bs.length + 11) / 12)) (cut dest number (n + 1) index bs) := by
  induction n generalizing index bs with
  | zero =>
    have one : max 1 ((bs.length + 11) / 12) = 1 := by omega
    rw [cut, if_pos (by omega), one]
    exact cut_short dest number index (by omega)
  | succ n ih =>
    rw [cut]
    split
    · next short =>
      have one : max 1 ((bs.length + 11) / 12) = 1 := by omega
      rw [one]
      exact cut_short dest number index short
    · have rest : (bs.drop 12).length = bs.length - 12 := List.length_drop
      have count : max 1 ((bs.length + 11) / 12) = max 1 (((bs.drop 12).length + 11) / 12) + 1 := by omega
      rw [count]
      exact cut_long (by omega) (ih (index + 1) (bs.drop 12) (by omega))

theorem fragments_spec {dest number : Nat} {bs : List Byte} (h : bs.length ≤ 96) :
    let frags := fragments dest number bs
    (bs = [] → frags = [⟨dest, number, 0, true, []⟩])
      ∧ (bs ≠ [] → frags.length = (bs.length + 11) / 12)
      ∧ ∀ (i : Nat) (f : Fragment), frags[i]? = some f →
        f = ⟨dest, number, i, decide (i + 1 = frags.length), (bs.drop (12 * i)).take 12⟩ := by
  have whole : fragments dest number bs = cut dest number (7 + 1) 0 bs := by
    rw [fragments, List.take_of_length_le h]
  obtain ⟨size, each⟩ := cut_spec dest number 7 0 bs (by omega)
  rw [whole]
  refine ⟨fun e => by rw [e]; rfl, fun some => ?_, fun i f e => ?_⟩
  · have pos := List.length_pos_iff.2 some
    rw [size]
    omega
  · rw [size, each i f e, Nat.zero_add]

/-! ### The ramp -/

theorem groupAt_map (f : LightGroup → LightGroup) (hf : f .blank = .blank) (l : List LightGroup) (i : Nat) :
    (l.map f).getD i .blank = f (l.getD i .blank) := by
  rw [List.getD_eq_getElem?_getD, List.getD_eq_getElem?_getD, List.getElem?_map]
  cases l[i]? with
  | none => exact hf.symm
  | some g => rfl

theorem groupAt_rampAll (u : State) (i : Nat) : groupAt (rampAll u) i = (groupAt u i).ramp :=
  groupAt_map LightGroup.ramp rfl u.light i

theorem ramp_still {g : LightGroup} (h : g.online = false ∨ g.current = g.aim) : g.ramp = g := by
  unfold LightGroup.ramp
  cases g.cfg with
  | none => rfl
  | some r => exact if_pos (by rcases h with h | h <;> simp [h])

theorem ramp_up {g : LightGroup} {r : LightRec} (hr : g.cfg = some r) (ho : g.online = true)
    (h : g.current < g.aim) :
    let level := min g.aim (g.current + (r.upInt + if 16 ≤ g.acc + r.upFrac then 1 else 0))
    g.ramp
      = { g with
          current := level
          acc := if level = g.aim then 0 else if 16 ≤ g.acc + r.upFrac then g.acc + r.upFrac - 16 else g.acc + r.upFrac } := by
  have step : (if 16 ≤ g.acc + r.upFrac then r.upInt + 1 else r.upInt)
      = r.upInt + if 16 ≤ g.acc + r.upFrac then 1 else 0 := by split <;> rfl
  simp [LightGroup.ramp, hr, ho, h, h.ne, step]

theorem ramp_down {g : LightGroup} {r : LightRec} (hr : g.cfg = some r) (ho : g.online = true)
    (h : g.aim < g.current) :
    let level := max g.aim (g.current - (r.downInt + if 16 ≤ g.acc + r.downFrac then 1 else 0))
    g.ramp
      = { g with
          current := level
          acc := if level = g.aim then 0
            else if 16 ≤ g.acc + r.downFrac then g.acc + r.downFrac - 16 else g.acc + r.downFrac } := by
  have step : (if 16 ≤ g.acc + r.downFrac then r.downInt + 1 else r.downInt)
      = r.downInt + if 16 ≤ g.acc + r.downFrac then 1 else 0 := by split <;> rfl
  simp [LightGroup.ramp, hr, ho, Nat.lt_asymm h, h.ne', step]

theorem fragmentGone_answer (a : JoinAnswer) (u : State) :
    fragmentGone (.answer a) u
      = { u with
          mgmt := { u.mgmt with answers := u.mgmt.answers.filter (fun b => b.serial != a.serial) }
          nodes :=
            { u.nodes with
              recs :=
                u.nodes.recs.map
                  (fun n =>
                    if n.ident.map NodeIdent.serial = some a.serial then
                      { n with answerPending := false, answeredNow := n.answeredNow || n.answerPending }
                    else n) } } := by
  have holds : ∀ n : Node, (n.ident.any (fun x => x.serial == a.serial) = true)
      = (n.ident.map NodeIdent.serial = some a.serial) := fun n => by cases n.ident <;> simp
  simp only [fragmentGone, answerGone, holds]

/-- Settles O5: the frame that begins, what it leaves of the line, and each part of what the header carries. -/
theorem frameStartFormsTheHeader : Obligations.FrameStartFormsTheHeader := by
  refine ⟨fun s on running due => ⟨beginFrame ((s.line.frame + 1) % 65536) s, ?_, ?_⟩, fun s => ⟨fun f => offer_restart,
    fun hr => ⟨fun f fs h => offer_outgoing (fs := fs) hr (by rw [h]; rfl),
      fun x f fs h => offer_outgoing (fs := fs) hr (by rw [h]; rfl), fun h => ?_⟩⟩, fun f => ⟨rfl, rfl⟩,
    fun f => fragment_bytes, fun dest number bs => fragments_spec, joinAnswer_field, rfl, fun u i => ⟨rfl, fun h => ?_,
      fun r hr ho => ⟨fun h => ?_, fun h => ?_⟩⟩, fun u => ⟨fun f => rfl, fun f g fs h => ?_, fun x f g fs h => ?_,
      fun a => fragmentGone_answer a u, rfl⟩⟩
  · refine (whenOn_on framePeriod on).trans ?_
    simp only [framePeriod, running, due]
    rfl
  · intro n flag field head begun
    have header : headed n s = begun := by
      rw [headed_eq, headerBytes_eq]
      rfl
    have kept := beginFrame_lineFrom n s
    rw [header] at kept
    obtain ⟨state, none, sent⟩ := kept.running rfl
    refine ⟨?_, kept.frame, state, none, kept.active, kept.attention, sent, kept.header, kept.fragCount,
      kept.checkErrCount⟩
    rw [beginFrame_eq, header, offer_congr (show begun.mgmt = s.mgmt from rfl)]
    rfl
  · have none : s.mgmt.proc.outgoing = [] := by rcases h with h | ⟨x, n, h⟩ <;> rw [h] <;> rfl
    exact ⟨fun a as => offer_answer hr none, offer_nothing hr none⟩
  · rw [groupAt_rampAll, ramp_still h]
  · rw [groupAt_rampAll]
    exact ramp_up hr ho h
  · rw [groupAt_rampAll]
    exact ramp_down hr ho h
  · simp only [fragmentGone, outgoingGone, h]
  · simp only [fragmentGone, outgoingGone, h]

end Sys2Proof.Machine

namespace Sys2Proof.Machine

/-! ### The line break -/

theorem cycleBreak_later (k i : Nat) (s : State) : LaterFrom s (cycleBreak k i s) := by
  unfold cycleBreak
  cases (channelAt s i).stage with
  | idle | aborting => exact .refl s
  | requested =>
    refine (setChannel_later i _ ?_ s).trans (post_last ..).later
    exact fun _ => ⟨rfl, rfl⟩
  | stopping | reversing | washing | rinsing | restoring =>
    refine setChannel_later i _ ?_ s
    exact fun _ => ⟨rfl, rfl⟩

theorem cyclesBreak_later (k : Nat) (s : State) : LaterFrom s (cyclesBreak k s) := .eachIx (cycleBreak_later k) 8 s

/-- The line break event in the Node Table up to record `n`. -/
def nodesBroken (n : Nat) (s : State) : State :=
  eachIx (fun i t => breakMowers i (nodeAt t i) (setNode i Node.lineBreak t)) n s

theorem nodesBreak_eq (s : State) : nodesBreak s = nodesBroken 48 s := rfl

theorem eachIx_succ (f : Nat → State → State) (n : Nat) (s : State) : eachIx f (n + 1) s = f n (eachIx f n s) := by
  simp only [eachIx, List.range_succ, List.foldl_append, List.foldl_cons, List.foldl_nil]

theorem nodesBroken_succ (n : Nat) (s : State) :
    nodesBroken (n + 1) s
      = breakMowers n (nodeAt (nodesBroken n s) n) (setNode n Node.lineBreak (nodesBroken n s)) :=
  eachIx_succ _ n s

theorem nodesBroken_frame (n : Nat) (s : State) :
    nodesBroken n s
      = { s with
          nodes := { s.nodes with recs := (nodesBroken n s).nodes.recs }
          pos := { s.pos with mowers := (nodesBroken n s).pos.mowers } } := by
  have moved : ∃ r m, nodesBroken n s = { s with nodes := { s.nodes with recs := r }, pos := { s.pos with mowers := m } } :=
    eachIx_keeps (P := fun t => ∃ r m,
        t = { s with nodes := { s.nodes with recs := r }, pos := { s.pos with mowers := m } })
      (by rintro i t ⟨r, m, rfl⟩; exact ⟨_, _, rfl⟩) n ⟨_, _, rfl⟩
  obtain ⟨r, m, e⟩ := moved
  rw [e]

theorem nodeAt_setNode_blank (i k : Nat) (f : Node → Node) (hf : f .blank = .blank) (s : State) :
    nodeAt (setNode i f s) k = if i = k then f (nodeAt s k) else nodeAt s k := by
  rw [nodeAt_setNode]
  by_cases same : i = k
  · by_cases lt : k < s.nodes.recs.length
    · rw [if_pos ⟨same, lt⟩, if_pos same]
    · have blank : nodeAt s k = .blank := by
        rw [nodeAt, List.getD_eq_getElem?_getD, List.getElem?_eq_none (by omega)]
        rfl
      rw [if_neg (fun h => lt h.2), if_pos same, blank, hf]
  · rw [if_neg (fun h => same h.1), if_neg same]

/-- Each record meets the line break once. -/
theorem nodeAt_nodesBroken (n k : Nat) (s : State) :
    nodeAt (nodesBroken n s) k = if k < n then (nodeAt s k).lineBreak else nodeAt s k := by
  induction n with
  | zero => simp [nodesBroken, eachIx]
  | succ n ih =>
    have moved : nodeAt (nodesBroken (n + 1) s) k = nodeAt (setNode n Node.lineBreak (nodesBroken n s)) k := by
      rw [nodesBroken_succ]
      rfl
    rw [moved, nodeAt_setNode_blank n k _ rfl, ih]
    by_cases lt : k < n
    · rw [if_neg (by omega), if_pos lt, if_pos (by omega)]
    · by_cases same : n = k
      · rw [if_pos same, if_neg lt, if_pos (by omega)]
      · rw [if_neg same, if_neg lt, if_neg (by omega)]

theorem nodeLost_node (m : Mower) : m.nodeLost.node = m.node := by
  unfold Mower.nodeLost
  split <;> rfl

/-- Some record before `n` that the mower is bound to is of kind MOWER and has joined. -/
def bindingBreaks (n : Nat) (s : State) (m : Mower) : Prop :=
  ∃ k, k < n ∧ m.node = some k ∧ (nodeAt s k).kindIs .mower = true ∧ (nodeAt s k).joined = true

theorem mowerAt_map (f : Mower → Mower) (hf : f .blank = .blank) (l : List Mower) (i : Nat) :
    (l.map f).getD i .blank = f (l.getD i .blank) := by
  rw [List.getD_eq_getElem?_getD, List.getD_eq_getElem?_getD, List.getElem?_map]
  cases l[i]? with
  | none => exact hf.symm
  | some m => rfl

theorem mowerAt_breakMowers (n i : Nat) (b : Node) (s : State) :
    mowerAt (breakMowers n b s) i
      = if b.kindIs .mower && b.joined && (mowerAt s i).node == some n then (mowerAt s i).nodeLost else mowerAt s i :=
  mowerAt_map (fun m => if b.kindIs .mower && b.joined && m.node == some n then m.nodeLost else m)
    (by simp [Mower.blank]) s.pos.mowers i

open Classical in
/-- A mower is made STALE by the record it is bound to, and by no other. -/
theorem mowerAt_nodesBroken (n i : Nat) (s : State) :
    mowerAt (nodesBroken n s) i
      = if bindingBreaks n s (mowerAt s i) then (mowerAt s i).nodeLost else mowerAt s i := by
  induction n with
  | zero => rw [if_neg (by rintro ⟨k, lt, -⟩; omega)]; rfl
  | succ n ih =>
    have before : nodeAt (nodesBroken n s) n = nodeAt s n := by rw [nodeAt_nodesBroken, if_neg (lt_irrefl n)]
    have same : mowerAt (setNode n Node.lineBreak (nodesBroken n s)) i = mowerAt (nodesBroken n s) i := rfl
    have bound : (mowerAt (nodesBroken n s) i).node = (mowerAt s i).node := by
      rw [ih]
      split
      exacts [nodeLost_node _, rfl]
    rw [nodesBroken_succ, mowerAt_breakMowers, same, before, bound, ih]
    by_cases here : (mowerAt s i).node = some n
    · have notYet : ¬ bindingBreaks n s (mowerAt s i) := by
        rintro ⟨k, lt, e, -⟩
        rw [here] at e
        cases e
        omega
      rw [if_neg notYet]
      refine if_congr ?_ rfl rfl
      rw [Bool.and_eq_true, Bool.and_eq_true, beq_iff_eq]
      constructor
      · rintro ⟨⟨kind, joined⟩, -⟩
        exact ⟨n, Nat.lt_succ_self n, here, kind, joined⟩
      · rintro ⟨k, -, e, kind, joined⟩
        rw [here] at e
        cases e
        exact ⟨⟨kind, joined⟩, here⟩
    · rw [if_neg (by simp [here])]
      refine if_congr ⟨?_, ?_⟩ rfl rfl
      · rintro ⟨k, lt, rest⟩
        exact ⟨k, by omega, rest⟩
      · rintro ⟨k, lt, e, rest⟩
        have other : k ≠ n := fun same => here (same ▸ e)
        exact ⟨k, by omega, e, rest⟩

theorem lineBreak_eq (n : Node) :
    n.lineBreak
      = if n.state = .active ∨ n.state = .stale ∨ n.state = .dropped then
          { n with state := .provisioned, code := none, cand := none, missed := 0, answerPending := false }
        else n := by
  unfold Node.lineBreak
  cases n.state <;> simp

theorem joined_iff (n : Node) : n.joined = true ↔ n.state = .active ∨ n.state = .stale ∨ n.state = .dropped := by
  simp [Node.joined, or_assoc]

theorem nodeLost_stale {m : Mower} (hs : m.state ≠ .stale) (hu : m.state ≠ .unused) :
    m.nodeLost
      = { m with
          state := .stale, raw := none, computed := none, slip := 0, acquire := 0, lastMarker := false
          lastDock := false } := by
  rw [Mower.nodeLost, if_neg (not_or.2 ⟨hs, hu⟩)]
  rfl

theorem mgmtBreak_mgmt (s : State) :
    (mgmtBreak s).mgmt
      = { s.mgmt with ctx1 := none, ctx2 := none, joinCtx := none, answers := [], proc := (mgmtBreak s).mgmt.proc } := by
  unfold mgmtBreak
  dsimp only
  split <;> rfl

theorem mgmtBreak_idle {s : State} (h : s.mgmt.proc = .idle ∨ ∃ frags, s.mgmt.proc = .sending frags) :
    (mgmtBreak s).mgmt.proc = s.mgmt.proc := by
  unfold mgmtBreak
  rcases h with h | ⟨frags, h⟩ <;> simp only [h]

/-- An answer without a body to a request whose kind is known (R153). -/
theorem reply_sends (r : Request) {k : Byte} (h : r.kind = some k) (st : Status) (s : State) :
    reply r st s = answer r.origin k st [] s := by
  obtain ⟨o, kind, body⟩ := r
  cases h
  exact reply_eq_answer o k body st s

theorem mgmtBreak_sends {s : State} {f : Forwarding} {k : Byte} (hk : f.request.kind = some k)
    (h : (∃ frags, s.mgmt.proc = .forwarding f frags) ∨ ∃ n, s.mgmt.proc = .waiting f n) :
    Sends (mgmtBreak s) f.request.origin k .noReply [] := by
  unfold mgmtBreak
  rcases h with ⟨frags, h⟩ | ⟨n, h⟩ <;> simp only [h, endForward, reply_sends _ hk] <;> rfl

theorem mgmtBreak_rest (s : State) :
    (mgmtBreak s).line = s.line ∧ (mgmtBreak s).nodes = s.nodes ∧ (mgmtBreak s).pos = s.pos
      ∧ (mgmtBreak s).store = s.store ∧ (mgmtBreak s).zone = s.zone ∧ (mgmtBreak s).water = s.water := by
  unfold mgmtBreak
  dsimp only
  split <;> exact ⟨rfl, rfl, rfl, rfl, rfl, rfl⟩

theorem nodesBreak_rest (s : State) :
    (nodesBreak s).line = s.line ∧ (nodesBreak s).mgmt = s.mgmt ∧ (nodesBreak s).store = s.store
      ∧ (nodesBreak s).zone = s.zone ∧ (nodesBreak s).water = s.water
      ∧ (nodesBreak s).nodes.joiners = s.nodes.joiners ∧ (nodesBreak s).nodes.overflow = s.nodes.overflow := by
  rw [nodesBreak_eq, nodesBroken_frame]
  exact ⟨rfl, rfl, rfl, rfl, rfl, rfl, rfl⟩

/-- The cycles moved, before the records and the mowers are. -/
def cyclesMoved (s : State) : State := cyclesBreak 8 (lineToBreak s)

theorem cyclesMoved_settled (s : State) : SettledFrom (lineToBreak s) (cyclesMoved s) := (cyclesBreak_later 8 _).base

/-- What the break leaves alone, and what it does to the line. -/
theorem enterBreak_rest (s : State) :
    (enterBreak s).line = (lineToBreak s).line ∧ (enterBreak s).store = s.store
      ∧ (enterBreak s).zone.dockAll = s.zone.dockAll ∧ (enterBreak s).water.steps = s.water.steps
      ∧ (enterBreak s).nodes.joiners = s.nodes.joiners ∧ (enterBreak s).nodes.overflow = s.nodes.overflow := by
  have settled : SettledFrom (mgmtBreak (nodesBreak (cyclesMoved s))) (enterBreak s) := settle_settled _
  have cycles := cyclesMoved_settled s
  obtain ⟨l, n, -, x, z, w⟩ := mgmtBreak_rest (nodesBreak (cyclesMoved s))
  obtain ⟨l', -, x', z', w', j, o⟩ := nodesBreak_rest (cyclesMoved s)
  rw [settled.line, settled.store, settled.dockAll, settled.steps, settled.nodes, l, n, x, z, w, l', x', z', w', j, o,
    cycles.line, cycles.store, cycles.dockAll, cycles.steps, cycles.nodes]
  exact ⟨rfl, rfl, rfl, rfl, rfl, rfl⟩

theorem nodeAt_congr {s t : State} (h : t.nodes = s.nodes) (i : Nat) : nodeAt t i = nodeAt s i := by
  rw [nodeAt, h]
  rfl

theorem mowerAt_congr {s t : State} (h : t.pos = s.pos) (i : Nat) : mowerAt t i = mowerAt s i := by
  rw [mowerAt, h]
  rfl

theorem enterBreak_mgmt (s : State) : ∃ u : State, u.mgmt = s.mgmt ∧ (enterBreak s).mgmt = (mgmtBreak u).mgmt := by
  have settled : SettledFrom (mgmtBreak (nodesBreak (cyclesMoved s))) (enterBreak s) := settle_settled _
  obtain ⟨-, same, -⟩ := nodesBreak_rest (cyclesMoved s)
  exact ⟨_, same.trans (cyclesMoved_settled s).mgmt, settled.mgmt⟩

theorem nodeAt_enterBreak (s : State) {i : Nat} (hi : i < 48) : nodeAt (enterBreak s) i = (nodeAt s i).lineBreak := by
  have settled : SettledFrom (mgmtBreak (nodesBreak (cyclesMoved s))) (enterBreak s) := settle_settled _
  obtain ⟨-, nodes, -⟩ := mgmtBreak_rest (nodesBreak (cyclesMoved s))
  have before : nodeAt (cyclesMoved s) i = nodeAt s i := nodeAt_congr (cyclesMoved_settled s).nodes i
  rw [nodeAt_congr settled.nodes, nodeAt_congr nodes, nodesBreak_eq, nodeAt_nodesBroken, if_pos hi, before]

theorem mowerAt_enterBreak (s : State) {i n : Nat} (hn : n < 48) (bound : (mowerAt s i).node = some n)
    (kind : (nodeAt s n).kindIs .mower = true) (joined : (nodeAt s n).joined = true) :
    mowerAt (enterBreak s) i = (mowerAt s i).nodeLost := by
  have settled : SettledFrom (mgmtBreak (nodesBreak (cyclesMoved s))) (enterBreak s) := settle_settled _
  obtain ⟨-, -, pos, -⟩ := mgmtBreak_rest (nodesBreak (cyclesMoved s))
  have mower : mowerAt (cyclesMoved s) i = mowerAt s i := mowerAt_congr (cyclesMoved_settled s).pos i
  have node : nodeAt (cyclesMoved s) n = nodeAt s n := nodeAt_congr (cyclesMoved_settled s).nodes n
  classical
  rw [mowerAt_congr settled.pos, mowerAt_congr pos, nodesBreak_eq, mowerAt_nodesBroken, mower, if_pos]
  exact ⟨n, hn, bound, (congrArg (Node.kindIs · .mower) node).trans kind, (congrArg Node.joined node).trans joined⟩

theorem breakIfDue_due {s : State} (h : s.line.state = .running) (due : s.line.restartDue = true) :
    breakIfDue s = enterBreak s := if_pos ⟨h, due⟩

theorem framePeriod_due {s : State} (h : s.line.state = .running) (due : s.line.restartDue = true) :
    framePeriod s = enterBreak s := by
  unfold framePeriod
  rw [h]
  exact if_pos due

theorem enterBreak_context (s : State) :
    (enterBreak s).mgmt
      = { s.mgmt with ctx1 := none, ctx2 := none, joinCtx := none, answers := [], proc := (enterBreak s).mgmt.proc } := by
  obtain ⟨u, same, mgmt⟩ := enterBreak_mgmt s
  rw [mgmt, ← same]
  exact mgmtBreak_mgmt u

theorem enterBreak_idle {s : State} (h : s.mgmt.proc = .idle ∨ ∃ frags, s.mgmt.proc = .sending frags) :
    (enterBreak s).mgmt.proc = s.mgmt.proc := by
  obtain ⟨u, same, mgmt⟩ := enterBreak_mgmt s
  rw [← same] at h
  rw [mgmt, mgmtBreak_idle h, same]

theorem enterBreak_sends {s : State} {f : Forwarding} {k : Byte} (hk : f.request.kind = some k)
    (h : (∃ frags, s.mgmt.proc = .forwarding f frags) ∨ ∃ n, s.mgmt.proc = .waiting f n) :
    Sends (enterBreak s) f.request.origin k .noReply [] := by
  obtain ⟨u, same, mgmt⟩ := enterBreak_mgmt s
  rw [← same] at h
  unfold Sends
  rw [mgmt]
  exact mgmtBreak_sends hk h

/-- Settles O7: a restart that is due enters BREAK, whichever command finds it. -/
theorem lineBreakTakesTheNodesDown : Obligations.LineBreakTakesTheNodesDown := by
  intro s c on running due hc
  have taken : exec c s = .next (enterBreak s) := by
    rcases hc with rfl | rfl
    · exact (whenOn_on breakIfDue on).trans (congrArg Host.Outcome.next (breakIfDue_due running due))
    · exact (whenOn_on framePeriod on).trans (congrArg Host.Outcome.next (framePeriod_due running due))
  obtain ⟨line, store, dockAll, steps, joiners, overflow⟩ := enterBreak_rest s
  refine ⟨enterBreak s, taken, line, fun i hi => ?_, joiners, overflow, ?_, enterBreak_context s,
    fun f k hk h => enterBreak_sends hk h, fun h => enterBreak_idle h, store, dockAll, steps⟩
  · rw [nodeAt_enterBreak s hi, lineBreak_eq]
  · intro i n x hi hn bound ident kind joined unused stale
    have lost := mowerAt_enterBreak s hn bound (by simp [Node.kindIs, ident, kind]) ((joined_iff _).2 joined)
    rw [lost, nodeLost_stale stale unused]
    exact ⟨rfl, rfl, rfl, rfl, rfl, rfl, rfl⟩

/-! ### RESTART LINE -/

theorem restartRequest_eq {o : Origin} {s : State} :
    process ⟨o, some 19#8, .restartLine⟩ s
      = causeRestart
          { s with
            mgmt :=
              { s.mgmt with
                restartAnswer := (fragments o.address o.number ([19#8, 0x00#8] ++ serialBytes o)).head? }
            free := s.free + 1 } := by
  have bytes : responseFragments s.free ⟨o, some 19#8, .restartLine⟩ .done []
      = fragments o.address o.number ([19#8, 0x00#8] ++ serialBytes o) :=
    congrArg (fragments o.address o.number) (List.append_nil _)
  rw [← bytes]
  rfl

/-- Settles O47: the answer is held and the restart caused, at the frame's end or, during a BREAK, at once. -/
theorem restartLineCausesABreak : Obligations.RestartLineCausesABreak := by
  intro o s ready held
  have run := (exec_ready (c := .restartLine o) rfl ready).trans (congrArg Host.Outcome.next restartRequest_eq)
  obtain ⟨-, idle, -⟩ := ready
  refine ⟨fun running => ?_, fun n inBreak count => ?_⟩
  · rw [run]
    simp only [causeRestart, running]
    rfl
  · let u : State := { s with mgmt := { s.mgmt with restartAnswer := held }, free := s.free + 1 }
    have caused : causeRestart u = enterBreak u := by
      have state : u.line.state = .inBreak := inBreak
      have counting : u.line.breakCount = some n := count
      simp only [causeRestart, state, counting]
    have proc : (enterBreak u).mgmt.proc = .idle := by
      have before : u.mgmt.proc = .idle := idle
      rw [enterBreak_idle (.inl before), before]
    refine ⟨enterBreak u, run.trans (congrArg Host.Outcome.next caused), ?_, ?_⟩
    · rw [(enterBreak_rest u).1, lineToBreak, ← inBreak]
    · rw [enterBreak_context, proc]
      exact ⟨rfl, rfl, rfl, rfl, rfl, rfl⟩

end Sys2Proof.Machine

namespace Sys2Proof.Machine

/-! ### Missed samples -/

theorem miss_eq {n : Node} (served : n.state = .active ∨ n.state = .stale) (e : Bool) :
    n.miss e
      = if n.answerPending = true ∨ n.answeredNow = true then
          { n with checkErr := if e then inc16 n.checkErr else n.checkErr }
        else
          { n with
            checkErr := if e then inc16 n.checkErr else n.checkErr
            cand := none, missed := n.missed + 1
            state :=
              if n.state = .active then (if 8 ≤ n.missed + 1 then .stale else .active)
              else if 250 ≤ n.missed + 1 then .dropped else .stale } := by
  have state : missedState n.state (n.missed + 1)
      = if n.state = .active then (if 8 ≤ n.missed + 1 then .stale else .active)
        else if 250 ≤ n.missed + 1 then .dropped else .stale := by
    rcases served with h | h <;> simp [missedState, h]
  rw [Node.miss, ← state]
  exact if_congr (Bool.or_eq_true ..).to_iff rfl rfl

theorem miss_ident (e : Bool) (n : Node) : (n.miss e).ident = n.ident := by
  unfold Node.miss
  dsimp only
  split <;> rfl

/-- A missed sample brings no record into ACTIVE, and one that leaves ACTIVE is STALE. -/
theorem miss_state {n : Node} (served : n.state = .active ∨ n.state = .stale) (e : Bool) :
    ((n.miss e).state = .active → n.state = .active)
      ∧ (n.state = .active → ((n.miss e).state = .stale ↔ (n.miss e).state ≠ .active)) := by
  rw [miss_eq served]
  rcases served with h | h
  · by_cases held : n.answerPending = true ∨ n.answeredNow = true
    · simp [held, h]
    · by_cases count : 8 ≤ n.missed + 1 <;> simp [held, h, count]
  · by_cases held : n.answerPending = true ∨ n.answeredNow = true
    · simp [held, h]
    · by_cases count : 250 ≤ n.missed + 1 <;> simp [held, h, count]

theorem mowerAt_report (n i : Nat) (before after : Node) (s : State) :
    mowerAt (reportToMowers n before after s) i
      = if (mowerAt s i).node = some n then
          if before.kindIs .mower && before.state == .active && after.state != .active then (mowerAt s i).nodeLost
          else if after.kindIs .mower && before.state != .active && after.state == .active then (mowerAt s i).nodeFound
          else mowerAt s i
        else mowerAt s i :=
  mowerAt_map
    (fun m =>
      if m.node = some n then
        if before.kindIs .mower && before.state == .active && after.state != .active then m.nodeLost
        else if after.kindIs .mower && before.state != .active && after.state == .active then m.nodeFound
        else m
      else m)
    rfl s.pos.mowers i

/-- The state between a missed sample and the forming of the blocks. -/
def missed (n : Nat) (e : Bool) (s : State) : State :=
  reportToMowers n (nodeAt s n) ((nodeAt s n).miss e) (setNode n (Node.miss e) s)

theorem missedSample_settled (n : Nat) (e : Bool) (s : State) : SettledFrom (missed n e s) (missedSample n e s) :=
  settle_settled _

theorem nodeAt_missed_self {n : Nat} {s : State} (h : nodeAt s n ≠ .blank) (e : Bool) :
    nodeAt (missed n e s) n = (nodeAt s n).miss e := by
  have report : nodeAt (missed n e s) n = nodeAt (setNode n (Node.miss e) s) n := rfl
  rw [report, nodeAt_setNode, if_pos ⟨rfl, nodeAt_lt h⟩]

theorem nodeAt_missed_other {n k : Nat} (h : k ≠ n) (e : Bool) (s : State) : nodeAt (missed n e s) k = nodeAt s k := by
  have report : nodeAt (missed n e s) k = nodeAt (setNode n (Node.miss e) s) k := rfl
  rw [report, nodeAt_setNode, if_neg (fun same => h same.1.symm)]

/-- The mowers a missed sample loses: those bound to an ACTIVE record of kind MOWER that it makes STALE. -/
theorem mowerAt_missed {n : Nat} {s : State} {x : NodeIdent} (hx : (nodeAt s n).ident = some x)
    (served : (nodeAt s n).state = .active ∨ (nodeAt s n).state = .stale) (e : Bool) (i : Nat) :
    mowerAt (missed n e s) i
      = if x.kind = .mower ∧ (nodeAt s n).state = .active ∧ ((nodeAt s n).miss e).state = .stale
            ∧ (mowerAt s i).node = some n then
          (mowerAt s i).nodeLost
        else mowerAt s i := by
  obtain ⟨notFound, leaves⟩ := miss_state served e
  have same : mowerAt (setNode n (Node.miss e) s) i = mowerAt s i := rfl
  have kind : (nodeAt s n).kindIs .mower = decide (x.kind = .mower) := by simp [Node.kindIs, hx, beq_eq_decide]
  have kind' : ((nodeAt s n).miss e).kindIs .mower = decide (x.kind = .mower) := by
    simp [Node.kindIs, miss_ident, hx, beq_eq_decide]
  rw [missed, mowerAt_report, same, kind, kind']
  by_cases bound : (mowerAt s i).node = some n
  · rw [if_pos bound]
    rcases served with active | stale
    · simp [active, leaves active, bound]
    · have still : ((nodeAt s n).miss e).state ≠ .active := fun h => by simp [stale] at notFound; exact notFound h
      simp [stale, still]
  · rw [if_neg bound, if_neg (fun h => bound h.2.2.2)]

theorem nodeLost_unused_or_stale {m : Mower} (h : m.state = .stale ∨ m.state = .unused) : m.nodeLost = m := if_pos h

theorem servedIn_of_placement {slot : Nat} {s : State} {p : Placement} {x : NodeIdent} (hp : placementFor slot s = some p)
    (served : (nodeAt s p.node).state = .active ∨ (nodeAt s p.node).state = .stale)
    (hx : (nodeAt s p.node).ident = some x) : servedIn slot s = some (p.node, x) := by
  simp only [servedIn, hp, (served_iff _).2 served, hx, if_true, Option.map_some]

theorem outcome_missed {h : Heard} (miss : h = .failed ∨ h = .silence) (n : Nat) (s : State) :
    outcome n h s = missedSample n (decide (h = .failed)) s := by
  rcases miss with rfl | rfl <;> rfl

/-- Settles O14: the record, the mowers bound to it and the downstream half, by the state before the blocks form. -/
theorem missedSampleCounts : Obligations.MissedSampleCounts := by
  intro s slot heard p x on running placed served hx miss
  let half := halfBytes x.address (commandBytes x.kind p.node s)
  let e := decide (judgeHeard x.address p.node heard = .failed)
  let u := setDown slot half s
  have taken : exec (.nodeSlotEnd slot heard) s = .next (missedSample p.node e u) := by
    refine (whenOn_on (nodeSlot slot heard) on).trans (congrArg Host.Outcome.next ?_)
    simp only [nodeSlot, running, reduceCtorEq, if_false, servedIn_of_placement placed served hx]
    exact outcome_missed miss _ _
  have settled := missedSample_settled p.node e u
  have recorded : nodeAt u p.node ≠ .blank := by
    intro blank
    have none : (nodeAt s p.node).ident = none := congrArg Node.ident blank
    rw [hx] at none
    cases none
  have record : nodeAt (missedSample p.node e u) p.node = (nodeAt s p.node).miss e :=
    (nodeAt_congr settled.nodes _).trans (nodeAt_missed_self recorded e)
  refine ⟨missedSample p.node e u, taken, ?_, fun k other => ?_, fun i => ?_, ?_, settled.line, settled.mgmt,
    settled.dockAll⟩
  · rw [record, miss_eq served]
    simp only [e, decide_eq_true_eq]
  · exact (nodeAt_congr settled.nodes k).trans (nodeAt_missed_other other e u)
  · have mower : mowerAt (missedSample p.node e u) i = mowerAt (missed p.node e u) i := mowerAt_congr settled.pos i
    rw [mower, mowerAt_missed (s := u) hx served, record]
    constructor
    · rintro ⟨kind, active, stale, bound, notStale, notUnused⟩
      rw [if_pos ⟨kind, active, stale, bound⟩]
      exact nodeLost_stale notStale notUnused
    · intro kept
      by_cases lost : x.kind = .mower ∧ (nodeAt s p.node).state = .active ∧ ((nodeAt s p.node).miss e).state = .stale
          ∧ (mowerAt s i).node = some p.node
      · refine (if_pos lost).trans (nodeLost_unused_or_stale (m := mowerAt s i) ?_)
        obtain ⟨kind, active, stale, bound⟩ := lost
        by_contra other
        obtain ⟨notStale, notUnused⟩ := not_or.1 other
        exact kept ⟨kind, active, stale, bound, notStale, notUnused⟩
      · exact if_neg lost
  · rw [settled.pos]
    rfl

end Sys2Proof.Machine

namespace Sys2Proof.Machine

/-! ### FORWARD -/

theorem respond_sends (r : Request) {k : Byte} (h : r.kind = some k) (st : Status) (body : List Byte) (s : State) :
    respond r st body s = answer r.origin k st body s := by
  obtain ⟨o, kind, b⟩ := r
  cases h
  exact respond_eq_answer o k b st body s

theorem endForward_sends {f : Forwarding} {k : Byte} (h : f.request.kind = some k) (s : State) :
    endForward f s = answer f.request.origin k .noReply [] s := reply_sends f.request h .noReply s

theorem answerForward_sends {f : Forwarding} {k : Byte} (h : f.request.kind = some k) (payload : List Byte) (s : State) :
    answerForward f payload s
      = if 80 < payload.length then answer f.request.origin k .malformed [] s
        else answer f.request.origin k .done payload s := by
  rw [answerForward, reply_sends f.request h, respond_sends f.request h]

/-- A fragment routed to a context counts at most one discard (R150). -/
theorem assemble_counted (openState : Bool) (h : Handed) (ctx : Option Assembly) :
    (assemble openState h ctx).counted = 0 ∨ (assemble openState h ctx).counted = 1 := by
  unfold assemble
  by_cases long : 12 < h.frag.length
  · simp [long]
  · by_cases first : h.frag.index = 0
    · cases ctx <;> by_cases last : h.frag.last = true <;> simp [long, first, closeAssembly, last]
    · cases ctx with
      | none => simp [long, first]
      | some a =>
        simp only [long, first, if_false]
        split
        · unfold closeAssembly
          split
          · exact .inl rfl
          · split
            exacts [.inr rfl, .inl rfl]
        · split
          exacts [.inr rfl, .inr rfl]

theorem countDiscards_assemble (openState : Bool) (h : Handed) (ctx : Option Assembly) (s : State) :
    countDiscards (assemble openState h ctx).counted s
      = { s with
          mgmt :=
            { s.mgmt with
              discarded :=
                if (assemble openState h ctx).counted = 0 then s.mgmt.discarded else inc16 s.mgmt.discarded } } := by
  rcases assemble_counted openState h ctx with none | one
  · rw [none]
    rfl
  · rw [one]
    rfl

theorem forwardRequest_outOfRange {n : Nat} (h : 47 < n) (r : Request) (payload : List Byte) (s : State) :
    forwardRequest r n payload s = reply r .outOfRange s := if_pos h

theorem forwardRequest_malformed {n : Nat} {payload : List Byte} (h : n ≤ 47) (long : 80 < payload.length) (r : Request)
    (s : State) : forwardRequest r n payload s = reply r .malformed s := by
  rw [forwardRequest, if_neg (by omega), if_pos long]

theorem forwardRequest_wrongState {n : Nat} {payload : List Byte} (h : n ≤ 47) (short : payload.length ≤ 80) {s : State}
    (served : (nodeAt s n).served = false) (r : Request) : forwardRequest r n payload s = reply r .wrongState s := by
  rw [forwardRequest, if_neg (by omega), if_neg (by omega)]
  cases (nodeAt s n).ident with
  | none => rfl
  | some x => exact if_pos (by rw [served]; rfl)

theorem forwardRequest_accepted {n : Nat} {payload : List Byte} (h : n ≤ 47) (short : payload.length ≤ 80) {s : State}
    (served : (nodeAt s n).served = true) {x : NodeIdent} (hx : (nodeAt s n).ident = some x) (r : Request) :
    forwardRequest r n payload s
      = { s with
          mgmt :=
            { s.mgmt with
              proc :=
                .forwarding { request := r, target := x.address, reply := none, kept := none }
                  (fragments x.address r.origin.number payload) } } := by
  rw [forwardRequest, if_neg (by omega), if_neg (by omega), hx]
  exact if_neg (by simp [served])

theorem forwardExpiry_waiting {s : State} {f : Forwarding} {timer : Nat} (h : s.mgmt.proc = .waiting f timer) :
    forwardExpiry s = if timer ≤ 1 then endForward f s else s := by
  rw [forwardExpiry, h]

/-- The wait ends only at its last frame. -/
theorem forwardExpiry_early {s : State} (h : ∀ f timer, s.mgmt.proc = .waiting f timer → 1 < timer) :
    forwardExpiry s = s := by
  unfold forwardExpiry
  cases proc : s.mgmt.proc with
  | idle | sending | forwarding => rfl
  | waiting f timer => exact if_neg (by have := h f timer proc; omega)

theorem forwardFrame_waiting {s : State} {f : Forwarding} {timer : Nat} (h : s.mgmt.proc = .waiting f timer) :
    forwardFrame s
      = if timer ≤ 1 then endForward f s
        else { s with mgmt := { s.mgmt with proc := .waiting f (timer - 1) } } := by
  rw [forwardFrame, h]

theorem forwardFrame_notWaiting {s : State} (h : ∀ f timer, s.mgmt.proc ≠ .waiting f timer) : forwardFrame s = s := by
  unfold forwardFrame
  cases proc : s.mgmt.proc with
  | idle | sending | forwarding => rfl
  | waiting f timer => exact absurd proc (h f timer)

theorem fragmentGone_lastPayload {s : State} {f : Forwarding} {x : Fragment} (h : s.mgmt.proc = .forwarding f [x]) :
    fragmentGone (.outgoing x) s = beginWait f s := by
  rw [fragmentGone, outgoingGone, h]

/-- A reply that completes while the FORWARD is sending is kept, unless one is kept already (R160). -/
theorem route_forwarding {s : State} {f : Forwarding} {frags : List Fragment} {h : Handed} (target : h.address = f.target)
    (proc : s.mgmt.proc = .forwarding f frags) :
    route h s
      = { s with
          mgmt :=
            { s.mgmt with
              discarded :=
                if (assemble false h f.reply).counted = 0 then s.mgmt.discarded else inc16 s.mgmt.discarded
              proc :=
                .forwarding
                  { f with
                    reply := (assemble false h f.reply).ctx
                    kept := (f.kept).or ((assemble false h f.reply).message.map Prod.fst) } frags } } := by
  rw [route, proc]
  refine (if_pos target.symm).trans ((countDiscards_assemble false h f.reply _).trans ?_)
  cases f.kept <;> rfl

theorem route_waiting {s : State} {f : Forwarding} {timer : Nat} {h : Handed} (target : h.address = f.target)
    (proc : s.mgmt.proc = .waiting f timer) : route h s = toReply h f timer s := by
  rw [route, proc]
  exact if_pos target.symm

/-- A FORWARD that waits, after a fragment of its reply. -/
def replyTaken (h : Handed) (f : Forwarding) (timer : Nat) (s : State) : State :=
  { s with
    mgmt :=
      { s.mgmt with
        discarded := if (assemble false h f.reply).counted = 0 then s.mgmt.discarded else inc16 s.mgmt.discarded
        proc := .waiting { f with reply := (assemble false h f.reply).ctx } timer } }

theorem toReply_eq (h : Handed) (f : Forwarding) (timer : Nat) (s : State) :
    toReply h f timer s
      = match (assemble false h f.reply).message with
        | none => replyTaken h f timer s
        | some (payload, _) => answerForward f payload (replyTaken h f timer s) := by
  have taken : countDiscards (assemble false h f.reply).counted
      { s with mgmt := { s.mgmt with proc := .waiting { f with reply := (assemble false h f.reply).ctx } timer } }
        = replyTaken h f timer s := countDiscards_assemble false h f.reply _
  cases message : (assemble false h f.reply).message with
  | none => simp only [toReply, message, taken]
  | some m => simp only [toReply, message, taken]

/-- Settles O48: the request by its refusals, the wait by its timer, the reply by what its assembly gives. -/
theorem forwardSendsAndWaits : Obligations.ForwardSendsAndWaits := by
  refine ⟨fun o n payload s ready => ?_, fun s on => ⟨?_, ?_⟩, fun f k u kind => ⟨?_, ?_, ?_, ?_⟩⟩
  · have run : exec (.forward o n payload) s = .next (forwardRequest ⟨o, some 20#8, .forward n payload⟩ n payload s) :=
      exec_ready (c := .forward o n payload) rfl ready
    dsimp only
    rw [run]
    refine ⟨fun out => ?_, fun hn long => ?_, fun hn short notServed => ?_, fun x hn short served hx => ?_⟩
    · rw [forwardRequest_outOfRange out, reply_eq_answer]
    · rw [forwardRequest_malformed hn long, reply_eq_answer]
    · have off : (nodeAt s n).served = false := by
        rw [← Bool.not_eq_true, served_iff]
        exact notServed
      rw [forwardRequest_wrongState hn short off, reply_eq_answer]
    · rw [forwardRequest_accepted hn short ((served_iff _).2 served) hx]
  · intro f k timer running proc last kind
    refine (whenOn_on (whenRunning forwardExpiry) on).trans (congrArg Host.Outcome.next ?_)
    rw [whenRunning_running forwardExpiry running, forwardExpiry_waiting proc, if_pos last, endForward_sends kind]
  · intro idle
    refine (whenOn_on (whenRunning forwardExpiry) on).trans (congrArg Host.Outcome.next ?_)
    rcases idle with inBreak | early
    · exact whenRunning_inBreak forwardExpiry inBreak
    · rw [whenRunning, forwardExpiry_early early, ite_self]
  · intro timer proc
    rw [forwardFrame_waiting proc]
    refine ⟨fun last => ?_, fun more => if_neg (by omega)⟩
    rw [if_pos last, endForward_sends kind]
  · exact forwardFrame_notWaiting
  · intro x proc
    rw [fragmentGone_lastPayload proc]
    refine ⟨fun none => ?_, fun payload kept => ?_⟩
    · rw [beginWait, none]
    · rw [beginWait, kept]
      exact answerForward_sends kind payload u
  · intro h target
    refine ⟨fun frags proc => route_forwarding target proc, fun timer proc => ?_⟩
    dsimp only
    rw [route_waiting target proc, toReply_eq]
    refine ⟨fun none => ?_, fun payload single message => ?_⟩
    · rw [none]
      rfl
    · rw [message]
      exact answerForward_sends kind payload (replyTaken h f timer u)

end Sys2Proof.Machine

namespace Sys2Proof.Machine

/-! ### Records that change alone -/

/-- An entry changed in place is the entry written anew. -/
theorem modify_eq_set_getD {α : Type} (f : α → α) (l : List α) (i : Nat) (d : α) :
    l.modify i f = l.set i (f (l.getD i d)) := by
  rw [List.modify_eq_set_getElem?, List.getD_eq_getElem?_getD]
  cases entry : l[i]? with
  | some a => rfl
  | none => exact (List.set_eq_of_length_le (List.getElem?_eq_none_iff.1 entry)).symm

theorem setMower_eq (i : Nat) (f : Mower → Mower) (s : State) :
    setMower i f s = { s with pos := { s.pos with mowers := s.pos.mowers.set i (f (mowerAt s i)) } } := by
  rw [setMower, modify_eq_set_getD f s.pos.mowers i .blank]
  rfl

theorem setGroup_eq (i : Nat) (f : LightGroup → LightGroup) (s : State) :
    setGroup i f s = { s with light := s.light.set i (f (groupAt s i)) } := by
  rw [setGroup, modify_eq_set_getD f s.light i .blank]
  rfl

theorem setPlayer_eq (i : Nat) (f : Player → Player) (s : State) :
    setPlayer i f s = { s with water := { s.water with shows := s.water.shows.set i (f (playerAt s i)) } } := by
  rw [setPlayer, modify_eq_set_getD f s.water.shows i .blank]
  rfl

theorem setChannel_eq (i : Nat) (f : Channel → Channel) (s : State) :
    setChannel i f s
      = { s with water := { s.water with channels := s.water.channels.set i (f (channelAt s i)) } } := by
  rw [setChannel, modify_eq_set_getD f s.water.channels i .blank]
  rfl

/-! ### A show's step ends -/

/-- What follows the last frame of a step of a PLAYING show (R102). -/
structure StepEnds (s : State) (r : ShowRec) (p q : Player) : Prop where
  next : ∀ n, p.next = some n → q = p.load s n
  loops : p.next = none → (r.loopCount = 0 ∨ inc16 p.loopsDone < r.loopCount) →
    q = Player.load s r.first { p with loopsDone := inc16 p.loopsDone }
  stops : p.next = none → r.loopCount ≠ 0 → r.loopCount ≤ inc16 p.loopsDone →
    q = Player.stop { p with loopsDone := inc16 p.loopsDone }

theorem moveOn_ends (s : State) (r : ShowRec) (p : Player) : StepEnds s r p (Player.moveOn s r { p with remaining := 0 }) where
  next n h := by
    rw [Player.moveOn, h]
    rfl
  loops h more := by
    rw [Player.moveOn, h]
    exact if_pos more
  stops h counted all := by
    rw [Player.moveOn, h]
    exact if_neg (by dsimp only; omega)

theorem playerFrame_last {s : State} {p : Player} {r : ShowRec} (cfg : p.cfg = some r) (playing : p.state = .playing)
    (last : p.remaining ≤ 1) : StepEnds s r p (p.frame s) := by
  have moves : p.frame s = Player.moveOn s r { p with remaining := 0 } := by
    rw [Player.frame, cfg, playing]
    exact if_pos last
  rw [moves]
  exact moveOn_ends s r p

theorem playerFrame_more {s : State} {p : Player} {r : ShowRec} (cfg : p.cfg = some r) (playing : p.state = .playing)
    (more : 1 < p.remaining) : p.frame s = { p with remaining := p.remaining - 1 } := by
  rw [Player.frame, cfg, playing]
  exact if_neg (by omega)

theorem playerFrame_notPlaying {s : State} {p : Player} (h : p.state ≠ .playing) : p.frame s = p := by
  unfold Player.frame
  split
  next playing => exact absurd playing h
  next => rfl

/-! ### The timers of a frame event -/

/-- `t` is `s` but for the channels and the notices. -/
def ChannelsMoved (s t : State) : Prop :=
  t = { s with water := { s.water with channels := t.water.channels }, notices := t.notices }

theorem ChannelsMoved.refl (s : State) : ChannelsMoved s s := rfl

theorem ChannelsMoved.trans {s t u : State} (a : ChannelsMoved s t) (b : ChannelsMoved t u) : ChannelsMoved s u := by
  unfold ChannelsMoved at *
  rw [b, a]

theorem setChannel_moved (i : Nat) (f : Channel → Channel) (s : State) : ChannelsMoved s (setChannel i f s) := rfl

theorem post_moved (k : NoticeKind) (x : Option Nat) (d : Nat) (s : State) : ChannelsMoved s (post k x d s) := rfl

theorem ite_moved {c : Prop} [Decidable c] {s t u : State} (ht : ChannelsMoved s t) (hu : ChannelsMoved s u) :
    ChannelsMoved s (if c then t else u) := by
  split
  exacts [ht, hu]

theorem stageEnd_moved (i : Nat) (s : State) : ChannelsMoved s (stageEnd i s) := by
  unfold stageEnd
  dsimp only
  cases (channelAt s i).cfg with
  | none => exact .refl s
  | some r =>
    cases (channelAt s i).stage with
    | idle | requested => exact .refl s
    | stopping | reversing | washing | rinsing => exact setChannel_moved ..
    | restoring =>
      have idle := setChannel_moved i (fun c => { c.idle with latch := true }) s
      exact (ite_moved (idle.trans (setChannel_moved ..)) idle).trans (post_moved ..)
    | aborting => exact (setChannel_moved ..).trans (post_moved ..)

theorem stageFrame_moved (i : Nat) (s : State) : ChannelsMoved s (stageFrame i s) :=
  ite_moved (.refl s) (ite_moved ((setChannel_moved ..).trans (stageEnd_moved ..)) (setChannel_moved ..))

/-- The stage timers up to channel `n`. -/
def stagesTimed (n : Nat) (s : State) : State := eachIx stageFrame n s

theorem stagesTimed_succ (n : Nat) (s : State) : stagesTimed (n + 1) s = stageFrame n (stagesTimed n s) := eachIx_succ _ n s

theorem stagesTimed_moved (n : Nat) (s : State) : ChannelsMoved s (stagesTimed n s) :=
  eachIx_keeps (P := ChannelsMoved s) (fun i t h => h.trans (stageFrame_moved i t)) n (.refl s)

/-- The state of a frame event before the hold timers move. -/
def stagesDone (s : State) : State := stagesTimed 8 (showsTimed s)

theorem frameTimers_stages (s : State) : frameTimers s = holdsTimed (stagesDone s) := frameTimers_eq s

theorem playerAt_map (f : Player → Player) (hf : f .blank = .blank) (l : List Player) (i : Nat) :
    (l.map f).getD i .blank = f (l.getD i .blank) := by
  rw [List.getD_eq_getElem?_getD, List.getD_eq_getElem?_getD, List.getElem?_map]
  cases l[i]? with
  | none => exact hf.symm
  | some m => rfl

/-- What the frame event's timers leave alone, and what each of them does to its own records. -/
theorem frameTimers_parts (s : State) :
    frameTimers s
      = { s with
          pos := { s.pos with mowers := s.pos.mowers.map Mower.debounceFrame }
          water :=
            { s.water with
              shows := s.water.shows.map (Player.frame s), channels := (stagesDone s).water.channels }
          light := s.light.map LightGroup.holdFrame
          notices := (stagesDone s).notices } := by
  have moved : ChannelsMoved (showsTimed s) (stagesDone s) := stagesTimed_moved 8 _
  rw [frameTimers_stages]
  generalize stagesDone s = t at *
  rw [moved]
  rfl

theorem mowerAt_frameTimers (s : State) (i : Nat) : mowerAt (frameTimers s) i = (mowerAt s i).debounceFrame := by
  rw [frameTimers_parts]
  exact mowerAt_map Mower.debounceFrame rfl s.pos.mowers i

theorem groupAt_frameTimers (s : State) (i : Nat) : groupAt (frameTimers s) i = (groupAt s i).holdFrame := by
  rw [frameTimers_parts]
  exact groupAt_map LightGroup.holdFrame rfl s.light i

theorem playerAt_frameTimers (s : State) (i : Nat) : playerAt (frameTimers s) i = (playerAt s i).frame s := by
  rw [frameTimers_parts]
  exact playerAt_map (Player.frame s) rfl s.water.shows i

/-! ### The timers' own commands -/

theorem debounceExpiry_last {i : Nat} {s : State} (h : (mowerAt s i).debounce = 1) :
    debounceExpiry i s
      = { s with pos := { s.pos with mowers := s.pos.mowers.set i { mowerAt s i with debounce := 0 } } } := by
  rw [debounceExpiry, if_pos h, setMower_eq, Mower.debounceFrame, h]

theorem holdExpiry_last {i : Nat} {s : State} (h : (groupAt s i).hold = 1) :
    holdExpiry i s
      = settle { s with light := s.light.set i { groupAt s i with hold := 0, presence := .inactive } } := by
  have ends : (groupAt s i).holdFrame = { groupAt s i with hold := 0, presence := .inactive } := by
    rw [LightGroup.holdFrame, if_neg (by omega), if_pos h]
  rw [holdExpiry, if_pos h, setGroup_eq, ends]

theorem showExpiry_last {i : Nat} {s : State} (playing : (playerAt s i).state = .playing)
    (last : (playerAt s i).remaining ≤ 1) :
    showExpiry i s
      = settle { s with water := { s.water with shows := s.water.shows.set i ((playerAt s i).frame s) } } := by
  rw [showExpiry, if_pos ⟨playing, last⟩, setPlayer_eq]

theorem timer_still {c : Prop} [Decidable c] {s t : State} (h : s.line.state = .inBreak ∨ ¬ c) :
    (if s.line.state = .running then if c then t else s else s) = s := by
  rcases h with inBreak | off
  · exact if_neg (by rw [inBreak]; decide)
  · rw [if_neg off, ite_self]

/-- Settles O50: each timer's command at its last frame, and the frame event, which moves them all. -/
theorem timersRunOut : Obligations.TimersRunOut := by
  refine ⟨fun i s on => ⟨fun running last => ?_, fun off => ?_, fun running last => ?_, fun off => ?_, fun off => ?_,
    fun r running playing last cfg => ?_⟩, fun i u => ?_⟩
  · refine (whenOn_on (whenRunning (debounceExpiry i)) on).trans (congrArg Host.Outcome.next ?_)
    rw [whenRunning_running _ running, debounceExpiry_last last]
  · exact (whenOn_on (whenRunning (debounceExpiry i)) on).trans (congrArg Host.Outcome.next (timer_still off))
  · refine (whenOn_on (whenRunning (holdExpiry i)) on).trans (congrArg Host.Outcome.next ?_)
    rw [whenRunning_running _ running, holdExpiry_last last]
  · exact (whenOn_on (whenRunning (holdExpiry i)) on).trans (congrArg Host.Outcome.next (timer_still off))
  · refine (whenOn_on (whenRunning (showExpiry i)) on).trans (congrArg Host.Outcome.next (timer_still ?_))
    rcases off with inBreak | notPlaying | more
    · exact .inl inBreak
    · exact .inr fun h => notPlaying h.1
    · exact .inr fun h => by omega
  · obtain ⟨next, loops, stops⟩ := playerFrame_last (s := s) cfg playing last
    refine ⟨(playerAt s i).frame s, ⟨next, loops, stops⟩, ?_⟩
    refine (whenOn_on (whenRunning (showExpiry i)) on).trans (congrArg Host.Outcome.next ?_)
    rw [whenRunning_running _ running, showExpiry_last playing last]
  · dsimp only
    rw [mowerAt_frameTimers, groupAt_frameTimers, playerAt_frameTimers]
    refine ⟨rfl, rfl, playerFrame_notPlaying, fun r playing cfg => ⟨playerFrame_more cfg playing, fun last => ?_⟩, ?_⟩
    · obtain ⟨next, loops, stops⟩ := playerFrame_last (s := u) cfg playing last
      exact ⟨next, loops, stops⟩
    · rw [frameTimers_parts]
      exact ⟨rfl, rfl, rfl, rfl, rfl, rfl, rfl, rfl⟩

end Sys2Proof.Machine

namespace Sys2Proof.Machine

/-! ### The stage timers -/

/-- Channel `i` written whole. -/
def putChannel (i : Nat) (b : Channel) (s : State) : State :=
  { s with water := { s.water with channels := s.water.channels.set i b } }

/-- A running stage timer takes one frame. -/
def Channel.tick (a : Channel) : Channel := { a with timer := a.timer - 1 }

/-- The stage timer at 0. -/
def Channel.timerStopped (a : Channel) : Channel := { a with timer := 0 }

/-- The cycle whose stage timer is at its last frame, after it, but for the fault latch (R112 to R117). -/
def Channel.stageOver (r : ChannelRec) (a : Channel) : Channel :=
  match a.stage with
  | .idle | .requested => a.timerStopped
  | .stopping => { a with stage := .reversing, timer := 250 }
  | .reversing => { a with stage := .aborting, timer := 250, cause := 7 }
  | .washing => { a with stage := .rinsing, timer := r.rinseFrames }
  | .rinsing => { a with stage := .restoring, timer := 250 }
  | .restoring | .aborting => { a with stage := .idle, timer := 0 }

/-- The valve of a cycle that was not restored is latched, where there is a usable one (R115). -/
def latchValve (r : ChannelRec) (s : State) : State :=
  if (usableValve s r).isSome then setChannel r.valve (fun v => { v with latch := true }) s else s

theorem channelAt_setChannel_blank (i j : Nat) (f : Channel → Channel) (hf : f .blank = .blank) (s : State) :
    channelAt (setChannel i f s) j = if j = i then f (channelAt s j) else channelAt s j := by
  by_cases same : j = i
  · subst same
    rw [if_pos rfl]
    simp only [channelAt, setChannel, List.getD_eq_getElem?_getD, List.getElem?_modify]
    cases s.water.channels[j]? with
    | none => exact hf.symm
    | some c => simp
  · rw [if_neg same, channelAt_setChannel i j f s same]

theorem channelAt_putChannel {i : Nat} {s : State} {r : ChannelRec} (h : (channelAt s i).cfg = some r) (b : Channel)
    (j : Nat) : channelAt (putChannel i b s) j = if j = i then b else channelAt s j := by
  have put : putChannel i b s = setChannel i (fun _ => b) s := (setChannel_eq i (fun _ => b) s).symm
  rw [put]
  by_cases same : j = i
  · rw [same, if_pos rfl, channelAt_setChannel_self i _ s r h]
  · rw [if_neg same, channelAt_setChannel i j _ s same]

theorem putChannel_setChannel (i : Nat) (b : Channel) (f : Channel → Channel) (s : State) :
    putChannel i b (setChannel i f s) = putChannel i b s := by
  rw [setChannel_eq]
  exact congrArg (fun l => { s with water := { s.water with channels := l } }) (List.set_set ..)

theorem usableValve_congr {s t : State} (r : ChannelRec) (nodes : t.nodes = s.nodes)
    (cfg : (channelAt t r.valve).cfg = (channelAt s r.valve).cfg) : usableValve t r = usableValve s r := by
  unfold usableValve
  rw [cfg]
  simp only [nodeAt_congr nodes]

/-- A channel written with its own record leaves the usable valves as they were. -/
theorem usableValve_putChannel {i : Nat} {s : State} {r : ChannelRec} (cfg : (channelAt s i).cfg = some r) {b : Channel}
    (same : b.cfg = some r) (q : ChannelRec) : usableValve (putChannel i b s) q = usableValve s q := by
  refine usableValve_congr q rfl ?_
  rw [channelAt_putChannel cfg]
  by_cases own : q.valve = i
  · rw [if_pos own, own, same, cfg]
  · rw [if_neg own]

theorem usable_congr {s t : State} {r : ChannelRec} (h : usableValve t r = usableValve s r) (n : Nat) :
    UsableValve t r n ↔ UsableValve s r n := by
  have holds (u : State) : UsableValve u r n ↔ usableValve u r = some (r.valve, n) := by simp [usableValve_eq]
  rw [holds, holds, h]

theorem stageFrame_off {i : Nat} {s : State} (h : (channelAt s i).timer = 0) : stageFrame i s = s := if_pos h

/-- A stage timer that does not end a cycle's stage only counts. -/
theorem stageFrame_tick {i : Nat} {s : State} (on : (channelAt s i).timer ≠ 0)
    (h : (channelAt s i).timer ≠ 1 ∨ (channelAt s i).cfg = none) : stageFrame i s = setChannel i Channel.tick s := by
  refine (if_neg on).trans ?_
  by_cases last : (channelAt s i).timer = 1
  · have cfg : (channelAt (setChannel i Channel.tick s) i).cfg = none := by
      rw [channelAt_setChannel_blank i i _ rfl, if_pos rfl]
      exact h.resolve_left (fun other => other last)
    refine (if_pos last).trans ?_
    unfold stageEnd
    dsimp only
    rw [show (channelAt (setChannel i (fun c => { c with timer := c.timer - 1 }) s) i).cfg = none from cfg]
    rfl
  · exact if_neg last

theorem setChannel_putChannel {i : Nat} {s : State} {r : ChannelRec} (h : (channelAt s i).cfg = some r) (b : Channel)
    (f : Channel → Channel) : setChannel i f (putChannel i b s) = putChannel i (f b) s := by
  rw [setChannel_eq, channelAt_putChannel h, if_pos rfl]
  exact congrArg (fun l => { s with water := { s.water with channels := l } }) (List.set_set ..)

theorem stageEnd_restoring {i : Nat} {s : State} {r : ChannelRec} (cfg : (channelAt s i).cfg = some r)
    (stage : (channelAt s i).stage = .restoring) : stageEnd i s = cycleJammed i r s := by
  simp only [stageEnd, cfg, stage]

theorem stageEnd_aborting {i : Nat} {s : State} {r : ChannelRec} (cfg : (channelAt s i).cfg = some r)
    (stage : (channelAt s i).stage = .aborting) : stageEnd i s = cycleAborted i s := by
  simp only [stageEnd, cfg, stage]

section LastFrame
variable {i : Nat} {s : State} {r : ChannelRec} (cfg : (channelAt s i).cfg = some r) (last : (channelAt s i).timer = 1)

/-- The state with the stage timer of channel `i` stopped. -/
def timerOut (i : Nat) (s : State) : State := putChannel i (channelAt s i).timerStopped s

include cfg in
theorem channelAt_timerOut : channelAt (timerOut i s) i = (channelAt s i).timerStopped := by
  rw [timerOut, channelAt_putChannel cfg, if_pos rfl]

include last in
theorem stageFrame_last : stageFrame i s = stageEnd i (timerOut i s) := by
  have ticked : setChannel i Channel.tick s = timerOut i s := by
    rw [setChannel_eq, Channel.tick, last]
    rfl
  rw [← ticked, stageFrame]
  dsimp only
  rw [if_neg (by omega), if_pos last]
  rfl

include cfg last

/-- A stage that neither RESTORING nor ABORTING is gives way to the next one alone. -/
theorem stageFrame_next (restoring : (channelAt s i).stage ≠ .restoring) (aborting : (channelAt s i).stage ≠ .aborting) :
    stageFrame i s = putChannel i ((channelAt s i).stageOver r) s := by
  have cfg' : (channelAt (timerOut i s) i).cfg = some r := by
    rw [channelAt_timerOut cfg]
    exact cfg
  have stage' : (channelAt (timerOut i s) i).stage = (channelAt s i).stage := by
    rw [channelAt_timerOut cfg, Channel.timerStopped]
  rw [stageFrame_last last]
  unfold stageEnd Channel.stageOver
  dsimp only
  rw [cfg', stage']
  cases stage : (channelAt s i).stage with
  | idle | requested => rfl
  | stopping | reversing | washing | rinsing => exact setChannel_putChannel cfg _ _
  | restoring => exact absurd stage restoring
  | aborting => exact absurd stage aborting

/-- RESTORING times out (R115). -/
theorem stageFrame_restoring (restoring : (channelAt s i).stage = .restoring) :
    stageFrame i s
      = post .valveJammed (some r.valve) 2
          (latchValve r (putChannel i { channelAt s i with stage := .idle, timer := 0, latch := true } s)) := by
  have idle : setChannel i (fun c => { c.idle with latch := true }) (timerOut i s)
      = putChannel i { channelAt s i with stage := .idle, timer := 0, latch := true } s := setChannel_putChannel cfg _ _
  have out : (channelAt (timerOut i s) i).cfg = some r := by
    rw [channelAt_timerOut cfg]
    exact cfg
  have stage : (channelAt (timerOut i s) i).stage = .restoring := by
    rw [channelAt_timerOut cfg]
    exact restoring
  rw [stageFrame_last last, stageEnd_restoring out stage, cycleJammed, idle, latchValve,
    usableValve_putChannel (b := { channelAt s i with stage := .idle, timer := 0, latch := true }) cfg cfg, timerOut,
    usableValve_putChannel (b := (channelAt s i).timerStopped) cfg cfg]

/-- ABORTING times out (R117). -/
theorem stageFrame_aborting (aborting : (channelAt s i).stage = .aborting) :
    stageFrame i s
      = post .backwashAborted (some i) (channelAt s i).cause
          (putChannel i { channelAt s i with stage := .idle, timer := 0 } s) := by
  have idle : setChannel i Channel.idle (timerOut i s)
      = putChannel i { channelAt s i with stage := .idle, timer := 0 } s := setChannel_putChannel cfg _ _
  have out : (channelAt (timerOut i s) i).cfg = some r := by
    rw [channelAt_timerOut cfg]
    exact cfg
  have stage : (channelAt (timerOut i s) i).stage = .aborting := by
    rw [channelAt_timerOut cfg]
    exact aborting
  rw [stageFrame_last last, stageEnd_aborting out stage, cycleAborted, idle, channelAt_timerOut cfg,
    Channel.timerStopped]

end LastFrame

/-! ### The commands at a stage timer's last frame -/

theorem stageExpiry_now {st : Stage} {c : Nat} {s : State} (stage : (channelAt s c).stage = st)
    (last : (channelAt s c).timer = 1) : stageExpiry st c s = settle (stageFrame c s) := if_pos ⟨stage, last⟩

theorem exec_stageExpiry (st : Stage) (c : Nat) {s : State} (on : s.mode = .on) (running : s.line.state = .running)
    (stage : (channelAt s c).stage = st) (last : (channelAt s c).timer = 1) :
    whenOn (whenRunning (stageExpiry st c)) s = .next (settle (stageFrame c s)) := by
  rw [whenOn_on _ on, whenRunning_running _ running, stageExpiry_now stage last]

theorem exec_stageExpiry_still (st : Stage) (c : Nat) {s : State} (on : s.mode = .on)
    (off : s.line.state = .inBreak ∨ (channelAt s c).timer ≠ 1 ∨ (channelAt s c).stage ≠ st) :
    whenOn (whenRunning (stageExpiry st c)) s = .next s := by
  rw [whenOn_on _ on]
  refine congrArg Host.Outcome.next (timer_still ?_)
  rcases off with inBreak | count | other
  · exact .inl inBreak
  · exact .inr fun h => count h.2
  · exact .inr fun h => other h.1

theorem latchValve_usable {r : ChannelRec} {s : State} (h : ∃ n, UsableValve s r n) :
    latchValve r s = setChannel r.valve (fun v => { v with latch := true }) s := by
  refine if_pos (Option.isSome_iff_ne_none.2 fun none => ?_)
  obtain ⟨n, usable⟩ := h
  exact (usableValve_none s r).1 none n usable

theorem latchValve_none {r : ChannelRec} {s : State} (h : ∀ n, ¬ UsableValve s r n) : latchValve r s = s :=
  if_neg (by rw [(usableValve_none s r).2 h]; decide)

theorem latchValve_put_usable {c : Nat} {s : State} {r : ChannelRec} (cfg : (channelAt s c).cfg = some r) {b : Channel}
    (same : b.cfg = some r) (h : ∃ n, UsableValve s r n) :
    latchValve r (putChannel c b s) = setChannel r.valve (fun v => { v with latch := true }) (putChannel c b s) := by
  obtain ⟨n, usable⟩ := h
  exact latchValve_usable ⟨n, (usable_congr (usableValve_putChannel cfg same r) n).2 usable⟩

theorem latchValve_put_none {c : Nat} {s : State} {r : ChannelRec} (cfg : (channelAt s c).cfg = some r) {b : Channel}
    (same : b.cfg = some r) (h : ∀ n, ¬ UsableValve s r n) : latchValve r (putChannel c b s) = putChannel c b s :=
  latchValve_none fun n usable => h n ((usable_congr (usableValve_putChannel cfg same r) n).1 usable)

/-! ### The stage timers in a frame event -/

/-- One frame of a cycle's stage timer, but for the fault latch. -/
def Channel.stageNext (a : Channel) : Channel :=
  match a.cfg, a.timer with
  | some r, 1 => a.stageOver r
  | _, _ => a.tick

theorem stageNext_last {a : Channel} {r : ChannelRec} (cfg : a.cfg = some r) (last : a.timer = 1) :
    a.stageNext = a.stageOver r := by
  simp only [Channel.stageNext, cfg, last]

theorem stageNext_tick {a : Channel} (h : a.timer ≠ 1 ∨ a.cfg = none) : a.stageNext = a.tick := by
  unfold Channel.stageNext
  split
  next r cfg last =>
    rcases h with count | none
    · exact absurd last count
    · rw [none] at cfg
      cases cfg
  next => rfl

theorem tick_off {a : Channel} (h : a.timer = 0) : a.tick = a := by
  unfold Channel.tick
  rw [h, Nat.zero_sub, ← h]

theorem stageOver_keeps (r : ChannelRec) (a : Channel) : (a.stageOver r).cfg = a.cfg ∧ (a.stageOver r).latch = a.latch := by
  unfold Channel.stageOver
  cases a.stage <;> exact ⟨rfl, rfl⟩

theorem stageNext_keeps (a : Channel) : a.stageNext.cfg = a.cfg ∧ a.stageNext.latch = a.latch := by
  unfold Channel.stageNext
  split
  exacts [stageOver_keeps _ a, ⟨rfl, rfl⟩]

/-- The next stage does not ask for the fault latch. -/
theorem stageNext_latch (a : Channel) (l : Bool) :
    ({ a with latch := l } : Channel).stageNext = { a.stageNext with latch := l } := by
  obtain ⟨cfg, state, latch, requested, output, reqLevel, reqDraw, filt, clogged, stage, timer, cause, count⟩ := a
  cases cfg with
  | none => rfl
  | some r =>
    by_cases last : timer = 1
    · rw [stageNext_last rfl last, stageNext_last rfl last]
      cases stage <;> rfl
    · rw [stageNext_tick (.inl last), stageNext_tick (.inl last)]
      rfl

/-- The restoring of cycle `d` times out at `s`, which latches channel `c` (R115). -/
def Jams (s : State) (d c : Nat) : Prop :=
  ∃ r, (channelAt s d).cfg = some r ∧ (channelAt s d).timer = 1 ∧ (channelAt s d).stage = .restoring
    ∧ (d = c ∨ (r.valve = c ∧ ∃ n, UsableValve s r n))

/-- Channel `j` at `t` is `b`, latched if it was latched at `s` or `jams`. -/
structure StageMoved (s t : State) (j : Nat) (b : Channel) (jams : Prop) : Prop where
  channel : channelAt t j = { b with latch := (channelAt t j).latch }
  latch : (channelAt t j).latch = true ↔ (channelAt s j).latch = true ∨ jams

/-- Channel `j` after the frame of the stage timer of channel `i`, but for the latch. -/
def stageAfter (i : Nat) (s : State) (j : Nat) : Channel :=
  if j = i then (channelAt s j).stageNext else channelAt s j

theorem stageAfter_latch (i : Nat) (s : State) (j : Nat) : (stageAfter i s j).latch = (channelAt s j).latch := by
  unfold stageAfter
  split
  exacts [(stageNext_keeps _).2, rfl]

theorem StageMoved.quiet {s t : State} {i j : Nat} (h : channelAt t j = stageAfter i s j) (quiet : ¬ Jams s i j) :
    StageMoved s t j (stageAfter i s j) (Jams s i j) where
  channel := by rw [h]
  latch := by rw [h, stageAfter_latch, or_iff_left quiet]

theorem putChannel_stageAfter {i : Nat} {s : State} {r : ChannelRec} (cfg : (channelAt s i).cfg = some r)
    (last : (channelAt s i).timer = 1) (j : Nat) :
    channelAt (putChannel i ((channelAt s i).stageOver r) s) j = stageAfter i s j := by
  rw [channelAt_putChannel cfg, stageAfter]
  by_cases same : j = i
  · rw [if_pos same, if_pos same, same, stageNext_last cfg last]
  · rw [if_neg same, if_neg same]

open Classical in
theorem channelAt_latchValve (r : ChannelRec) (s : State) (j : Nat) :
    channelAt (latchValve r s) j
      = { channelAt s j with
          latch := (channelAt s j).latch || decide (r.valve = j ∧ ∃ n, UsableValve s r n) } := by
  by_cases usable : ∃ n, UsableValve s r n
  · rw [latchValve_usable usable]
    by_cases valve : r.valve = j
    · obtain ⟨n, v, -, cfg, -⟩ := id usable
      subst valve
      rw [channelAt_setChannel_self r.valve _ s v cfg]
      simp [usable]
    · rw [channelAt_setChannel r.valve j _ s (Ne.symm valve)]
      simp [valve]
  · rw [latchValve_none (not_exists.1 usable)]
    simp [usable]

theorem restoring_moved {i : Nat} {s : State} {r : ChannelRec} (cfg : (channelAt s i).cfg = some r)
    (last : (channelAt s i).timer = 1) (stage : (channelAt s i).stage = .restoring) (j : Nat) :
    StageMoved s (stageFrame i s) j (stageAfter i s j) (Jams s i j) := by
  classical
  let b : Channel := { channelAt s i with stage := .idle, timer := 0, latch := true }
  have ended : (channelAt s i).stageOver r = { channelAt s i with stage := .idle, timer := 0 } := by
    rw [Channel.stageOver, stage]
  have jams : Jams s i j ↔ i = j ∨ (r.valve = j ∧ ∃ n, UsableValve s r n) := by
    constructor
    · rintro ⟨q, other, -, -, h⟩
      rw [cfg] at other
      cases other
      exact h
    · exact fun h => ⟨r, cfg, last, stage, h⟩
  have usable : (∃ n, UsableValve (putChannel i b s) r n) ↔ ∃ n, UsableValve s r n :=
    exists_congr (usable_congr (usableValve_putChannel (b := b) cfg cfg r))
  have channel : channelAt (stageFrame i s) j
      = { channelAt (putChannel i b s) j with
          latch := (channelAt (putChannel i b s) j).latch || decide (r.valve = j ∧ ∃ n, UsableValve s r n) } := by
    rw [stageFrame_restoring cfg last stage, ← usable]
    exact channelAt_latchValve r (putChannel i b s) j
  rw [channelAt_putChannel cfg] at channel
  by_cases same : j = i
  · subst same
    rw [if_pos rfl] at channel
    constructor
    · rw [channel, stageAfter, if_pos rfl, stageNext_last cfg last, ended]
    · simp [channel, jams, b]
  · rw [if_neg same] at channel
    constructor
    · rw [channel, stageAfter, if_neg same]
    · simp [channel, jams, Ne.symm same]

/-- One frame of the stage timer of channel `i` moves its cycle, and latches what it jams. -/
theorem stageFrame_stageMoved (i j : Nat) (s : State) :
    StageMoved s (stageFrame i s) j (stageAfter i s j) (Jams s i j) := by
  by_cases ends : (channelAt s i).timer = 1 ∧ ∃ r, (channelAt s i).cfg = some r
  · obtain ⟨last, r, cfg⟩ := ends
    by_cases restoring : (channelAt s i).stage = .restoring
    · exact restoring_moved cfg last restoring j
    · refine .quiet ?_ (fun ⟨q, _, _, stage, _⟩ => restoring stage)
      rw [← putChannel_stageAfter cfg last]
      by_cases aborting : (channelAt s i).stage = .aborting
      · rw [stageFrame_aborting cfg last aborting, Channel.stageOver, aborting]
        rfl
      · rw [stageFrame_next cfg last restoring aborting]
  · have counts : (channelAt s i).timer ≠ 1 ∨ (channelAt s i).cfg = none := by
      by_contra h
      rw [not_or, not_not] at h
      exact ends ⟨h.1, Option.ne_none_iff_exists'.1 h.2⟩
    refine .quiet ?_ (fun ⟨q, cfg, last, _⟩ => ends ⟨last, q, cfg⟩)
    have next : channelAt (stageFrame i s) j = if j = i then (channelAt s j).tick else channelAt s j := by
      by_cases off : (channelAt s i).timer = 0
      · rw [stageFrame_off off]
        by_cases same : j = i
        · rw [if_pos same, same, tick_off off]
        · rw [if_neg same]
      · rw [stageFrame_tick off counts, channelAt_setChannel_blank i j _ rfl]
    rw [next, stageAfter]
    by_cases same : j = i
    · rw [if_pos same, if_pos same, same, stageNext_tick counts]
    · rw [if_neg same, if_neg same]

end Sys2Proof.Machine

namespace Sys2Proof.Machine

/-- Channel `j` after the stage timers of the channels before `n`, but for the latch. -/
def stagesAfter (n : Nat) (s : State) (j : Nat) : Channel :=
  if j < n then (channelAt s j).stageNext else channelAt s j

theorem jams_congr {s t : State} {i : Nat} (l : Bool) (own : channelAt t i = { channelAt s i with latch := l })
    (nodes : t.nodes = s.nodes) (cfgs : ∀ j, (channelAt t j).cfg = (channelAt s j).cfg) (j : Nat) :
    Jams t i j ↔ Jams s i j := by
  unfold Jams
  rw [own]
  have usable (r : ChannelRec) : (∃ n, UsableValve t r n) ↔ ∃ n, UsableValve s r n :=
    exists_congr (usable_congr (usableValve_congr r nodes (cfgs r.valve)))
  simp only [usable]

/-- The cycles after the stage timers of the channels before `n`. -/
theorem stagesTimed_stageMoved (n : Nat) (s : State) (j : Nat) :
    StageMoved s (stagesTimed n s) j (stagesAfter n s j) (∃ d, d < n ∧ Jams s d j) := by
  induction n generalizing j with
  | zero =>
    constructor
    · rw [stagesAfter, if_neg (Nat.not_lt_zero j)]
      rfl
    · rw [or_iff_left (by rintro ⟨d, lt, -⟩; omega)]
      rfl
  | succ n ih =>
    have own : channelAt (stagesTimed n s) n = { channelAt s n with latch := (channelAt (stagesTimed n s) n).latch } := by
      have channel := (ih n).channel
      rwa [stagesAfter, if_neg (lt_irrefl n)] at channel
    have cfgs (k : Nat) : (channelAt (stagesTimed n s) k).cfg = (channelAt s k).cfg := by
      rw [(ih k).channel, stagesAfter]
      split
      exacts [(stageNext_keeps _).1, rfl]
    have nodes : (stagesTimed n s).nodes = s.nodes := by rw [stagesTimed_moved n s]
    obtain ⟨channel, latch⟩ := stageFrame_stageMoved n j (stagesTimed n s)
    rw [← stagesTimed_succ] at channel latch
    constructor
    · rw [channel, stageAfter, stagesAfter]
      by_cases same : j = n
      · subst same
        rw [if_pos rfl, if_pos (Nat.lt_succ_self j), own, stageNext_latch]
      · have before := (ih j).channel
        rw [if_neg same, before, stagesAfter]
        by_cases lt : j < n
        · rw [if_pos lt, if_pos (by omega)]
        · rw [if_neg lt, if_neg (by omega)]
    · rw [latch, (ih j).latch, jams_congr _ own nodes cfgs, Nat.exists_lt_succ_right, or_assoc]

/-! ### The notices of the stage timers -/

/-- The notice that the end of a stage posts, if it posts one (R115, R117). -/
def stageNotice (s : State) (l : Notices) (c : Nat) : Notices :=
  match (channelAt s c).cfg, (channelAt s c).timer, (channelAt s c).stage with
  | some r, 1, .restoring => l.join (noticeNow s .valveJammed (some r.valve) 2)
  | some _, 1, .aborting => l.join (noticeNow s .backwashAborted (some c) (channelAt s c).cause)
  | _, _, _ => l

theorem stageNotice_none {s : State} {c : Nat}
    (h : ∀ r, (channelAt s c).cfg = some r → (channelAt s c).timer = 1 →
      (channelAt s c).stage ≠ .restoring ∧ (channelAt s c).stage ≠ .aborting) (l : Notices) : stageNotice s l c = l := by
  unfold stageNotice
  split
  next r cfg last stage => exact absurd stage (h r cfg last).1
  next r cfg last stage => exact absurd stage (h r cfg last).2
  next => rfl

theorem latchValve_notices (r : ChannelRec) (s : State) :
    (latchValve r s).notices = s.notices ∧ (latchValve r s).line = s.line ∧ (latchValve r s).mgmt = s.mgmt := by
  unfold latchValve
  split
  exacts [⟨rfl, rfl, rfl⟩, ⟨rfl, rfl, rfl⟩]

theorem posted_notices {s t : State} (notices : t.notices = s.notices) (line : t.line = s.line) (mgmt : t.mgmt = s.mgmt)
    (k : NoticeKind) (x : Option Nat) (d : Nat) : (post k x d t).notices = s.notices.join (noticeNow s k x d) := by
  rw [post, notices, line, minuteStamp, mgmt]
  rfl

theorem stageFrame_notices (i : Nat) (s : State) : (stageFrame i s).notices = stageNotice s s.notices i := by
  by_cases ends : (channelAt s i).timer = 1 ∧ ∃ r, (channelAt s i).cfg = some r
  · obtain ⟨last, r, cfg⟩ := ends
    by_cases restoring : (channelAt s i).stage = .restoring
    · obtain ⟨notices, line, mgmt⟩ := latchValve_notices r
        (putChannel i { channelAt s i with stage := .idle, timer := 0, latch := true } s)
      rw [stageFrame_restoring cfg last restoring, posted_notices (s := s) notices line mgmt]
      simp only [stageNotice, cfg, last, restoring]
    · by_cases aborting : (channelAt s i).stage = .aborting
      · rw [stageFrame_aborting cfg last aborting, posted_notices (s := s) (t := putChannel i _ s) rfl rfl rfl]
        simp only [stageNotice, cfg, last, aborting]
      · rw [stageFrame_next cfg last restoring aborting, stageNotice_none (fun _ _ _ => ⟨restoring, aborting⟩)]
        rfl
  · rw [stageNotice_none (fun r cfg last => absurd ⟨last, r, cfg⟩ ends)]
    by_cases off : (channelAt s i).timer = 0
    · rw [stageFrame_off off]
    · have counts : (channelAt s i).timer ≠ 1 ∨ (channelAt s i).cfg = none := by
        by_contra h
        rw [not_or, not_not] at h
        exact ends ⟨h.1, Option.ne_none_iff_exists'.1 h.2⟩
      rw [stageFrame_tick off counts]
      rfl

theorem stageNotice_congr {s t : State} {i : Nat} (l : Bool) (own : channelAt t i = { channelAt s i with latch := l })
    (line : t.line = s.line) (mgmt : t.mgmt = s.mgmt) (ns : Notices) : stageNotice t ns i = stageNotice s ns i := by
  unfold stageNotice noticeNow
  rw [own, line, mgmt]

theorem stagesTimed_notices (n : Nat) (s : State) :
    (stagesTimed n s).notices = (List.range n).foldl (stageNotice s) s.notices := by
  induction n with
  | zero => rfl
  | succ n ih =>
    have own := (stagesTimed_stageMoved n s n).channel
    rw [stagesAfter, if_neg (lt_irrefl n)] at own
    have line : (stagesTimed n s).line = s.line := by rw [stagesTimed_moved n s]
    have mgmt : (stagesTimed n s).mgmt = s.mgmt := by rw [stagesTimed_moved n s]
    rw [stagesTimed_succ, stageFrame_notices, stageNotice_congr _ own line mgmt, ih, List.range_succ, List.foldl_append]
    rfl

/-! ### The stage timers of a frame event, and their commands -/

theorem holdsTimed_rest (s : State) :
    (holdsTimed s).water = s.water ∧ (holdsTimed s).notices = s.notices := ⟨rfl, rfl⟩

theorem channelAt_congr {s t : State} (h : t.water = s.water) (c : Nat) : channelAt t c = channelAt s c := by
  rw [channelAt, h]
  rfl

theorem showsTimed_rest (s : State) :
    (∀ c, channelAt (showsTimed s) c = channelAt s c) ∧ (showsTimed s).nodes = s.nodes
      ∧ (showsTimed s).line = s.line ∧ (showsTimed s).mgmt = s.mgmt ∧ (showsTimed s).notices = s.notices :=
  ⟨fun _ => rfl, rfl, rfl, rfl, rfl⟩

theorem frameTimers_stageMoved (s : State) {c : Nat} (hc : c < 8) :
    StageMoved s (frameTimers s) c (channelAt s c).stageNext (∃ d, d < 8 ∧ Jams s d c) := by
  obtain ⟨channels, nodes, -⟩ := showsTimed_rest s
  have same : channelAt (frameTimers s) c = channelAt (stagesTimed 8 (showsTimed s)) c := by
    rw [frameTimers_stages, channelAt_congr (holdsTimed_rest _).1, stagesDone]
  have jams (d : Nat) : Jams (showsTimed s) d c ↔ Jams s d c :=
    jams_congr (channelAt s d).latch (channels d) nodes (fun j => congrArg Channel.cfg (channels j)) c
  obtain ⟨channel, latch⟩ := stagesTimed_stageMoved 8 (showsTimed s) c
  rw [stagesAfter, if_pos hc, channels] at channel
  rw [channels] at latch
  simp only [jams] at latch
  exact ⟨by rw [same]; exact channel, by rw [same]; exact latch⟩

theorem frameTimers_notices (s : State) :
    (frameTimers s).notices = (List.range 8).foldl (stageNotice s) s.notices := by
  obtain ⟨channels, -, line, mgmt, notices⟩ := showsTimed_rest s
  have step : stageNotice (showsTimed s) = stageNotice s :=
    funext fun l => funext fun c => stageNotice_congr (channelAt s c).latch (channels c) line mgmt l
  rw [frameTimers_stages, (holdsTimed_rest _).2, stagesDone, stagesTimed_notices, step, notices]

/-- The command that ends a stage which posts nothing. -/
theorem exec_nextStage {st : Stage} {c : Nat} {s : State} {r : ChannelRec} (on : s.mode = .on)
    (running : s.line.state = .running) (cfg : (channelAt s c).cfg = some r) (last : (channelAt s c).timer = 1)
    (stage : (channelAt s c).stage = st) (h : st ≠ .restoring ∧ st ≠ .aborting) {b : Channel}
    (ended : (channelAt s c).stageOver r = b) :
    whenOn (whenRunning (stageExpiry st c)) s
      = .next (settle { s with water := { s.water with channels := s.water.channels.set c b } }) := by
  subst stage
  rw [exec_stageExpiry _ c on running rfl last, stageFrame_next cfg last h.1 h.2, ended]
  rfl

/-- Settles O51: each stage's end by its own command, and the frame event by the same end of every cycle. -/
theorem stageTimersEndTheirStage : Obligations.StageTimersEndTheirStage := by
  refine ⟨fun c s on => ⟨fun r running cfg last => ⟨?_, ?_, ?_, ?_, ?_, ?_⟩, ?_, ?_, ?_, ?_, ?_, ?_⟩,
    fun u => ⟨fun c hc => ?_, ?_⟩⟩
  · exact fun stage => exec_nextStage on running cfg last stage (by decide) (by rw [Channel.stageOver, stage])
  · exact fun stage => exec_nextStage on running cfg last stage (by decide) (by rw [Channel.stageOver, stage])
  · exact fun stage => exec_nextStage on running cfg last stage (by decide) (by rw [Channel.stageOver, stage])
  · exact fun stage => exec_nextStage on running cfg last stage (by decide) (by rw [Channel.stageOver, stage])
  · intro stage
    have run := exec_stageExpiry .restoring c on running stage last
    rw [stageFrame_restoring cfg last stage] at run
    refine ⟨fun usable => run.trans ?_, fun none => run.trans ?_⟩
    · rw [latchValve_put_usable cfg (b := { channelAt s c with stage := .idle, timer := 0, latch := true }) cfg usable]
      rfl
    · rw [latchValve_put_none cfg (b := { channelAt s c with stage := .idle, timer := 0, latch := true }) cfg none]
      rfl
  · intro stage
    have run := exec_stageExpiry .aborting c on running stage last
    rw [stageFrame_aborting cfg last stage] at run
    exact run
  · exact exec_stageExpiry_still .stopping c on
  · exact exec_stageExpiry_still .reversing c on
  · exact exec_stageExpiry_still .washing c on
  · exact exec_stageExpiry_still .rinsing c on
  · exact exec_stageExpiry_still .restoring c on
  · exact exec_stageExpiry_still .aborting c on
  · obtain ⟨channel, latch⟩ := frameTimers_stageMoved u hc
    have becomes {q : Channel} (h : (channelAt u c).stageNext = q) :
        channelAt (frameTimers u) c = { q with latch := (channelAt (frameTimers u) c).latch } := h ▸ channel
    refine ⟨fun off => becomes ?_, fun more => becomes ?_, fun r cfg last => ?_, ?_⟩
    · rw [stageNext_tick (.inl (by omega)), tick_off off]
    · rw [stageNext_tick (.inl (by omega)), Channel.tick]
    · have next := stageNext_last cfg last
      refine ⟨fun stage => becomes ?_, fun stage => becomes ?_, fun stage => becomes ?_, fun stage => becomes ?_,
        fun stage => becomes ?_, fun stage => becomes ?_⟩
      all_goals rw [next, Channel.stageOver, stage]
    · rw [latch]
      refine or_congr_right ⟨?_, ?_⟩
      · rintro ⟨d, hd, r, jam⟩
        exact ⟨d, r, hd, jam⟩
      · rintro ⟨d, r, hd, jam⟩
        exact ⟨d, hd, r, jam⟩
  · exact frameTimers_notices u

end Sys2Proof.Machine

namespace Sys2Proof.Machine

/-! ### The minute of day -/

/-- The clock set to a minute. -/
def clockAt (minute : Nat) (s : State) : State :=
  { s with mgmt := { s.mgmt with clock := { minute := minute, valid := true, count := 0 } } }

/-- A change of the minute of day before the blocks form. -/
def minuteJudged (s : State) : State :=
  { formDark s with
    light := (formDark s).light.map (LightGroup.judgeMinute s.mgmt.clock.minute)
    water := { s.water with shows := s.water.shows.map (Player.schedule (formDark s) s.mgmt.clock.minute) } }

theorem minuteChanged_eq (s : State) : minuteChanged s = settle (minuteJudged s) := rfl

/-- The group as darkness at the minute finds it (R126, R127). -/
def LightGroup.darkened (dark : Bool) (g : LightGroup) : LightGroup :=
  { g with dark := dark, evening := if dark && !g.dark then .early else g.evening }

theorem darkened_evening {dark : Bool} (h : dark = true) (g : LightGroup) :
    (g.darkened dark).evening = if g.dark = true then g.evening else .early := by
  cases before : g.dark <;> simp [LightGroup.darkened, h, before]

theorem judgeMinute_keeps (minute : Nat) (g : LightGroup) :
    (g.judgeMinute minute).cfg = g.cfg ∧ (g.judgeMinute minute).dark = g.dark := by
  unfold LightGroup.judgeMinute
  split
  · exact ⟨rfl, rfl⟩
  · split
    · exact ⟨rfl, rfl⟩
    · split <;> exact ⟨rfl, rfl⟩

theorem groupAt_minuteJudged {s : State} {i : Nat} (hi : i < s.light.length) :
    groupAt (minuteJudged s) i
      = ((groupAt s i).darkened (darkNow s ((groupAt s i).mode == .off))).judgeMinute s.mgmt.clock.minute := by
  have formed : (minuteJudged s).light
      = (s.light.map (fun g => g.darkened (darkNow s (g.mode == .off)))).map
          (LightGroup.judgeMinute s.mgmt.clock.minute) := rfl
  rw [groupAt, groupAt, formed, List.getD_eq_getElem?_getD, List.getD_eq_getElem?_getD, List.getElem?_map, List.getElem?_map,
    List.getElem?_eq_getElem hi]
  rfl

theorem playerAt_minuteJudged (s : State) (i : Nat) :
    playerAt (minuteJudged s) i = (playerAt s i).schedule (formDark s) s.mgmt.clock.minute :=
  playerAt_map (Player.schedule (formDark s) s.mgmt.clock.minute) rfl s.water.shows i

/-- Where the conditions are those of the named nodes, the rounds leave the shows. -/
theorem settle_shows {s : State} (h : ConditionLaw s) : (settle s).water.shows = s.water.shows := by
  obtain ⟨rain, dry, -⟩ := h
  have still : Player.weather false false = id := funext Player.weather_none
  rw [settle_eq, rounds_shows, rain, dry, Bool.and_not_self, Bool.and_not_self, still, List.map_id]

theorem presenceMove_dark (b : Bool) (n : Nat) (g : LightGroup) : (presenceMove b n g).dark = g.dark := by
  unfold presenceMove
  split
  next => rfl
  next => rfl
  next => rfl
  next => split <;> rfl
  next => rfl
  next => rfl

theorem moved_dark (a b c d : Bool) (g : LightGroup) : (g.moved a b c d).dark = d := by
  unfold LightGroup.moved
  dsimp only
  cases (g.handed a b).cfg with
  | none => rfl
  | some r => exact presenceMove_dark _ _ _

theorem dark_of_input {g h : LightGroup} (e : g.input = h.input) : g.dark = h.dark := by
  simp only [LightGroup.input, Prod.mk.injEq] at e
  obtain ⟨-, -, -, -, dark⟩ := e
  exact dark

/-- The darkness of a group after the rounds is that of the state they begin in. -/
theorem settle_dark (s : State) {i : Nat} (hi : i < s.light.length) :
    (groupAt (settle s) i).dark = darkNow s ((groupAt s i).mode == .off) := by
  have input := (rounds_input 40 s i hi).trans (round_input s i hi)
  rw [← settle_eq] at input
  rw [dark_of_input input, moved_dark]

theorem darkNow_window {s : State} (valid : s.mgmt.clock.valid = true)
    (none : liveCode s s.mgmt.site.weather .weather = none) (off : Bool) :
    darkNow s off = inPeriod s.mgmt.clock.minute s.mgmt.site.dusk s.mgmt.site.dawn := by
  rw [darkNow, none]
  exact if_pos valid

/-- The phase a minute gives a dark group, and leaves a light one (R127). -/
theorem judgeMinute_evening (minute : Nat) (g : LightGroup) :
    (g.dark = false → (g.judgeMinute minute).evening = g.evening)
      ∧ (g.dark = true → g.offMin = minute → (g.judgeMinute minute).evening = .done)
      ∧ (g.dark = true → g.offMin ≠ minute → g.lateMin = minute → g.evening = .early →
        (g.judgeMinute minute).evening = .late)
      ∧ (g.dark = true → g.offMin ≠ minute → (g.lateMin ≠ minute ∨ g.evening ≠ .early) →
        (g.judgeMinute minute).evening = g.evening) := by
  unfold LightGroup.judgeMinute
  refine ⟨fun light => ?_, fun dark off => ?_, fun dark off late early => ?_, fun dark off other => ?_⟩
  · simp [light]
  · simp [dark, off]
  · simp [dark, Ne.symm off, late, early]
  · have still : ¬ (minute = g.lateMin ∧ g.evening = .early) := fun h => other.elim (fun o => o h.1.symm) (fun o => o h.2)
    simp only [dark, Bool.not_true, Bool.false_eq_true, if_false, if_neg (Ne.symm off), if_neg still]

/-- The darkness and the phase of a group after a change of the minute of day. -/
theorem groupAt_minuteChanged {s : State} {i : Nat} (hi : i < s.light.length) :
    (groupAt (minuteChanged s) i).dark = darkNow s ((groupAt s i).mode == .off)
      ∧ (groupAt (minuteChanged s) i).evening
        = (((groupAt s i).darkened (darkNow s ((groupAt s i).mode == .off))).judgeMinute s.mgmt.clock.minute).evening := by
  have length : (minuteJudged s).light.length = s.light.length := by
    simp only [minuteJudged, formDark, List.length_map]
  have hi' : i < (minuteJudged s).light.length := by omega
  have group := groupAt_minuteJudged hi
  obtain ⟨cfg, dark⟩ := judgeMinute_keeps s.mgmt.clock.minute
    ((groupAt s i).darkened (darkNow s ((groupAt s i).mode == .off)))
  have mode : (groupAt (minuteJudged s) i).mode = (groupAt s i).mode := by
    rw [LightGroup.mode, group, cfg]
    rfl
  have now : darkNow (minuteJudged s) ((groupAt s i).mode == .off) = darkNow s ((groupAt s i).mode == .off) :=
    darkNow_congr rfl rfl _
  have after : (groupAt (settle (minuteJudged s)) i).dark = (groupAt (minuteJudged s) i).dark := by
    rw [settle_dark _ hi', mode, now, group, dark]
    rfl
  have before : (groupAt (minuteJudged s) i).dark = darkNow s ((groupAt s i).mode == .off) := by
    rw [group, dark]
    rfl
  obtain ⟨-, -, -, stays⟩ := settle_groupsFollow (minuteJudged s) i hi'
  rw [minuteChanged_eq, after, before, ← group]
  refine ⟨rfl, stays ?_⟩
  rw [after]
  cases (groupAt (minuteJudged s) i).dark with
  | true => exact .inl rfl
  | false => exact .inr rfl

theorem playerAt_minuteChanged {s : State} (h : ConditionLaw s) (i : Nat) :
    playerAt (minuteChanged s) i = (playerAt s i).schedule (formDark s) s.mgmt.clock.minute := by
  obtain ⟨rain, dry, pond⟩ := h
  have condition : ConditionLaw (minuteJudged s) := ⟨rain, dry, pond⟩
  rw [minuteChanged_eq, ← playerAt_minuteJudged, playerAt, playerAt, settle_shows condition]

theorem schedule_eq {t : State} {minute : Nat} {p : Player} {r : ShowRec} (cfg : p.cfg = some r) :
    p.schedule t minute
      = if r.stopMin = some minute ∧ p.state ≠ .idle then p.stop
        else if r.startMin = some minute ∧ p.state = .idle then p.start t r
        else p := by
  rw [Player.schedule, cfg]
  simp only [Bool.and_eq_true, beq_iff_eq, bne_iff_ne]

theorem clockAt_condition {s : State} (h : ConditionLaw s) (minute : Nat) : ConditionLaw (clockAt minute s) := h

theorem minuteChanged_settled (s : State) : SettledFrom (minuteJudged s) (minuteChanged s) := settle_settled _

theorem playerAt_minuteTaken {s : State} (h : ConditionLaw s) (minute i : Nat) {r : ShowRec}
    (cfg : (playerAt s i).cfg = some r) :
    playerAt (minuteChanged (clockAt minute s)) i
      = if r.stopMin = some minute ∧ (playerAt s i).state ≠ .idle then (playerAt s i).stop
        else if r.startMin = some minute ∧ (playerAt s i).state = .idle then (playerAt s i).start s r
        else playerAt s i :=
  (playerAt_minuteChanged (clockAt_condition h minute) i).trans (schedule_eq (p := playerAt s i) cfg)

theorem groupAt_minuteTaken {s : State} (minute : Nat) {i : Nat} (hi : i < s.light.length) :
    ∃ dark, dark = darkNow (clockAt minute s) ((groupAt s i).mode == .off)
      ∧ (groupAt (minuteChanged (clockAt minute s)) i).dark = dark
      ∧ (groupAt (minuteChanged (clockAt minute s)) i).evening
        = (((groupAt s i).darkened dark).judgeMinute minute).evening :=
  ⟨_, rfl, groupAt_minuteChanged (s := clockAt minute s) hi⟩

theorem liveCode_none {s : State} {ix : Option Nat} {k : NodeKind}
    (h : ∀ n x, ix = some n → (nodeAt s n).ident = some x → x.kind = k → (nodeAt s n).state ≠ .active) :
    liveCode s ix k = none := by
  cases code : liveCode s ix k with
  | none => rfl
  | some c =>
    obtain ⟨n, ⟨i, x, named, rfl, ident, kind, active⟩, -⟩ := (liveCode_iff ..).1 code
    exact absurd active (h i x named ident kind)

/-- A change of the minute of day in the blocks that read it (R105, R126, R127). -/
theorem minuteChanged_taken {s : State} (h : ConditionLaw s) (minute : Nat) :
    MinuteTaken minute s (minuteChanged (clockAt minute s)) := by
  have settled := minuteChanged_settled (clockAt minute s)
  refine ⟨congrArg Mgmt.clock settled.mgmt, fun i r hi cfg => ?_, fun i hi => ?_, settled.line, settled.nodes, settled.pos,
    settled.store, (congrArg Mgmt.site settled.mgmt).trans rfl, settled.zones, settled.dockAll⟩
  · dsimp only
    rw [playerAt_minuteTaken h minute i cfg]
    refine ⟨fun stop runs => ?_, fun idle start => ?_, fun noStop noStart => ?_⟩
    · rw [if_pos ⟨stop, runs⟩, Player.stop]
    · rw [if_neg (fun x => x.2 idle), if_pos ⟨start, idle⟩]
      rfl
    · rw [if_neg (fun x => noStop.elim (fun o => o x.1) x.2), if_neg (fun x => noStart.elim (fun o => o x.2) (fun o => o x.1))]
  · obtain ⟨dark, now, darkness, evening⟩ := groupAt_minuteTaken minute hi
    dsimp only
    rw [darkness, evening]
    obtain ⟨light, off, late, still⟩ := judgeMinute_evening minute ((groupAt s i).darkened dark)
    refine ⟨fun noNode => ?_, fun d => ?_, fun d o => off d o, fun d o l w => ?_, fun d o w => ?_⟩
    · rw [now]
      exact darkNow_window (s := clockAt minute s) rfl (liveCode_none (s := clockAt minute s) noNode) _
    · rw [light d]
      simp [LightGroup.darkened, d]
    · exact late d o l ((darkened_evening d _).trans w)
    · rw [← darkened_evening d] at w ⊢
      exact still d o w

theorem minuteChanged_proc (minute : Nat) (s : State) : (minuteChanged (clockAt minute s)).mgmt.proc = s.mgmt.proc :=
  (congrArg Mgmt.proc (minuteChanged_settled (clockAt minute s)).mgmt).trans rfl

/-- An answer takes nothing of the minute back. -/
theorem MinuteTaken.answer {minute : Nat} {s t : State} (h : MinuteTaken minute s t) (o : Origin) (k : Byte) (st : Status)
    (body : List Byte) : MinuteTaken minute s (answer o k st body t) :=
  ⟨h.clock, h.shows, h.groups, h.line, h.nodes, h.pos, h.store, h.site, h.zones, h.dockAll⟩

/-! ### SET CLOCK and the frame events of the clock -/

theorem setClock_eq (o : Origin) (minute : Nat) (s : State) :
    process ⟨o, some 6#8, .setClock minute⟩ s
      = answer o 6#8 (if 1439 < minute then .doneClamped else .done) []
          (minuteChanged (clockAt (if 1439 < minute then 1439 else minute) s)) := by
  have limited : min minute 1439 = if 1439 < minute then 1439 else minute := by
    by_cases late : 1439 < minute
    · rw [if_pos late, Nat.min_eq_right late.le]
    · rw [if_neg late, Nat.min_eq_left (Nat.le_of_not_lt late)]
  have status : doneIf (decide (1439 < minute)) = if 1439 < minute then .doneClamped else .done := by
    simp only [doneIf, decide_eq_true_eq]
  have run : process ⟨o, some 6#8, .setClock minute⟩ s
      = reply ⟨o, some 6#8, .setClock minute⟩ (doneIf (decide (1439 < minute)))
          (minuteChanged (clockAt (min minute 1439) s)) := rfl
  rw [run, reply_eq_answer, limited, status]

theorem advanceMinute_eq {s : State} (valid : s.mgmt.clock.valid = true) :
    advanceMinute s = minuteChanged (clockAt ((s.mgmt.clock.minute + 1) % 1440) s) := by
  unfold advanceMinute clockAt
  simp only [valid]

theorem minuteExpiry_last {s : State} (valid : s.mgmt.clock.valid = true) (last : 2999 ≤ s.mgmt.clock.count) :
    minuteExpiry s = minuteChanged (clockAt ((s.mgmt.clock.minute + 1) % 1440) s) :=
  (if_pos ⟨valid, last⟩).trans (advanceMinute_eq valid)

theorem clockFrame_invalid {s : State} (h : s.mgmt.clock.valid = false) : clockFrame s = s :=
  if_pos (by rw [h]; rfl)

theorem clockFrame_counts {s : State} (valid : s.mgmt.clock.valid = true) (more : s.mgmt.clock.count < 2999) :
    clockFrame s = { s with mgmt := { s.mgmt with clock := { s.mgmt.clock with count := s.mgmt.clock.count + 1 } } } := by
  rw [clockFrame, if_neg (by rw [valid]; decide), if_neg (by omega)]

theorem clockFrame_advances {s : State} (valid : s.mgmt.clock.valid = true) (last : 2999 ≤ s.mgmt.clock.count) :
    clockFrame s = minuteChanged (clockAt ((s.mgmt.clock.minute + 1) % 1440) s) := by
  rw [clockFrame, if_neg (by rw [valid]; decide), if_pos last, advanceMinute_eq valid]

/-- Settles O36: every way the minute of day is set is the one change of it, with the blocks that follow. -/
theorem clockSetsAndAdvancesTheMinute : Obligations.ClockSetsAndAdvancesTheMinute := by
  refine ⟨fun o minute s ready law => ?_, fun s on => ⟨fun running valid last law => ?_, fun off => ?_⟩, fun u =>
    ⟨clockFrame_invalid, clockFrame_counts, fun valid last law => ?_⟩⟩
  · have run := (exec_ready (c := .setClock o minute) rfl ready).trans
      (congrArg Host.Outcome.next (setClock_eq o minute s))
    exact ⟨_, run, rfl, (minuteChanged_taken law _).answer o _ _ _⟩
  · refine ⟨minuteChanged (clockAt ((s.mgmt.clock.minute + 1) % 1440) s), ?_, minuteChanged_taken law _,
      minuteChanged_proc _ s⟩
    refine (whenOn_on (whenRunning minuteExpiry) on).trans (congrArg Host.Outcome.next ?_)
    rw [whenRunning_running _ running, minuteExpiry_last valid last]
  · refine (whenOn_on (whenRunning minuteExpiry) on).trans (congrArg Host.Outcome.next (timer_still ?_))
    rcases off with inBreak | invalid | early
    · exact .inl inBreak
    · exact .inr fun h => by rw [invalid] at h; cases h.1
    · exact .inr fun h => by omega
  · rw [clockFrame_advances valid last]
    exact ⟨minuteChanged_taken law _, minuteChanged_proc _ u⟩

end Sys2Proof.Machine

namespace Sys2Proof.Machine

/-! ### WRITE_JOINERS -/

/-- A write of one entry at an idle processor, by what the rule of its table answers (R155). -/
theorem exec_written {c : Instr} {o : Origin} {e : EntryWrite} (hc : asRequest c = some ⟨o, some 4#8, .write [e]⟩)
    {s t : State} {st : Status} (ready : Ready s) (written : writeEntry e s = (t, st)) :
    exec c s = .next (writeAnswer o st t) := by
  rw [exec_write hc ready, written]

theorem writeJoiner_outOfRange {i : Nat} (h : 3 < i) (b : Bool) (s : State) : writeJoiner i b s = (s, .outOfRange) :=
  if_pos h

theorem writeJoiner_value {i : Nat} (h : i ≤ 3) (s : State) : writeJoiner i false s = (s, .notPermitted) := by
  rw [writeJoiner, if_neg (Nat.not_lt.2 h)]
  rfl

theorem writeJoiner_empty {i : Nat} (h : i ≤ 3) (s : State) :
    writeJoiner i true s
      = ({ s with nodes := { s.nodes with joiners := s.nodes.joiners.take i ++ s.nodes.joiners.drop (i + 1) } }, .done) := by
  rw [writeJoiner, if_neg (Nat.not_lt.2 h), List.eraseIdx_eq_take_drop_succ]
  rfl

/-- Settles O26: the position is judged first, then the value; the empty value erases the entry at the position. -/
theorem writeJoinersTakesAnEntryOut : Obligations.WriteJoinersTakesAnEntryOut := by
  intro o i s ready
  have run : ∀ {b : Bool} {t : State} {st : Status}, writeJoiner i b s = (t, st) →
      exec (.writeJoiners o i b) s = .next (writeAnswer o st t) :=
    fun {b _ _} => exec_written (e := .joiners i b) rfl ready
  exact ⟨fun beyond b => run (writeJoiner_outOfRange beyond b s), fun hi => run (writeJoiner_value hi s),
    fun hi => run (writeJoiner_empty hi s)⟩

/-! ### WRITE_NODES -/

theorem clampAddress_eq (a : Nat) : clampTo 1 62 a = if a = 0 then 1 else if 63 ≤ a then 62 else a := by
  rw [clampTo_eq 1 62 a (by decide)]
  exact if_congr Nat.lt_one_iff rfl rfl

theorem identTaken_iff (i : Nat) (x : NodeIdent) (s : State) :
    identTaken i x s = true
      ↔ ∃ j y, j < 48 ∧ j ≠ i ∧ (nodeAt s j).ident = some y ∧ (y.serial = x.serial ∨ y.address = x.address) := by
  simp only [identTaken, List.any_eq_true, List.mem_range, Bool.and_eq_true, bne_iff_ne, Option.any_eq_true,
    Bool.or_eq_true, beq_iff_eq]
  constructor
  · rintro ⟨j, hj, other, y, hy, same⟩
    exact ⟨j, y, hj, other, hy, same⟩
  · rintro ⟨j, y, hj, other, hy, same⟩
    exact ⟨j, hj, other, y, hy, same⟩

/-- A record that is replaced by a value of its own: what the report of the change leaves of the Node Table (R20, R21). -/
theorem changeNode_replaced (i : Nat) (n : Node) (s : State) :
    (changeNode i (fun _ => n) s).nodes = { s.nodes with recs := s.nodes.recs.set i n } := by
  have replaced : s.nodes.recs.modify i (fun _ => n) = s.nodes.recs.set i n :=
    modify_eq_set_getD (fun _ => n) s.nodes.recs i .blank
  rw [(changeNode_report i _ s).nodes, ← replaced]
  rfl

theorem writeNode_outOfRange {i : Nat} (h : 47 < i) (w : Option NodeWrite) (s : State) :
    writeNode i w s = (s, .outOfRange) := if_pos h

theorem writeNode_none {i : Nat} (h : i ≤ 47) (s : State) :
    writeNode i none s
      = if (nodeAt s i).served then (s, .wrongState) else (changeNode i (fun _ => Node.provision none) s, .done) :=
  if_neg (Nat.not_lt.2 h)

theorem writeNode_malformed {i : Nat} (h : i ≤ 47) {w : NodeWrite} (hk : NodeKind.ofNumber w.kind = none) (s : State) :
    writeNode i (some w) s = (s, .malformed) := by
  rw [writeNode, if_neg (Nat.not_lt.2 h)]
  simp only [hk]

/-- The identity a WRITE_NODES of a known kind gives its record, the address clamped (R20). -/
def writtenIdent (w : NodeWrite) (kind : NodeKind) : NodeIdent :=
  { address := if w.address = 0 then 1 else if 63 ≤ w.address then 62 else w.address, serial := w.serial, kind := kind }

/-- The tests of a WRITE_NODES of a known kind in their order, and the record it leaves (R20). -/
theorem writeNode_some {i : Nat} (h : i ≤ 47) {w : NodeWrite} {kind : NodeKind}
    (hk : NodeKind.ofNumber w.kind = some kind) {x : NodeIdent} (hx : writtenIdent w kind = x) (s : State) :
    writeNode i (some w) s
      = if (nodeAt s i).served = true ∧ (nodeAt s i).ident ≠ some x then (s, .wrongState)
        else if identTaken i x s = true then (s, .conflict)
        else
          (if (nodeAt s i).ident = some x then dropJoiner x.serial s
            else changeNode i (fun _ => Node.provision (some x)) (dropJoiner x.serial s),
            if x.address = w.address then .done else .doneClamped) := by
  have clamped : NodeIdent.mk (clampTo 1 62 w.address) w.serial kind = x := by
    rw [← hx, writtenIdent, clampAddress_eq]
  have status : ∀ a b : Nat, doneIf (a != b) = if a = b then .done else .doneClamped := fun a b => by
    by_cases e : a = b <;> simp [doneIf, e]
  rw [writeNode, if_neg (Nat.not_lt.2 h), ← clamped]
  simp only [hk, status, Bool.and_eq_true, Bool.not_eq_true', beq_eq_false_iff_ne, beq_iff_eq, ne_eq]

@[simp] theorem writeAnswer_nodes (o : Origin) (st : Status) (s : State) : (writeAnswer o st s).nodes = s.nodes := rfl

@[simp] theorem writeAnswer_line (o : Origin) (st : Status) (s : State) : (writeAnswer o st s).line = s.line := rfl

/-- A WRITE_NODES that replaces its record, as the requester and the Node Table see it (R20, R21). -/
theorem exec_replaced {o : Origin} {i : Nat} {w : Option NodeWrite} {s t : State} {st : Status} (n : Node)
    (ready : Ready s) (written : writeNode i w s = (changeNode i (fun _ => n) t, st)) :
    ∃ u, exec (.writeNodes o i w) s = .next u ∧ Sends u o 4#8 st [BitVec.ofNat 8 st.number]
      ∧ u.nodes = { t.nodes with recs := t.nodes.recs.set i n } ∧ u.line = t.line := by
  refine ⟨_, exec_written (e := .nodes i w) rfl ready written, rfl, ?_, ?_⟩
  · rw [writeAnswer_nodes, changeNode_replaced]
  · rw [writeAnswer_line, (changeNode_report i _ t).line, setNode_line]

/-- Settles O25: the tests in the order of R20; a record that keeps its identity loses only its joiner, any other is
replaced by a provisioned one. -/
theorem writeNodesFollowsItsRule : Obligations.WriteNodesFollowsItsRule := by
  intro o i s ready _
  have run : ∀ {w : Option NodeWrite} {t : State} {st : Status}, writeNode i w s = (t, st) →
      exec (.writeNodes o i w) s = .next (writeAnswer o st t) :=
    fun {w _ _} => exec_written (e := .nodes i w) rfl ready
  refine ⟨fun beyond w => run (writeNode_outOfRange beyond w s), fun hi served => run ?_,
    fun hi notActive notStale => exec_replaced (Node.provision none) ready ?_,
    fun w hi => ⟨fun unknown => run (writeNode_malformed hi unknown s), ?_⟩⟩
  · rw [writeNode_none hi, if_pos ((served_iff _).2 served)]
  · have off : ¬ (nodeAt s i).served = true := fun h => ((served_iff _).1 h).elim notActive notStale
    rw [writeNode_none hi, if_neg off]
  · intro kind known address x status served taken list
    have tests := writeNode_some hi known (x := x) rfl s
    have servedIff : (nodeAt s i).served = true ↔ served := served_iff _
    have takenIff : identTaken i x s = true ↔ taken := identTaken_iff i x s
    refine ⟨fun on other => run ?_, fun allowed clash => run ?_, fun same free => run ?_,
      fun off other free => exec_replaced (t := dropJoiner x.serial s) (Node.provision (some x)) ready ?_⟩
    · rw [tests, if_pos ⟨servedIff.2 on, other⟩]
    · rw [tests, if_neg (fun ⟨on, other⟩ => allowed.elim (fun off => off (servedIff.1 on)) other),
        if_pos (takenIff.2 clash)]
    · rw [tests, if_neg (fun ⟨_, other⟩ => other same), if_neg (fun clash => free (takenIff.1 clash)), if_pos same]
      rfl
    · rw [tests, if_neg (fun ⟨on, _⟩ => off (servedIff.1 on)), if_neg (fun clash => free (takenIff.1 clash)),
        if_neg other]

end Sys2Proof.Machine

namespace Sys2Proof.Machine

/-! ### The change list -/

theorem changeBytes_eq (c : Change) :
    changeBytes c
      = (match c.old with
          | none => [0xFF#8]
          | some v => beBytes 1 v)
        ++ beBytes 1 c.new ++ beBytes 2 c.frame := by
  rcases c with ⟨_ | v, new, frame⟩ <;> rfl

theorem tagged_end (index : Nat) (bs : List Byte) : tagged true index bs = BitVec.ofNat 8 (128 + index) :: bs := by
  rw [Nat.add_comm]
  rfl

theorem tagged_more (index : Nat) (bs : List Byte) : tagged false index bs = BitVec.ofNat 8 index :: bs := rfl

/-- A read of NODE_CHANGES, whichever command asks for it (R29, R156, R157). -/
theorem exec_readNodeChanges {o : Origin} {command : Instr} {k : Byte} {record count : Nat} {s : State} (ready : Ready s)
    (asks : (command = .readNodeChanges o record count ∧ k = 2#8)
      ∨ (command = .readEntries o 0 4 record count ∧ k = 2#8)
      ∨ (command = .continueRead o count ∧ k = 3#8 ∧ s.mgmt.readPtr = some ⟨0, 4, record⟩)) :
    ∃ b, exec command s = .next (readEntries ⟨o, some k, b⟩ 0 4 record count s) := by
  rcases asks with ⟨rfl, rfl⟩ | ⟨rfl, rfl⟩ | ⟨rfl, rfl, pointer⟩
  · exact ⟨.readEntries 0 4 record count, exec_ready (c := .readNodeChanges o record count) rfl ready⟩
  · exact ⟨.readEntries 0 4 record count, exec_ready (c := .readEntries o 0 4 record count) rfl ready⟩
  · have continued : ∀ r, continueRead r count s = readEntries r 0 4 record count s := fun r => by
      simp only [continueRead, pointer]
    exact ⟨.continueRead count,
      (exec_ready (c := .continueRead o count) rfl ready).trans (congrArg Host.Outcome.next (continued _))⟩

theorem readEntries_nodeChanges (r : Request) (record count : Nat) (s : State) :
    readEntries r 0 4 record count s
      = if 48 < record then reply r .outOfRange s
        else readTable r 0 4 record (max count 1) .nodeChanges (doneIf (count == 0)) s := rfl

theorem readTable_nodeChanges_end (r : Request) (count : Nat) (st : Status) (s : State) :
    readTable r 0 4 48 count .nodeChanges st s
      = respond r st ([0x00#8, 0x04#8] ++ [BitVec.ofNat 8 (128 + 48)])
          { s with mgmt := { s.mgmt with readPtr := some ⟨0, 4, 48⟩ } } := rfl

theorem readTable_nodeChanges {record : Nat} (h : record < 48) (r : Request) (count : Nat) (st : Status) (s : State) :
    readTable r 0 4 record count .nodeChanges st s
      = respond r st ([0x00#8, 0x04#8] ++ taggedChanges record (nodeAt s record).changes)
          { setNode record (fun n => { n with changes := [] }) s with
            mgmt := { s.mgmt with readPtr := some ⟨0, 4, record + 1⟩ } } := by
  have inside : record ≠ Table.nodeChanges.size := Nat.ne_of_lt h
  rw [readTable]
  simp only [if_neg inside, if_true]
  rfl

/-- Settles O22: the list by its length, the read by the place of its first index. -/
theorem readNodeChangesEmptiesTheList : Obligations.ReadNodeChangesEmptiesTheList := by
  refine ⟨fun c => ⟨rfl, fun a => rfl, fun a b => rfl⟩, ?_⟩
  intro o command k record count s ready asks status tag last bytes body
  obtain ⟨b, run⟩ := exec_readNodeChanges ready asks
  have read : exec command s = .next (if 48 < record then answer o k .outOfRange [] s
      else readTable ⟨o, some k, b⟩ 0 4 record (max count 1) .nodeChanges status s) := by
    have answered : doneIf (count == 0) = status := by simp only [doneIf, beq_iff_eq, status]
    rw [run, readEntries_nodeChanges, reply_eq_answer, answered]
  refine ⟨fun inside short => ?_, fun atEnd => ?_, fun beyond => ?_⟩
  · have sent : taggedChanges record (nodeAt s record).changes = body := by
      have whole : ∀ c, changeBytes c = bytes c := changeBytes_eq
      simp only [body]
      generalize (nodeAt s record).changes = list at short
      rcases list with _ | ⟨c, _ | ⟨d, _ | ⟨e, more⟩⟩⟩
      · rfl
      · simp only [taggedChanges, tagged_end, whole, last]
      · simp only [taggedChanges, tagged_end, tagged_more, whole, last, tag, List.cons_append]
      · simp only [List.length_cons] at short
        omega
    rw [read, if_neg (by omega), readTable_nodeChanges inside, respond_eq_answer, sent]
  · subst atEnd
    rw [read, if_neg (by omega), readTable_nodeChanges_end, respond_eq_answer]
    rfl
  · rw [read, if_pos beyond]

end Sys2Proof.Machine

namespace Sys2Proof.Machine

/-! ### What settling posts -/

theorem StartsFollow.notices {s t : State} (h : StartsFollow s t) : t.notices = s.notices := by
  obtain ⟨same, -⟩ := h
  rw [same]

/-- A settled handling only adds to the notices: whatever its rounds post joins after what stands (R163). -/
theorem rounds_notices (n : Nat) (s : State) : ∃ more, (rounds false n s).notices = s.notices.joinAll more := by
  classical
  have once : ∀ u : State, ∃ more, (round false u).notices = u.notices.joinAll more := fun u => by
    obtain ⟨detail, -, posted⟩ := round_notices u
    exact ⟨_, posted⟩
  induction n generalizing s with
  | zero => exact once s
  | succ n ih =>
    rw [rounds_succ]
    split
    · exact once s
    · obtain ⟨first, posted⟩ := once s
      obtain ⟨later, followed⟩ := ih (nextRound s)
      have tested : (nextRound s).notices = (round false s).notices := (formStarts_follow _).notices
      refine ⟨first ++ later, ?_⟩
      rw [followed, tested, posted]
      exact (List.foldl_append ..).symm

/-! ### A JOIN message -/

/-- The state in which a JOIN of one fragment reaches the Node Table: the fragment is counted, the join context emptied. -/
def joinTaken (s : State) : State :=
  { s with
    line := { s.line with fragCount := inc16 s.line.fragCount }
    mgmt :=
      { s.mgmt with
        joinCtx := none
        discarded := incBy (if s.mgmt.joinCtx.isSome then 1 else 0) s.mgmt.discarded } }

theorem route_unclaimed {h : Handed} {s : State}
    (sending : ∀ f frags, s.mgmt.proc = .forwarding f frags → f.target ≠ h.address)
    (waiting : ∀ f n, s.mgmt.proc = .waiting f n → f.target ≠ h.address) : route h s = routeBySender h s := by
  unfold route
  cases proc : s.mgmt.proc with
  | idle | sending => rfl
  | forwarding f frags => exact if_neg (sending f frags proc)
  | waiting f n => exact if_neg (waiting f n proc)

/-- A message of one fragment completes in any context (R150). -/
theorem assemble_single (openState : Bool) {h : Handed} (first : h.frag.index = 0) (last : h.frag.last = true)
    (short : h.frag.length ≤ 12) (ctx : Option Assembly) :
    assemble openState h ctx
      = { ctx := none, counted := if ctx.isSome then 1 else 0, message := some (h.frag.payload, true) } := by
  simp only [assemble, if_neg (Nat.not_lt.2 short), first, if_true, closeAssembly, last, BEq.rfl]

theorem toJoin_single {h : Handed} (first : h.frag.index = 0) (last : h.frag.last = true) (short : h.frag.length ≤ 12)
    {v : Byte} (payload : h.frag.payload = [0x20#8, v]) (s : State) :
    toJoin h s
      = joinNode h.serial v.toNat
          { s with
            mgmt :=
              { s.mgmt with
                joinCtx := none
                discarded := incBy (if s.mgmt.joinCtx.isSome then 1 else 0) s.mgmt.discarded } } := by
  simp only [toJoin, assemble_single _ first last short, payload]
  rfl

/-- A JOIN of one fragment from address 63 is taken by the Node Table (R22, R149, R150). -/
theorem exec_join {s : State} {slot : Nat} {bids : List Bid} {w : Won} {f : UpFragment} {v : Byte} (on : s.mode = .on)
    (running : s.line.state = .running) (won : contend bids = some w) (address : w.address = 63)
    (passes : readFragment w.address (w.half.map Sampled.value) = some f) (first : f.index = 0) (last : f.last = true)
    (length : f.length = 2) (payload : f.payload = [0x20#8, v])
    (sending : ∀ g frags, s.mgmt.proc = .forwarding g frags → g.target ≠ 63)
    (waiting : ∀ g n, s.mgmt.proc = .waiting g n → g.target ≠ 63) :
    exec (.managementSlotEnd slot bids) s = .next (joinNode w.serial v.toNat (joinTaken s)) := by
  let h : Handed := { address := w.address, serial := w.serial, frag := f }
  let u : State := { s with line := { s.line with fragCount := inc16 s.line.fragCount } }
  have short : f.length ≤ 12 := by omega
  have elsewhere : ∀ g : Forwarding, g.target ≠ 63 → g.target ≠ h.address := fun g other same => other (same.trans address)
  refine (whenOn_on (managementSlot bids) on).trans (congrArg Host.Outcome.next ?_)
  rw [managementSlot_running running won, passes]
  have unclaimed : route h u = routeBySender h u :=
    route_unclaimed (fun g frags proc => elsewhere g (sending g frags proc))
      (fun g n proc => elsewhere g (waiting g n proc))
  exact unclaimed.trans ((if_pos address).trans (toJoin_single (h := h) first last short payload u))

/-! ### The record a JOIN finds -/

theorem findSerial_first {serial : Serial} {s : State} {i : Nat} {x : NodeIdent} (inside : i < s.nodes.recs.length)
    (ident : (nodeAt s i).ident = some x) (same : x.serial = serial)
    (before : ∀ j y, j < i → (nodeAt s j).ident = some y → y.serial ≠ serial) : findSerial serial s = some i := by
  have entry : ∀ j, (hj : j < s.nodes.recs.length) → s.nodes.recs[j] = nodeAt s j := fun j hj =>
    (List.getD_eq_getElem _ _ hj).symm
  rw [findSerial, List.findIdx?_eq_some_iff_getElem]
  refine ⟨inside, ?_, fun j hj => ?_⟩
  · rw [entry i inside, ident]
    simp [same]
  · rw [entry j (hj.trans inside)]
    cases found : (nodeAt s j).ident with
    | none => simp
    | some y => simpa using before j y hj found

theorem findSerial_none {serial : Serial} {s : State}
    (unheld : ∀ n ∈ s.nodes.recs, ∀ y, n.ident = some y → y.serial ≠ serial) : findSerial serial s = none := by
  rw [findSerial, List.findIdx?_eq_none_iff]
  intro n hn
  cases found : n.ident with
  | none => rfl
  | some y => simpa using unheld n hn y found

theorem ofNumber_number (k : NodeKind) : NodeKind.ofNumber k.number = some k := by cases k <;> rfl

theorem number_lt (k : NodeKind) : k.number < 10 := by cases k <;> decide

theorem ofNumber_beyond {n : Nat} (h : 10 ≤ n) : NodeKind.ofNumber n = none := by
  obtain ⟨m, rfl⟩ := Nat.exists_eq_add_of_le' h
  rfl

/-! ### What a JOIN does -/

theorem joinNode_noKind {kind : Nat} (h : NodeKind.ofNumber kind = none) (serial : Serial) (s : State) :
    joinNode serial kind s = refuseJoin serial none kind s := by
  simp only [joinNode, h]

theorem joinNode_unknown {kind : Nat} {k : NodeKind} (hk : NodeKind.ofNumber kind = some k) {serial : Serial} {s : State}
    (found : findSerial serial s = none) : joinNode serial kind s = unknownJoin serial kind s := by
  simp only [joinNode, hk, found]

section Found

variable {kind : Nat} {k : NodeKind} {serial : Serial} {s : State} {i : Nat} {x : NodeIdent}
  (hk : NodeKind.ofNumber kind = some k) (found : findSerial serial s = some i) (ident : (nodeAt s i).ident = some x)
include hk found ident

theorem joinNode_otherKind (other : x.kind ≠ k) : joinNode serial kind s = refuseJoin serial (some i) kind s := by
  simp only [joinNode, hk, found, ident, if_pos other]

theorem joinNode_again (same : x.kind = k) (served : (nodeAt s i).state = .active ∨ (nodeAt s i).state = .stale)
    (pending : (nodeAt s i).answerPending = true) :
    joinNode serial kind s = giveAnswer { serial := serial, address := some x.address } s := by
  rcases served with state | state <;> simp [joinNode, hk, found, ident, same, state, pending]

theorem joinNode_joins (same : x.kind = k)
    (fresh : ¬ (((nodeAt s i).state = .active ∨ (nodeAt s i).state = .stale) ∧ (nodeAt s i).answerPending = true)) :
    joinNode serial kind s
      = joinRecord i x (decide ((nodeAt s i).state = .active ∨ (nodeAt s i).state = .stale)) s := by
  cases state : (nodeAt s i).state with
  | empty | provisioned | dropped => simp [joinNode, hk, found, ident, same, state]
  | active | stale =>
    have answered : (nodeAt s i).answerPending = false := by simpa [state] using fresh
    simp [joinNode, hk, found, ident, same, state, answered]

end Found

/-! ### A JOIN that no record holds -/

theorem unknownJoin_rest (serial : Serial) (kind : Nat) (s : State) :
    (unknownJoin serial kind s).nodes.recs = s.nodes.recs ∧ (unknownJoin serial kind s).pos = s.pos
      ∧ (unknownJoin serial kind s).mgmt.answers = s.mgmt.answers := by
  unfold unknownJoin
  dsimp only
  split
  · exact ⟨rfl, rfl, rfl⟩
  · split <;> exact ⟨rfl, rfl, rfl⟩

theorem listed_iff (list : List Joiner) (serial : Serial) :
    list.any (fun j => j.serial == serial) = true ↔ ∃ j ∈ list, j.serial = serial := by
  simp only [List.any_eq_true, beq_iff_eq]

theorem unknownJoin_listed {serial : Serial} {s : State} (listed : ∃ j ∈ s.nodes.joiners, j.serial = serial) (kind : Nat) :
    unknownJoin serial kind s
      = { s with
          nodes :=
            { s.nodes with
              joiners :=
                s.nodes.joiners.map
                  (fun j => if j.serial = serial then { j with kind := kind, latest := s.line.frame } else j) } } :=
  if_pos ((listed_iff _ _).2 listed)

theorem unknownJoin_new {serial : Serial} {s : State} (unlisted : ¬ ∃ j ∈ s.nodes.joiners, j.serial = serial)
    (room : s.nodes.joiners.length < 4) (kind : Nat) :
    unknownJoin serial kind s
      = post .unknownJoiner (some s.nodes.joiners.length) (serial.toNat % 65536)
          { s with
            nodes :=
              { s.nodes with
                joiners :=
                  s.nodes.joiners ++ [{ serial := serial, kind := kind, first := s.line.frame, latest := s.line.frame }] } } :=
  (if_neg (fun h => unlisted ((listed_iff _ _).1 h))).trans (if_pos room)

theorem unknownJoin_full {serial : Serial} {s : State} (unlisted : ¬ ∃ j ∈ s.nodes.joiners, j.serial = serial)
    (full : 4 ≤ s.nodes.joiners.length) (kind : Nat) :
    unknownJoin serial kind s = { s with nodes := { s.nodes with overflow := inc16 s.nodes.overflow } } :=
  (if_neg (fun h => unlisted ((listed_iff _ _).1 h))).trans (if_neg (Nat.not_lt.2 full))

/-! ### A record that joins -/

theorem join_eq (n : Node) (p : Prop) [Decidable p] :
    n.join (decide p)
      = { n with
          state := .active, answerPending := true, missed := 0, cand := none, code := none
          rejoin := if p then inc16 n.rejoin else n.rejoin } := by
  simp only [Node.join, decide_eq_true_eq]

/-- The state in which a record that joins is changed: its answer is given and NODE_JOINED posted (R22). -/
def joinPosted (i : Nat) (x : NodeIdent) (rejoin : Bool) (s : State) : State :=
  post .nodeJoined (some i) ((nodeAt s i).join rejoin).rejoin (giveAnswer { serial := x.serial, address := some x.address } s)

/-- The state between a JOIN that makes a record ACTIVE and the forming of the blocks. -/
def joining (i : Nat) (x : NodeIdent) (rejoin : Bool) (s : State) : State :=
  reportToMowers i (nodeAt s i) ((nodeAt s i).join rejoin) (setNode i (Node.join rejoin) (joinPosted i x rejoin s))

theorem joinRecord_settled (i : Nat) (x : NodeIdent) (rejoin : Bool) (s : State) :
    SettledFrom (joining i x rejoin s) (joinRecord i x rejoin s) := settle_settled _

theorem joinRecord_nodes (i : Nat) (x : NodeIdent) (rejoin : Bool) (s : State) :
    (joinRecord i x rejoin s).nodes = (setNode i (Node.join rejoin) s).nodes := (joinRecord_settled i x rejoin s).nodes

theorem joinRecord_mgmt (i : Nat) (x : NodeIdent) (rejoin : Bool) (s : State) :
    (joinRecord i x rejoin s).mgmt = (giveAnswer { serial := x.serial, address := some x.address } s).mgmt :=
  (joinRecord_settled i x rejoin s).mgmt

theorem joinRecord_rest (i : Nat) (x : NodeIdent) (rejoin : Bool) (s : State) :
    let t := joinRecord i x rejoin s
    t.pos.loops = s.pos.loops ∧ t.nodes.joiners = s.nodes.joiners ∧ t.mgmt.queue = s.mgmt.queue
      ∧ t.mgmt.proc = s.mgmt.proc := by
  dsimp only
  rw [(joinRecord_settled i x rejoin s).pos, joinRecord_nodes, joinRecord_mgmt]
  exact ⟨rfl, rfl, rfl, rfl⟩

theorem nodeAt_joinRecord {i : Nat} {s : State} (inside : i < s.nodes.recs.length) (x : NodeIdent) (rejoin : Bool) :
    nodeAt (joinRecord i x rejoin s) i = (nodeAt s i).join rejoin := by
  rw [nodeAt_congr (joinRecord_nodes i x rejoin s), nodeAt_setNode, if_pos ⟨rfl, inside⟩]

theorem nodeAt_joinRecord_other {i j : Nat} (other : j ≠ i) (x : NodeIdent) (rejoin : Bool) (s : State) :
    nodeAt (joinRecord i x rejoin s) j = nodeAt s j := by
  rw [nodeAt_congr (joinRecord_nodes i x rejoin s), nodeAt_setNode, if_neg (fun same => other same.1.symm)]

/-- NODE_JOINED comes first, then what the blocks post on the report (R22, R163; log 9). -/
theorem joinRecord_notices (i : Nat) (x : NodeIdent) (rejoin : Bool) (s : State) :
    ∃ more,
      (joinRecord i x rejoin s).notices
        = (s.notices.join (noticeNow s .nodeJoined (some i) ((nodeAt s i).join rejoin).rejoin)).joinAll more :=
  rounds_notices 40 (joining i x rejoin s)

/-- The mowers a JOIN finds again: those bound to a record of kind MOWER that it brings into ACTIVE (R52). -/
theorem mowerAt_joining {i : Nat} {s : State} {x : NodeIdent} (ident : (nodeAt s i).ident = some x) (rejoin : Bool)
    (j : Nat) :
    mowerAt (joining i x rejoin s) j
      = if x.kind = .mower ∧ (nodeAt s i).state ≠ .active ∧ (mowerAt s j).node = some i then (mowerAt s j).nodeFound
        else mowerAt s j := by
  have same : mowerAt (setNode i (Node.join rejoin) (joinPosted i x rejoin s)) j = mowerAt s j := rfl
  have kind : ((nodeAt s i).join rejoin).kindIs .mower = true ↔ x.kind = .mower := by
    simp [Node.kindIs, Node.join, ident]
  by_cases active : (nodeAt s i).state = .active
  · rw [if_neg (fun found => found.2.1 active), joining, report_staysActive active rfl, same]
  · rw [joining, mowerAt_report_active active rfl, same]
    refine if_congr ?_ rfl rfl
    rw [kind]
    exact ⟨fun ⟨bound, mower⟩ => ⟨mower, active, bound⟩, fun ⟨mower, _, bound⟩ => ⟨bound, mower⟩⟩

theorem mowerAt_joinRecord {i : Nat} {s : State} {x : NodeIdent} (ident : (nodeAt s i).ident = some x) (rejoin : Bool)
    (j : Nat) :
    let m := mowerAt s j
    mowerAt (joinRecord i x rejoin s) j
      = if x.kind = .mower ∧ (nodeAt s i).state ≠ .active ∧ m.node = some i ∧ m.state = .stale then
          { m with state := if m.offsetValid then .acquiring else .unreferenced, acquire := 0 }
        else m := by
  dsimp only
  rw [mowerAt_congr (joinRecord_settled i x rejoin s).pos, mowerAt_joining ident]
  by_cases stale : (mowerAt s j).state = .stale
  · simp only [Mower.nodeFound, stale, if_true, and_true]
  · simp only [Mower.nodeFound, stale, if_false, and_false, ite_self]

/-- Settles O17: the message reaches the Node Table as a JOIN, which each clause takes by the record its serial finds. -/
theorem joinsMakeRecordsActive : Obligations.JoinsMakeRecordsActive := by
  intro s slot bids w f v on running won address passes first last length payload sending waiting unheld holder given
    refuses
  have run : exec (.managementSlotEnd slot bids) s = .next (joinNode w.serial v.toNat (joinTaken s)) :=
    exec_join on running won address passes first last length payload sending waiting
  have refused : ∀ subject,
      joinNode w.serial v.toNat (joinTaken s) = refuseJoin w.serial subject v.toNat (joinTaken s) → refuses subject :=
    fun subject h => ⟨_, run.trans (congrArg Host.Outcome.next h), rfl, rfl, giveAnswer_answers _ (joinTaken s), rfl⟩
  refine ⟨fun k kind => ?_, fun beyond => refused none (joinNode_noKind (ofNumber_beyond beyond) _ _)⟩
  have number : v.toNat = k.number := by
    rw [kind, BitVec.toNat_ofNat, Nat.mod_eq_of_lt ((number_lt k).trans (by decide))]
  have known : NodeKind.ofNumber v.toNat = some k := number ▸ ofNumber_number k
  have found : ∀ {i x}, holder i x → findSerial w.serial (joinTaken s) = some i := fun ⟨inside, ident, serial, before⟩ =>
    findSerial_first (s := joinTaken s) inside ident serial before
  refine ⟨fun i x held same => ?_, fun i x held other => ?_, fun none => ?_⟩
  · have ⟨inside, ident, serial, _⟩ := held
    by_cases again : ((nodeAt s i).state = .active ∨ (nodeAt s i).state = .stale) ∧ (nodeAt s i).answerPending = true
    · have taken : joinNode w.serial v.toNat (joinTaken s)
          = giveAnswer { serial := x.serial, address := some x.address } (joinTaken s) := by
        rw [serial]
        exact joinNode_again known (found held) ident same again.1 again.2
      exact ⟨_, run.trans (congrArg Host.Outcome.next taken), giveAnswer_answers _ (joinTaken s),
        ⟨(if_pos again).symm, fun _ => rfl, fun fresh => absurd again fresh, rfl,
          fun j => ⟨fun moves => absurd again moves.2.1, fun _ => rfl⟩⟩,
        fun j _ => rfl, rfl, rfl, rfl⟩
    · have taken := joinNode_joins (s := joinTaken s) known (found held) ident same again
      let served := decide ((nodeAt s i).state = .active ∨ (nodeAt s i).state = .stale)
      have answers := congrArg Mgmt.answers (joinRecord_mgmt i x served (joinTaken s))
      obtain ⟨loops, joiners, queue, proc⟩ := joinRecord_rest i x served (joinTaken s)
      have joined := join_eq (nodeAt s i) ((nodeAt s i).state = .active ∨ (nodeAt s i).state = .stale)
      refine ⟨joinRecord i x served (joinTaken s), run.trans (congrArg Host.Outcome.next taken),
        answers.trans (giveAnswer_answers _ (joinTaken s)),
        ⟨?_, fun more => absurd more again, fun _ => ?_, loops, fun j => ?_⟩,
        fun j other => nodeAt_joinRecord_other other x served (joinTaken s), joiners, queue, proc⟩
      · exact ((nodeAt_joinRecord (s := joinTaken s) inside x served).trans joined).trans (if_neg again).symm
      · obtain ⟨more, posted⟩ := joinRecord_notices i x served (joinTaken s)
        have rejoin : ((nodeAt (joinTaken s) i).join served).rejoin = _ := congrArg Node.rejoin joined
        rw [rejoin] at posted
        exact ⟨more, posted⟩
      · have mower := mowerAt_joinRecord (s := joinTaken s) ident served j
        constructor
        · rintro ⟨mowerKind, -, notActive, bound, stale⟩
          exact mower.trans (if_pos ⟨mowerKind, notActive, bound, stale⟩)
        · intro still
          exact mower.trans (if_neg fun ⟨mowerKind, notActive, bound, stale⟩ =>
            still ⟨mowerKind, again, notActive, bound, stale⟩)
  · have ⟨_, ident, _⟩ := held
    exact refused (some i) (joinNode_otherKind known (found held) ident other)
  · have taken := joinNode_unknown (s := joinTaken s) known (findSerial_none none)
    obtain ⟨recs, pos, answers⟩ := unknownJoin_rest w.serial v.toNat (joinTaken s)
    refine ⟨unknownJoin w.serial v.toNat (joinTaken s), run.trans (congrArg Host.Outcome.next taken), recs, pos,
      answers, fun listed => ?_, fun unlisted room => ?_, fun unlisted full => ?_⟩
    · rw [unknownJoin_listed (s := joinTaken s) listed, number]
      exact ⟨rfl, rfl, rfl⟩
    · rw [unknownJoin_new (s := joinTaken s) unlisted room, number]
      exact ⟨rfl, rfl, rfl⟩
    · rw [unknownJoin_full (s := joinTaken s) unlisted full]
      exact ⟨rfl, rfl, rfl⟩

end Sys2Proof.Machine

namespace Sys2Proof.Machine

/-! ### WRITE_MOWERS -/

/-- The record under the loop index written: another index is a loop change (R39, R41). -/
def Mower.moveTo (loop : Nat) (m : Mower) : Mower := if m.loop = loop then m else { m.loopChange with loop := loop }

/-- The record as an accepted WRITE_MOWERS leaves it, the loop index first (R41). -/
def Mower.written (s : State) (w : MowerWrite) (m : Mower) : Mower :=
  (m.moveTo w.loop).bind (activeOf s w.node .mower) w.node

theorem Mower.moveTo_same {loop : Nat} {m : Mower} (h : m.loop = loop) : m.moveTo loop = m := if_pos h

theorem Mower.moveTo_other {loop : Nat} {m : Mower} (h : m.loop ≠ loop) :
    m.moveTo loop = { m.loopChange with loop := loop } := if_neg h

theorem Mower.moveTo_node (loop : Nat) (m : Mower) : (m.moveTo loop).node = m.node := by
  rw [moveTo]
  split <;> rfl

theorem Mower.bind_same {node : Option Nat} {m : Mower} (h : m.node = node) (active : Bool) : m.bind active node = m :=
  if_pos h.symm

theorem Mower.bind_none {m : Mower} (h : m.node ≠ none) (active : Bool) :
    m.bind active none = { m.forget with node := none, state := .unused } := if_neg h.symm

theorem Mower.bind_some {n : Nat} {m : Mower} (h : m.node ≠ some n) (active : Bool) :
    m.bind active (some n)
      = { m.forget.dropPair with
          node := some n
          state := if active then (if m.offsetValid then .acquiring else .unreferenced) else .stale } := if_neg h.symm

theorem activeOf_some_iff (s : State) (n : Nat) (k : NodeKind) :
    activeOf s (some n) k = true ↔ (∃ x, (nodeAt s n).ident = some x ∧ x.kind = k) ∧ (nodeAt s n).state = .active := by
  simp only [activeOf, Node.kindIs, Bool.and_eq_true, Option.any_eq_true, beq_iff_eq]

theorem writeMower_outOfRange {i : Nat} {w : MowerWrite} {s : State}
    (h : 3 < i ∨ (∃ n, w.node = some n ∧ 47 < n) ∨ 3 < w.loop ∨ s.pos.loops.getD w.loop none = none) :
    writeMower i w s = (s, .outOfRange) := by
  simp only [writeMower, Option.any_eq_true, decide_eq_true_eq, Option.isNone_iff_eq_none]
  rw [← or_assoc] at h
  by_cases first : 3 < i ∨ ∃ n, w.node = some n ∧ 47 < n
  · exact if_pos first
  · rw [if_neg first, if_pos (h.resolve_left first)]

theorem writeMower_accepted {i : Nat} {w : MowerWrite} {s : State} (hi : i ≤ 3)
    (node : ¬ ∃ n, w.node = some n ∧ 47 < n) (loop : ¬ (3 < w.loop ∨ s.pos.loops.getD w.loop none = none)) :
    writeMower i w s
      = (settle { s with pos := { s.pos with mowers := s.pos.mowers.set i ((mowerAt s i).written s w) } }, .done) := by
  have put := setMower_eq i (Mower.written s w) s
  have first : ¬ (3 < i ∨ ∃ n, w.node = some n ∧ 47 < n) := not_or.2 ⟨Nat.not_lt.2 hi, node⟩
  simp only [writeMower, Option.any_eq_true, decide_eq_true_eq, Option.isNone_iff_eq_none, if_neg first, if_neg loop]
  rw [← put]
  rfl

/-- Settles O28: the loop index moves the record, then the node index binds it; each of the two as it stood or not. -/
theorem writeMowersFollowsItsRule : Obligations.WriteMowersFollowsItsRule := by
  intro o i w s ready badNode badLoop
  have run := fun {t st} => exec_written (c := .writeMowers o i w) (e := .mowers i w) (t := t) (st := st) rfl ready
  refine ⟨fun refused => run (writeMower_outOfRange refused), fun hi node loop m found => ?_⟩
  have stands : mowerAt s i = m := by rw [mowerAt, List.getD_eq_getElem?_getD, found, Option.getD_some]
  refine ⟨m.written s w, stands ▸ run (writeMower_accepted hi node loop), ?_⟩
  · have active := fun n => activeOf_some_iff s n .mower
    have bound : (m.moveTo w.loop).node = m.node := m.moveTo_node w.loop
    by_cases sameNode : m.node = w.node
    · have left : m.written s w = m.moveTo w.loop := Mower.bind_same (bound.trans sameNode) _
      by_cases sameLoop : m.loop = w.loop
      · rw [left, Mower.moveTo_same sameLoop]
        simp [sameNode, sameLoop]
      · rw [left, Mower.moveTo_other sameLoop]
        simp [sameNode, sameLoop, Mower.loopChange, Mower.forget, Mower.dropPair]
    · cases named : w.node with
      | none =>
        have unbound : m.written s w = { (m.moveTo w.loop).forget with node := none, state := .unused } := by
          rw [Mower.written, named, Mower.bind_none (bound ▸ named ▸ sameNode)]
        rw [named] at sameNode
        by_cases sameLoop : m.loop = w.loop
        · rw [unbound, Mower.moveTo_same sameLoop]
          simp [sameNode, sameLoop, Mower.forget]
        · rw [unbound, Mower.moveTo_other sameLoop]
          simp [sameNode, sameLoop, Mower.loopChange, Mower.forget, Mower.dropPair]
      | some n =>
        have rebound := Mower.bind_some (bound ▸ named ▸ sameNode : (m.moveTo w.loop).node ≠ some n)
          (activeOf s (some n) .mower)
        rw [Mower.written, named, rebound]
        rw [named] at sameNode
        by_cases sameLoop : m.loop = w.loop
        · rw [Mower.moveTo_same sameLoop]
          simp [sameNode, sameLoop, Mower.forget, Mower.dropPair, active]
        · rw [Mower.moveTo_other sameLoop]
          simp [sameNode, sameLoop, Mower.loopChange, Mower.forget, Mower.dropPair, active]

/-! ### WRITE_LOOPS -/

theorem loopNamed_iff (i : Nat) (s : State) :
    loopNamed i s = true
      ↔ (∃ m ∈ s.pos.mowers, m.node.isSome = true ∧ m.loop = i) ∨ ∃ z ∈ s.zone.zones, ∃ r, z = some r ∧ r.loop = i := by
  simp only [loopNamed, Bool.or_eq_true, List.any_eq_true, Bool.and_eq_true, Option.any_eq_true, beq_iff_eq]

theorem loopStatus_eq (w : LoopWrite) (l : LoopRec) :
    doneIf (loopClamped w l)
      = if l.n1 = w.n1 ∧ (w.tolerance = 0 ∨ l.tolerance = w.tolerance) ∧ l.jump = w.jump ∧ l.body = w.body
          ∧ l.dock = w.dock ∧ l.spacing = w.spacing ∧ l.spacingTol = w.spacingTol then .done
        else .doneClamped := by
  have kept : ∀ b : Bool, doneIf (!b) = if b = true then .done else .doneClamped := by decide
  rw [loopClamped, kept]
  simp only [Bool.and_eq_true, Bool.or_eq_true, beq_iff_eq, and_assoc, or_comm]

theorem writeLoop_outOfRange {i : Nat} (h : 3 < i) (w : Option LoopWrite) (s : State) :
    writeLoop i w s = (s, .outOfRange) := if_pos h

theorem writeLoop_none {i : Nat} (h : i ≤ 3) (s : State) :
    writeLoop i none s = if loopNamed i s then (s, .wrongState) else (settle (changeLoop i (setLoop i none s)), .done) :=
  if_neg (Nat.not_lt.2 h)

/-- A record written over an empty one is put in use, over its equal changes nothing, and over any other is a loop change,
the zones limited first where N1 changes (R38, R39, R76). -/
theorem writeLoop_some {i : Nat} (h : i ≤ 3) (w : LoopWrite) (s : State) :
    (s.pos.loops.getD i none = none →
        writeLoop i (some w) s
          = (settle (setLoop i (some (clampLoop w)) s), doneIf (loopClamped w (clampLoop w))))
      ∧ (s.pos.loops.getD i none = some (clampLoop w) →
        writeLoop i (some w) s = (s, doneIf (loopClamped w (clampLoop w))))
      ∧ ∀ old, s.pos.loops.getD i none = some old → old ≠ clampLoop w →
        writeLoop i (some w) s
          = (settle (changeLoop i (setLoop i (some (clampLoop w))
              (if old.n1 = (clampLoop w).n1 then s else limitZones i (clampLoop w).length s))),
            doneIf (loopClamped w (clampLoop w))) := by
  rw [writeLoop, if_neg (Nat.not_lt.2 h)]
  refine ⟨fun empty => ?_, fun equal => ?_, fun old found other => ?_⟩
  · simp only [empty]
  · simp only [equal, if_true]
  · simp only [found, if_neg other]

/-- Settles O27: the tests of R38, the clamped record, and the record the write finds: none, its equal or another. -/
theorem writeLoopsFollowsItsRule : Obligations.WriteLoopsFollowsItsRule := by
  intro o i s ready change named
  have run : ∀ {w : Option LoopWrite} {t : State} {st : Status}, writeLoop i w s = (t, st) →
      exec (.writeLoops o i w) s = .next (writeAnswer o st t) :=
    fun {w _ _} => exec_written (e := .loops i w) rfl ready
  have namedIff : loopNamed i s = true ↔ named := loopNamed_iff i s
  refine ⟨fun beyond w => run (writeLoop_outOfRange beyond w s), fun hi held => run ?_, fun hi free => run ?_,
    fun w hi => ?_⟩
  · rw [writeLoop_none hi, if_pos (namedIff.2 held)]
  · rw [writeLoop_none hi, if_neg (fun h => free (namedIff.1 h))]
    rfl
  · intro n1 top l kept status
    have answered : doneIf (loopClamped w (clampLoop w)) = status := loopStatus_eq w l
    obtain ⟨onEmpty, onEqual, onOther⟩ := writeLoop_some hi w s
    rw [answered] at onEmpty onEqual onOther
    refine ⟨fun empty => run (onEmpty empty), fun equal => run (onEqual equal), fun old found other => ?_⟩
    rw [run (onOther old found other)]
    by_cases same : old.n1 = l.n1
    · rw [if_pos same, if_pos (show old.n1 = (clampLoop w).n1 from same)]
      rfl
    · rw [if_neg same, if_neg (show ¬ old.n1 = (clampLoop w).n1 from same)]
      rfl

end Sys2Proof.Machine

namespace Sys2Proof.Machine

/-! ### The bytes of table entries -/

theorem beBytes_eq (n v : Nat) : beBytes n v = (List.range n).map (fun k => BitVec.ofNat 8 (v / 256 ^ (n - 1 - k))) := by
  induction n generalizing v with
  | zero => rfl
  | succ n ih =>
    have higher : ∀ k ∈ List.range n,
        BitVec.ofNat 8 (v / 256 / 256 ^ (n - 1 - k)) = BitVec.ofNat 8 (v / 256 ^ (n + 1 - 1 - k)) := fun k hk => by
      have inside := List.mem_range.1 hk
      rw [Nat.div_div_eq_div_mul, ← pow_succ', show n - 1 - k + 1 = n + 1 - 1 - k by omega]
    rw [beBytes, ih, List.range_succ, List.map_append, List.map_congr_left higher]
    simp

/-- A free byte is the one byte of its number. -/
theorem b1_toNat (b : Byte) : b1 b.toNat = [b] := by simp [b1, beBytes]

@[simp] theorem capByte_eq (v : Option Nat) : b1 (v.getD Config.noCapByte.toNat) = capByte v := by
  cases v
  · exact b1_toNat _
  · rfl

/-! ### Numbers of states -/

theorem NodeKind.idxOf_eq (k : NodeKind) :
    [NodeKind.gateway, .mower, .pump, .valve, .light, .dock, .weather, .level, .motion, .supply].idxOf k = k.number := by
  cases k <;> rfl

theorem ZoneKind.idxOf_eq (k : ZoneKind) : [ZoneKind.spray, .keepout, .slow, .light].idxOf k = k.number := by
  cases k <;> rfl

theorem ActiveWhen.idxOf_eq (a : ActiveWhen) :
    [ActiveWhen.always, .duringBackwash, .duringShow].idxOf a = a.number := by cases a <;> rfl

theorem ChannelKind.idxOf_eq (k : ChannelKind) : [ChannelKind.filter, .fountain, .valve].idxOf k = k.number := by
  cases k <;> rfl

theorem LightMode.idxOf_eq (m : LightMode) : [LightMode.off, .duskToTime, .duskToDawn, .always].idxOf m = m.number := by
  cases m <;> rfl

theorem NodeState.idxOf_eq (st : NodeState) :
    [NodeState.empty, .provisioned, .active, .stale, .dropped].idxOf st = st.number := by cases st <;> rfl

theorem ShowState.idxOf_eq (st : ShowState) : [ShowState.idle, .playing, .paused].idxOf st = st.number := by
  cases st <;> rfl

theorem MowerState.idxOf_eq (st : MowerState) :
    [MowerState.unused, .unreferenced, .acquiring, .tracked, .slipping, .lost, .stale].idxOf st = st.number := by
  cases st <;> rfl

theorem Permit.idxOf_eq (p : Permit) : [Permit.mow, .slow, .dock, .hold].idxOf p = p.number := by cases p <;> rfl

theorem ChannelState.idxOf_eq (st : ChannelState) :
    [ChannelState.off, .fault, .held, .backwash, .running].idxOf st = st.number := by cases st <;> rfl

theorem Stage.idxOf_eq (st : Stage) :
    [Stage.idle, .requested, .stopping, .reversing, .washing, .rinsing, .restoring, .aborting].idxOf st = st.number := by
  cases st <;> rfl

theorem Evening.idxOf_eq (e : Evening) : [Evening.early, .late, .done].idxOf e = e.number := by cases e <;> rfl

theorem Presence.idxOf_eq (p : Presence) : [Presence.inactive, .active, .holding].idxOf p = p.number := by
  cases p <;> rfl

theorem ShedCause.idxOf_eq (c : ShedCause) : [ShedCause.overrun, .foldback].idxOf c = c.number := by cases c <;> rfl

/-! ### Written forms and kept fields -/

@[simp] theorem siteFields_bytes (x : Site) : (siteFields x).bytes = siteForm x := by simp [siteFields, siteForm]

@[simp] theorem slotFields_bytes (p : Placement) : (slotFields p).bytes = slotForm p := by simp [slotFields, slotForm]

@[simp] theorem nodeFields_bytes (x : NodeIdent) : (nodeFields x).bytes = nodeForm x := by
  simp [nodeFields, nodeForm, NodeKind.idxOf_eq]

@[simp] theorem joinerFields_bytes (j : Joiner) : (joinerFields j).bytes = joinerForm j := by
  simp [joinerFields, joinerForm]

@[simp] theorem loopFields_bytes (l : LoopRec) : (loopFields l).bytes = loopForm l := by simp [loopFields, loopForm]

@[simp] theorem mowerFields_bytes (node : Option Nat) (loop : Nat) : (mowerFields node loop).bytes = mowerForm node loop := by
  simp [mowerFields, mowerForm]

@[simp] theorem zoneFields_bytes (z : ZoneRec) : (zoneFields z).bytes = zoneForm z := by
  simp [zoneFields, zoneForm, ZoneKind.idxOf_eq, ActiveWhen.idxOf_eq]

@[simp] theorem channelFields_bytes (r : ChannelRec) : (channelFields r).bytes = channelForm r := by
  -- `delta`, since the equation lemma of so long a form is slow to generate.
  delta channelForm
  simp [channelFields, ChannelKind.idxOf_eq]

@[simp] theorem showFields_bytes (r : ShowRec) : (showFields r).bytes = showForm r := by simp [showFields, showForm]

@[simp] theorem levelFields_bytes (l : Levels) : (levelFields l).bytes = levelsBytes l := by
  simp [levelFields, levelsBytes]

@[simp] theorem stepFields_bytes (t : Step) : (stepFields t).bytes = stepForm t := by simp [stepFields, stepForm]

@[simp] theorem lightFields_bytes (r : LightRec) : (lightFields r).bytes = lightForm r := by
  simp [lightFields, lightForm, LightMode.idxOf_eq]

@[simp] theorem loadFields_bytes (cls minDraw fullDraw : Nat) (node : Option Nat) :
    (loadFields cls minDraw fullDraw node).bytes = loadForm cls minDraw fullDraw node := by
  simp [loadFields, loadForm]

@[simp] theorem nodeKeptFields_bytes (n : Node) : (nodeKeptFields n).bytes = nodeKept n := by
  have sample : (n.sample.map BitVec.toNat).getD 0 = (n.sample.getD 0#32).toNat := by cases n.sample <;> rfl
  simp [nodeKeptFields, nodeKept, NodeState.idxOf_eq, sample]

@[simp] theorem playerFields_bytes (p : Player) : (playerFields p).bytes = showKept p := by
  simp [playerFields, showKept, ShowState.idxOf_eq]

/-! ### Views -/

@[simp] theorem mowerStateFields_bytes (s : State) (i : Nat) : (mowerStateFields s i).bytes = mowerView s i := by
  have valid : ∀ m : Mower, m.positionValid = decide (m.state = .tracked ∨ m.state = .slipping) := fun m => by
    simp [Mower.positionValid, beq_eq_decide]
  have permit : [Permit.mow, .slow, .dock, .hold].idxOf = Permit.number := funext Permit.idxOf_eq
  simp [mowerStateFields, mowerView, mowerForm, MowerState.idxOf_eq, valid, permit, beq_eq_decide]

theorem discharges_eq (s : State) (c : Nat) : discharges s c = dischargeActive s c := by
  have stage : ∀ st : Stage, (st == .washing || st == .rinsing) = st.discharging := fun st => by cases st <;> rfl
  rw [discharges, stage]
  rfl

theorem zoneIsActive_eq (s : State) (z : Nat) : zoneIsActive s z = zoneActive s z := by
  have discharge : discharges s = dischargeActive s := funext (discharges_eq s)
  have own : ∀ r : ZoneRec,
      (r.activeWhen == .always || (r.activeWhen == .duringBackwash && discharges s r.filter)
        || (r.activeWhen == .duringShow && (playerAt s r.showIx).state != .idle)) = ownActive s r := fun r => by
    rw [discharge, ownActive]
    cases r.activeWhen <;> simp [beq_eq_decide]
  rw [zoneIsActive, zoneActive]
  cases zoneAt s z with
  | none => rfl
  | some r =>
    simp only [← own]
    by_cases keepout : r.kind = .keepout
    · simp [keepout, dischargesOver, discharge]
    · simp [keepout]

@[simp] theorem zoneStateFields_bytes (s : State) (z : Nat) : (zoneStateFields s z).bytes = zoneView s z := by
  simp [zoneStateFields, zoneView, zoneIsActive_eq]

theorem pondLevel_beq (s : State) (k : Nat) : (pondLevel s == k + 1) = (s.water.pond == some (k + 1)) := by
  cases pond : s.water.pond <;> simp [pondLevel, pond]

section Caps

variable (s : State) (i : Nat) (cfg : Option ChannelRec)

theorem sprayCap_eq :
    (if (cfg.any fun r => [ChannelKind.fountain].contains r.kind) = true then s.zone.sprayCaps.getD i none else none)
      = cfg.bind (sprayCapHolds s i) := by
  cases cfg with
  | none => rfl
  | some r => simp [sprayCapHolds]

theorem rainCap_eq :
    (cfg.any (fun r => [ChannelKind.fountain].contains r.kind) && s.water.rain) = cfg.any (rainCapHolds s) := by
  cases cfg with
  | none => rfl
  | some r => simp [rainCapHolds, beq_eq_decide]

theorem pondCap_eq :
    ((cfg.any (fun r => [ChannelKind.fountain].contains r.kind) && (s.water.pond == some 1 || s.water.pond == some 2))
        || (cfg.any (fun r => [ChannelKind.filter].contains r.kind) && s.water.pond == some 2))
      = cfg.any (pondCapHolds s) := by
  rw [← pondLevel_beq s 0, ← pondLevel_beq s 1]
  cases cfg with
  | none => rfl
  | some r => cases kind : r.kind <;> simp [pondCapHolds, kind]

theorem granted_eq (c : Channel) :
    c.cfg.any (fun r => [ChannelKind.filter, .fountain].contains r.kind) = (c.cfg.isSome && !c.kindIs .valve) := by
  rw [Channel.kindIs]
  cases c.cfg with
  | none => rfl
  | some r => cases kind : r.kind <;> simp [kind]

end Caps

@[simp] theorem channelStateFields_bytes (s : State) (i : Nat) : (channelStateFields s i).bytes = channelView s i := by
  have grant : ∀ b : Bool,
      opt1 (if b = true then some (capLevel (loadAt s i).fullDraw (loadAt s i).grant) else some Config.noCapByte.toNat)
        = capByte (if b = true then some (grantCap s i) else none) := fun b => by
    cases b
    · exact capByte_eq none
    · rfl
  simp only [channelStateFields, channelView, sprayCap_eq, rainCap_eq, pondCap_eq, granted_eq, discharges_eq,
    ChannelState.idxOf_eq, Stage.idxOf_eq, Fields.bytes_one, Fields.bytes_two, Fields.bytes_nil, opt1_some, opt2_some,
    bitsOf_byte, capByte_eq, grant, List.append_assoc, List.append_nil]
  rfl

@[simp] theorem lightStateFields_bytes (s : State) (i : Nat) : (lightStateFields s i).bytes = lightView s i := by
  simp [lightStateFields, lightView, Evening.idxOf_eq, Presence.idxOf_eq]

@[simp] theorem grantFields_bytes (s : State) (i : Nat) : (grantFields s i).bytes = grantsView s i := by
  have number : [ShedCause.overrun, .foldback].idxOf = ShedCause.number := funext ShedCause.idxOf_eq
  rw [grantFields, grantsView]
  by_cases load : i < 28
  · simp [load]
  · cases cause : s.power.cause <;> simp [load, number, flag, b1_toNat]

/-! ### Entries -/

theorem workingFields_bytes (s : State) (t : Table) (i : Nat) : workingEntry s t i = (workingFields s t i).bytes := by
  cases t <;> simp [workingEntry, workingFields, pendingMark, countersView, bne, beq_eq_decide]

theorem storedFields_bytes (x : Image) (t : Table) (i : Nat) : storedEntry x t i = (storedFields x t i).bytes := by
  have mower : mowerImageForm
      = fun m => mowerForm m.node m.loop ++ (b3 m.offset ++ b1 m.offsetValid.toNat) := funext fun m => by
    simp [mowerImageForm, flag]
  have load : loadImageForm = fun l => loadForm l.cls l.minDraw l.fullDraw l.node := rfl
  cases t <;> simp [storedEntry, storedFields, mower, load]

/-! ### The list of tables -/

@[simp] theorem places_width (n : Nat) (l : List Nat) : ((places n l).map Prod.fst).sum = n := by
  simp [places, Function.comp_def]

theorem recordFields_width {α : Type} {n : Nat} {form : α → Fields} (h : ∀ x, ((form x).map Prod.fst).sum = n)
    (r : Option α) : ((recordFields n form r).map Prod.fst).sum = n := by
  cases r with
  | none => rfl
  | some x => exact h x

theorem recordFields_append_width {α : Type} {n : Nat} {form : α → Fields} (h : ∀ x, ((form x).map Prod.fst).sum = n)
    (r : Option α) (kept : Fields) :
    ((recordFields n form r ++ kept).map Prod.fst).sum = n + (kept.map Prod.fst).sum := by
  rw [List.map_append, List.sum_append, recordFields_width h]

theorem tableRows_tables :
    ∀ row ∈ tableRows, Table.ofNumber row.1 = some row.2.1 ∧ row.2.1.size = row.2.2.1 ∧ row.2.1.written = row.2.2.2.1 := by
  decide

theorem tableRows_complete (t : Table) : ∃ row ∈ tableRows, row.2.1 = t := by
  cases t <;> decide

theorem ofNumber_row {n : Nat} {t : Table} (h : Table.ofNumber n = some t) : ∃ row ∈ tableRows, row.1 = n ∧ row.2.1 = t := by
  have listed : ∀ n < 22, ∀ t ∈ Table.ofNumber n, ∃ row ∈ tableRows, row.1 = n ∧ row.2.1 = t := by decide
  have inside : n < 22 := by
    by_contra beyond
    obtain ⟨k, rfl⟩ := Nat.exists_eq_add_of_le (Nat.not_lt.1 beyond)
    rw [Nat.add_comm] at h
    cases h
  exact listed n inside t h

theorem inImage_iff (t : Table) :
    t.inImage = true ↔ t ≠ .joiners ∧ ∃ row ∈ tableRows, row.2.1 = t ∧ row.2.2.2.1.isSome = true := by
  rw [Table.inImage, Bool.and_eq_true, bne_iff_ne, and_comm]
  refine and_congr_right fun _ => ⟨fun written => ?_, ?_⟩
  · obtain ⟨row, listed, rfl⟩ := tableRows_complete t
    obtain ⟨-, -, same⟩ := tableRows_tables row listed
    exact ⟨row, listed, rfl, same ▸ written⟩
  · rintro ⟨row, listed, rfl, written⟩
    obtain ⟨-, -, same⟩ := tableRows_tables row listed
    exact same ▸ written

theorem workingFields_width (s : State) (i : Nat) :
    ∀ row ∈ tableRows,
      ((workingFields s row.2.1 i).map Prod.fst).sum = if row.2.1 = .grants ∧ 28 ≤ i then 9 else row.2.2.2.2 := by
  have grants : ((grantFields s i).map Prod.fst).sum = if 28 ≤ i then 9 else 5 := by
    rw [grantFields]
    by_cases load : i < 28
    · rw [if_pos load, if_neg (Nat.not_le.2 load)]
      rfl
    · rw [if_neg load, if_pos (Nat.not_lt.1 load)]
      rfl
  simp only [tableRows, List.forall_mem_cons, workingFields, reduceCtorEq, false_and, true_and, if_false]
  refine ⟨?site, ?slotmap, ?nodes, ?joiners, rfl, ?loops, rfl, ?zones, ?channels, ?shows, rfl, ?lights, rfl, ?mowerState,
    rfl, ?channelState, ?lightState, grants, rfl, fun row listed => absurd listed List.not_mem_nil⟩
  case site => simp [siteFields]
  case slotmap => exact recordFields_append_width (fun p => by simp [slotFields]) _ _
  case nodes => exact recordFields_append_width (fun x => by simp [nodeFields]) _ _
  case joiners => exact recordFields_width (fun j => by simp [joinerFields]) _
  case loops => exact recordFields_width (fun l => by simp [loopFields]) _
  case zones => exact recordFields_width (fun z => by simp [zoneFields]) _
  case channels => exact recordFields_width (fun r => by simp [channelFields]) _
  case shows => exact recordFields_append_width (fun r => by simp [showFields]) _ _
  case lights => exact recordFields_width (fun r => by simp [lightFields]) _
  case mowerState => simp [mowerStateFields]
  case channelState => simp [channelStateFields]
  case lightState => simp [lightStateFields]

/-! ### A run of tagged entries -/

/-- `n` entries from index `first` on, each as `one` gives it. -/
def entryRun (one : Nat → List Byte) (first n : Nat) : List Byte := (List.range n).flatMap (fun j => one (first + j))

theorem entryRun_succ (one : Nat → List Byte) (first n : Nat) :
    entryRun one first (n + 1) = one first ++ entryRun one (first + 1) n := by
  simp only [entryRun, List.range_succ_eq_map, List.flatMap_cons, List.flatMap_map, Nat.add_zero]
  simp only [Nat.add_assoc, Nat.add_comm 1]

/-- What a read gives from index `first` on is `n` whole entries: none beyond the table's end, at most `count`, within the
room; it stops at the end, at the count, or where one entry more would not fit (R156). -/
structure RunGiven (one : Nat → List Byte) (size count first room n : Nat) : Prop where
  inside : first + n ≤ size
  asked : n ≤ count
  fits : (entryRun one first n).length ≤ room
  ends : first + n = size ∨ n = count ∨ room < (entryRun one first (n + 1)).length

theorem readRun_given (entry : Nat → List Byte) {size first : Nat} (count room : Nat) (h : first ≤ size) :
    let one := fun i => tagged (i + 1 == size) i (entry i)
    ∃ n, readRun entry size count first room = (entryRun one first n, first + n)
      ∧ RunGiven one size count first room n := by
  intro one
  induction count generalizing first room with
  | zero => exact ⟨0, rfl, h, le_rfl, Nat.zero_le _, .inr (.inl rfl)⟩
  | succ count ih =>
    rw [readRun]
    by_cases atEnd : size ≤ first
    · rw [if_pos atEnd]
      exact ⟨0, rfl, h, Nat.zero_le _, Nat.zero_le _, .inl (le_antisymm h atEnd)⟩
    · rw [if_neg atEnd]
      have single : (entryRun one first 1).length = (one first).length := by simp [entryRun]
      by_cases full : room < (one first).length
      · exact ⟨0, if_pos full, h, Nat.zero_le _, Nat.zero_le _, .inr (.inr (single ▸ full))⟩
      · obtain ⟨n, run, inside, asked, fits, ends⟩ := ih (first := first + 1) (room - (one first).length) (by omega)
        refine ⟨n + 1, ?_, by omega, by omega, ?_, ?_⟩
        · simp only [entryRun_succ]
          refine (if_neg full).trans ?_
          rw [run, Nat.add_assoc, Nat.add_comm 1]
        · rw [entryRun_succ, List.length_append]
          omega
        · rw [entryRun_succ, List.length_append]
          omega

/-! ### The read -/

/-- A READ ENTRIES, or a CONTINUE READ whose pointer stands where it asks (R156, R157). -/
theorem exec_read {o : Origin} {c : Instr} {k : Byte} {space table first count : Nat} {s : State} (ready : Ready s)
    (asks : (c = .readEntries o space table first count ∧ k = 2#8)
      ∨ (c = .continueRead o count ∧ k = 3#8 ∧ s.mgmt.readPtr = some ⟨space, table, first⟩)) :
    ∃ b, exec c s = .next (readEntries ⟨o, some k, b⟩ space table first count s) := by
  rcases asks with ⟨rfl, rfl⟩ | ⟨rfl, rfl, pointer⟩
  · exact ⟨.readEntries space table first count, exec_ready (c := .readEntries o space table first count) rfl ready⟩
  · have continued : ∀ r, continueRead r count s = readEntries r space table first count s := fun r => by
      simp only [continueRead, pointer]
    exact ⟨.continueRead count,
      (exec_ready (c := .continueRead o count) rfl ready).trans (congrArg Host.Outcome.next (continued _))⟩

theorem readEntries_passes (r : Request) {space table first : Nat} (count : Nat) {t : Table} {s : State}
    (known : Table.ofNumber table = some t)
    (readable : space = 0 ∨ (space = 1 ∧ t.inImage = true ∧ s.store.writing = none ∧ s.store.imageValid = true))
    (inside : first ≤ t.size) :
    readEntries r space table first count s
      = readTable r space table first (max count 1) t (if count = 0 then .doneClamped else .done) s := by
  have answered : doneIf (count == 0) = if count = 0 then .doneClamped else .done := by simp only [doneIf, beq_iff_eq]
  have within : ¬ t.size < first := Nat.not_lt.2 inside
  rcases readable with rfl | ⟨rfl, held, idle, valid⟩
  · simp [readEntries, known, within, answered]
  · simp [readEntries, known, within, answered, held, idle, valid]

/-- What a read of `t` gives: the end marker alone at the size, a run of entries below it (R156, R157, R176). -/
theorem readTable_run (o : Origin) (k : Byte) (b : Body) {space table first : Nat} (count : Nat) {t : Table} (st : Status)
    (s : State) (list : t ≠ .nodeChanges) (inside : first ≤ t.size) :
    let one := fun i =>
      tagged (i + 1 == t.size) i (if space = 1 then storedEntry s.store.image t i else workingEntry s t i)
    ∃ n, RunGiven one t.size count first (readRoom o) n
      ∧ readTable ⟨o, some k, b⟩ space table first count t st s
        = answer o k st
            ([BitVec.ofNat 8 space, BitVec.ofNat 8 table]
              ++ if first = t.size then [BitVec.ofNat 8 (128 + t.size)] else entryRun one first n)
            { s with mgmt := { s.mgmt with readPtr := some ⟨space, table, first + n⟩ } } := by
  intro one
  by_cases atEnd : first = t.size
  · subst atEnd
    exact ⟨0, ⟨le_rfl, Nat.zero_le _, Nat.zero_le _, .inl rfl⟩, by
      rw [readTable, if_pos rfl, if_pos rfl, tagAlone, tagged_end]
      rfl⟩
  · obtain ⟨n, run, given⟩ := readRun_given
      (if space = 1 then storedEntry s.store.image t else workingEntry s t) count (readRoom o) inside
    simp only [ite_apply] at run given
    refine ⟨n, given, ?_⟩
    rw [readTable, if_neg atEnd, if_neg atEnd, if_neg list, run]
    rfl

/-- Settles O21: the entries by their fields, the tables by their rows, the read by the run of entries it gives. -/
theorem readsGiveARunOfEntries : Obligations.ReadsGiveARunOfEntries := by
  refine ⟨beBytes_eq, fun s t i => ⟨workingFields_bytes s t i, storedFields_bytes s.store.image t i⟩, fun row listed => ?_,
    fun n t => ofNumber_row, inImage_iff, fun o count s ready noPointer => ?_, ?_⟩
  · obtain ⟨number, size, written⟩ := tableRows_tables row listed
    refine ⟨number, size, written, fun s i => ?_⟩
    rw [workingFields_bytes, Fields.bytes_length, workingFields_width s i row listed]
  · rw [exec_ready (c := .continueRead o count) rfl ready]
    show Host.Outcome.next (continueRead _ count s) = _
    simp only [continueRead, noPointer, reply_eq_answer]
  · intro o c k space table first count t s ready asks known list readable inside entry one status room
    obtain ⟨b, run⟩ := exec_read ready asks
    obtain ⟨n, ⟨within, asked, fits, ends⟩, read⟩ :=
      readTable_run o k b (space := space) (table := table) (max count 1) status s list inside
    have roomEq : readRoom o = room := by
      simp only [readRoom, serialBytes, room]
      split <;> simp
    have oneEq : (fun i => tagged (i + 1 == t.size) i (entry i)) = one := funext fun i => by
      simp only [one, tagged, beq_iff_eq]
      rfl
    have past : first + n - first = n := Nat.add_sub_cancel_left first n
    have pastOne : first + n + 1 - first = n + 1 := by omega
    refine ⟨first + n, ?_, Nat.le_add_right first n, within, ?_, ?_, ?_⟩
    · rw [run, readEntries_passes _ count known readable inside, read, past, ← oneEq]
      rfl
    · rwa [past]
    · rw [past, ← oneEq, ← roomEq]
      exact fits
    · rw [past, pastOne, ← oneEq, ← roomEq]
      exact ends

end Sys2Proof.Machine

namespace Sys2Proof.Machine

/-! ### The list laws -/

/-- What CaptureLaw asks of one mower (R58). -/
structure PairFits (m : Mower) : Prop where
  order : m.capB.isSome = true → m.capA.isSome = true
  lock : m.locked = true ↔ m.capA.isSome = true ∧ m.capB.isSome = true

/-- The three list laws together (R58, R152, R163). -/
structure ListLaws (s : State) : Prop where
  queue : QueueLaw s
  notices : NoticeLaw s
  pairs : ∀ m ∈ s.pos.mowers, PairFits m

theorem listLaws_iff (s : State) : ListLaws s ↔ QueueLaw s ∧ NoticeLaw s ∧ CaptureLaw s := by
  constructor
  · rintro ⟨queue, notices, pairs⟩
    exact ⟨queue, notices, fun m hm => ⟨(pairs m hm).order, (pairs m hm).lock⟩⟩
  · rintro ⟨queue, notices, pairs⟩
    exact ⟨queue, notices, fun m hm => ⟨(pairs m hm).1, (pairs m hm).2⟩⟩

/-- What the list laws read of a state: the waiting requests, the notices, the mowers. -/
def State.lists (s : State) : List Request × Option Request × Notices × List Mower :=
  (s.mgmt.queue, s.mgmt.heldReq, s.notices, s.pos.mowers)

/-- A change that moves neither a mower, a notice nor a waiting request keeps the list laws. -/
theorem ListLaws.same {s t : State} (h : ListLaws s) (lists : t.lists = s.lists) : ListLaws t := by
  simp only [State.lists, Prod.mk.injEq] at lists
  obtain ⟨queue, held, notices, mowers⟩ := lists
  refine ⟨?_, ?_, mowers ▸ h.pairs⟩
  · unfold QueueLaw
    rw [queue, held]
    exact h.queue
  · unfold NoticeLaw
    rw [notices]
    exact h.notices

theorem ite_lists {a b : State} {c : Prop} [Decidable c] (ha : ListLaws a) (hb : ListLaws b) :
    ListLaws (if c then a else b) := by
  split <;> assumption

theorem eachIx_lists {f : Nat → State → State} (hf : ∀ i t, ListLaws t → ListLaws (f i t)) (n : Nat) {s : State}
    (h : ListLaws s) : ListLaws (eachIx f n s) :=
  eachIx_keeps (P := ListLaws) hf n h

theorem setNode_lists (i : Nat) (f : Node → Node) {s : State} (h : ListLaws s) : ListLaws (setNode i f s) :=
  h.same rfl

theorem setChannel_lists (i : Nat) (f : Channel → Channel) {s : State} (h : ListLaws s) :
    ListLaws (setChannel i f s) := h.same rfl

theorem setPlayer_lists (i : Nat) (f : Player → Player) {s : State} (h : ListLaws s) : ListLaws (setPlayer i f s) :=
  h.same rfl

theorem setGroup_lists (i : Nat) (f : LightGroup → LightGroup) {s : State} (h : ListLaws s) :
    ListLaws (setGroup i f s) := h.same rfl

/-! ### The notice list -/

/-- A full list drops what joins it (R163). -/
theorem Notices.join_fits (n : Notice) {l : Notices} (h : l.list.length ≤ 16) : (l.join n).list.length ≤ 16 := by
  unfold Notices.join
  split
  · simp only [List.length_append, List.length_singleton]
    omega
  · exact h

theorem Notices.joinAll_fits (ns : List Notice) {l : Notices} (h : l.list.length ≤ 16) :
    (l.joinAll ns).list.length ≤ 16 := by
  induction ns generalizing l with
  | nil => exact h
  | cons n ns ih => exact ih (join_fits n h)

theorem post_lists (k : NoticeKind) (x : Option Nat) (d : Nat) {s : State} (h : ListLaws s) :
    ListLaws (post k x d s) :=
  { h with notices := Notices.join_fits _ h.notices }

theorem postDetail_lists (k : NoticeKind) (x d : Option Nat) {s : State} (h : ListLaws s) :
    ListLaws (postDetail k x d s) := by
  cases d with
  | some d => exact post_lists k x d h
  | none => exact (post_lists k x _ h).same rfl

theorem formShed_noticeLaw {s : State} (h : NoticeLaw s) : NoticeLaw (formShed s) := by
  obtain ⟨detail, -, posted⟩ := formShed_notices s
  unfold NoticeLaw
  rw [posted]
  exact Notices.joinAll_fits _ h

/-- A round posts on the conditions, the cycles, the keepouts and the shed state, and by joining alone. -/
theorem formResults_noticeLaw (d : Bool) {s : State} (h : NoticeLaw s) : NoticeLaw (formResults d s) := by
  unfold formResults
  refine formShed_noticeLaw ?_
  unfold NoticeLaw
  rw [formGroups_notices, formLevels_notices, formKeepouts_notices, formCycles_notices]
  refine Notices.joinAll_fits _ (Notices.joinAll_fits _ ?_)
  have conditions : (formConditions s).notices.list.length ≤ 16 := by
    rw [formConditions_notices]
    exact Notices.joinAll_fits _ h
  exact conditions

theorem round_noticeLaw (d : Bool) {s : State} (h : NoticeLaw s) : NoticeLaw (round d s) := by
  unfold round
  split
  · exact formResults_noticeLaw true h
  · have formed := formResults_noticeLaw false h
    unfold NoticeLaw
    rw [formGrants_notices]
    exact formed

theorem startTest_notices (d : Bool) (s : State) : (startTest d s).notices = s.notices := by
  cases d with
  | true => rfl
  | false => exact (formStarts_follow s).notices

theorem rounds_noticeLaw (d : Bool) (n : Nat) {s : State} (h : NoticeLaw s) : NoticeLaw (rounds d n s) := by
  induction n generalizing s with
  | zero => exact round_noticeLaw d h
  | succ n ih =>
    have formed := round_noticeLaw d h
    have tested : NoticeLaw (startTest d (round d s)) := by
      unfold NoticeLaw
      rw [startTest_notices]
      exact formed
    simp only [rounds]
    split
    · exact formed
    · exact ih tested

theorem SettledFrom.lists {s t : State} (b : SettledFrom s t) (notices : NoticeLaw t) (h : ListLaws s) :
    ListLaws t where
  queue := by
    unfold QueueLaw
    rw [b.mgmt]
    exact h.queue
  notices := notices
  pairs := b.pos ▸ h.pairs

theorem settle_lists {s : State} (h : ListLaws s) : ListLaws (settle s) :=
  (rounds_settled false 40 s).lists (rounds_noticeLaw false 40 h.notices) h

theorem settleDeferred_lists {s : State} (h : ListLaws s) : ListLaws (settleDeferred s) :=
  (rounds_settled true 40 s).lists (rounds_noticeLaw true 40 h.notices) h

/-! ### The capture pairs -/

/-- A mower's captures and their lock. -/
def Mower.pair (m : Mower) : Option Nat × Option Nat × Bool := (m.capA, m.capB, m.locked)

/-- A mower that keeps its captures and its lock fits as it did. -/
theorem PairFits.kept {m n : Mower} (h : PairFits m) (pair : n.pair = m.pair) : PairFits n := by
  simp only [Mower.pair, Prod.mk.injEq] at pair
  obtain ⟨capA, capB, locked⟩ := pair
  exact ⟨by rw [capA, capB]; exact h.order, by rw [capA, capB, locked]; exact h.lock⟩

/-- A mower without captures and without a lock fits. -/
theorem PairFits.absent {m : Mower} (pair : m.pair = (none, none, false)) : PairFits m := by
  simp only [Mower.pair, Prod.mk.injEq] at pair
  obtain ⟨capA, capB, locked⟩ := pair
  exact ⟨by simp [capB], by simp [capA, locked]⟩

theorem PairFits.capB_none {m : Mower} (h : PairFits m) (capA : m.capA = none) : m.capB = none := by
  by_contra present
  have := h.order (Option.isSome_iff_ne_none.2 present)
  simp [capA] at this

/-- The first capture of a mower without one (R58). -/
theorem PairFits.first {m : Mower} (h : PairFits m) (capA : m.capA = none) (raw : Option Nat) :
    PairFits { m with capA := raw } := by
  have capB := h.capB_none capA
  have locked : ¬ m.locked = true := fun e => by simpa [capA] using (h.lock.1 e).1
  exact ⟨by simp [capB], by simp [capB, locked]⟩

/-- The second capture locks the pair (R58). -/
theorem PairFits.second {m : Mower} {a : Nat} (capA : m.capA = some a) (b : Nat) :
    PairFits { m with capB := some b, locked := true } :=
  ⟨by simp [capA], by simp [capA]⟩

theorem ListLaws.mowerAt_fits {s : State} (h : ListLaws s) (i : Nat) : PairFits (mowerAt s i) := by
  rw [mowerAt, List.getD_eq_getElem?_getD]
  cases e : s.pos.mowers[i]? with
  | none => exact .absent rfl
  | some m => exact h.pairs m (List.mem_of_getElem? e)

theorem setMower_lists (i : Nat) {f : Mower → Mower} {s : State} (h : ListLaws s)
    (hf : PairFits (mowerAt s i) → PairFits (f (mowerAt s i))) : ListLaws (setMower i f s) := by
  refine { h with pairs := fun m hm => ?_ }
  obtain ⟨j, hj⟩ := List.mem_iff_getElem?.1 hm
  have entry : (s.pos.mowers.modify i f)[j]? = some m := hj
  rw [List.getElem?_modify] at entry
  obtain ⟨old, found, rfl⟩ := Option.map_eq_some_iff.1 entry
  split
  · next e =>
    subst e
    have named : mowerAt s i = old := by rw [mowerAt, List.getD_eq_getElem?_getD, found]; rfl
    exact named ▸ hf (h.mowerAt_fits i)
  · exact h.pairs old (List.mem_of_getElem? found)

theorem mapMowers_lists {f : Mower → Mower} {s : State} (h : ListLaws s) (hf : ∀ m, PairFits m → PairFits (f m)) :
    ListLaws { s with pos := { s.pos with mowers := s.pos.mowers.map f } } :=
  { h with pairs := List.forall_mem_map.2 fun m hm => hf m (h.pairs m hm) }

theorem forall_mem_mapIx {α β : Type} {P : β → Prop} {f : Nat → α → β} {l : List α}
    (h : ∀ i, ∀ a ∈ l, P (f i a)) (k : Nat) : ∀ b ∈ mapIx f k l, P b := by
  intro b hb
  obtain ⟨i, found⟩ := List.mem_iff_getElem?.1 hb
  rw [mapIx_getElem?] at found
  obtain ⟨a, entry, rfl⟩ := Option.map_eq_some_iff.1 found
  exact h _ a (List.mem_of_getElem? entry)

theorem nodeLost_fits {m : Mower} (h : PairFits m) : PairFits m.nodeLost := by
  unfold Mower.nodeLost
  split
  exacts [h, h.kept rfl]

theorem nodeFound_fits {m : Mower} (h : PairFits m) : PairFits m.nodeFound := by
  unfold Mower.nodeFound
  split
  exacts [h.kept rfl, h]

theorem bind_fits (active : Bool) (node : Option Nat) {m : Mower} (h : PairFits m) : PairFits (m.bind active node) := by
  unfold Mower.bind
  split
  · exact h
  · cases node with
    | none => exact h.kept rfl
    | some n => exact .absent rfl

/-- Judging a sample moves no capture: the pair is the marker event's (R47 to R50, R58). -/
theorem judge_pair (l : LoopRec) (frame : Nat) (v : Vernier) (m : Mower) : (judge l frame v m).mower.pair = m.pair := by
  unfold judge
  cases m.state with
  | tracked | lost | unreferenced => dsimp only; split <;> rfl
  | slipping =>
    dsimp only
    split
    · rfl
    · split <;> rfl
  | acquiring =>
    dsimp only
    split
    · rfl
    · split
      · rfl
      · split <;> rfl
  | stale | unused => rfl

theorem reportToMowers_lists (n : Nat) (a b : Node) {s : State} (h : ListLaws s) :
    ListLaws (reportToMowers n a b s) := by
  refine mapMowers_lists h fun m hm => ?_
  split
  · split
    · exact nodeLost_fits hm
    · split
      exacts [nodeFound_fits hm, hm]
  · exact hm

theorem spacingCheck_lists (i : Nat) (l : LoopRec) (a b : Nat) {s : State} (h : ListLaws s) :
    ListLaws (spacingCheck i l a b s) := by
  unfold spacingCheck
  refine ite_lists (setMower_lists i h fun m => m.kept rfl) ?_
  have mismatch : ListLaws (post .referenceMismatch (some i) (min (spacingError l a b) 65535)
      (setMower i (fun m => { m with mismatches := inc16 m.mismatches, verified := false }) s)) :=
    post_lists _ _ _ (setMower_lists i h fun m => m.kept rfl)
  dsimp only
  cases (mowerAt s i).state with
  | tracked | slipping | acquiring => exact post_lists _ _ _ (setMower_lists i mismatch fun m => m.kept rfl)
  | unreferenced | lost | stale | unused => exact mismatch

/-- A marker captures A, then B with the lock, and then nothing more (R58). -/
theorem markerEvent_lists (i : Nat) (l : LoopRec) (slip : Bool) {s : State} (h : ListLaws s) :
    ListLaws (markerEvent i l slip s) := by
  unfold markerEvent
  refine ite_lists (setMower_lists i h fun m => m.kept rfl) (ite_lists h ?_)
  cases capA : (mowerAt s i).capA with
  | none => exact setMower_lists i h fun m => m.first capA _
  | some a =>
    cases (mowerAt s i).raw with
    | none => exact h
    | some b => exact spacingCheck_lists _ _ _ _ (setMower_lists i h fun _ => .second capA b)

theorem askOffsetWrite_lists (i : Nat) (l : LoopRec) {s : State} (h : ListLaws s) :
    ListLaws (askOffsetWrite i l s) :=
  ite_lists h (ite_lists (h.same rfl) (setMower_lists i h fun m => m.kept rfl))

theorem dockEvent_lists (i : Nat) (l : LoopRec) (slip : Bool) {s : State} (h : ListLaws s) :
    ListLaws (dockEvent i l slip s) := by
  unfold dockEvent
  dsimp only
  cases (mowerAt s i).raw with
  | none => exact h
  | some raw => exact ite_lists h (askOffsetWrite_lists _ _ (setMower_lists i h fun m => m.kept rfl))

theorem mowerSample_lists (i : Nat) (w : Content) {s : State} (h : ListLaws s) : ListLaws (mowerSample i w s) := by
  unfold mowerSample
  extract_lets m l v j marker dock s1 s2 s3 s4
  have judged : ListLaws s1 := setMower_lists i h fun fits => fits.kept (judge_pair l s.line.frame v _)
  have lost : ListLaws s2 := ite_lists (post_lists _ _ _ judged) judged
  have marked : ListLaws s3 := ite_lists (markerEvent_lists _ _ _ lost) lost
  have docked : ListLaws s4 := ite_lists (dockEvent_lists _ _ _ marked) marked
  exact setMower_lists i docked fun m => m.kept rfl

theorem mowerSamples_lists (n : Nat) (w : Content) {s : State} (h : ListLaws s) : ListLaws (mowerSamples n w s) :=
  eachIx_lists (fun _ _ ht => ite_lists (settle_lists (mowerSample_lists _ _ ht)) ht) 4 h

end Sys2Proof.Machine

namespace Sys2Proof.Machine

/-! ### The list laws in the Node Table -/

theorem changeNode_lists (n : Nat) (f : Node → Node) {s : State} (h : ListLaws s) : ListLaws (changeNode n f s) :=
  settle_lists (reportToMowers_lists n _ _ (setNode_lists n f h))

theorem latchFault_lists (ks : List ChannelKind) (kind : NoticeKind) (d n i : Nat) {s : State} (h : ListLaws s) :
    ListLaws (latchFault ks kind d n i s) :=
  ite_lists (post_lists _ _ _ (setChannel_lists _ _ h)) h

theorem codeReport_lists (n : Nat) (k : NodeKind) (old : Option Nat) (c : Nat) {s : State} (h : ListLaws s) :
    ListLaws (codeReport n k old c s) := by
  cases k with
  | mower => exact ite_lists (eachIx_lists (fun _ _ ht => ite_lists (postDetail_lists _ _ _ ht) ht) 4 h) h
  | pump => exact ite_lists h (eachIx_lists (fun _ _ ht => latchFault_lists _ _ _ _ _ ht) 8 h)
  | valve => exact ite_lists (eachIx_lists (fun _ _ ht => latchFault_lists _ _ _ _ _ ht) 8 h) h
  | light => exact ite_lists h (eachIx_lists (fun _ _ ht => ite_lists (post_lists _ _ _ ht) ht) 16 h)
  | level => exact ite_lists (post_lists _ _ _ h) h
  | gateway | dock | weather | motion | supply => exact h

theorem formClogged_lists (i : Nat) {s : State} (h : ListLaws s) : ListLaws (formClogged i s) := by
  unfold formClogged
  dsimp only
  cases (channelAt s i).cfg with
  | none => exact setChannel_lists _ _ h
  | some r => exact ite_lists (post_lists _ _ _ (setChannel_lists _ _ h)) (setChannel_lists _ _ h)

theorem filterSample_lists (i : Nat) (w : Content) {s : State} (h : ListLaws s) : ListLaws (filterSample i w s) :=
  ite_lists (formClogged_lists _ (setChannel_lists _ _ h)) h

theorem setShed_lists (c : ShedCause) {s : State} (h : ListLaws s) : ListLaws (setShed c s) :=
  ite_lists h (postDetail_lists _ _ _ (h.same rfl))

theorem supplySample_lists (w : Content) {s : State} (h : ListLaws s) : ListLaws (supplySample w s) :=
  ite_lists (setShed_lists _ (h.same rfl)) (h.same rfl)

theorem handOver_lists (n : Nat) (k : NodeKind) (w : Content) {s : State} (h : ListLaws s) :
    ListLaws (handOver n k w s) := by
  cases k with
  | mower => exact mowerSamples_lists _ _ h
  | pump => exact settle_lists (eachIx_lists (fun _ _ ht => ite_lists (filterSample_lists _ _ ht) ht) 8 h)
  | supply => exact ite_lists (settle_lists (supplySample_lists _ h)) h
  | valve | light | dock | weather | level | motion | gateway => exact h

theorem goodSample_lists (n : Nat) (noisy : Bool) (w : Content) {s : State} (h : ListLaws s) :
    ListLaws (goodSample n noisy w s) := by
  unfold goodSample
  cases (nodeAt s n).ident with
  | none => exact h
  | some x =>
    have put : ∀ a b f, ListLaws (reportToMowers n a b (setNode n f s)) :=
      fun a b f => reportToMowers_lists n a b (setNode_lists n f h)
    refine handOver_lists n x.kind w (settle_lists ?_)
    split
    · exact put _ _ _
    · exact ite_lists (put _ _ _) (codeReport_lists _ _ _ _ (put _ _ _))

theorem missedSample_lists (n : Nat) (checkError : Bool) {s : State} (h : ListLaws s) :
    ListLaws (missedSample n checkError s) := changeNode_lists n _ h

theorem outcome_lists (n : Nat) (heard : Heard) {s : State} (h : ListLaws s) : ListLaws (outcome n heard s) := by
  cases heard with
  | good noisy w => exact goodSample_lists n noisy w h
  | failed | silence => exact missedSample_lists n _ h

theorem giveAnswer_lists (a : JoinAnswer) {s : State} (h : ListLaws s) : ListLaws (giveAnswer a s) := h.same rfl

theorem unknownJoin_lists (serial : Serial) (k : Nat) {s : State} (h : ListLaws s) :
    ListLaws (unknownJoin serial k s) := by
  unfold unknownJoin
  dsimp only
  split
  · exact h.same rfl
  · split
    · exact post_lists _ _ _ (h.same rfl)
    · exact h.same rfl

theorem refuseJoin_lists (serial : Serial) (x : Option Nat) (k : Nat) {s : State} (h : ListLaws s) :
    ListLaws (refuseJoin serial x k s) := post_lists _ _ _ (giveAnswer_lists _ h)

theorem joinRecord_lists (i : Nat) (x : NodeIdent) (rejoin : Bool) {s : State} (h : ListLaws s) :
    ListLaws (joinRecord i x rejoin s) :=
  changeNode_lists i _ (post_lists _ _ _ (giveAnswer_lists _ h))

theorem joinNode_lists (serial : Serial) (k : Nat) {s : State} (h : ListLaws s) : ListLaws (joinNode serial k s) := by
  unfold joinNode
  cases NodeKind.ofNumber k with
  | none => exact refuseJoin_lists _ _ _ h
  | some kind =>
    cases findSerial serial s with
    | none => exact unknownJoin_lists _ _ h
    | some i =>
      dsimp only
      cases (nodeAt s i).ident with
      | none => exact h
      | some x =>
        refine ite_lists (refuseJoin_lists _ _ _ h) ?_
        cases (nodeAt s i).state with
        | active | stale => exact ite_lists (giveAnswer_lists _ h) (joinRecord_lists _ _ _ h)
        | provisioned | dropped | empty => exact joinRecord_lists _ _ _ h

/-! ### The list laws under entry writes -/

theorem ite_fst_lists {c : Prop} [Decidable c] {x y : State × Status} (hx : ListLaws x.1) (hy : ListLaws y.1) :
    ListLaws (if c then x else y).1 := by
  split <;> assumption

theorem written_lists {t : State} {st : Status} (h : ListLaws t) : ListLaws ((t, st) : State × Status).1 := h

theorem writeSlot_lists (i : Nat) (w : Option SlotWrite) {s : State} (h : ListLaws s) :
    ListLaws (writeSlot i w s).1 := by
  have put : ∀ p, ListLaws (setNext i p s) := fun p => h.same rfl
  unfold writeSlot
  refine ite_fst_lists h ?_
  cases w with
  | none => exact written_lists (put none)
  | some w => exact ite_fst_lists h (ite_fst_lists h (written_lists (put _)))

theorem dropJoiner_lists (x : Serial) {s : State} (h : ListLaws s) : ListLaws (dropJoiner x s) := h.same rfl

theorem writeNode_lists (i : Nat) (w : Option NodeWrite) {s : State} (h : ListLaws s) :
    ListLaws (writeNode i w s).1 := by
  unfold writeNode
  refine ite_fst_lists h ?_
  cases w with
  | none => exact ite_fst_lists h (written_lists (changeNode_lists i _ h))
  | some w =>
    dsimp only
    cases NodeKind.ofNumber w.kind with
    | none => exact h
    | some k =>
      refine ite_fst_lists h (ite_fst_lists h (written_lists (ite_lists (dropJoiner_lists _ h) ?_)))
      exact changeNode_lists i _ (dropJoiner_lists _ h)

theorem writeJoiner_lists (i : Nat) (b : Bool) {s : State} (h : ListLaws s) : ListLaws (writeJoiner i b s).1 :=
  ite_fst_lists h (ite_fst_lists h (h.same rfl))

theorem setLoop_lists (i : Nat) (l : Option LoopRec) {s : State} (h : ListLaws s) : ListLaws (setLoop i l s) :=
  h.same rfl

/-- A loop change drops the pair of every mower on the loop (R39). -/
theorem changeLoop_lists (i : Nat) {s : State} (h : ListLaws s) : ListLaws (changeLoop i s) := by
  refine mapMowers_lists h fun m hm => ?_
  split
  exacts [.absent rfl, hm]

theorem writeLoop_lists (i : Nat) (w : Option LoopWrite) {s : State} (h : ListLaws s) :
    ListLaws (writeLoop i w s).1 := by
  unfold writeLoop
  refine ite_fst_lists h ?_
  cases w with
  | none => exact ite_fst_lists h (written_lists (settle_lists (changeLoop_lists _ (setLoop_lists _ _ h))))
  | some w =>
    dsimp only
    cases s.pos.loops.getD i none with
    | none => exact written_lists (settle_lists (setLoop_lists _ _ h))
    | some old =>
      refine ite_fst_lists h (written_lists (settle_lists (changeLoop_lists _ (setLoop_lists _ _ ?_))))
      exact ite_lists h (h.same rfl)

/-- A write of the loop index or of the node index drops the pair, or leaves it as it stands (R39, R41). -/
theorem writeMower_lists (i : Nat) (w : MowerWrite) {s : State} (h : ListLaws s) : ListLaws (writeMower i w s).1 := by
  refine ite_fst_lists h (ite_fst_lists h (written_lists (settle_lists (setMower_lists i h fun fits => ?_))))
  refine bind_fits _ _ ?_
  dsimp only
  split
  exacts [fits, .absent rfl]

theorem setZone_lists (i : Nat) (z : Option ZoneRec) {s : State} (h : ListLaws s) : ListLaws (setZone i z s) :=
  h.same rfl

theorem writeZone_lists (i : Nat) (w : Option ZoneWrite) {s : State} (h : ListLaws s) :
    ListLaws (writeZone i w s).1 := by
  unfold writeZone
  refine ite_fst_lists h (ite_fst_lists h ?_)
  cases w with
  | none => exact written_lists (settle_lists (setZone_lists _ _ h))
  | some w =>
    dsimp only
    split
    · exact ite_fst_lists h (written_lists (settle_lists (setZone_lists _ _ h)))
    · exact h

theorem writeChannel_lists (i : Nat) (w : Option ChannelWrite) {s : State} (h : ListLaws s) :
    ListLaws (writeChannel i w s).1 := by
  unfold writeChannel
  refine ite_fst_lists h (ite_fst_lists h ?_)
  cases w with
  | none => exact written_lists (settle_lists (setChannel_lists _ _ h))
  | some w =>
    dsimp only
    cases ChannelKind.ofNumber w.kind with
    | none => exact h
    | some k =>
      exact ite_fst_lists h (written_lists (settle_lists (formClogged_lists _ (setChannel_lists _ _ h))))

theorem writeShow_lists (i : Nat) (w : Option ShowWrite) {s : State} (h : ListLaws s) :
    ListLaws (writeShow i w s).1 := by
  have put : ∀ f, ListLaws (settle (setPlayer i f s)) := fun f => settle_lists (setPlayer_lists i f h)
  unfold writeShow
  refine ite_fst_lists h (ite_fst_lists h ?_)
  cases w with
  | none => exact written_lists (put _)
  | some w => exact ite_fst_lists h (ite_fst_lists h (written_lists (put _)))

theorem writeStep_lists (i : Nat) (w : StepWrite) {s : State} (h : ListLaws s) : ListLaws (writeStep i w s).1 :=
  ite_fst_lists h (h.same rfl)

theorem writeLight_lists (i : Nat) (w : Option LightWrite) {s : State} (h : ListLaws s) :
    ListLaws (writeLight i w s).1 := by
  have put : ∀ f, ListLaws (settle (setGroup i f s)) := fun f => settle_lists (setGroup_lists i f h)
  unfold writeLight
  refine ite_fst_lists h ?_
  cases w with
  | none => exact written_lists (put _)
  | some w =>
    dsimp only
    cases LightMode.ofNumber w.mode with
    | none => exact h
    | some m => exact ite_fst_lists h (written_lists (put _))

theorem writeLoad_lists (i : Nat) (w : Option LoadWrite) {s : State} (h : ListLaws s) :
    ListLaws (writeLoad i w s).1 := by
  unfold writeLoad
  refine ite_fst_lists h ?_
  cases w with
  | none => exact h
  | some w => exact ite_fst_lists h (written_lists (settle_lists (h.same rfl)))

theorem replaceSite_lists (x : Site) {s : State} (h : ListLaws s) : ListLaws (replaceSite x s) := h.same rfl

theorem writeSite_lists (i : Nat) (w : Option SiteWrite) {s : State} (h : ListLaws s) :
    ListLaws (writeSite i w s).1 := by
  unfold writeSite
  refine ite_fst_lists h ?_
  cases w with
  | none => exact h
  | some w => exact ite_fst_lists h (written_lists (settle_lists (replaceSite_lists _ h)))

theorem writeEntry_lists (e : EntryWrite) {s : State} (h : ListLaws s) : ListLaws (writeEntry e s).1 := by
  cases e with
  | slotmap i w => exact writeSlot_lists i w h
  | nodes i w => exact writeNode_lists i w h
  | joiners i b => exact writeJoiner_lists i b h
  | loops i w => exact writeLoop_lists i w h
  | mowers i w => exact writeMower_lists i w h
  | zones i w => exact writeZone_lists i w h
  | channels i w => exact writeChannel_lists i w h
  | shows i w => exact writeShow_lists i w h
  | steps i w => exact writeStep_lists i w h
  | lights i w => exact writeLight_lists i w h
  | loads i w => exact writeLoad_lists i w h
  | site i w => exact writeSite_lists i w h

theorem writeAll_lists (es : List EntryWrite) {s : State} (h : ListLaws s) : ListLaws (writeAll es s).1 := by
  induction es generalizing s with
  | nil => exact h
  | cons e es ih => exact ih (writeEntry_lists e h)

/-! ### The list laws in the store -/

theorem clearUnsaved_lists (copy : List (Nat × Bool)) {s : State} (h : ListLaws s) :
    ListLaws (clearUnsaved copy s) := by
  refine { h with pairs := forall_mem_mapIx (fun i m hm => ?_) 0 }
  split
  exacts [(h.pairs m hm).kept rfl, h.pairs m hm]

theorem setUnsaved_lists {s : State} (h : ListLaws s) : ListLaws (setUnsaved s) := by
  refine mapMowers_lists h fun m hm => ?_
  split
  exacts [hm.kept rfl, hm]

theorem completeWrite_lists (good : Bool) {s : State} (h : ListLaws s) : ListLaws (completeWrite good s) := by
  unfold completeWrite
  split
  · exact h
  · exact clearUnsaved_lists _ (post_lists _ _ _ (h.same rfl))
  · exact clearUnsaved_lists _ (h.same rfl)
  · exact setUnsaved_lists (post_lists _ _ _ (h.same rfl))

theorem cutOff_lists {s : State} (h : ListLaws s) : ListLaws (cutOff s) := by
  unfold cutOff
  split
  · exact h
  · exact h.same rfl
  · exact h.same rfl

/-- Start-up empties the queue, the held position and the notice list, and no mower it makes holds a capture (R173). -/
theorem fillTables_lists (t : Tables) (s : State) : ListLaws (fillTables t s) where
  queue := ⟨Nat.zero_le _, nofun⟩
  notices := Nat.zero_le _
  pairs := List.forall_mem_map.2 fun _ _ => .absent rfl

theorem startUp_lists (s : State) : ListLaws (startUp s) :=
  settle_lists (ite_lists (fillTables_lists _ s) (post_lists _ _ _ (fillTables_lists _ s)))

theorem cycleBreak_lists (k i : Nat) {s : State} (h : ListLaws s) : ListLaws (cycleBreak k i s) := by
  unfold cycleBreak
  cases (channelAt s i).stage with
  | idle | aborting => exact h
  | requested => exact post_lists _ _ _ (setChannel_lists _ _ h)
  | stopping | reversing | washing | rinsing | restoring => exact setChannel_lists _ _ h

theorem cyclesBreak_lists (k : Nat) {s : State} (h : ListLaws s) : ListLaws (cyclesBreak k s) :=
  eachIx_lists (fun i _ ht => cycleBreak_lists k i ht) 8 h

theorem loadNodes_lists (t : Tables) {s : State} (h : ListLaws s) : ListLaws (loadNodes t s) := by
  unfold loadNodes
  extract_lets moved
  have each : ListLaws moved :=
    eachIx_lists (fun i u hu => reportToMowers_lists _ _ _ (setNode_lists i _ hu)) 48 h
  clear_value moved
  exact each.same rfl

/-- A loaded mower stands as at power-on, without captures (R172, step 5). -/
theorem loadMowers_lists (t : Tables) {s : State} (h : ListLaws s) : ListLaws (loadMowers t s) := by
  refine { h with pairs := forall_mem_mapIx (fun i m hm => ?_) 0 }
  cases t.mowers[i]? with
  | none => exact h.pairs m hm
  | some x => exact .absent rfl

theorem loadWater_lists (t : Tables) {s : State} (h : ListLaws s) : ListLaws (loadWater t s) :=
  eachIx_lists (fun _ _ hu => ite_lists (post_lists _ _ _ (setChannel_lists _ _ hu)) hu) 8
    (eachIx_lists (fun i _ hu => formClogged_lists i hu) 8 (h.same rfl))

theorem loadPass_lists (t : Tables) {s : State} (h : ListLaws s) : ListLaws (loadPass t s) := by
  have base := (loadPass_later t s).base
  have loaded : ListLaws (loadLoads t (formLevels (formMonitors false s))) := h.same rfl
  refine base.lists ?_ loaded
  unfold NoticeLaw loadPass
  rw [(formStarts_follow _).notices, formGrants_notices]
  exact loaded.notices

theorem withNext_lists {s : State} (h : ListLaws s) (x : List (Option Placement) × Nat) :
    ListLaws (({ s with line := { s.line with next := x.1 } }, x.2) : State × Nat).1 := h.same rfl

theorem loadTables_lists (t : Tables) {s : State} (h : ListLaws s) : ListLaws (loadTables t s).1 := by
  have halt : ∀ {u}, ListLaws u → ListLaws (haltShows u) := fun hu => hu.same rfl
  have zones : ∀ {u}, ListLaws u → ListLaws (loadZones t u) := fun hu => hu.same rfl
  have lights : ∀ {u}, ListLaws u → ListLaws (loadLights t u) := fun hu => hu.same rfl
  have s2 := settleDeferred_lists (halt (settleDeferred_lists (cyclesBreak_lists 9 h)))
  have s4 := settleDeferred_lists (loadNodes_lists t (settleDeferred_lists (replaceSite_lists t.site s2)))
  have s6 := settleDeferred_lists (zones (loadMowers_lists t s4))
  have s8 := settleDeferred_lists (lights (settleDeferred_lists (loadWater_lists t s6)))
  unfold loadTables
  exact withNext_lists (settle_lists (loadPass_lists t s8)) _

end Sys2Proof.Machine

namespace Sys2Proof.Machine

/-! ### The list laws through requests -/

theorem respond_lists (r : Request) (st : Status) (body : List Byte) {s : State} (h : ListLaws s) :
    ListLaws (respond r st body s) := h.same rfl

theorem reply_lists (r : Request) (st : Status) {s : State} (h : ListLaws s) : ListLaws (reply r st s) := h.same rfl

theorem countBusy_lists {s : State} (h : ListLaws s) : ListLaws (countBusy s) := h.same rfl

theorem answerForward_lists (f : Forwarding) (m : List Byte) {s : State} (h : ListLaws s) :
    ListLaws (answerForward f m s) := ite_lists (reply_lists _ _ h) (respond_lists _ _ _ h)

theorem minuteChanged_lists {s : State} (h : ListLaws s) : ListLaws (minuteChanged s) := settle_lists (h.same rfl)

theorem mgmtBreak_lists {s : State} (h : ListLaws s) : ListLaws (mgmtBreak s) := by
  have emptied : ListLaws
      { s with mgmt := { s.mgmt with ctx1 := none, ctx2 := none, joinCtx := none, answers := [] } } := h.same rfl
  unfold mgmtBreak
  dsimp only
  split
  · exact reply_lists _ _ emptied
  · exact reply_lists _ _ emptied
  all_goals exact emptied

theorem nodesBreak_lists {s : State} (h : ListLaws s) : ListLaws (nodesBreak s) := by
  refine eachIx_lists (fun i u hu => mapMowers_lists (setNode_lists i _ hu) fun m hm => ?_) 48 h
  split
  exacts [nodeLost_fits hm, hm]

theorem enterBreak_lists {s : State} (h : ListLaws s) : ListLaws (enterBreak s) := by
  have broken : ListLaws (lineToBreak s) := h.same rfl
  exact settle_lists (mgmtBreak_lists (nodesBreak_lists (cyclesBreak_lists 8 broken)))

theorem causeRestart_lists {s : State} (h : ListLaws s) : ListLaws (causeRestart s) := by
  unfold causeRestart
  split
  · exact h.same rfl
  · exact enterBreak_lists h
  · exact h

theorem setPointer_lists (a b c : Nat) {s : State} (h : ListLaws s) : ListLaws (setPointer a b c s) := h.same rfl

theorem readTable_lists (r : Request) (sp tb f c : Nat) (t : Table) (st : Status) {s : State} (h : ListLaws s) :
    ListLaws (readTable r sp tb f c t st s) := by
  have read : ∀ {u : State} (next : Nat) (body : List Byte), ListLaws u →
      ListLaws (respond r st body (setPointer sp tb next u)) :=
    fun _ _ hu => respond_lists _ _ _ (setPointer_lists _ _ _ hu)
  exact ite_lists (read _ _ h) (ite_lists (read _ _ (setNode_lists _ _ h)) (read _ _ h))

theorem readEntries_lists (r : Request) (sp tb f c : Nat) {s : State} (h : ListLaws s) :
    ListLaws (readEntries r sp tb f c s) := by
  unfold readEntries
  refine ite_lists (reply_lists _ _ h) ?_
  cases Table.ofNumber tb with
  | none => exact reply_lists _ _ h
  | some t =>
    refine ite_lists (reply_lists _ _ h) (ite_lists (reply_lists _ _ (countBusy_lists h)) ?_)
    exact ite_lists (reply_lists _ _ h) (ite_lists (reply_lists _ _ h) (readTable_lists _ _ _ _ _ _ _ h))

theorem continueRead_lists (r : Request) (c : Nat) {s : State} (h : ListLaws s) : ListLaws (continueRead r c s) := by
  unfold continueRead
  cases s.mgmt.readPtr with
  | none => exact reply_lists _ _ h
  | some p => exact readEntries_lists _ _ _ _ _ h

theorem writeRequest_lists (r : Request) (es : List EntryWrite) {s : State} (h : ListLaws s) :
    ListLaws (writeRequest r es s) := respond_lists _ _ _ (writeAll_lists es h)

theorem writeBytesRequest_lists (r : Request) (sp tb f c : Nat) (bs : List Byte) {s : State} (h : ListLaws s) :
    ListLaws (writeBytesRequest r sp tb f c bs s) := by
  unfold writeBytesRequest
  refine ite_lists (reply_lists _ _ h) ?_
  cases Table.ofNumber tb with
  | none => exact reply_lists _ _ h
  | some t =>
    refine ite_lists (reply_lists _ _ h) ?_
    cases t.written with
    | none => exact reply_lists _ _ h
    | some len => exact ite_lists (reply_lists _ _ h) (writeRequest_lists _ _ h)

/-- What TAKE NOTICES leaves is no longer than what it found (R164). -/
theorem takeNotices_lists (r : Request) {s : State} (h : ListLaws s) : ListLaws (takeNotices r s) := by
  refine respond_lists _ _ _ { h with notices := ?_ }
  have := h.notices
  unfold NoticeLaw at this ⊢
  simp only [List.length_drop]
  omega

theorem loadRequest_lists (r : Request) {s : State} (h : ListLaws s) : ListLaws (loadRequest r s) :=
  ite_lists (reply_lists _ _ (countBusy_lists h))
    (ite_lists (reply_lists _ _ h) (respond_lists _ _ _ (loadTables_lists _ h)))

theorem presetRequest_lists (r : Request) (m target : Nat) {s : State} (h : ListLaws s) :
    ListLaws (presetRequest r m target s) := by
  unfold presetRequest
  refine ite_lists (reply_lists _ _ h) ?_
  dsimp only
  cases (mowerAt s m).base with
  | none => exact reply_lists _ _ h
  | some b =>
    exact respond_lists _ _ _ (settle_lists (askOffsetWrite_lists _ _ (setMower_lists m h fun fits => fits.kept rfl)))

theorem releaseRequest_lists (r : Request) (m : Nat) {s : State} (h : ListLaws s) : ListLaws (releaseRequest r m s) :=
  ite_lists (reply_lists _ _ h) (reply_lists _ _ (setMower_lists m h fun _ => .absent rfl))

theorem dockAllRequest_lists (r : Request) (on : Bool) {s : State} (h : ListLaws s) :
    ListLaws (dockAllRequest r on s) := reply_lists _ _ (ite_lists h (settle_lists (h.same rfl)))

/-- A request answered once its change has settled. -/
theorem replySettled_lists (r : Request) (st : Status) {s : State} (h : ListLaws s) :
    ListLaws (reply r st (settle s)) :=
  reply_lists _ _ (settle_lists h)

theorem startShowRequest_lists (r : Request) (ix : Nat) {s : State} (h : ListLaws s) :
    ListLaws (startShowRequest r ix s) := by
  unfold startShowRequest
  refine ite_lists (reply_lists _ _ h) ?_
  cases (playerAt s ix).cfg with
  | none => exact reply_lists _ _ h
  | some x => exact ite_lists (reply_lists _ _ h) (replySettled_lists _ _ (setPlayer_lists _ _ h))

theorem startBackwashRequest_lists (r : Request) (c : Nat) {s : State} (h : ListLaws s) :
    ListLaws (startBackwashRequest r c s) := by
  unfold startBackwashRequest
  refine ite_lists (reply_lists _ _ h) ?_
  cases (channelAt s c).cfg with
  | none => exact reply_lists _ _ h
  | some x => exact ite_lists (reply_lists _ _ h) (replySettled_lists _ _ (setChannel_lists _ _ h))

theorem stopBackwashRequest_lists (r : Request) (c : Nat) {s : State} (h : ListLaws s) :
    ListLaws (stopBackwashRequest r c s) := by
  unfold stopBackwashRequest
  refine ite_lists (reply_lists _ _ h) ?_
  cases (channelAt s c).stage with
  | idle | restoring | aborting => exact reply_lists _ _ h
  | requested | stopping | reversing | washing | rinsing => exact replySettled_lists _ _ (setChannel_lists _ _ h)

theorem restoreRequest_lists (r : Request) {s : State} (h : ListLaws s) : ListLaws (restoreRequest r s) :=
  ite_lists (reply_lists _ _ (h.same rfl)) (ite_lists (reply_lists _ _ h) (replySettled_lists _ _ (h.same rfl)))

theorem forwardRequest_lists (r : Request) (n : Nat) (p : List Byte) {s : State} (h : ListLaws s) :
    ListLaws (forwardRequest r n p s) := by
  unfold forwardRequest
  refine ite_lists (reply_lists _ _ h) (ite_lists (reply_lists _ _ h) ?_)
  cases (nodeAt s n).ident with
  | none => exact reply_lists _ _ h
  | some x => exact ite_lists (reply_lists _ _ h) (h.same rfl)

theorem process_lists (r : Request) {s : State} (h : ListLaws s) : ListLaws (process r s) := by
  unfold process
  cases r.body with
  | readStatus => exact respond_lists _ _ _ h
  | readEntries => exact readEntries_lists _ _ _ _ _ h
  | continueRead => exact continueRead_lists _ _ h
  | writeEntries => exact writeBytesRequest_lists _ _ _ _ _ _ h
  | write => exact writeRequest_lists _ _ h
  | takeNotices => exact takeNotices_lists _ h
  | setClock => exact reply_lists _ _ (minuteChanged_lists (h.same rfl))
  | saveTables => exact ite_lists (reply_lists _ _ (countBusy_lists h)) (reply_lists _ _ (h.same rfl))
  | loadTables => exact loadRequest_lists _ h
  | presetPosition => exact presetRequest_lists _ _ _ h
  | releaseCapture => exact releaseRequest_lists _ _ h
  | dockAll | resumeAll => exact dockAllRequest_lists _ _ h
  | startShow => exact startShowRequest_lists _ _ h
  | stopShow =>
    exact ite_lists (reply_lists _ _ h) (ite_lists (reply_lists _ _ h) (replySettled_lists _ _ (setPlayer_lists _ _ h)))
  | startBackwash => exact startBackwashRequest_lists _ _ h
  | stopBackwash => exact stopBackwashRequest_lists _ _ h
  | clearFault =>
    exact ite_lists (reply_lists _ _ h) (ite_lists (reply_lists _ _ h)
      (ite_lists (replySettled_lists _ _ (setChannel_lists _ _ h)) (reply_lists _ _ h)))
  | restoreSupply => exact restoreRequest_lists _ h
  | restartLine => exact causeRestart_lists (h.same rfl)
  | forward => exact forwardRequest_lists _ _ _ h
  | refusal | malformed => exact reply_lists _ _ h

/-! ### The queue and its held position -/

/-- A request joins a queue of fewer than 4, or takes the held position of a full one (R152). -/
theorem place_lists (r : Request) {s : State} (h : ListLaws s) : ListLaws (place r s) := by
  obtain ⟨short, full⟩ := h.queue
  unfold place
  split
  · next room =>
    refine { h with queue := ⟨?_, fun held => ?_⟩ }
    · simpa using room
    · have := full held
      omega
  · next noRoom =>
    have length : s.mgmt.queue.length = 4 := by omega
    cases s.mgmt.heldReq with
    | none => exact { h with queue := ⟨short, fun _ => length⟩ }
    | some lost => exact post_lists _ _ _ { h with queue := ⟨short, fun _ => length⟩ }

/-- Taking the oldest request makes room for the held one, which is held only by a queue of 4 (R152). -/
theorem takeOldest_lists {s : State} {r : Request} {q : List Request} (h : ListLaws s) (queue : s.mgmt.queue = r :: q) :
    ListLaws (takeOldest q s) := by
  obtain ⟨short, -⟩ := h.queue
  have room : q.length ≤ 3 := by
    rw [queue, List.length_cons] at short
    omega
  refine { h with queue := ⟨?_, nofun⟩ }
  have joined : (q ++ s.mgmt.heldReq.toList).length ≤ 4 := by
    cases s.mgmt.heldReq <;> simp <;> omega
  exact joined

theorem serveUpTo_lists (n : Nat) {s : State} (h : ListLaws s) : ListLaws (serveUpTo n s) := by
  induction n generalizing s with
  | zero => exact h
  | succ n ih =>
    unfold serveUpTo
    split
    · next queue => exact ih (process_lists _ (takeOldest_lists h queue))
    · exact h

theorem arrive_lists (r : Request) {s : State} (h : ListLaws s) : ListLaws (arrive r s) :=
  serveUpTo_lists 6 (place_lists r h)

/-! ### The list laws in the management slots -/

theorem countDiscards_lists (n : Nat) {s : State} (h : ListLaws s) : ListLaws (countDiscards n s) := h.same rfl

theorem unprivileged_lists (o : Origin) (whole : Bool) (m : List Byte) {s : State} (h : ListLaws s) :
    ListLaws (unprivileged o whole m s) := ite_lists (arrive_lists _ h) (arrive_lists _ (h.same rfl))

theorem joinMessage_lists (x : Handed) (single : Bool) (m : List Byte) {s : State} (h : ListLaws s) :
    ListLaws (joinMessage x single m s) := by
  unfold joinMessage
  cases readJoin m with
  | some k => exact joinNode_lists _ _ h
  | none => exact ite_lists (arrive_lists _ h) (unprivileged_lists _ _ _ h)

theorem toFirst_lists (x : Handed) {s : State} (h : ListLaws s) : ListLaws (toFirst x s) := by
  unfold toFirst
  dsimp only
  split
  · exact countDiscards_lists _ (h.same rfl)
  · exact arrive_lists _ (countDiscards_lists _ (h.same rfl))

theorem toSecond_lists (x : Handed) {s : State} (h : ListLaws s) : ListLaws (toSecond x s) := by
  unfold toSecond
  dsimp only
  split
  · exact countDiscards_lists _ (h.same rfl)
  · exact arrive_lists _ (countDiscards_lists _ (h.same rfl))

theorem toJoin_lists (x : Handed) {s : State} (h : ListLaws s) : ListLaws (toJoin x s) := by
  unfold toJoin
  dsimp only
  split
  · exact countDiscards_lists _ (h.same rfl)
  · exact joinMessage_lists _ _ _ (countDiscards_lists _ (h.same rfl))

theorem toReply_lists (x : Handed) (f : Forwarding) (n : Nat) {s : State} (h : ListLaws s) :
    ListLaws (toReply x f n s) := by
  unfold toReply
  dsimp only
  split
  · exact countDiscards_lists _ (h.same rfl)
  · exact answerForward_lists _ _ (countDiscards_lists _ (h.same rfl))

theorem routeBySender_lists (x : Handed) {s : State} (h : ListLaws s) : ListLaws (routeBySender x s) :=
  ite_lists (toJoin_lists x h) (ite_lists h (ite_lists (toFirst_lists x h) (ite_lists (toFirst_lists x h)
    (ite_lists (toSecond_lists x h) (ite_lists (unprivileged_lists _ _ _ h) h)))))

theorem route_lists (x : Handed) {s : State} (h : ListLaws s) : ListLaws (route x s) := by
  unfold route
  cases s.mgmt.proc with
  | forwarding f frags => exact ite_lists (countDiscards_lists _ (h.same rfl)) (routeBySender_lists x h)
  | waiting f n => exact ite_lists (toReply_lists _ _ _ h) (routeBySender_lists x h)
  | idle | sending => exact routeBySender_lists x h

theorem managementSlot_lists (bids : List Bid) {s : State} (h : ListLaws s) : ListLaws (managementSlot bids s) := by
  unfold managementSlot
  refine ite_lists h ?_
  cases contend bids with
  | none => exact h
  | some w =>
    dsimp only
    split
    · exact h.same rfl
    · exact route_lists _ (h.same rfl)

/-! ### The list laws in a frame -/

theorem outgoingGone_lists {s : State} (h : ListLaws s) : ListLaws (outgoingGone s) := by
  unfold outgoingGone
  split
  · exact h.same rfl
  · exact serveUpTo_lists 6 (h.same rfl)
  · exact h.same rfl
  · unfold beginWait
    split
    · exact answerForward_lists _ _ h
    · exact h.same rfl
  all_goals exact h

theorem fragmentGone_lists (o : Offer) {s : State} (h : ListLaws s) : ListLaws (fragmentGone o s) := by
  cases o with
  | restart f => exact h.same rfl
  | outgoing f => exact outgoingGone_lists h
  | answer a => exact h.same rfl
  | nothing => exact h

theorem stageEnd_lists (i : Nat) {s : State} (h : ListLaws s) : ListLaws (stageEnd i s) := by
  have put : ∀ (j : Nat) f {u : State}, ListLaws u → ListLaws (setChannel j f u) :=
    fun j f _ => setChannel_lists j f
  unfold stageEnd
  dsimp only
  cases (channelAt s i).cfg with
  | none => exact h
  | some r =>
    cases (channelAt s i).stage with
    | idle | requested => exact h
    | stopping | reversing | washing | rinsing => exact put _ _ h
    | restoring => exact post_lists _ _ _ (ite_lists (put _ _ (put _ _ h)) (put _ _ h))
    | aborting => exact post_lists _ _ _ (put _ _ h)

theorem stageFrame_lists (i : Nat) {s : State} (h : ListLaws s) : ListLaws (stageFrame i s) :=
  ite_lists h (ite_lists (stageEnd_lists _ (setChannel_lists _ _ h)) (setChannel_lists _ _ h))

theorem frameTimers_lists {s : State} (h : ListLaws s) : ListLaws (frameTimers s) := by
  have debounced : ListLaws { s with pos := { s.pos with mowers := s.pos.mowers.map Mower.debounceFrame } } :=
    mapMowers_lists h fun _ fits => fits.kept rfl
  have shows : ListLaws (showsTimed s) := debounced.same rfl
  have holds : ∀ {u}, ListLaws u → ListLaws (holdsTimed u) := fun hu => hu.same rfl
  rw [frameTimers_eq]
  exact holds (eachIx_lists (fun i _ hu => stageFrame_lists i hu) 8 shows)

theorem forwardFrame_lists {s : State} (h : ListLaws s) : ListLaws (forwardFrame s) := by
  unfold forwardFrame
  cases s.mgmt.proc with
  | waiting f n => exact ite_lists (reply_lists _ _ h) (h.same rfl)
  | idle | sending | forwarding => exact h

theorem advanceMinute_lists {s : State} (h : ListLaws s) : ListLaws (advanceMinute s) :=
  minuteChanged_lists (h.same rfl)

theorem clockFrame_lists {s : State} (h : ListLaws s) : ListLaws (clockFrame s) :=
  ite_lists h (ite_lists (advanceMinute_lists h) (h.same rfl))

theorem rampAll_lists {s : State} (h : ListLaws s) : ListLaws (rampAll s) := h.same rfl

theorem frameEvent_lists {s : State} (h : ListLaws s) : ListLaws (frameEvent s) :=
  clockFrame_lists (forwardFrame_lists (rampAll_lists (settle_lists (frameTimers_lists h))))

theorem beginFrame_lists (n : Nat) {s : State} (h : ListLaws s) : ListLaws (beginFrame n s) := by
  have begun : ListLaws (headed n s) := by
    rw [headed_eq]
    exact h.same rfl
  rw [beginFrame_eq]
  exact fragmentGone_lists _ (frameEvent_lists begun)

theorem framePeriod_lists {s : State} (h : ListLaws s) : ListLaws (framePeriod s) := by
  unfold framePeriod
  split
  · exact ite_lists (enterBreak_lists h) (beginFrame_lists _ h)
  · exact h
  · exact ite_lists (beginFrame_lists _ h) (h.same rfl)

theorem setDown_lists (slot : Nat) (bs : List Byte) {s : State} (h : ListLaws s) : ListLaws (setDown slot bs s) :=
  h.same rfl

theorem nodeSlot_lists (slot : Nat) (heard : Option (List Sampled)) {s : State} (h : ListLaws s) :
    ListLaws (nodeSlot slot heard s) := by
  unfold nodeSlot
  refine ite_lists h ?_
  cases servedIn slot s with
  | none => exact setDown_lists _ _ h
  | some y => exact outcome_lists _ _ (setDown_lists _ _ h)

/-! ### The list laws through every command -/

theorem forwardExpiry_lists {s : State} (h : ListLaws s) : ListLaws (forwardExpiry s) := by
  unfold forwardExpiry
  cases s.mgmt.proc with
  | waiting f n => exact ite_lists (reply_lists _ _ h) h
  | idle | sending | forwarding => exact h

theorem debounceExpiry_lists (i : Nat) {s : State} (h : ListLaws s) : ListLaws (debounceExpiry i s) :=
  ite_lists (setMower_lists i h fun fits => fits.kept rfl) h

theorem showExpiry_lists (i : Nat) {s : State} (h : ListLaws s) : ListLaws (showExpiry i s) :=
  ite_lists (settle_lists (setPlayer_lists _ _ h)) h

theorem holdExpiry_lists (g : Nat) {s : State} (h : ListLaws s) : ListLaws (holdExpiry g s) :=
  ite_lists (settle_lists (setGroup_lists _ _ h)) h

theorem minuteExpiry_lists {s : State} (h : ListLaws s) : ListLaws (minuteExpiry s) :=
  ite_lists (advanceMinute_lists h) h

theorem cycleStart_lists (i : Nat) {s : State} (h : ListLaws s) : ListLaws (cycleStart i s) := by
  unfold cycleStart
  dsimp only
  cases (channelAt s i).cfg with
  | none => exact h
  | some r => exact ite_lists (setChannel_lists _ _ h) h

theorem cycleStep_lists (i : Nat) {s : State} (h : ListLaws s) : ListLaws (cycleStep i s) := by
  refine (cycleStep_later i s).base.lists ?_ h
  unfold NoticeLaw
  rw [cycleStep_notices]
  exact Notices.joinAll_fits _ h.notices

theorem startCondition_lists (c : Nat) {s : State} (h : ListLaws s) : ListLaws (startCondition c s) :=
  ite_lists (settle_lists (cycleStart_lists _ h)) h

theorem stageExpiry_lists (st : Stage) (c : Nat) {s : State} (h : ListLaws s) : ListLaws (stageExpiry st c s) :=
  ite_lists (settle_lists (stageFrame_lists _ h)) h

theorem stageTest_lists (st : Stage) (c : Nat) {s : State} (h : ListLaws s) : ListLaws (stageTest st c s) :=
  ite_lists (settle_lists (cycleStep_lists _ h)) h

theorem stopPart_lists (m : Mode) {s : State} (h : ListLaws s) : ListLaws (stopPart m s) := (cutOff_lists h).same rfl

theorem next_lists {u t : State} (h : ListLaws u)
    (e : (Host.Outcome.next u : Host.Outcome State Fault Refusal) = .next t) : ListLaws t := by
  cases e
  exact h

theorem whenOn_lists {f : State → State} {s t : State} (hf : ListLaws (f s)) (h : ListLaws s)
    (e : whenOn f s = .next t) : ListLaws t :=
  next_lists (ite_lists hf h) e

theorem whenRunning_lists {f : State → State} {s t : State} (hf : ListLaws (f s)) (h : ListLaws s)
    (e : whenOn (whenRunning f) s = .next t) : ListLaws t :=
  whenOn_lists (f := whenRunning f) (ite_lists hf h) h e

/-- Every command keeps the list laws: a request by its arrival, any other by the operation it names. -/
theorem exec_lists (c : Instr) {s t : State} (h : ListLaws s) (e : exec c s = .next t) : ListLaws t := by
  cases request : asRequest c with
  | some r => exact whenOn_lists (arrive_lists r h) h ((exec_asRequest request s).symm.trans e)
  | none =>
    cases c with
    | resetAsserted => exact next_lists (ite_lists h (stopPart_lists .held h)) e
    | startUp => exact next_lists (startUp_lists (cutOff s)) e
    | lossOfSupply => exact next_lists (stopPart_lists .off h) e
    | frameStart => exact whenOn_lists (framePeriod_lists h) h e
    | lineBreak => exact whenOn_lists (f := breakIfDue) (ite_lists (enterBreak_lists h) h) h e
    | lineResume => exact whenOn_lists (f := resumeIfBreak) (ite_lists (beginFrame_lists 0 h) h) h e
    | nodeSlotEnd slot heard => exact whenOn_lists (nodeSlot_lists slot heard h) h e
    | managementSlotEnd slot bids => exact whenOn_lists (managementSlot_lists bids h) h e
    | notPermittedRefusal o k =>
      refine whenOn_lists (f := fun s => arrive { origin := o, kind := some k, body := .refusal }
        { s with mgmt := { s.mgmt with notPermitted := inc16 s.mgmt.notPermitted } }) ?_ h e
      exact arrive_lists _ (h.same rfl)
    | forwardTimeout => exact whenRunning_lists (forwardExpiry_lists h) h e
    | dockDebounceExpiry m => exact whenRunning_lists (debounceExpiry_lists m h) h e
    | showStepEnd i => exact whenRunning_lists (showExpiry_lists i h) h e
    | holdTimerExpiry g => exact whenRunning_lists (holdExpiry_lists g h) h e
    | minuteAdvance => exact whenRunning_lists (minuteExpiry_lists h) h e
    | backwashStopping c => exact whenOn_lists (startCondition_lists c h) h e
    | stoppingEnd c => exact whenRunning_lists (stageExpiry_lists .stopping c h) h e
    | valveTimeout c => exact whenRunning_lists (stageExpiry_lists .reversing c h) h e
    | washingEnd c => exact whenRunning_lists (stageExpiry_lists .washing c h) h e
    | rinsingEnd c => exact whenRunning_lists (stageExpiry_lists .rinsing c h) h e
    | restoringTimeout c => exact whenRunning_lists (stageExpiry_lists .restoring c h) h e
    | abortingTimeout c => exact whenRunning_lists (stageExpiry_lists .aborting c h) h e
    | valveBackwashPos c => exact whenOn_lists (stageTest_lists .reversing c h) h e
    | restoreNormalPos c => exact whenOn_lists (stageTest_lists .restoring c h) h e
    | abortNormalPos c => exact whenOn_lists (stageTest_lists .aborting c h) h e
    | storeCompletion good => exact whenOn_lists (completeWrite_lists good h) h e
    | _ => cases request

theorem ListLaws.withPending {s : State} (h : ListLaws s) (p : List Instr) : ListLaws { s with pending := p } :=
  h.same rfl

/-- Settles O59: the queue, the notices and the pairs are kept by every operation, and so by every command. -/
theorem stepsKeepTheListLaws : Obligations.StepsKeepTheListLaws := by
  intro s t laws e
  have held : ListLaws s := (listLaws_iff s).2 laws
  refine (listLaws_iff t).1 ?_
  unfold step at e
  split at e
  · exact next_lists held e
  · exact exec_lists _ (held.withPending _) e

end Sys2Proof.Machine

namespace Sys2Proof.Machine

/-! ### RELEASE CAPTURE -/

theorem releaseRequest_named {i : Nat} (named : i ≤ 3) (r : Request) (s : State) :
    releaseRequest r i s = reply r .done (setMower i Mower.release s) :=
  if_neg (Nat.not_lt.2 named)

theorem release_absent {m : Mower} (capA : m.capA = none) (capB : m.capB = none) (locked : m.locked = false) :
    m.release = m := by
  cases m
  cases capA
  cases capB
  cases locked
  rfl

theorem setMower_unchanged {i : Nat} {f : Mower → Mower} {s : State} (same : f (mowerAt s i) = mowerAt s i) :
    setMower i f s = s := by
  have entry : s.pos.mowers.set i (mowerAt s i) = s.pos.mowers := by
    by_cases inside : i < s.pos.mowers.length
    · rw [mowerAt, List.getD_eq_getElem _ _ inside, List.set_getElem_self]
    · exact List.set_eq_of_length_le (Nat.not_lt.1 inside)
  rw [setMower_eq, same, entry]

/-- Settles O41: the index judged first, then the pair dropped whatever the mower's state (R60). -/
theorem releaseCaptureDropsThePair : Obligations.ReleaseCaptureDropsThePair := by
  intro o i s ready
  have run : exec (.releaseCapture o i) s = .next (releaseRequest ⟨o, some 10#8, .releaseCapture i⟩ i s) :=
    exec_ready (c := .releaseCapture o i) rfl ready
  refine ⟨fun beyond => ?_, fun named => ?_, fun capA capB locked named => ?_⟩
  · rw [run, releaseRequest, if_pos beyond, reply_eq_answer]
  · rw [run, releaseRequest_named named, setMower_eq, reply_eq_answer]
    rfl
  · rw [run, releaseRequest_named named, setMower_unchanged (release_absent capA capB locked), reply_eq_answer]

/-! ### PRESET POSITION -/

theorem base_none {m : Mower}
    (h : (m.state = .unused ∨ m.state = .stale)
      ∨ ((m.state = .tracked ∨ m.state = .slipping ∨ m.state = .acquiring) ∧ m.raw = none)
      ∨ ((m.state = .unreferenced ∨ m.state = .lost) ∧ m.computed = none)) : m.base = none := by
  unfold Mower.base
  rcases h with unplaced | ⟨held, raw⟩ | ⟨free, computed⟩
  · rcases unplaced with st | st <;> rw [st]
  · rcases held with st | st | st <;> rw [st, raw]
  · rcases free with st | st <;> rw [st, computed]

theorem base_some {m : Mower} {b : Nat}
    (h : ((m.state = .tracked ∨ m.state = .slipping ∨ m.state = .acquiring) ∧ m.raw = some b)
      ∨ ((m.state = .unreferenced ∨ m.state = .lost) ∧ m.computed = some b)) : m.base = some b := by
  unfold Mower.base
  rcases h with ⟨held, raw⟩ | ⟨free, computed⟩
  · rcases held with st | st | st <;> rw [st, raw]
  · rcases free with st | st <;> rw [st, computed]

theorem presetRequest_beyond {i : Nat} (beyond : 3 < i) (r : Request) (target : Nat) (s : State) :
    presetRequest r i target s = reply r .outOfRange s := if_pos beyond

theorem presetRequest_baseless {i : Nat} {s : State} (named : i ≤ 3) (base : (mowerAt s i).base = none) (r : Request)
    (target : Nat) : presetRequest r i target s = reply r .wrongState s := by
  simp only [presetRequest, if_neg (Nat.not_lt.2 named), base]

/-- A preset on a base position: the target limited to L - 1, the offset that makes the base read as it (R66, R67). -/
theorem presetRequest_based {i b target p : Nat} {s : State} {l : LoopRec} (named : i ≤ 3)
    (base : (mowerAt s i).base = some b) (loop : loopAt s (mowerAt s i).loop = l)
    (limited : min target (l.length - 1) = p) (r : Request) :
    presetRequest r i target s
      = respond r (doneIf (p != target)) (b3 b ++ b3 (circSub l.length p b))
          (settle (askOffsetWrite i l (setMower i (Mower.preset l.length b p) s))) := by
  subst loop limited
  simp only [presetRequest, if_neg (Nat.not_lt.2 named), base]

theorem doneIf_limited (target top : Nat) :
    doneIf (min target top != target) = if top < target then Status.doneClamped else .done := by
  have moved : (min target top != target) = decide (top < target) := by
    rw [Bool.eq_iff_iff, bne_iff_ne, decide_eq_true_iff]
    omega
  simp only [moved, doneIf, decide_eq_true_eq]

theorem askOffsetWrite_plain {l : LoopRec} (persist : l.persist = false) (i : Nat) (s : State) :
    askOffsetWrite i l s = s := by
  simp [askOffsetWrite, persist]

theorem askOffsetWrite_idle {l : LoopRec} {s : State} (persist : l.persist = true) (idle : s.store.writing = none)
    (i : Nat) (f : Mower → Mower) :
    askOffsetWrite i l (setMower i f s) = beginWrite (.offsets (offsetsOf (setMower i f s))) (setMower i f s) := by
  simp [askOffsetWrite, persist, idle]

theorem askOffsetWrite_writing {l : LoopRec} {s : State} (persist : l.persist = true)
    (writing : s.store.writing.isSome = true) (i : Nat) (f : Mower → Mower) :
    askOffsetWrite i l (setMower i f s) = setMower i (fun m => { f m with unsaved := true }) s := by
  have marked : askOffsetWrite i l (setMower i f s)
      = setMower i (fun m => { m with unsaved := true }) (setMower i f s) := by
    simp [askOffsetWrite, persist, Option.isSome_iff_ne_none.1 writing]
  rw [marked]
  simp only [setMower, List.modify_modify_eq]
  rfl

/-- Settles O40: the refusals by the index and the base, then the three ways in which a preset asks for its write. -/
theorem presetPositionSetsTheOffset : Obligations.PresetPositionSetsTheOffset := by
  intro o i target s ready m l L held free
  have run : exec (.presetPosition o i target) s
      = .next (presetRequest ⟨o, some 9#8, .presetPosition i target⟩ i target s) :=
    exec_ready (c := .presetPosition o i target) rfl ready
  refine ⟨fun beyond => ?_, fun named baseless => ?_, ?_⟩
  · rw [run, presetRequest_beyond beyond, reply_eq_answer]
  · rw [run, presetRequest_baseless named (base_none baseless), reply_eq_answer]
  intro b named based p status offset body m' mowers
  have limited : min target (l.length - 1) = p := by
    show min target (L - 1) = if L - 1 < target then L - 1 else target
    split <;> omega
  have answered : exec (.presetPosition o i target) s
      = .next (answer o 9#8 status body (settle (askOffsetWrite i l (setMower i (Mower.preset L b p) s)))) := by
    have clamped : doneIf (p != target) = status := limited ▸ doneIf_limited target (L - 1)
    have length : l.length = L := rfl
    have sent : b3 b ++ b3 (circSub L p b) = body := rfl
    rw [run, presetRequest_based named (base_some based) rfl limited, clamped, length, sent, respond_eq_answer]
  have preset : Mower.preset L b p m = m' := rfl
  have put : setMower i (Mower.preset L b p) s = { s with pos := { s.pos with mowers := mowers } } :=
    (setMower_eq i _ s).trans (by rw [show mowerAt s i = m from rfl, preset])
  refine ⟨fun plain => ?_, fun persist idle => ?_, fun persist writing => ?_⟩
  · rw [answered, askOffsetWrite_plain plain, put]
  · rw [answered, askOffsetWrite_idle persist idle, put]
    rfl
  · rw [answered, askOffsetWrite_writing persist writing, setMower_eq]
    rfl

end Sys2Proof.Machine

namespace Sys2Proof.Machine

/-! ### The store's completion -/

/-- A good completion clears offset unsaved where the offset is the one copied (R65). -/
theorem mowerAt_clearUnsaved (copy : List (Nat × Bool)) (s : State) (i : Nat) :
    mowerAt (clearUnsaved copy s) i
      = { mowerAt s i with
          unsaved :=
            (mowerAt s i).unsaved
              && !(decide (copy[i]? = some ((mowerAt s i).offset, (mowerAt s i).offsetValid))) } := by
  have entry : (clearUnsaved copy s).pos.mowers[i]?
      = s.pos.mowers[i]?.map
          (fun m => if copy[i]? = some (m.offset, m.offsetValid) then { m with unsaved := false } else m) := by
    rw [clearUnsaved, mapIx_getElem?, Nat.zero_add]
  rw [mowerAt, List.getD_eq_getElem?_getD, entry]
  simp only [mowerAt, List.getD_eq_getElem?_getD]
  cases s.pos.mowers[i]? with
  | none => rfl
  | some m =>
    simp only [Option.map_some, Option.getD_some]
    split <;> simp [*]

/-- A failed completion sets offset unsaved on the persisting mowers with a valid offset (R65). -/
theorem mowerAt_setUnsaved (s : State) (i : Nat) :
    mowerAt (setUnsaved s) i
      = { mowerAt s i with
          unsaved :=
            (mowerAt s i).unsaved || ((mowerAt s i).offsetValid && (loopAt s (mowerAt s i).loop).persist) } := by
  have mapped : mowerAt (setUnsaved s) i
      = if (mowerAt s i).offsetValid && (loopAt s (mowerAt s i).loop).persist then { mowerAt s i with unsaved := true }
        else mowerAt s i :=
    mowerAt_map (fun m => if m.offsetValid && (loopAt s m.loop).persist then { m with unsaved := true } else m)
      (by simp [Mower.blank]) s.pos.mowers i
  rw [mapped]
  split
  · next unsaved => simp [unsaved]
  · next saved => simp [Bool.eq_false_iff.2 saved]

/-- A good SAVE TABLES leaves an image that passes its three tests (R167, R168). -/
theorem savedImage_valid (copy : Tables) (count : Nat) : (savedImage copy count).valid = true := by
  simp [Image.valid, savedImage, Image.sealed]

/-- An offset write puts each copied offset into its mower of the image (R168). -/
theorem offsetImage_mowers (copy : List (Nat × Bool)) (valid : Bool) {x : Image} {i : Nat} {m : MowerImage}
    (entry : x.tables.mowers[i]? = some m) :
    (∀ offset offsetValid, copy[i]? = some (offset, offsetValid) →
        (offsetImage copy valid x).tables.mowers[i]? = some { m with offset := offset, offsetValid := offsetValid })
      ∧ (copy[i]? = none → (offsetImage copy valid x).tables.mowers[i]? = some m) := by
  simp only [offsetImage, Image.sealed, mapIx_getElem?, Nat.zero_add, entry, Option.map_some]
  refine ⟨fun offset offsetValid copied => ?_, fun uncopied => ?_⟩
  · simp only [copied]
  · simp only [uncopied]

theorem completeWrite_none {s : State} (idle : s.store.writing = none) (good : Bool) : completeWrite good s = s := by
  simp only [completeWrite, idle]

theorem completeWrite_saved {s : State} {copy : Tables} {count : Nat}
    (writing : s.store.writing = some (.save copy count)) :
    completeWrite true s
      = clearUnsaved (StoreWrite.save copy count).copied
          (post .storeDone none count
            { s with
              store := { s.store with image := savedImage copy count, imageValid := true, writing := none } }) := by
  simp only [completeWrite, writing]

theorem completeWrite_offsets {s : State} {copy : List (Nat × Bool)}
    (writing : s.store.writing = some (.offsets copy)) :
    completeWrite true s
      = clearUnsaved copy
          { s with
            store :=
              { s.store with image := offsetImage copy s.store.imageValid s.store.image, writing := none } } := by
  simp only [completeWrite, writing]

/-- The detail of STORE_FAILED: 1 for SAVE TABLES, 2 for an offset write (R168). -/
def StoreWrite.failure : StoreWrite → Nat
  | .save _ _ => 1
  | .offsets _ => 2

theorem completeWrite_failed {s : State} {w : StoreWrite} (writing : s.store.writing = some w) :
    completeWrite false s
      = setUnsaved
          (post .storeFailed none w.failure
            { s with
              store :=
                { s.store with
                  image := { s.store.image with mark := false }, imageValid := false, writing := none } }) := by
  cases w <;> simp only [completeWrite, writing] <;> rfl

/-- Settles O38: the completion by the write and its outcome; without a write there is none (R65, R168). -/
theorem storeCompletionEndsTheWrite : Obligations.StoreCompletionEndsTheWrite := by
  intro good s on
  have run : exec (.storeCompletion good) s = .next (completeWrite good s) := whenOn_on (completeWrite good) on
  refine ⟨fun idle => by rw [run, completeWrite_none idle], ?_⟩
  intro w writing copied
  refine ⟨completeWrite good s, run, ?_⟩
  cases good with
  | false =>
    rw [completeWrite_failed writing]
    refine ⟨rfl, rfl, rfl, fun i _ => mowerAt_setUnsaved _ i, nofun, nofun, fun _ => ⟨rfl, rfl, ?_, ?_⟩⟩
    · rintro copy n rfl
      rfl
    · rintro copy rfl
      rfl
  | true =>
    cases w with
    | save copy n =>
      rw [completeWrite_saved writing]
      refine ⟨rfl, rfl, rfl, fun i _ => mowerAt_clearUnsaved _ _ i, ?_, nofun, nofun⟩
      rintro _ _ ⟨⟩ -
      exact ⟨rfl, rfl, savedImage_valid copy n, rfl, rfl⟩
    | offsets copy =>
      rw [completeWrite_offsets writing]
      refine ⟨rfl, rfl, rfl, fun i _ => mowerAt_clearUnsaved _ _ i, nofun, ?_, nofun⟩
      rintro _ ⟨⟩ -
      exact ⟨rfl, rfl, rfl, rfl, rfl, fun i m entry => offsetImage_mowers copy _ entry⟩

end Sys2Proof.Machine

namespace Sys2Proof.Machine

/-! ### What a handling moves apart from its settling -/

/-- What results are formed from in a record. -/
def Node.seen (n : Node) : Option NodeIdent × NodeState × Option Nat := (n.ident, n.state, n.code)

/-- What results are formed from in a mower. -/
def Mower.seen (m : Mower) : Nat × Nat × Direction × MowerState × Bool :=
  (m.loop, m.reported, m.dir, m.state, m.verified)

/-- What the laws of a settled state speak of, the light groups aside. -/
structure Seen where
  nodes : List (Option NodeIdent × NodeState × Option Nat)
  loops : List (Option LoopRec)
  mowers : List (Nat × Nat × Direction × MowerState × Bool)
  zone : ZoneMon
  channels : List Channel
  shows : List Player
  pond : Option Nat
  rain : Bool
  dry : Bool
  loads : List Load
  shed : Bool
  site : Site

def State.seen (s : State) : Seen :=
  { nodes := s.nodes.recs.map Node.seen, loops := s.pos.loops, mowers := s.pos.mowers.map Mower.seen, zone := s.zone
    channels := s.water.channels, shows := s.water.shows, pond := s.water.pond, rain := s.water.rain, dry := s.water.dry
    loads := s.power.loads, shed := s.power.shed, site := s.mgmt.site }

/-- Nothing moves that a law of a settled state speaks of. -/
structure Steady (s t : State) : Prop where
  seen : t.seen = s.seen
  light : t.light = s.light

/-- A predicate that settling brings about, whatever it finds, and that the changes left unsettled keep: those of what
no such law speaks of, and the ramp steps of a frame (R131). -/
structure SettledInvariant (P : State → Prop) : Prop where
  settled : ∀ s, P (settle s)
  kept : ∀ {s t}, P s → Steady s t → P t
  ramped : ∀ {s}, P s → P (rampAll s)

theorem mapNodes_steady {f : Node → Node} {s : State} (hf : ∀ n, (f n).seen = n.seen) :
    Steady s { s with nodes := { s.nodes with recs := s.nodes.recs.map f } } := by
  refine ⟨?_, rfl⟩
  simp only [State.seen, List.map_map]
  congr 1
  exact List.map_congr_left fun n _ => hf n

theorem setNode_steady {f : Node → Node} {i : Nat} {s : State} (hf : ∀ n, (f n).seen = n.seen) :
    Steady s (setNode i f s) := by
  refine ⟨?_, rfl⟩
  simp only [State.seen, setNode, map_modify Node.seen f hf]

theorem setMower_steady {f : Mower → Mower} {i : Nat} {s : State} (hf : ∀ m, (f m).seen = m.seen) :
    Steady s (setMower i f s) := by
  refine ⟨?_, rfl⟩
  simp only [State.seen, setMower, map_modify Mower.seen f hf]

theorem setUnsaved_steady (s : State) : Steady s (setUnsaved s) := by
  refine ⟨?_, rfl⟩
  simp only [State.seen, setUnsaved, List.map_map]
  congr 1
  refine List.map_congr_left fun m _ => ?_
  simp only [Function.comp]
  split <;> rfl

theorem clearUnsaved_steady (copy : List (Nat × Bool)) (s : State) : Steady s (clearUnsaved copy s) := by
  refine ⟨?_, rfl⟩
  simp only [State.seen, clearUnsaved]
  congr 1
  refine mapIx_map _ Mower.seen Mower.seen (fun i m => ?_) 0 _
  split <;> rfl

namespace SettledInvariant

variable {P : State → Prop} {s : State}

theorem ite_keeps (_ : SettledInvariant P) {c : Prop} [Decidable c] {a b : State} (ha : P a) (hb : P b) :
    P (if c then a else b) := by
  split <;> assumption

theorem eachIx_keeps (_ : SettledInvariant P) {f : Nat → State → State} (hf : ∀ i t, P t → P (f i t)) (n : Nat)
    (h : P s) : P (eachIx f n s) := Machine.eachIx_keeps hf n h

/-- The state a write leaves, its status aside. -/
theorem written_keeps (_ : SettledInvariant P) {st : Status} (h : P s) : P ((s, st) : State × Status).1 := h

theorem written_settled (inv : SettledInvariant P) {st : Status} : P ((settle s, st) : State × Status).1 :=
  inv.written_keeps (inv.settled s)

theorem write_ite (_ : SettledInvariant P) {c : Prop} [Decidable c] {x y : State × Status} (hx : P x.1) (hy : P y.1) :
    P (if c then x else y).1 := by
  split <;> assumption

theorem post_keeps (inv : SettledInvariant P) (k : NoticeKind) (x : Option Nat) (d : Nat) (h : P s) :
    P (post k x d s) := inv.kept h ⟨rfl, rfl⟩

theorem respond_keeps (inv : SettledInvariant P) (r : Request) (st : Status) (body : List Byte) (h : P s) :
    P (respond r st body s) := inv.kept h ⟨rfl, rfl⟩

theorem reply_keeps (inv : SettledInvariant P) (r : Request) (st : Status) (h : P s) : P (reply r st s) :=
  inv.respond_keeps r st [] h

/-- A request answered once its change has settled, whatever the change. -/
theorem reply_settled (inv : SettledInvariant P) (r : Request) (st : Status) (s : State) : P (reply r st (settle s)) :=
  inv.reply_keeps r st (inv.settled s)

theorem countBusy_keeps (inv : SettledInvariant P) (h : P s) : P (countBusy s) := inv.kept h ⟨rfl, rfl⟩

theorem answerForward_keeps (inv : SettledInvariant P) (f : Forwarding) (m : List Byte) (h : P s) :
    P (answerForward f m s) := inv.ite_keeps (inv.reply_keeps _ _ h) (inv.respond_keeps _ _ _ h)

/-! ### Settled laws in the Node Table -/

theorem giveAnswer_keeps (inv : SettledInvariant P) (a : JoinAnswer) (h : P s) : P (giveAnswer a s) :=
  inv.kept h ⟨rfl, rfl⟩

theorem dropJoiner_keeps (inv : SettledInvariant P) (x : Serial) (h : P s) : P (dropJoiner x s) :=
  inv.kept h ⟨rfl, rfl⟩

theorem changeNode_settled (inv : SettledInvariant P) (n : Nat) (f : Node → Node) (s : State) : P (changeNode n f s) :=
  inv.settled _

theorem mowerSamples_keeps (inv : SettledInvariant P) (n : Nat) (w : Content) (h : P s) : P (mowerSamples n w s) :=
  inv.eachIx_keeps (fun i t ht => inv.ite_keeps (inv.settled (mowerSample i w t)) ht) 4 h

/-- A sample handed over: to each bound mower in turn, to the filter monitors, to the allocator (R32, R46). -/
theorem handOver_keeps (inv : SettledInvariant P) (n : Nat) (k : NodeKind) (w : Content) (h : P s) :
    P (handOver n k w s) := by
  unfold handOver
  cases k with
  | mower => exact inv.mowerSamples_keeps n w h
  | pump => exact inv.settled _
  | supply => exact inv.ite_keeps (inv.settled _) h
  | valve | light | dock | weather | level | motion | gateway => exact h

theorem goodSample_keeps (inv : SettledInvariant P) (n : Nat) (noisy : Bool) (w : Content) (h : P s) :
    P (goodSample n noisy w s) := by
  unfold goodSample
  cases (nodeAt s n).ident with
  | none => exact h
  | some x => exact inv.handOver_keeps n x.kind w (inv.settled _)

theorem missedSample_settled (inv : SettledInvariant P) (n : Nat) (checkError : Bool) (s : State) :
    P (missedSample n checkError s) := inv.changeNode_settled n (Node.miss checkError) s

theorem outcome_keeps (inv : SettledInvariant P) (n : Nat) (heard : Heard) (h : P s) : P (outcome n heard s) := by
  cases heard with
  | good noisy w => exact inv.goodSample_keeps n noisy w h
  | failed | silence => exact inv.missedSample_settled n _ s

theorem unknownJoin_keeps (inv : SettledInvariant P) (serial : Serial) (k : Nat) (h : P s) :
    P (unknownJoin serial k s) := by
  have listed : ∀ j o, P { s with nodes := { s.nodes with joiners := j, overflow := o } } :=
    fun _ _ => inv.kept h ⟨rfl, rfl⟩
  exact inv.ite_keeps (listed _ _) (inv.ite_keeps (inv.post_keeps _ _ _ (listed _ _)) (listed _ _))

theorem refuseJoin_keeps (inv : SettledInvariant P) (serial : Serial) (x : Option Nat) (k : Nat) (h : P s) :
    P (refuseJoin serial x k s) := inv.post_keeps _ _ _ (inv.giveAnswer_keeps _ h)

theorem joinNode_keeps (inv : SettledInvariant P) (serial : Serial) (k : Nat) (h : P s) : P (joinNode serial k s) := by
  have joined : ∀ i x rejoin, P (joinRecord i x rejoin s) := fun i x rejoin => inv.changeNode_settled i _ _
  unfold joinNode
  cases NodeKind.ofNumber k with
  | none => exact inv.refuseJoin_keeps _ _ _ h
  | some kind =>
    cases findSerial serial s with
    | none => exact inv.unknownJoin_keeps _ _ h
    | some i =>
      dsimp only
      cases (nodeAt s i).ident with
      | none => exact h
      | some x =>
        refine inv.ite_keeps (inv.refuseJoin_keeps _ _ _ h) ?_
        cases (nodeAt s i).state with
        | active | stale => exact inv.ite_keeps (inv.giveAnswer_keeps _ h) (joined _ _ _)
        | provisioned | dropped | empty => exact joined _ _ _

/-! ### Settled laws under entry writes -/

theorem writeSlot_keeps (inv : SettledInvariant P) (i : Nat) (w : Option SlotWrite) (h : P s) :
    P (writeSlot i w s).1 := by
  have put : ∀ p, P (setNext i p s) := fun _ => inv.kept h ⟨rfl, rfl⟩
  refine inv.write_ite h ?_
  cases w with
  | none => exact inv.written_keeps (put none)
  | some w => exact inv.write_ite h (inv.write_ite h (inv.written_keeps (put _)))

theorem writeNode_keeps (inv : SettledInvariant P) (i : Nat) (w : Option NodeWrite) (h : P s) :
    P (writeNode i w s).1 := by
  refine inv.write_ite h ?_
  cases w with
  | none => exact inv.write_ite h (inv.written_keeps (inv.changeNode_settled i _ s))
  | some w =>
    dsimp only
    cases NodeKind.ofNumber w.kind with
    | none => exact h
    | some k =>
      refine inv.write_ite h (inv.write_ite h ?_)
      exact inv.written_keeps (inv.ite_keeps (inv.dropJoiner_keeps _ h) (inv.changeNode_settled i _ _))

theorem writeJoiner_keeps (inv : SettledInvariant P) (i : Nat) (blank : Bool) (h : P s) :
    P (writeJoiner i blank s).1 := inv.write_ite h (inv.write_ite h (inv.written_keeps (inv.kept h ⟨rfl, rfl⟩)))

theorem writeLoop_keeps (inv : SettledInvariant P) (i : Nat) (w : Option LoopWrite) (h : P s) :
    P (writeLoop i w s).1 := by
  refine inv.write_ite h ?_
  cases w with
  | none => exact inv.write_ite h inv.written_settled
  | some w =>
    dsimp only
    cases s.pos.loops.getD i none with
    | none => exact inv.written_settled
    | some old => exact inv.write_ite h inv.written_settled

theorem writeMower_keeps (inv : SettledInvariant P) (i : Nat) (w : MowerWrite) (h : P s) : P (writeMower i w s).1 :=
  inv.write_ite h (inv.write_ite h inv.written_settled)

theorem writeZone_keeps (inv : SettledInvariant P) (i : Nat) (w : Option ZoneWrite) (h : P s) :
    P (writeZone i w s).1 := by
  refine inv.write_ite h (inv.write_ite h ?_)
  cases w with
  | none => exact inv.written_settled
  | some w =>
    dsimp only
    split
    · exact inv.write_ite h inv.written_settled
    · exact h

theorem writeChannel_keeps (inv : SettledInvariant P) (i : Nat) (w : Option ChannelWrite) (h : P s) :
    P (writeChannel i w s).1 := by
  refine inv.write_ite h (inv.write_ite h ?_)
  cases w with
  | none => exact inv.written_settled
  | some w =>
    dsimp only
    cases ChannelKind.ofNumber w.kind with
    | none => exact h
    | some k => exact inv.write_ite h inv.written_settled

theorem writeShow_keeps (inv : SettledInvariant P) (i : Nat) (w : Option ShowWrite) (h : P s) :
    P (writeShow i w s).1 := by
  refine inv.write_ite h (inv.write_ite h ?_)
  cases w with
  | none => exact inv.written_settled
  | some w => exact inv.write_ite h (inv.write_ite h inv.written_settled)

/-- A step written is read only when it is loaded (R101, R102). -/
theorem writeStep_keeps (inv : SettledInvariant P) (i : Nat) (w : StepWrite) (h : P s) : P (writeStep i w s).1 :=
  inv.write_ite h (inv.written_keeps (inv.kept h ⟨rfl, rfl⟩))

theorem writeLight_keeps (inv : SettledInvariant P) (i : Nat) (w : Option LightWrite) (h : P s) :
    P (writeLight i w s).1 := by
  refine inv.write_ite h ?_
  cases w with
  | none => exact inv.written_settled
  | some w =>
    dsimp only
    cases LightMode.ofNumber w.mode with
    | none => exact h
    | some m => exact inv.write_ite h inv.written_settled

theorem writeLoad_keeps (inv : SettledInvariant P) (i : Nat) (w : Option LoadWrite) (h : P s) :
    P (writeLoad i w s).1 := by
  refine inv.write_ite h ?_
  cases w with
  | none => exact h
  | some w => exact inv.write_ite h inv.written_settled

theorem writeSite_keeps (inv : SettledInvariant P) (i : Nat) (w : Option SiteWrite) (h : P s) :
    P (writeSite i w s).1 := by
  refine inv.write_ite h ?_
  cases w with
  | none => exact h
  | some w => exact inv.write_ite h inv.written_settled

theorem writeEntry_keeps (inv : SettledInvariant P) (e : EntryWrite) (h : P s) : P (writeEntry e s).1 := by
  cases e with
  | slotmap i w => exact inv.writeSlot_keeps i w h
  | nodes i w => exact inv.writeNode_keeps i w h
  | joiners i b => exact inv.writeJoiner_keeps i b h
  | loops i w => exact inv.writeLoop_keeps i w h
  | mowers i w => exact inv.writeMower_keeps i w h
  | zones i w => exact inv.writeZone_keeps i w h
  | channels i w => exact inv.writeChannel_keeps i w h
  | shows i w => exact inv.writeShow_keeps i w h
  | steps i w => exact inv.writeStep_keeps i w h
  | lights i w => exact inv.writeLight_keeps i w h
  | loads i w => exact inv.writeLoad_keeps i w h
  | site i w => exact inv.writeSite_keeps i w h

theorem writeAll_keeps (inv : SettledInvariant P) (es : List EntryWrite) (h : P s) : P (writeAll es s).1 := by
  induction es generalizing s with
  | nil => exact h
  | cons e es ih => exact ih (inv.writeEntry_keeps e h)

/-! ### Settled laws through requests -/

theorem setPointer_keeps (inv : SettledInvariant P) (a b c : Nat) (h : P s) : P (setPointer a b c s) :=
  inv.kept h ⟨rfl, rfl⟩

theorem readTable_keeps (inv : SettledInvariant P) (r : Request) (sp tb f c : Nat) (t : Table) (st : Status) (h : P s) :
    P (readTable r sp tb f c t st s) := by
  have read : ∀ {u : State} (next : Nat) (body : List Byte), P u → P (respond r st body (setPointer sp tb next u)) :=
    fun _ _ hu => inv.respond_keeps _ _ _ (inv.setPointer_keeps _ _ _ hu)
  have emptied : P (setNode f (fun n => { n with changes := [] }) s) := inv.kept h (setNode_steady fun _ => rfl)
  exact inv.ite_keeps (read _ _ h) (inv.ite_keeps (read _ _ emptied) (read _ _ h))

theorem readEntries_keeps (inv : SettledInvariant P) (r : Request) (sp tb f c : Nat) (h : P s) :
    P (readEntries r sp tb f c s) := by
  have refused : ∀ st, P (reply r st s) := fun st => inv.reply_keeps r st h
  refine inv.ite_keeps (refused _) ?_
  cases Table.ofNumber tb with
  | none => exact refused _
  | some t =>
    refine inv.ite_keeps (refused _) (inv.ite_keeps (inv.reply_keeps _ _ (inv.countBusy_keeps h)) ?_)
    exact inv.ite_keeps (refused _) (inv.ite_keeps (refused _) (inv.readTable_keeps _ _ _ _ _ _ _ h))

theorem continueRead_keeps (inv : SettledInvariant P) (r : Request) (c : Nat) (h : P s) : P (continueRead r c s) := by
  unfold continueRead
  cases s.mgmt.readPtr with
  | none => exact inv.reply_keeps _ _ h
  | some p => exact inv.readEntries_keeps _ _ _ _ _ h

theorem writeRequest_keeps (inv : SettledInvariant P) (r : Request) (es : List EntryWrite) (h : P s) :
    P (writeRequest r es s) := inv.respond_keeps _ _ _ (inv.writeAll_keeps es h)

theorem writeBytesRequest_keeps (inv : SettledInvariant P) (r : Request) (sp tb f c : Nat) (bs : List Byte) (h : P s) :
    P (writeBytesRequest r sp tb f c bs s) := by
  have refused : ∀ st, P (reply r st s) := fun st => inv.reply_keeps r st h
  refine inv.ite_keeps (refused _) ?_
  cases Table.ofNumber tb with
  | none => exact refused _
  | some t =>
    refine inv.ite_keeps (refused _) ?_
    cases t.written with
    | none => exact refused _
    | some len => exact inv.ite_keeps (refused _) (inv.writeRequest_keeps _ _ h)

theorem withNext_keeps (inv : SettledInvariant P) (h : P s) (x : List (Option Placement) × Nat) :
    P (({ s with line := { s.line with next := x.1 } }, x.2) : State × Nat).1 := inv.kept h ⟨rfl, rfl⟩

/-- The load ends settled; only the next map is replaced after it (R9, R172). -/
theorem loadTables_settled (inv : SettledInvariant P) (t : Tables) (s : State) : P (loadTables t s).1 := by
  unfold loadTables
  exact inv.withNext_keeps (inv.settled _) _

theorem loadRequest_keeps (inv : SettledInvariant P) (r : Request) (h : P s) : P (loadRequest r s) :=
  inv.ite_keeps (inv.reply_keeps _ _ (inv.countBusy_keeps h))
    (inv.ite_keeps (inv.reply_keeps _ _ h) (inv.respond_keeps _ _ _ (inv.loadTables_settled _ s)))

theorem saveRequest_keeps (inv : SettledInvariant P) (r : Request) (h : P s) : P (saveRequest r s) :=
  inv.ite_keeps (inv.reply_keeps _ _ (inv.countBusy_keeps h)) (inv.reply_keeps _ _ (inv.kept h ⟨rfl, rfl⟩))

theorem presetRequest_keeps (inv : SettledInvariant P) (r : Request) (m target : Nat) (h : P s) :
    P (presetRequest r m target s) := by
  refine inv.ite_keeps (inv.reply_keeps _ _ h) ?_
  dsimp only
  cases (mowerAt s m).base with
  | none => exact inv.reply_keeps _ _ h
  | some b => exact inv.respond_keeps _ _ _ (inv.settled _)

/-- No result is formed from the captures or their lock. -/
theorem releaseRequest_keeps (inv : SettledInvariant P) (r : Request) (m : Nat) (h : P s) : P (releaseRequest r m s) :=
  inv.ite_keeps (inv.reply_keeps _ _ h) (inv.reply_keeps _ _ (inv.kept h (setMower_steady fun _ => rfl)))

theorem dockAllRequest_keeps (inv : SettledInvariant P) (r : Request) (on : Bool) (h : P s) :
    P (dockAllRequest r on s) := inv.reply_keeps _ _ (inv.ite_keeps h (inv.settled _))

theorem startShowRequest_keeps (inv : SettledInvariant P) (r : Request) (ix : Nat) (h : P s) :
    P (startShowRequest r ix s) := by
  refine inv.ite_keeps (inv.reply_keeps _ _ h) ?_
  cases (playerAt s ix).cfg with
  | none => exact inv.reply_keeps _ _ h
  | some x => exact inv.ite_keeps (inv.reply_keeps _ _ h) (inv.reply_settled _ _ _)

theorem stopShowRequest_keeps (inv : SettledInvariant P) (r : Request) (ix : Nat) (h : P s) :
    P (stopShowRequest r ix s) :=
  inv.ite_keeps (inv.reply_keeps _ _ h) (inv.ite_keeps (inv.reply_keeps _ _ h) (inv.reply_settled _ _ _))

theorem startBackwashRequest_keeps (inv : SettledInvariant P) (r : Request) (c : Nat) (h : P s) :
    P (startBackwashRequest r c s) := by
  refine inv.ite_keeps (inv.reply_keeps _ _ h) ?_
  cases (channelAt s c).cfg with
  | none => exact inv.reply_keeps _ _ h
  | some x => exact inv.ite_keeps (inv.reply_keeps _ _ h) (inv.reply_settled _ _ _)

theorem stopBackwashRequest_keeps (inv : SettledInvariant P) (r : Request) (c : Nat) (h : P s) :
    P (stopBackwashRequest r c s) := by
  refine inv.ite_keeps (inv.reply_keeps _ _ h) ?_
  cases (channelAt s c).stage with
  | idle | restoring | aborting => exact inv.reply_keeps _ _ h
  | requested | stopping | reversing | washing | rinsing => exact inv.reply_settled _ _ _

theorem clearFaultRequest_keeps (inv : SettledInvariant P) (r : Request) (c : Nat) (h : P s) :
    P (clearFaultRequest r c s) :=
  inv.ite_keeps (inv.reply_keeps _ _ h)
    (inv.ite_keeps (inv.reply_keeps _ _ h) (inv.ite_keeps (inv.reply_settled _ _ _) (inv.reply_keeps _ _ h)))

theorem restoreRequest_keeps (inv : SettledInvariant P) (r : Request) (h : P s) : P (restoreRequest r s) :=
  inv.ite_keeps (inv.reply_keeps _ _ (inv.kept h ⟨rfl, rfl⟩))
    (inv.ite_keeps (inv.reply_keeps _ _ h) (inv.reply_settled _ _ _))

theorem minuteChanged_settled (inv : SettledInvariant P) (s : State) : P (minuteChanged s) := inv.settled _

theorem enterBreak_settled (inv : SettledInvariant P) (s : State) : P (enterBreak s) := inv.settled _

theorem restartRequest_keeps (inv : SettledInvariant P) (r : Request) (h : P s) : P (restartRequest r s) := by
  unfold restartRequest causeRestart
  split
  · exact inv.kept h ⟨rfl, rfl⟩
  · exact inv.enterBreak_settled _
  · exact inv.kept h ⟨rfl, rfl⟩

theorem forwardRequest_keeps (inv : SettledInvariant P) (r : Request) (n : Nat) (p : List Byte) (h : P s) :
    P (forwardRequest r n p s) := by
  have refused : ∀ st, P (reply r st s) := fun st => inv.reply_keeps r st h
  refine inv.ite_keeps (refused _) (inv.ite_keeps (refused _) ?_)
  cases (nodeAt s n).ident with
  | none => exact refused _
  | some x => exact inv.ite_keeps (refused _) (inv.kept h ⟨rfl, rfl⟩)

theorem process_keeps (inv : SettledInvariant P) (r : Request) (h : P s) : P (process r s) := by
  unfold process
  cases r.body with
  | readStatus => exact inv.respond_keeps _ _ _ h
  | readEntries => exact inv.readEntries_keeps _ _ _ _ _ h
  | continueRead => exact inv.continueRead_keeps _ _ h
  | writeEntries => exact inv.writeBytesRequest_keeps _ _ _ _ _ _ h
  | write => exact inv.writeRequest_keeps _ _ h
  | takeNotices => exact inv.kept h ⟨rfl, rfl⟩
  | setClock => exact inv.reply_keeps _ _ (inv.minuteChanged_settled _)
  | saveTables => exact inv.saveRequest_keeps _ h
  | loadTables => exact inv.loadRequest_keeps _ h
  | presetPosition => exact inv.presetRequest_keeps _ _ _ h
  | releaseCapture => exact inv.releaseRequest_keeps _ _ h
  | dockAll | resumeAll => exact inv.dockAllRequest_keeps _ _ h
  | startShow => exact inv.startShowRequest_keeps _ _ h
  | stopShow => exact inv.stopShowRequest_keeps _ _ h
  | startBackwash => exact inv.startBackwashRequest_keeps _ _ h
  | stopBackwash => exact inv.stopBackwashRequest_keeps _ _ h
  | clearFault => exact inv.clearFaultRequest_keeps _ _ h
  | restoreSupply => exact inv.restoreRequest_keeps _ h
  | restartLine => exact inv.restartRequest_keeps _ h
  | forward => exact inv.forwardRequest_keeps _ _ _ h
  | refusal | malformed => exact inv.reply_keeps _ _ h

theorem place_keeps (inv : SettledInvariant P) (r : Request) (h : P s) : P (place r s) := by
  refine inv.ite_keeps (inv.kept h ⟨rfl, rfl⟩) ?_
  cases s.mgmt.heldReq with
  | none | some lost => exact inv.kept h ⟨rfl, rfl⟩

theorem serveUpTo_keeps (inv : SettledInvariant P) (n : Nat) (h : P s) : P (serveUpTo n s) := by
  induction n generalizing s with
  | zero => exact h
  | succ n ih =>
    unfold serveUpTo
    split
    · exact ih (inv.process_keeps _ (inv.kept h ⟨rfl, rfl⟩))
    · exact h

theorem arrive_keeps (inv : SettledInvariant P) (r : Request) (h : P s) : P (arrive r s) :=
  inv.serveUpTo_keeps 6 (inv.place_keeps r h)

/-! ### Settled laws in the management slots -/

theorem refusal_keeps (inv : SettledInvariant P) (r : Request) (h : P s) :
    P (arrive r { s with mgmt := { s.mgmt with notPermitted := inc16 s.mgmt.notPermitted } }) :=
  inv.arrive_keeps r (inv.kept h ⟨rfl, rfl⟩)

theorem unprivileged_keeps (inv : SettledInvariant P) (o : Origin) (whole : Bool) (m : List Byte) (h : P s) :
    P (unprivileged o whole m s) := inv.ite_keeps (inv.arrive_keeps _ h) (inv.refusal_keeps _ h)

theorem joinMessage_keeps (inv : SettledInvariant P) (x : Handed) (single : Bool) (m : List Byte) (h : P s) :
    P (joinMessage x single m s) := by
  unfold joinMessage
  cases readJoin m with
  | some k => exact inv.joinNode_keeps _ _ h
  | none => exact inv.ite_keeps (inv.arrive_keeps _ h) (inv.unprivileged_keeps _ _ _ h)

theorem toFirst_keeps (inv : SettledInvariant P) (x : Handed) (h : P s) : P (toFirst x s) := by
  unfold toFirst
  dsimp only
  split
  · exact inv.kept h ⟨rfl, rfl⟩
  · exact inv.arrive_keeps _ (inv.kept h ⟨rfl, rfl⟩)

theorem toSecond_keeps (inv : SettledInvariant P) (x : Handed) (h : P s) : P (toSecond x s) := by
  unfold toSecond
  dsimp only
  split
  · exact inv.kept h ⟨rfl, rfl⟩
  · exact inv.arrive_keeps _ (inv.kept h ⟨rfl, rfl⟩)

theorem toJoin_keeps (inv : SettledInvariant P) (x : Handed) (h : P s) : P (toJoin x s) := by
  unfold toJoin
  dsimp only
  split
  · exact inv.kept h ⟨rfl, rfl⟩
  · exact inv.joinMessage_keeps _ _ _ (inv.kept h ⟨rfl, rfl⟩)

theorem toReply_keeps (inv : SettledInvariant P) (x : Handed) (f : Forwarding) (n : Nat) (h : P s) :
    P (toReply x f n s) := by
  unfold toReply
  dsimp only
  split
  · exact inv.kept h ⟨rfl, rfl⟩
  · exact inv.answerForward_keeps _ _ (inv.kept h ⟨rfl, rfl⟩)

theorem routeBySender_keeps (inv : SettledInvariant P) (x : Handed) (h : P s) : P (routeBySender x s) :=
  have first := inv.toFirst_keeps x h
  have others := inv.ite_keeps (inv.toSecond_keeps x h) (inv.ite_keeps (inv.unprivileged_keeps _ _ _ h) h)
  inv.ite_keeps (inv.toJoin_keeps x h) (inv.ite_keeps h (inv.ite_keeps first (inv.ite_keeps first others)))

theorem route_keeps (inv : SettledInvariant P) (x : Handed) (h : P s) : P (route x s) := by
  unfold route
  cases s.mgmt.proc with
  | forwarding f frags => exact inv.ite_keeps (inv.kept h ⟨rfl, rfl⟩) (inv.routeBySender_keeps x h)
  | waiting f n => exact inv.ite_keeps (inv.toReply_keeps _ _ _ h) (inv.routeBySender_keeps x h)
  | idle | sending => exact inv.routeBySender_keeps x h

theorem managementSlot_keeps (inv : SettledInvariant P) (bids : List Bid) (h : P s) : P (managementSlot bids s) := by
  refine inv.ite_keeps h ?_
  cases contend bids with
  | none => exact h
  | some w =>
    dsimp only
    split
    · exact inv.kept h ⟨rfl, rfl⟩
    · exact inv.route_keeps _ (inv.kept h ⟨rfl, rfl⟩)

/-! ### Settled laws in a frame -/

theorem outgoingGone_keeps (inv : SettledInvariant P) (h : P s) : P (outgoingGone s) := by
  unfold outgoingGone
  split
  · exact inv.kept h ⟨rfl, rfl⟩
  · exact inv.serveUpTo_keeps 6 (inv.kept h ⟨rfl, rfl⟩)
  · exact inv.kept h ⟨rfl, rfl⟩
  · unfold beginWait
    split
    · exact inv.answerForward_keeps _ _ h
    · exact inv.kept h ⟨rfl, rfl⟩
  all_goals exact h

theorem answerGone_keeps (inv : SettledInvariant P) (serial : Serial) (h : P s) : P (answerGone serial s) := by
  have marked := mapNodes_steady (s := s) (f := fun n => if n.ident.any (fun x => x.serial == serial) then
    { n with answerPending := false, answeredNow := n.answeredNow || n.answerPending } else n)
    (fun n => by split <;> rfl)
  exact inv.kept h ⟨marked.seen, rfl⟩

theorem fragmentGone_keeps (inv : SettledInvariant P) (o : Offer) (h : P s) : P (fragmentGone o s) := by
  cases o with
  | restart f => exact inv.kept h ⟨rfl, rfl⟩
  | outgoing f => exact inv.outgoingGone_keeps h
  | answer a => exact inv.answerGone_keeps _ h
  | nothing => exact h

theorem forwardFrame_keeps (inv : SettledInvariant P) (h : P s) : P (forwardFrame s) := by
  unfold forwardFrame
  cases s.mgmt.proc with
  | waiting f n => exact inv.ite_keeps (inv.reply_keeps _ _ h) (inv.kept h ⟨rfl, rfl⟩)
  | idle | sending | forwarding => exact h

theorem clockFrame_keeps (inv : SettledInvariant P) (h : P s) : P (clockFrame s) :=
  inv.ite_keeps h (inv.ite_keeps (inv.minuteChanged_settled _) (inv.kept h ⟨rfl, rfl⟩))

/-- The timers of a frame are settled before the ramp, the forward timer and the clock (log 12). -/
theorem frameEvent_settled (inv : SettledInvariant P) (s : State) : P (frameEvent s) :=
  inv.clockFrame_keeps (inv.forwardFrame_keeps (inv.ramped (inv.settled _)))

theorem beginFrame_settled (inv : SettledInvariant P) (n : Nat) (s : State) : P (beginFrame n s) :=
  inv.fragmentGone_keeps _ (inv.frameEvent_settled _)

theorem framePeriod_keeps (inv : SettledInvariant P) (h : P s) : P (framePeriod s) := by
  unfold framePeriod
  split
  · exact inv.ite_keeps (inv.enterBreak_settled s) (inv.beginFrame_settled _ s)
  · exact h
  · exact inv.ite_keeps (inv.beginFrame_settled _ s) (inv.kept h ⟨rfl, rfl⟩)

theorem nodeSlot_keeps (inv : SettledInvariant P) (slot : Nat) (heard : Option (List Sampled)) (h : P s) :
    P (nodeSlot slot heard s) := by
  refine inv.ite_keeps h ?_
  cases servedIn slot s with
  | none => exact inv.kept h ⟨rfl, rfl⟩
  | some y => exact inv.outcome_keeps _ _ (inv.kept h ⟨rfl, rfl⟩)

/-! ### Settled laws through every command -/

theorem clearUnsaved_keeps (inv : SettledInvariant P) (copy : List (Nat × Bool)) (h : P s) : P (clearUnsaved copy s) :=
  inv.kept h (clearUnsaved_steady copy s)

theorem setUnsaved_keeps (inv : SettledInvariant P) (h : P s) : P (setUnsaved s) := inv.kept h (setUnsaved_steady s)

theorem completeWrite_keeps (inv : SettledInvariant P) (good : Bool) (h : P s) : P (completeWrite good s) := by
  unfold completeWrite
  split
  · exact h
  · exact inv.clearUnsaved_keeps _ (inv.kept h ⟨rfl, rfl⟩)
  · exact inv.clearUnsaved_keeps _ (inv.kept h ⟨rfl, rfl⟩)
  · exact inv.setUnsaved_keeps (inv.kept h ⟨rfl, rfl⟩)

theorem startUp_settled (inv : SettledInvariant P) (s : State) : P (startUp s) := inv.settled _

theorem stopPart_keeps (inv : SettledInvariant P) (m : Mode) (h : P s) : P (stopPart m s) := by
  rw [stopPart_frame]
  exact inv.kept h ⟨rfl, rfl⟩

theorem forwardExpiry_keeps (inv : SettledInvariant P) (h : P s) : P (forwardExpiry s) := by
  unfold forwardExpiry
  cases s.mgmt.proc with
  | waiting f n => exact inv.ite_keeps (inv.reply_keeps _ _ h) h
  | idle | sending | forwarding => exact h

theorem debounceExpiry_keeps (inv : SettledInvariant P) (i : Nat) (h : P s) : P (debounceExpiry i s) :=
  inv.ite_keeps (inv.kept h (setMower_steady fun _ => rfl)) h

theorem next_keeps {u t : State} (h : P u) (e : (Host.Outcome.next u : Host.Outcome State Fault Refusal) = .next t) :
    P t := by
  cases e
  exact h

/-- A command taken only while the part runs (R17). -/
theorem whenOn_keeps (inv : SettledInvariant P) {f : State → State} {t : State} (hf : P (f s)) (h : P s)
    (e : whenOn f s = .next t) : P t := next_keeps (inv.ite_keeps hf h) e

theorem whenRunning_keeps (inv : SettledInvariant P) {f : State → State} {t : State} (hf : P (f s)) (h : P s)
    (e : whenOn (whenRunning f) s = .next t) : P t :=
  inv.whenOn_keeps (f := whenRunning f) (inv.ite_keeps hf h) h e

theorem stageExpiry_keeps (inv : SettledInvariant P) (st : Stage) (c : Nat) (h : P s) : P (stageExpiry st c s) :=
  inv.ite_keeps (inv.settled _) h

theorem stageTest_keeps (inv : SettledInvariant P) (st : Stage) (c : Nat) (h : P s) : P (stageTest st c s) :=
  inv.ite_keeps (inv.settled _) h

/-- Every command keeps a settled invariant: a request by its arrival, any other by the operation it names. -/
theorem exec_keeps (inv : SettledInvariant P) (c : Instr) {t : State} (h : P s) (e : exec c s = .next t) : P t := by
  cases request : asRequest c with
  | some r => exact inv.whenOn_keeps (inv.arrive_keeps r h) h ((exec_asRequest request s).symm.trans e)
  | none =>
    cases c with
    | resetAsserted => exact next_keeps (inv.ite_keeps h (inv.stopPart_keeps .held h)) e
    | startUp => exact next_keeps (inv.startUp_settled (cutOff s)) e
    | lossOfSupply => exact next_keeps (inv.stopPart_keeps .off h) e
    | frameStart => exact inv.whenOn_keeps (inv.framePeriod_keeps h) h e
    | lineBreak => exact inv.whenOn_keeps (f := breakIfDue) (inv.ite_keeps (inv.enterBreak_settled s) h) h e
    | lineResume => exact inv.whenOn_keeps (f := resumeIfBreak) (inv.ite_keeps (inv.beginFrame_settled 0 s) h) h e
    | nodeSlotEnd slot heard => exact inv.whenOn_keeps (inv.nodeSlot_keeps slot heard h) h e
    | managementSlotEnd slot bids => exact inv.whenOn_keeps (inv.managementSlot_keeps bids h) h e
    | notPermittedRefusal o k =>
      refine inv.whenOn_keeps (f := fun s => arrive { origin := o, kind := some k, body := .refusal }
        { s with mgmt := { s.mgmt with notPermitted := inc16 s.mgmt.notPermitted } }) ?_ h e
      exact inv.refusal_keeps _ h
    | forwardTimeout => exact inv.whenRunning_keeps (inv.forwardExpiry_keeps h) h e
    | dockDebounceExpiry m => exact inv.whenRunning_keeps (inv.debounceExpiry_keeps m h) h e
    | showStepEnd i => exact inv.whenRunning_keeps (f := showExpiry i) (inv.ite_keeps (inv.settled _) h) h e
    | holdTimerExpiry g => exact inv.whenRunning_keeps (f := holdExpiry g) (inv.ite_keeps (inv.settled _) h) h e
    | minuteAdvance =>
      exact inv.whenRunning_keeps (f := minuteExpiry) (inv.ite_keeps (inv.minuteChanged_settled _) h) h e
    | backwashStopping c => exact inv.whenOn_keeps (f := startCondition c) (inv.ite_keeps (inv.settled _) h) h e
    | stoppingEnd c => exact inv.whenRunning_keeps (inv.stageExpiry_keeps .stopping c h) h e
    | valveTimeout c => exact inv.whenRunning_keeps (inv.stageExpiry_keeps .reversing c h) h e
    | washingEnd c => exact inv.whenRunning_keeps (inv.stageExpiry_keeps .washing c h) h e
    | rinsingEnd c => exact inv.whenRunning_keeps (inv.stageExpiry_keeps .rinsing c h) h e
    | restoringTimeout c => exact inv.whenRunning_keeps (inv.stageExpiry_keeps .restoring c h) h e
    | abortingTimeout c => exact inv.whenRunning_keeps (inv.stageExpiry_keeps .aborting c h) h e
    | valveBackwashPos c => exact inv.whenOn_keeps (inv.stageTest_keeps .reversing c h) h e
    | restoreNormalPos c => exact inv.whenOn_keeps (inv.stageTest_keeps .restoring c h) h e
    | abortNormalPos c => exact inv.whenOn_keeps (inv.stageTest_keeps .aborting c h) h e
    | storeCompletion good => exact inv.whenOn_keeps (inv.completeWrite_keeps good h) h e
    | _ => cases request

theorem withPending_keeps (inv : SettledInvariant P) (h : P s) (p : List Instr) : P { s with pending := p } :=
  inv.kept h ⟨rfl, rfl⟩

/-- A settled invariant once met is met for ever. -/
theorem step_keeps (inv : SettledInvariant P) {t : State} (h : P s) (e : step s = .next t) : P t := by
  unfold step at e
  split at e
  · cases e
    exact h
  · exact inv.exec_keeps _ (inv.withPending_keeps h _) e

end SettledInvariant

end Sys2Proof.Machine

namespace Sys2Proof.Machine

/-! ### The keepout laws -/

/-- The four laws of O57 that carry over from step to step; the fifth, HOLD inside an active KEEPOUT zone, follows. -/
structure KeepoutLaws (s : State) : Prop where
  condition : ConditionLaw s
  occupancy : OccupancyLaw s
  permit : PermitLaw s
  discharge : DischargeLaw s

theorem settle_keepouts (s : State) : KeepoutLaws (settle s) :=
  have laws := rounds_laws 40 s
  ⟨laws.condition, laws.occupancy, laws.permit, laws.discharge⟩

section Seen

variable {s t : State} (same : t.seen = s.seen)
include same

theorem nodeAt_seen (i : Nat) : (nodeAt t i).seen = (nodeAt s i).seen :=
  map_getD Node.seen (congrArg Seen.nodes same) i Node.blank

theorem mowerAt_seen (i : Nat) : (mowerAt t i).seen = (mowerAt s i).seen :=
  map_getD Mower.seen (congrArg Seen.mowers same) i Mower.blank

theorem channelAt_seen (c : Nat) : channelAt t c = channelAt s c :=
  congrArg (fun x : Seen => x.channels.getD c Channel.blank) same

theorem playerAt_seen (i : Nat) : playerAt t i = playerAt s i :=
  congrArg (fun x : Seen => x.shows.getD i Player.blank) same

theorem activeOf_seen (ix : Option Nat) (k : NodeKind) : activeOf t ix k = activeOf s ix k := by
  cases ix with
  | none => rfl
  | some i =>
    have read := nodeAt_seen same i
    simp only [Node.seen, Prod.mk.injEq] at read
    obtain ⟨ident, state, -⟩ := read
    simp only [activeOf, Node.kindIs, ident, state]

theorem codeOf_seen (ix : Option Nat) (k : NodeKind) : codeOf t ix k = codeOf s ix k := by
  cases ix with
  | none => rfl
  | some i =>
    have read := nodeAt_seen same i
    simp only [Node.seen, Prod.mk.injEq] at read
    obtain ⟨ident, -, code⟩ := read
    have kind : (nodeAt t i).kindIs k = (nodeAt s i).kindIs k := by simp only [Node.kindIs, ident]
    show (if (nodeAt t i).kindIs k then (nodeAt t i).code else none)
      = if (nodeAt s i).kindIs k then (nodeAt s i).code else none
    rw [kind, code]

theorem liveCode_seen (ix : Option Nat) (k : NodeKind) : liveCode t ix k = liveCode s ix k := by
  rw [liveCode, liveCode, activeOf_seen same, codeOf_seen same]

theorem zoneActive_seen (z : Nat) : zoneActive t z = zoneActive s z :=
  zoneActive_congr (congrArg (fun x : Seen => x.zone.zones) same)
    (fun c => by rw [channelAt_seen same]; exact ⟨rfl, rfl⟩) (fun i => by rw [playerAt_seen same]) z

theorem ConditionLaw.seen (h : ConditionLaw s) : ConditionLaw t := by
  have site : t.mgmt.site = s.mgmt.site := congrArg Seen.site same
  have rain : t.water.rain = s.water.rain := congrArg Seen.rain same
  have dry : t.water.dry = s.water.dry := congrArg Seen.dry same
  have pond : t.water.pond = s.water.pond := congrArg Seen.pond same
  unfold ConditionLaw rainNow dryNow pondNow
  simp only [rain, dry, pond, site, liveCode_seen same]
  exact h

theorem OccupancyLaw.seen (h : OccupancyLaw s) : OccupancyLaw t := by
  have zone : t.zone = s.zone := congrArg Seen.zone same
  refine h.congr (by rw [zone]) (congrArg Seen.loops same) (fun z i => ?_) (by rw [zone]) (by rw [zone])
  have read := mowerAt_seen same i
  simp only [Mower.seen, Prod.mk.injEq] at read
  obtain ⟨loop, reported, dir, state, -⟩ := read
  simp only [occupies, spanMeets, spanFirst, loop, reported, dir, state]

theorem PermitLaw.seen (h : PermitLaw s) : PermitLaw t := by
  refine h.congr (congrArg Seen.loops same) (fun i => ?_) (congrArg Seen.zone same) (congrArg Seen.rain same)
    (fun c => by rw [channelAt_seen same]; exact ⟨rfl, rfl⟩) (fun i => by rw [playerAt_seen same])
  have read := mowerAt_seen same i
  simp only [Mower.seen, Prod.mk.injEq] at read
  obtain ⟨loop, -, -, state, verified⟩ := read
  exact ⟨state, loop, verified⟩

theorem DischargeLaw.seen (h : DischargeLaw s) : DischargeLaw t := by
  have zone : ∀ z, zoneAt t z = zoneAt s z := fun z => congrArg (fun x : Seen => x.zone.zones.getD z none) same
  unfold DischargeLaw
  simp only [channelAt_seen same, zone, zoneActive_seen same]
  exact h

theorem KeepoutLaws.seen (h : KeepoutLaws s) : KeepoutLaws t :=
  ⟨h.condition.seen same, h.occupancy.seen same, h.permit.seen same, h.discharge.seen same⟩

end Seen

theorem keepoutLaws_invariant : SettledInvariant KeepoutLaws where
  settled := settle_keepouts
  kept h steady := h.seen steady.seen
  ramped {s} h := h.seen (show (rampAll s).seen = s.seen from rfl)

/-- Settles O57: settling brings the laws about, every step keeps what settling brings about, and a permit formed by its
rule holds inside an active KEEPOUT zone. -/
theorem stepsKeepTheKeepoutLaws : Obligations.StepsKeepTheKeepoutLaws := by
  rintro s t ⟨condition, occupancy, permit, discharge⟩ e
  have laws : KeepoutLaws t := keepoutLaws_invariant.step_keeps ⟨condition, occupancy, permit, discharge⟩ e
  exact ⟨laws.condition, laws.occupancy, laws.permit, laws.discharge, laws.permit.hold⟩

/-! ### WRITE_ZONES -/

theorem zoneInUse_iff (i : Nat) (s : State) :
    zoneInUse i s = true
      ↔ ∃ c ∈ s.water.channels, ∃ r, c.cfg = some r ∧ r.kind = .filter ∧ r.discharge = i ∧ c.stage ≠ .idle := by
  simp only [zoneInUse, List.any_eq_true, Bool.and_eq_true, bne_iff_ne, Option.any_eq_true, beq_iff_eq]
  constructor
  · rintro ⟨c, listed, moving, r, held, kind, discharge⟩
    exact ⟨c, listed, r, held, kind, discharge, moving⟩
  · rintro ⟨c, listed, r, held, kind, discharge, moving⟩
    exact ⟨c, listed, moving, r, held, kind, discharge⟩

theorem zoneRefsBad_iff (w : ZoneWrite) (s : State) :
    zoneRefsBad w s = true
      ↔ 3 < w.loop ∨ s.pos.loops.getD w.loop none = none ∨ (∃ c ∈ w.channels, 7 < c) ∨ 7 < w.filter
        ∨ (∃ g ∈ w.groups, 15 < g) ∨ 3 < w.showIx := by
  simp only [zoneRefsBad, Bool.or_eq_true, decide_eq_true_eq, Option.isNone_iff_eq_none, List.any_eq_true, or_assoc]

/-- The record an accepted write puts in place, its loop `length` ticks long (R71, step 6). -/
def clampZone (kind : ZoneKind) (activeWhen : ActiveWhen) (length : Nat) (w : ZoneWrite) : ZoneRec :=
  { kind := kind, loop := w.loop, first := min w.first (length - 1), last := min w.last (length - 1)
    lookahead := min w.lookahead 16383, assume := w.assume, activeWhen := activeWhen, filter := w.filter
    showIx := w.showIx, channels := w.channels, cap := w.cap, groups := w.groups }

theorem zoneStatus_eq (w : ZoneWrite) (z : ZoneRec) :
    doneIf (!(z.first == w.first && z.last == w.last && z.lookahead == w.lookahead))
      = if z.first = w.first ∧ z.last = w.last ∧ z.lookahead = w.lookahead then .done else .doneClamped := by
  have kept : ∀ b : Bool, doneIf (!b) = if b = true then .done else .doneClamped := by decide
  rw [kept]
  simp only [Bool.and_eq_true, beq_iff_eq, and_assoc]

theorem writeZone_outOfRange {i : Nat} (beyond : 31 < i) (w : Option ZoneWrite) (s : State) :
    writeZone i w s = (s, .outOfRange) := if_pos beyond

theorem writeZone_inUse {i : Nat} {s : State} (named : i ≤ 31) (used : zoneInUse i s = true) (w : Option ZoneWrite) :
    writeZone i w s = (s, .wrongState) := (if_neg (Nat.not_lt.2 named)).trans (if_pos used)

theorem writeZone_none {i : Nat} {s : State} (named : i ≤ 31) (free : ¬ zoneInUse i s = true) :
    writeZone i none s = (settle (setZone i none s), .done) :=
  (if_neg (Nat.not_lt.2 named)).trans (if_neg free)

/-- A written value in a zone that is free: its enumerated fields first, then its references, then the clamps (R71). -/
theorem writeZone_some {i : Nat} {s : State} (named : i ≤ 31) (free : ¬ zoneInUse i s = true) (w : ZoneWrite) :
    ((ZoneKind.ofNumber w.kind = none ∨ ActiveWhen.ofNumber w.activeWhen = none) →
        writeZone i (some w) s = (s, .malformed))
      ∧ ∀ kind activeWhen, ZoneKind.ofNumber w.kind = some kind → ActiveWhen.ofNumber w.activeWhen = some activeWhen →
        let z := clampZone kind activeWhen (loopAt s w.loop).length w
        writeZone i (some w) s
          = if zoneRefsBad w s then (s, .outOfRange)
            else
              (settle (setZone i (some z) s),
                doneIf (!(z.first == w.first && z.last == w.last && z.lookahead == w.lookahead))) := by
  unfold writeZone
  rw [if_neg (Nat.not_lt.2 named), if_neg free]
  refine ⟨fun unread => ?_, fun kind activeWhen hk ha => ?_⟩
  · dsimp only
    split
    · next hk ha => simp [hk, ha] at unread
    · rfl
  · simp only [hk, ha]
    rfl

theorem loopAt_length {s : State} {i : Nat} {l : LoopRec} (found : s.pos.loops.getD i none = some l) :
    (loopAt s i).length = l.n1 * 4096 := by
  rw [loopAt, found]
  rfl

/-- Settles O29: the tests of R71 in their order, then the clamped record with everything settled after it. -/
theorem writeZonesFollowsItsRule : Obligations.WriteZonesFollowsItsRule := by
  intro o i s ready used
  have run : ∀ {w : Option ZoneWrite} {t : State} {st : Status}, writeZone i w s = (t, st) →
      exec (.writeZones o i w) s = .next (writeAnswer o st t) :=
    fun {w _ _} => exec_written (e := .zones i w) rfl ready
  have inUse : zoneInUse i s = true ↔ used := zoneInUse_iff i s
  refine ⟨fun beyond w => run (writeZone_outOfRange beyond w s),
    fun named held w => run (writeZone_inUse named (inUse.2 held) w),
    fun named free => run (writeZone_none named (mt inUse.1 free)), fun w named free => ?_⟩
  obtain ⟨unread, read⟩ := writeZone_some named (mt inUse.1 free) w
  refine ⟨fun h => run (unread h), fun kind activeWhen hk ha => ?_⟩
  intro bad
  have refs : zoneRefsBad w s = true ↔ bad := zoneRefsBad_iff w s
  have written := read kind activeWhen hk ha
  refine ⟨fun h => run (written.trans (if_pos (refs.2 h))), fun good l found => ?_⟩
  intro top z status
  refine run ?_
  have put : clampZone kind activeWhen (loopAt s w.loop).length w = z := by
    rw [loopAt_length found]
    rfl
  rw [written, if_neg (mt refs.1 good), put, zoneStatus_eq]
  rfl

end Sys2Proof.Machine

namespace Sys2Proof.Machine

/-! ### DOCK ALL and RESUME ALL -/

theorem dockAllRequest_held {on : Bool} {s : State} (held : s.zone.dockAll = on) (r : Request) :
    dockAllRequest r on s = reply r .done s := by
  rw [dockAllRequest, if_pos held]

theorem dockAllRequest_other {on : Bool} {s : State} (other : s.zone.dockAll ≠ on) (r : Request) :
    dockAllRequest r on s = reply r .done (settle { s with zone := { s.zone with dockAll := on } }) := by
  rw [dockAllRequest, if_neg other]

/-- The DOCK ALL flag stands as it stood. -/
structure FlagFrom (s t : State) : Prop where
  flag : t.zone.dockAll = s.zone.dockAll

theorem FlagFrom.refl (s : State) : FlagFrom s s := ⟨rfl⟩

theorem FlagFrom.after {s t u : State} (b : FlagFrom t u) (a : FlagFrom s t) : FlagFrom s u := ⟨b.flag.trans a.flag⟩

theorem FlagFrom.eachIx {f : Nat → State → State} (hf : ∀ i t, FlagFrom t (f i t)) (n : Nat) (s : State) :
    FlagFrom s (eachIx f n s) :=
  eachIx_keeps (P := FlagFrom s) (fun i t h => (hf i t).after h) n (.refl s)

theorem SettledFrom.flagFrom {s t : State} (h : SettledFrom s t) : FlagFrom s t := ⟨h.dockAll⟩

theorem settle_flag (s : State) : FlagFrom s (settle s) := (settle_settled s).flagFrom

theorem settleDeferred_flag {s t : State} (h : FlagFrom s t) : FlagFrom s (settleDeferred t) :=
  (rounds_settled true 40 t).flagFrom.after h

theorem postInvalid_flag (s : State) : FlagFrom s (postInvalid s) := by
  unfold postInvalid
  split <;> exact ⟨rfl⟩

theorem startUp_dockAll (s : State) : (startUp s).zone.dockAll = false := by
  have filled : ∀ t, (fillTables t s).zone.dockAll = false := fun _ => rfl
  rw [startUp, (settle_flag _).flag, (postInvalid_flag _).flag, filled]

theorem loadNodes_flag (x : Tables) (s : State) : FlagFrom s (loadNodes x s) := by
  have move : ∀ i a b f u, FlagFrom u (reportToMowers i a b (setNode i f u)) := fun _ _ _ _ _ => ⟨rfl⟩
  unfold loadNodes
  extract_lets moved
  have each : FlagFrom s moved := .eachIx (fun i u => move i _ _ _ u) 48 s
  clear_value moved
  exact ⟨each.flag⟩

theorem formClogged_flag (i : Nat) (s : State) : FlagFrom s (formClogged i s) := by
  unfold formClogged
  dsimp only
  split
  · exact ⟨rfl⟩
  · split <;> exact ⟨rfl⟩

theorem dropCycle_flag (i : Nat) (s : State) : FlagFrom s (dropCycle i s) := by
  unfold dropCycle
  split <;> exact ⟨rfl⟩

theorem loadWater_flag (x : Tables) (s : State) : FlagFrom s (loadWater x s) := by
  unfold loadWater
  exact (FlagFrom.eachIx dropCycle_flag 8 _).after ((FlagFrom.eachIx formClogged_flag 8 _).after ⟨rfl⟩)

theorem loadPass_flag (x : Tables) (s : State) : FlagFrom s (loadPass x s) := by
  have loads : ∀ u, FlagFrom u (loadLoads x u) := fun _ => ⟨rfl⟩
  exact (loadPass_later x s).base.flagFrom.after
    ((loads _).after ((formLevels_last _).later.base.flagFrom.after (formMonitors_later false s).base.flagFrom))

/-- A load moves the DOCK ALL flag in none of its steps (R83, R172). -/
theorem loadTables_flag (x : Tables) (s : State) : FlagFrom s (loadTables x s).1 := by
  have halt : ∀ u, FlagFrom u (haltShows u) := fun _ => ⟨rfl⟩
  have site : ∀ c u, FlagFrom u (replaceSite c u) := fun _ _ => ⟨rfl⟩
  have mowers : ∀ u, FlagFrom u (loadMowers x u) := fun _ => ⟨rfl⟩
  have zones : ∀ u, FlagFrom u (loadZones x u) := fun _ => ⟨rfl⟩
  have lights : ∀ u, FlagFrom u (loadLights x u) := fun _ => ⟨rfl⟩
  unfold loadTables
  extract_lets s1 s2 s3 s4 s5 s6 s7 s8 s9 y
  have h1 : FlagFrom s s1 := settleDeferred_flag (cyclesBreak_later 9 s).base.flagFrom
  have h2 : FlagFrom s1 s2 := settleDeferred_flag (halt s1)
  have h3 : FlagFrom s2 s3 := settleDeferred_flag (site _ s2)
  have h4 : FlagFrom s3 s4 := settleDeferred_flag (loadNodes_flag x s3)
  have h5 : FlagFrom s4 s5 := mowers s4
  have h6 : FlagFrom s5 s6 := settleDeferred_flag (zones s5)
  have h7 : FlagFrom s6 s7 := settleDeferred_flag (loadWater_flag x s6)
  have h8 : FlagFrom s7 s8 := settleDeferred_flag (lights s7)
  have h9 : FlagFrom s8 s9 := (settle_flag _).after (loadPass_flag x s8)
  clear_value s1 s2 s3 s4 s5 s6 s7 s8 s9
  have loaded := h9.after (h8.after (h7.after (h6.after (h5.after (h4.after (h3.after (h2.after h1)))))))
  exact ⟨loaded.flag⟩

theorem respond_flag (r : Request) (st : Status) (body : List Byte) (s : State) : FlagFrom s (respond r st body s) :=
  ⟨rfl⟩

theorem loadRequest_flag (r : Request) (s : State) : FlagFrom s (loadRequest r s) := by
  unfold loadRequest
  split
  · exact ⟨rfl⟩
  · split
    · exact ⟨rfl⟩
    · exact (respond_flag ..).after (loadTables_flag _ s)

theorem breakIfDue_flag (s : State) : FlagFrom s (breakIfDue s) := by
  obtain ⟨-, -, flag, -⟩ := enterBreak_rest s
  unfold breakIfDue
  split
  exacts [⟨flag⟩, .refl s]

/-- Settles O42: the request by the flag it finds, and the three handlings that reset the flag or keep it. -/
theorem dockAllSetsTheFlag : Obligations.DockAllSetsTheFlag := by
  refine ⟨fun o c k b s ready asked => ?_, fun s t e => ?_, fun s t e => ?_, fun o s t ready e => ?_⟩
  · have run : ∃ body, exec c s = .next (dockAllRequest ⟨o, some k, body⟩ b s) := by
      rcases asked with ⟨rfl, rfl, rfl⟩ | ⟨rfl, rfl, rfl⟩
      · exact ⟨.dockAll, exec_ready (c := .dockAll o) rfl ready⟩
      · exact ⟨.resumeAll, exec_ready (c := .resumeAll o) rfl ready⟩
    obtain ⟨body, run⟩ := run
    refine ⟨fun held => ?_, fun other => ⟨_, rfl, (settle_flag _).flag, (settle_keepouts _).permit, ?_⟩⟩
    · rw [run, dockAllRequest_held held, reply_eq_answer]
    · rw [run, dockAllRequest_other other, reply_eq_answer]
  · have started : t = startUp (cutOff s) := (Host.Outcome.next.inj e).symm
    rw [started, startUp_dockAll]
  · have broken : FlagFrom s t := by
      refine SettledInvariant.next_keeps (P := FlagFrom s) ?_ e
      split
      exacts [breakIfDue_flag s, .refl s]
    exact broken.flag
  · have loaded : exec (.loadTables o) s = .next (loadRequest ⟨o, some 8#8, .loadTables⟩ s) :=
      exec_ready (c := .loadTables o) rfl ready
    have after : t = loadRequest ⟨o, some 8#8, .loadTables⟩ s := Host.Outcome.next.inj (e.symm.trans loaded)
    rw [after, (loadRequest_flag _ s).flag]

end Sys2Proof.Machine

namespace Sys2Proof.Machine

/-! ### The power laws -/

/-- The three laws of O58. -/
structure PowerLaws (s : State) : Prop where
  power : PowerLaw s
  output : OutputLaw s
  light : LightLaw s

theorem settle_powers (s : State) : PowerLaws (settle s) :=
  have laws := rounds_laws 40 s
  ⟨laws.power, laws.output, laws.light⟩

section Seen

variable {s t : State} (same : t.seen = s.seen)
include same

theorem loads_seen : t.power.loads = s.power.loads := congrArg Seen.loads same

theorem loadAt_seen (i : Nat) : loadAt t i = loadAt s i := by rw [loadAt, loadAt, loads_seen same]

theorem PowerLaw.seen (h : PowerLaw s) : PowerLaw t := by
  have site : t.mgmt.site = s.mgmt.site := congrArg Seen.site same
  have shed : t.power.shed = s.power.shed := congrArg Seen.shed same
  unfold PowerLaw
  rw [loads_seen same, site, shed]
  exact h

theorem OutputLaw.seen (h : OutputLaw s) : OutputLaw t := by
  have channels : t.water.channels = s.water.channels := congrArg Seen.channels same
  have zone : t.zone = s.zone := congrArg Seen.zone same
  have rain : t.water.rain = s.water.rain := congrArg Seen.rain same
  have pond : t.water.pond = s.water.pond := congrArg Seen.pond same
  unfold OutputLaw
  simp only [channels, zone, rain, pond, loadAt_seen same]
  exact h

theorem LightLaw.seen (light : t.light = s.light) (h : LightLaw s) : LightLaw t := by
  unfold LightLaw
  simp only [light, loadAt_seen same]
  exact h

end Seen

theorem PowerLaws.steady {s t : State} (h : PowerLaws s) (steady : Steady s t) : PowerLaws t :=
  ⟨h.power.seen steady.seen, h.output.seen steady.seen, h.light.seen steady.seen steady.light⟩

/-- A ramp step leaves the aim, and goes no higher than the level it starts from or the aim (R131). -/
theorem ramp_between (g : LightGroup) : g.ramp.aim = g.aim ∧ g.ramp.current ≤ max g.current g.aim := by
  by_cases still : g.online = false ∨ g.current = g.aim
  · rw [ramp_still still]
    exact ⟨rfl, le_max_left _ _⟩
  · obtain ⟨online, apart⟩ := not_or.1 still
    rw [Bool.not_eq_false] at online
    cases cfg : g.cfg with
    | none =>
      have unused : g.ramp = g := by simp only [LightGroup.ramp, cfg]
      rw [unused]
      exact ⟨rfl, le_max_left _ _⟩
    | some r =>
      rcases Nat.lt_or_gt_of_ne apart with up | down
      · rw [ramp_up cfg online up]
        exact ⟨rfl, le_max_of_le_right (min_le_left _ _)⟩
      · rw [ramp_down cfg online down]
        exact ⟨rfl, max_le (le_max_right _ _) (le_max_of_le_left (Nat.sub_le _ _))⟩

theorem LightLaw.ramped {s : State} (h : LightLaw s) : LightLaw (rampAll s) := by
  intro i g found
  obtain ⟨g₀, found₀, rfl⟩ : ∃ g₀, s.light[i]? = some g₀ ∧ g₀.ramp = g := by
    simpa only [rampAll, List.getElem?_map, Option.map_eq_some_iff] using found
  obtain ⟨current, aim⟩ := h i g₀ found₀
  obtain ⟨same, between⟩ := ramp_between g₀
  exact ⟨le_trans between (max_le current aim), same ▸ aim⟩

theorem powerLaws_invariant : SettledInvariant PowerLaws where
  settled := settle_powers
  kept := PowerLaws.steady
  ramped {s} h :=
    have same : (rampAll s).seen = s.seen := rfl
    ⟨h.power.seen same, h.output.seen same, h.light.ramped⟩

/-- Settles O58: settling ends in a pass with its deliveries, which brings the laws about; what a handling leaves unsettled
moves nothing they speak of but the ramped levels, and those stay between where they were and their aims. -/
theorem stepsKeepThePowerLaws : Obligations.StepsKeepThePowerLaws := by
  rintro s t ⟨power, output, light⟩ e
  have laws : PowerLaws t := powerLaws_invariant.step_keeps ⟨power, output, light⟩ e
  exact ⟨laws.power, laws.output, laws.light⟩

end Sys2Proof.Machine

namespace Sys2Proof.Machine

/-! ### CLEAR FAULT -/

theorem setChannel_put (i : Nat) (f : Channel → Channel) (s : State) :
    setChannel i f s = putChannel i (f (channelAt s i)) s := setChannel_eq i f s

/-- The channel's node as R92 reads it. -/
theorem healthy_iff (s : State) (c : Channel) :
    healthy s c = true
      ↔ ∃ r n x, c.cfg = some r ∧ r.node = some n ∧ (nodeAt s n).ident = some x
        ∧ x.kind = (if r.kind = .valve then .valve else .pump) ∧ (nodeAt s n).state = .active
        ∧ (nodeAt s n).code = some 0 := by
  have kind : ∀ r : ChannelRec, r.kind.nodeKind = if r.kind = .valve then .valve else .pump :=
    fun r => by cases r.kind <;> rfl
  unfold healthy
  cases cfg : c.cfg with
  | none => simp
  | some r =>
    rw [beq_iff_eq, liveCode_iff, kind]
    constructor
    · rintro ⟨_, ⟨n, x, named, rfl, ident, expected, active⟩, code⟩
      exact ⟨r, n, x, rfl, named, ident, expected, active, code⟩
    · rintro ⟨_, n, x, ⟨⟩, named, ident, expected, active, code⟩
      exact ⟨_, ⟨n, x, named, rfl, ident, expected, active⟩, code⟩

theorem clearFaultRequest_beyond {c : Nat} (beyond : 7 < c) (r : Request) (s : State) :
    clearFaultRequest r c s = reply r .outOfRange s := if_pos beyond

theorem clearFaultRequest_reset {c : Nat} {s : State} (named : c ≤ 7) (latch : (channelAt s c).latch = false)
    (r : Request) : clearFaultRequest r c s = reply r .done s := by
  rw [clearFaultRequest, if_neg (Nat.not_lt.2 named), if_pos (by rw [latch]; rfl)]

theorem clearFaultRequest_set {c : Nat} {s : State} (named : c ≤ 7) (latch : (channelAt s c).latch = true)
    (r : Request) :
    clearFaultRequest r c s
      = if healthy s (channelAt s c) then
          reply r .done (settle (putChannel c { channelAt s c with latch := false } s))
        else reply r .wrongState s := by
  rw [clearFaultRequest, if_neg (Nat.not_lt.2 named), if_neg (by rw [latch]; decide), setChannel_put]

/-- Settles O45: the channel, then its latch, then its node. -/
theorem clearFaultResetsTheLatch : Obligations.ClearFaultResetsTheLatch := by
  intro o c s ready a node
  have run : exec (.clearFault o c) s = .next (clearFaultRequest ⟨o, some 17#8, .clearFault c⟩ c s) :=
    exec_ready (c := .clearFault o c) rfl ready
  have judged : healthy s a = true ↔ node := healthy_iff s a
  rw [run]
  refine ⟨fun beyond => ?_, fun named reset => ?_, fun named latched ill => ?_, fun named latched well => ?_⟩
  · rw [clearFaultRequest_beyond beyond, reply_eq_answer]
  · rw [clearFaultRequest_reset named reset, reply_eq_answer]
  · rw [clearFaultRequest_set named latched, if_neg (mt judged.1 ill), reply_eq_answer]
  · rw [clearFaultRequest_set named latched, if_pos (judged.2 well), reply_eq_answer]
    rfl

end Sys2Proof.Machine

namespace Sys2Proof.Machine

/-! ### START SHOW and STOP SHOW -/

/-- Show `i` written whole. -/
def putPlayer (i : Nat) (p : Player) (s : State) : State :=
  { s with water := { s.water with shows := s.water.shows.set i p } }

theorem setPlayer_put (i : Nat) (f : Player → Player) (s : State) :
    setPlayer i f s = putPlayer i (f (playerAt s i)) s := setPlayer_eq i f s

theorem startShowRequest_unused {i : Nat} {s : State} (unused : 3 < i ∨ (playerAt s i).cfg = none) (r : Request) :
    startShowRequest r i s = reply r .outOfRange s := by
  unfold startShowRequest
  rcases unused with beyond | cfg
  · exact if_pos beyond
  · rw [cfg, ite_self]

theorem startShowRequest_named {i : Nat} {s : State} {x : ShowRec} (named : i ≤ 3) (cfg : (playerAt s i).cfg = some x)
    (r : Request) :
    ((playerAt s i).state ≠ .idle → startShowRequest r i s = reply r .wrongState s)
      ∧ ((playerAt s i).state = .idle →
        startShowRequest r i s = reply r .done (settle (putPlayer i (Player.start s x (playerAt s i)) s))) := by
  simp only [startShowRequest, if_neg (Nat.not_lt.2 named), cfg, setPlayer_put]
  exact ⟨fun moving => if_pos (bne_iff_ne.2 moving), fun idle => if_neg (by simp [idle])⟩

theorem stopShowRequest_beyond {i : Nat} (beyond : 3 < i) (r : Request) (s : State) :
    stopShowRequest r i s = reply r .outOfRange s := if_pos beyond

theorem stopShowRequest_named {i : Nat} (named : i ≤ 3) (r : Request) (s : State) :
    stopShowRequest r i s
      = if (playerAt s i).state = .idle then reply r .done s
        else reply r .done (settle (putPlayer i (playerAt s i).stop s)) := by
  rw [stopShowRequest, if_neg (Nat.not_lt.2 named), setPlayer_put]

/-- Settles O43: both requests by the show they name and its state. -/
theorem showsStartAndStop : Obligations.ShowsStartAndStop := by
  intro o i s ready p put
  have start : exec (.startShow o i) s = .next (startShowRequest ⟨o, some 13#8, .startShow i⟩ i s) :=
    exec_ready (c := .startShow o i) rfl ready
  have stop : exec (.stopShow o i) s = .next (stopShowRequest ⟨o, some 14#8, .stopShow i⟩ i s) :=
    exec_ready (c := .stopShow o i) rfl ready
  rw [start, stop]
  refine ⟨fun unused => ?_, fun named used moving => ?_, fun r named cfg idle => ?_, fun beyond => ?_,
    fun named idle => ?_, fun named moving => ?_⟩
  · rw [startShowRequest_unused unused, reply_eq_answer]
  · obtain ⟨x, cfg⟩ := Option.ne_none_iff_exists'.1 used
    rw [(startShowRequest_named named cfg _).1 moving, reply_eq_answer]
  · rw [(startShowRequest_named named cfg _).2 idle, reply_eq_answer]
    rfl
  · rw [stopShowRequest_beyond beyond, reply_eq_answer]
  · rw [stopShowRequest_named named, if_pos idle, reply_eq_answer]
  · rw [stopShowRequest_named named, if_neg moving, reply_eq_answer]
    rfl

/-! ### WRITE_SHOWS and WRITE_STEPS -/

theorem doneIf_kept (b : Bool) : doneIf (!b) = if b = true then .done else .doneClamped := by cases b <;> rfl

/-- The record an accepted write puts in place (R101, step 6). -/
def clampShow (w : ShowWrite) : ShowRec :=
  { channels := w.channels, first := w.first, loopCount := min w.loopCount 65535
    startMin := w.startMin.map (fun m => min m 1439), stopMin := w.stopMin.map (fun m => min m 1439) }

theorem showStatus_eq (w : ShowWrite) (r : ShowRec) :
    doneIf (!(r.loopCount == w.loopCount && r.startMin == w.startMin && r.stopMin == w.stopMin))
      = if r.loopCount = w.loopCount ∧ r.startMin = w.startMin ∧ r.stopMin = w.stopMin then .done
        else .doneClamped := by
  rw [doneIf_kept]
  simp only [Bool.and_eq_true, beq_iff_eq, and_assoc]

theorem showRefsBad_iff (w : ShowWrite) :
    (w.channels.any (fun c => decide (7 < c)) || decide (95 < w.first)) = true
      ↔ (∃ c ∈ w.channels, 7 < c) ∨ 95 < w.first := by
  simp only [Bool.or_eq_true, List.any_eq_true, decide_eq_true_eq]

theorem showConflict_iff (i : Nat) (channels : List Nat) (s : State) :
    showConflict i channels s = true
      ↔ ¬ channels.Nodup
        ∨ ∃ (j : Nat) (r : ShowRec) (c : Nat), j < 4 ∧ j ≠ i ∧ (playerAt s j).cfg = some r ∧ c ∈ r.channels
          ∧ c ∈ channels := by
  simp only [showConflict, Bool.or_eq_true, Bool.not_eq_true', decide_eq_false_iff_not, List.any_eq_true,
    List.mem_range, Bool.and_eq_true, bne_iff_ne, Option.any_eq_true, List.contains_iff_mem]
  refine or_congr_right ⟨?_, ?_⟩
  · rintro ⟨j, inside, other, r, cfg, c, listed, shared⟩
    exact ⟨j, r, c, inside, other, cfg, listed, shared⟩
  · rintro ⟨j, r, c, inside, other, cfg, listed, shared⟩
    exact ⟨j, inside, other, r, cfg, c, listed, shared⟩

theorem writeShow_outOfRange {i : Nat} (beyond : 3 < i) (w : Option ShowWrite) (s : State) :
    writeShow i w s = (s, .outOfRange) := if_pos beyond

theorem writeShow_moving {i : Nat} {s : State} (named : i ≤ 3) (moving : (playerAt s i).state ≠ .idle)
    (w : Option ShowWrite) : writeShow i w s = (s, .wrongState) :=
  (if_neg (Nat.not_lt.2 named)).trans (if_pos (bne_iff_ne.2 moving))

theorem writeShow_none {i : Nat} {s : State} (named : i ≤ 3) (idle : (playerAt s i).state = .idle) :
    writeShow i none s = (settle (setPlayer i (fun p => { p with cfg := none }) s), .done) :=
  (if_neg (Nat.not_lt.2 named)).trans (if_neg (by simp [idle]))

/-- A written value over an IDLE show: its references, then its channels against each other and the other shows, then the
clamps (R101). -/
theorem writeShow_some {i : Nat} {s : State} (named : i ≤ 3) (idle : (playerAt s i).state = .idle) (w : ShowWrite) :
    writeShow i (some w) s
      = if w.channels.any (fun c => decide (7 < c)) || decide (95 < w.first) then (s, .outOfRange)
        else if showConflict i w.channels s then (s, .conflict)
        else
          let r := clampShow w
          (settle (setPlayer i (fun p => { p with cfg := some r }) s),
            doneIf (!(r.loopCount == w.loopCount && r.startMin == w.startMin && r.stopMin == w.stopMin))) := by
  rw [writeShow, if_neg (Nat.not_lt.2 named), if_neg (by simp [idle])]
  rfl

theorem stepRefsBad_iff (i : Nat) (w : StepWrite) :
    (95 < i ∨ w.next.any (fun n => decide (95 < n)) = true) ↔ 95 < i ∨ ∃ n, w.next = some n ∧ 95 < n := by
  simp only [Option.any_eq_true, decide_eq_true_eq]

/-- The step an accepted write puts in place (R101). -/
def clampStep (w : StepWrite) : Step :=
  { levels := ⟨min w.levels.l0 255, min w.levels.l1 255, min w.levels.l2 255, min w.levels.l3 255⟩
    duration := clampTo 1 65535 w.duration, next := w.next }

theorem stepStatus_eq (w : StepWrite) (t : Step) :
    doneIf (!(t.levels == w.levels && t.duration == w.duration))
      = if t.levels = w.levels ∧ t.duration = w.duration then .done else .doneClamped := by
  rw [doneIf_kept]
  simp only [Bool.and_eq_true, beq_iff_eq]

theorem writeStep_outOfRange {i : Nat} {w : StepWrite} (bad : 95 < i ∨ ∃ n, w.next = some n ∧ 95 < n) (s : State) :
    writeStep i w s = (s, .outOfRange) := if_pos ((stepRefsBad_iff i w).2 bad)

theorem writeStep_accepted {i : Nat} {w : StepWrite} (good : ¬ (95 < i ∨ ∃ n, w.next = some n ∧ 95 < n)) (s : State) :
    writeStep i w s
      = ({ s with water := { s.water with steps := s.water.steps.set i (clampStep w) } },
          if (clampStep w).levels = w.levels ∧ (clampStep w).duration = w.duration then .done else .doneClamped) := by
  rw [← stepStatus_eq]
  exact if_neg (mt (stepRefsBad_iff i w).1 good)

/-- Settles O31: a show by its state and then by what is written, a step by what is written alone. -/
theorem writeShowsAndStepsFollowTheirRules : Obligations.WriteShowsAndStepsFollowTheirRules := by
  intro o i s ready
  have runShow : ∀ {w : Option ShowWrite} {t : State} {st : Status}, writeShow i w s = (t, st) →
      exec (.writeShows o i w) s = .next (writeAnswer o st t) :=
    fun {w _ _} => exec_written (e := .shows i w) rfl ready
  have runStep : ∀ {w : StepWrite} {t : State} {st : Status}, writeStep i w s = (t, st) →
      exec (.writeSteps o i w) s = .next (writeAnswer o st t) :=
    fun {w _ _} => exec_written (e := .steps i w) rfl ready
  refine ⟨fun beyond w => runShow (writeShow_outOfRange beyond w s),
    fun named moving w => runShow (writeShow_moving named moving w), fun named idle => runShow (writeShow_none named idle),
    fun w named idle => ?_, fun w => ?_⟩
  · intro bad clash r status
    have refs := showRefsBad_iff w
    have conflict : showConflict i w.channels s = true ↔ clash := showConflict_iff i w.channels s
    have written := writeShow_some named idle w
    refine ⟨fun h => runShow ?_, fun good h => runShow ?_, fun good free => runShow ?_⟩
    · rw [written, if_pos (refs.2 h)]
    · rw [written, if_neg (mt refs.1 good), if_pos (conflict.2 h)]
    · rw [written, if_neg (mt refs.1 good), if_neg (mt conflict.1 free)]
      dsimp only
      rw [showStatus_eq]
      rfl
  · exact ⟨fun bad => runStep (writeStep_outOfRange bad s), fun good => runStep (writeStep_accepted good s)⟩

end Sys2Proof.Machine

namespace Sys2Proof.Machine

/-! ### WRITE_CHANNELS -/

theorem channelInUse_iff (i : Nat) (s : State) :
    channelInUse i s = true
      ↔ (channelAt s i).stage ≠ .idle
        ∨ ∃ c ∈ s.water.channels, ∃ r, c.cfg = some r ∧ r.kind = .filter ∧ r.valve = i ∧ c.stage ≠ .idle := by
  simp only [channelInUse, Bool.or_eq_true, bne_iff_ne, List.any_eq_true, Bool.and_eq_true, Option.any_eq_true,
    beq_iff_eq]
  refine or_congr_right ⟨?_, ?_⟩
  · rintro ⟨c, listed, moving, r, cfg, kind, valve⟩
    exact ⟨c, listed, r, cfg, kind, valve, moving⟩
  · rintro ⟨c, listed, r, cfg, kind, valve, moving⟩
    exact ⟨c, listed, moving, r, cfg, kind, valve⟩

theorem channelRefsBad_iff (w : ChannelWrite) :
    (w.node.any (fun n => decide (47 < n)) || decide (7 < w.valve) || decide (31 < w.discharge)) = true
      ↔ (∃ n, w.node = some n ∧ 47 < n) ∨ 7 < w.valve ∨ 31 < w.discharge := by
  simp only [Bool.or_eq_true, Option.any_eq_true, decide_eq_true_eq, or_assoc]

theorem channelStatus_eq (w : ChannelWrite) (r : ChannelRec) :
    doneIf (channelClamped w r)
      = if r.minLevel = w.minLevel ∧ r.maxLevel = w.maxLevel ∧ r.day = w.day ∧ r.night = w.night
          ∧ r.nightStart = w.nightStart ∧ r.nightEnd = w.nightEnd ∧ r.clog = w.clog ∧ r.clear = w.clear
          ∧ r.backwash = w.backwash ∧ r.rinse = w.rinse ∧ r.stopFrames = w.stopFrames
          ∧ r.washFrames = w.washFrames ∧ r.rinseFrames = w.rinseFrames then .done
        else .doneClamped := by
  rw [channelClamped, doneIf_kept]
  simp only [Bool.and_eq_true, beq_iff_eq, and_assoc]

/-- The minimum level is limited to 255 and then lowered to the maximum level (R89, step 6). -/
theorem clampChannel_minLevel (kind : ChannelKind) (w : ChannelWrite) :
    clampChannel kind w
      = { clampChannel kind w with minLevel := min (min w.minLevel 255) (min w.maxLevel 255) } := by
  have lowered : min w.minLevel (min w.maxLevel 255) = min (min w.minLevel 255) (min w.maxLevel 255) := by omega
  rw [← lowered]
  rfl

theorem rewrite_none (a : Channel) :
    a.rewrite none
      = if a.cfg = none then a else { a with cfg := none, latch := false, filt := none, clogged := false } := by
  unfold Channel.rewrite
  cases cfg : a.cfg with
  | none => rw [if_pos rfl, if_pos rfl, ← cfg]
  | some r => rw [if_neg (by simp), if_neg (by simp)]

theorem rewrite_cfg (r : Option ChannelRec) (a : Channel) : (a.rewrite r).cfg = r := by
  unfold Channel.rewrite
  split <;> rfl

/-- The clogged flag with F unset, set or reset (R109). -/
theorem cloggedOf_cases (r : ChannelRec) (c : Channel) :
    (c.filt = none → cloggedOf r c = false)
      ∧ ∀ f, c.filt = some f →
        (c.clogged = true → cloggedOf r c = decide (min r.clear r.clog ≤ f / 16))
          ∧ (c.clogged = false → cloggedOf r c = decide (r.clog ≤ f / 16)) := by
  refine ⟨fun unset => ?_, fun f filt => ⟨fun flagged => ?_, fun unflagged => ?_⟩⟩
  · simp only [cloggedOf, unset]
  · simp only [cloggedOf, filt, flagged, if_true, clearInUse]
    exact decide_not.symm.trans (decide_eq_decide.2 Nat.not_lt)
  · simp only [cloggedOf, filt, unflagged, Bool.false_eq_true, if_false]

theorem channelAt_putChannel_inside {i : Nat} {s : State} (inside : i < s.water.channels.length) (b : Channel) :
    channelAt (putChannel i b s) i = b := by
  simp [channelAt, putChannel, List.getD_eq_getElem?_getD, inside]

/-- The clogged flag formed again in a channel just written: a notice joins where the flag becomes set (R109). -/
theorem formClogged_putChannel {i : Nat} {s : State} (inside : i < s.water.channels.length) {c : Channel}
    {r : ChannelRec} (cfg : c.cfg = some r) :
    let formed := putChannel i { c with clogged := cloggedOf r c } s
    formClogged i (putChannel i c s)
      = if (cloggedOf r c && !c.clogged) = true then post .filterClogged (some i) c.smoothed formed else formed := by
  have again : ∀ b, putChannel i b (putChannel i c s) = putChannel i b s :=
    fun b => congrArg (fun l => { s with water := { s.water with channels := l } }) (List.set_set ..)
  unfold formClogged
  simp only [channelAt_putChannel_inside inside, cfg, setChannel_put, again]

theorem writeChannel_outOfRange {i : Nat} (beyond : 7 < i) (w : Option ChannelWrite) (s : State) :
    writeChannel i w s = (s, .outOfRange) := if_pos beyond

theorem writeChannel_inUse {i : Nat} {s : State} (named : i ≤ 7) (used : channelInUse i s = true)
    (w : Option ChannelWrite) : writeChannel i w s = (s, .wrongState) :=
  (if_neg (Nat.not_lt.2 named)).trans (if_pos used)

theorem writeChannel_none {i : Nat} {s : State} (named : i ≤ 7) (free : ¬ channelInUse i s = true) :
    writeChannel i none s = (settle (setChannel i (Channel.rewrite none) s), .done) :=
  (if_neg (Nat.not_lt.2 named)).trans (if_neg free)

/-- A written value in a channel that is free: its kind first, then its references, then the clamps (R89). -/
theorem writeChannel_some {i : Nat} {s : State} (named : i ≤ 7) (free : ¬ channelInUse i s = true) (w : ChannelWrite) :
    (ChannelKind.ofNumber w.kind = none → writeChannel i (some w) s = (s, .malformed))
      ∧ ∀ kind, ChannelKind.ofNumber w.kind = some kind →
        writeChannel i (some w) s
          = if w.node.any (fun n => decide (47 < n)) || decide (7 < w.valve) || decide (31 < w.discharge) then
              (s, .outOfRange)
            else
              (settle (formClogged i (setChannel i (Channel.rewrite (some (clampChannel kind w))) s)),
                doneIf (channelClamped w (clampChannel kind w))) := by
  unfold writeChannel
  rw [if_neg (Nat.not_lt.2 named), if_neg free]
  exact ⟨fun unread => by simp only [unread], fun kind read => by simp only [read]⟩

/-- Settles O30: the tests of R89 in their order, then the clamped record, the monitor formed again in it, and everything
settled after it. -/
theorem writeChannelsFollowsItsRule : Obligations.WriteChannelsFollowsItsRule := by
  intro o i s ready eight a put used
  have run : ∀ {w : Option ChannelWrite} {t : State} {st : Status}, writeChannel i w s = (t, st) →
      exec (.writeChannels o i w) s = .next (writeAnswer o st t) :=
    fun {w _ _} => exec_written (e := .channels i w) rfl ready
  have inUse : channelInUse i s = true ↔ used := channelInUse_iff i s
  refine ⟨fun beyond w => run (writeChannel_outOfRange beyond w s),
    fun named held w => run (writeChannel_inUse named (inUse.2 held) w), fun named free => run ?_,
    fun w named free => ?_⟩
  · rw [writeChannel_none named (mt inUse.1 free), setChannel_put, rewrite_none]
    rfl
  · obtain ⟨unread, read⟩ := writeChannel_some named (mt inUse.1 free) w
    refine ⟨fun h => run (unread h), fun kind known => ?_⟩
    intro bad
    have refs := channelRefsBad_iff w
    have written := read kind known
    refine ⟨fun h => run (written.trans (if_pos (refs.2 h))), fun good => ?_⟩
    intro top r kept status same c accepts
    have inside : i < s.water.channels.length := by omega
    have record : clampChannel kind w = r := clampChannel_minLevel kind w
    have cfg : c.cfg = some r := rewrite_cfg (some r) a
    have taken : writeChannel i (some w) s = (settle (formClogged i (putChannel i c s)), status) := by
      rw [written, if_neg (mt refs.1 good), record, channelStatus_eq, setChannel_put]
      rfl
    rw [formClogged_putChannel inside cfg] at taken
    obtain ⟨unset, monitored⟩ := cloggedOf_cases r c
    refine ⟨fun filt => run ?_, fun f filt => ?_⟩
    · rw [taken, unset filt]
      rfl
    · obtain ⟨stays, begins⟩ := monitored f filt
      have smoothed : c.smoothed = f / 16 := by rw [Channel.smoothed, filt, Option.getD_some]
      refine ⟨fun flagged => run ?_, fun unflagged low => run ?_, fun unflagged high => run ?_⟩
      · rw [taken, flagged, stays flagged, Bool.not_true, Bool.and_false]
        rfl
      · rw [taken, begins unflagged, decide_eq_false (Nat.not_le.2 low)]
        rfl
      · rw [taken, begins unflagged, decide_eq_true high, unflagged, smoothed]
        rfl

end Sys2Proof.Machine

namespace Sys2Proof.Machine

/-! ### The conditions of a backwash cycle -/

/-- Nothing aborts the cycle of channel `a` with record `r` (R116). -/
def CycleSound (s : State) (a : Channel) (r : ChannelRec) : Prop :=
  (s.water.pond ≠ some 1 ∧ s.water.pond ≠ some 2) ∧ a.latch = false ∧ channelNodeActive s a = true
    ∧ (∃ n, UsableValve s r n ∧ (nodeAt s n).state = .active) ∧ (channelAt s r.valve).latch = false

theorem CycleSound.abortCause_eq {s : State} {a : Channel} {r : ChannelRec} (sound : CycleSound s a r) :
    abortCause s a r = none := by
  obtain ⟨⟨notLow, notOut⟩, latch, active, served, valve⟩ := sound
  refine Option.eq_none_iff_forall_ne_some.2 fun k found => ?_
  rcases abortCause_some s a r k found with ⟨low, -⟩ | ⟨-, latched, -⟩ | ⟨-, -, lost, -⟩ | ⟨-, -, -, unserved, -⟩
    | ⟨-, -, -, -, jammed, -⟩
  · exact low.elim notLow notOut
  · exact absurd (latch.symm.trans latched) (by decide)
  · exact absurd (active.symm.trans lost) (by decide)
  · exact unserved served
  · exact absurd (valve.symm.trans jammed) (by decide)

/-- Where the order of R116 finds no cause, none of its conditions holds. -/
theorem cycleSound_of_abortCause {s : State} {a : Channel} {r : ChannelRec} (h : abortCause s a r = none) :
    CycleSound s a r := by
  have free := abortCause_none s a r h
  have high : ¬ (s.water.pond = some 1 ∨ s.water.pond = some 2) := fun low => free 1 (.inl ⟨low, rfl⟩)
  have latch : a.latch = false :=
    Bool.eq_false_iff.2 fun latched => free 2 (.inr (.inl ⟨high, latched, rfl⟩))
  have active : channelNodeActive s a = true :=
    Bool.not_eq_false _ ▸ fun lost => free 3 (.inr (.inr (.inl ⟨high, latch, lost, rfl⟩)))
  have served : ∃ n, UsableValve s r n ∧ (nodeAt s n).state = .active :=
    not_not.1 fun unserved => free 4 (.inr (.inr (.inr (.inl ⟨high, latch, active, unserved, rfl⟩))))
  have valve : (channelAt s r.valve).latch = false :=
    Bool.eq_false_iff.2 fun jammed => free 5 (.inr (.inr (.inr (.inr ⟨high, latch, active, served, jammed, rfl⟩))))
  exact ⟨not_or.1 high, latch, active, served, valve⟩

/-! ### The move of one cycle -/

theorem cycleStart_may {i : Nat} {s : State} {r : ChannelRec} (cfg : (channelAt s i).cfg = some r)
    (stage : (channelAt s i).stage = .requested) (may : StartConditions s i r) :
    cycleStart i s = putChannel i ((channelAt s i).enterStopping r) s := by
  simp only [cycleStart, cfg, stage, (mayStop_iff s i r).2 may, beq_self_eq_true, Bool.and_self, if_true, setChannel_put]

theorem cycleStart_waits {i : Nat} {s : State} {r : ChannelRec} (cfg : (channelAt s i).cfg = some r)
    (fails : ¬ StartConditions s i r) : cycleStart i s = s := by
  simp only [cycleStart, cfg, Bool.eq_false_iff.2 (mt (mayStop_iff s i r).1 fails), Bool.and_false, Bool.false_eq_true,
    if_false]

section Moved
variable {i : Nat} {s : State} {r : ChannelRec} (cfg : (channelAt s i).cfg = some r)
include cfg

/-- REVERSING is aborted by a cause, goes on to WASHING on BACKWASH_POS or stays (R113, R116). -/
theorem cycleStep_reversing (stage : (channelAt s i).stage = .reversing) :
    (∀ k, abortCause s (channelAt s i) r = some k → cycleStep i s = putChannel i ((channelAt s i).abort k) s)
      ∧ (abortCause s (channelAt s i) r = none → ValveHolds s r 1 →
        cycleStep i s = putChannel i ((channelAt s i).enterWashing r) s)
      ∧ (abortCause s (channelAt s i) r = none → ¬ ValveHolds s r 1 → cycleStep i s = s) := by
  refine ⟨fun k cause => ?_, fun none holds => ?_, fun none holds => ?_⟩
  · simp only [cycleStep, cfg, stage, cause, setChannel_put]
  · simp only [cycleStep, cfg, stage, none, (valveCode_iff s r 1).2 holds, beq_self_eq_true, Bool.and_self, if_true,
      setChannel_put]
  · simp only [cycleStep, cfg, stage, none, Bool.eq_false_iff.2 (mt (valveCode_iff s r 1).1 holds), Bool.and_false,
      Bool.false_eq_true, if_false]

/-- RESTORING ends on NORMAL_POS or stays (R115). -/
theorem cycleStep_restoring (stage : (channelAt s i).stage = .restoring) :
    (ValveHolds s r 0 →
        cycleStep i s
          = post .backwashDone (some i) (inc16 (channelAt s i).count)
              (putChannel i { (channelAt s i).idle with count := inc16 (channelAt s i).count } s))
      ∧ (¬ ValveHolds s r 0 → cycleStep i s = s) := by
  rw [← valveCode_iff]
  refine ⟨fun holds => ?_, fun holds => ?_⟩
  · simp only [cycleStep, cfg, stage, holds, if_true, cycleDone, setChannel_put]
  · simp only [cycleStep, cfg, stage, if_neg holds]

/-- ABORTING ends on NORMAL_POS or stays (R117). -/
theorem cycleStep_aborting (stage : (channelAt s i).stage = .aborting) :
    (ValveHolds s r 0 →
        cycleStep i s
          = post .backwashAborted (some i) (channelAt s i).cause (putChannel i (channelAt s i).idle s))
      ∧ (¬ ValveHolds s r 0 → cycleStep i s = s) := by
  rw [← valveCode_iff]
  refine ⟨fun holds => ?_, fun holds => ?_⟩
  · simp only [cycleStep, cfg, stage, holds, if_true, cycleAborted, setChannel_put]
  · simp only [cycleStep, cfg, stage, if_neg holds]

end Moved

/-! ### The commands that test a condition -/

theorem exec_startCondition (c : Nat) {s : State} (on : s.mode = .on) :
    whenOn (startCondition c) s
      = .next (if (channelAt s c).stage = .requested then settle (cycleStart c s) else s) := whenOn_on _ on

theorem exec_stageTest (st : Stage) (c : Nat) {s : State} (on : s.mode = .on) :
    whenOn (stageTest st c) s = .next (if (channelAt s c).stage = st then settle (cycleStep c s) else s) := whenOn_on _ on

/-- A condition's command at a cycle in its stage settles the move that `cycleStep` makes. -/
theorem exec_stageTest_moved {st : Stage} {c : Nat} {s t : State} (on : s.mode = .on)
    (stage : (channelAt s c).stage = st) (moved : cycleStep c s = t) : whenOn (stageTest st c) s = .next (settle t) := by
  rw [exec_stageTest st c on, if_pos stage, moved]

/-- Settles O52: every handling by the laws of the settled cycles, each command by its cycle's move. -/
theorem cycleMovesOnItsConditions : Obligations.CycleMovesOnItsConditions := by
  refine ⟨fun s => ⟨settle_cyclesFollow s, formStarts_follow s, quiet_requestsWait s⟩, fun c s on => ?_⟩
  intro a put
  refine ⟨fun r cfg => ?_, fun other => ?_, fun other => ?_, fun other => ?_, fun other => ?_⟩
  · intro may sound
    refine ⟨fun stage starts => ?_, fun stage waits => ?_, fun stage well holds => ?_, fun stage well holds => ?_,
      fun stage ill => ?_, fun stage holds => ?_, fun stage holds => ?_, fun stage holds => ?_, fun stage holds => ?_⟩
    · exact (exec_startCondition c on).trans (by rw [if_pos stage, cycleStart_may cfg stage starts]; rfl)
    · exact (exec_startCondition c on).trans (by rw [if_pos stage, cycleStart_waits cfg waits])
    · obtain ⟨-, washes, -⟩ := cycleStep_reversing cfg stage
      exact exec_stageTest_moved on stage (washes (CycleSound.abortCause_eq well) holds)
    · obtain ⟨-, -, stays⟩ := cycleStep_reversing cfg stage
      exact exec_stageTest_moved on stage (stays (CycleSound.abortCause_eq well) holds)
    · obtain ⟨aborts, -⟩ := cycleStep_reversing cfg stage
      obtain ⟨k, cause⟩ := Option.ne_none_iff_exists'.1 (mt cycleSound_of_abortCause ill)
      exact ⟨k, abortCause_some s a r k cause, exec_stageTest_moved on stage (aborts k cause)⟩
    · exact exec_stageTest_moved on stage ((cycleStep_restoring cfg stage).1 holds)
    · exact exec_stageTest_moved on stage ((cycleStep_restoring cfg stage).2 holds)
    · exact exec_stageTest_moved on stage ((cycleStep_aborting cfg stage).1 holds)
    · exact exec_stageTest_moved on stage ((cycleStep_aborting cfg stage).2 holds)
  · exact (exec_startCondition c on).trans (by rw [if_neg other])
  · exact (exec_stageTest .reversing c on).trans (by rw [if_neg other])
  · exact (exec_stageTest .restoring c on).trans (by rw [if_neg other])
  · exact (exec_stageTest .aborting c on).trans (by rw [if_neg other])

end Sys2Proof.Machine

namespace Sys2Proof.Machine

/-! ### START BACKWASH and STOP BACKWASH -/

theorem startBackwashRequest_unused {c : Nat} {s : State} (unused : 7 < c ∨ (channelAt s c).cfg = none) (r : Request) :
    startBackwashRequest r c s = reply r .outOfRange s := by
  unfold startBackwashRequest
  rcases unused with beyond | cfg
  · exact if_pos beyond
  · rw [cfg, ite_self]

theorem startBackwashRequest_named {c : Nat} {s : State} {x : ChannelRec} (named : c ≤ 7)
    (cfg : (channelAt s c).cfg = some x) (r : Request) :
    ((x.kind ≠ .filter ∨ (channelAt s c).stage ≠ .idle) → startBackwashRequest r c s = reply r .wrongState s)
      ∧ (x.kind = .filter → (channelAt s c).stage = .idle →
        startBackwashRequest r c s
          = reply r .accepted (settle (putChannel c { channelAt s c with stage := .requested, cause := 0 } s))) := by
  have refused : (x.kind != .filter || (channelAt s c).stage != .idle) = true
      ↔ x.kind ≠ .filter ∨ (channelAt s c).stage ≠ .idle := by rw [Bool.or_eq_true, bne_iff_ne, bne_iff_ne]
  simp only [startBackwashRequest, if_neg (Nat.not_lt.2 named), cfg, setChannel_put]
  exact ⟨fun h => if_pos (refused.2 h), fun kind idle => if_neg (mt refused.1 (by simp [kind, idle]))⟩

theorem stopBackwashRequest_beyond {c : Nat} (beyond : 7 < c) (r : Request) (s : State) :
    stopBackwashRequest r c s = reply r .outOfRange s := if_pos beyond

theorem stopBackwashRequest_still {c : Nat} {s : State} (named : c ≤ 7)
    (still : (channelAt s c).stage = .idle ∨ (channelAt s c).stage = .restoring ∨ (channelAt s c).stage = .aborting)
    (r : Request) : stopBackwashRequest r c s = reply r .done s := by
  rw [stopBackwashRequest, if_neg (Nat.not_lt.2 named)]
  rcases still with stage | stage | stage <;> rw [stage]

/-- A REQUESTED cycle is withdrawn, one from STOPPING to RINSING aborted (R120). -/
theorem stopBackwashRequest_moves {c : Nat} {s : State} (named : c ≤ 7)
    (moves : (channelAt s c).stage = .requested ∨ (channelAt s c).stage.abortable = true) (r : Request) :
    stopBackwashRequest r c s = reply r .done (settle (putChannel c (channelAt s c).withdraw s)) := by
  rw [stopBackwashRequest, if_neg (Nat.not_lt.2 named), setChannel_put]
  cases stage : (channelAt s c).stage with
  | idle | restoring | aborting => simp [stage, Stage.abortable] at moves
  | requested | stopping | reversing | washing | rinsing => rfl

theorem withdraw_requested {a : Channel} (stage : a.stage = .requested) : a.withdraw = a.idle := by
  rw [Channel.withdraw, stage]

theorem withdraw_abortable {a : Channel} (stage : a.stage.abortable = true) : a.withdraw = a.abort 6 := by
  unfold Channel.withdraw
  cases own : a.stage with
  | stopping | reversing | washing | rinsing => rfl
  | idle | requested | restoring | aborting => rw [own] at stage; cases stage

/-- Settles O44: both requests by the channel they name and the stage of its cycle. -/
theorem backwashStartsAndStops : Obligations.BackwashStartsAndStops := by
  intro o c s ready a put
  have start : exec (.startBackwash o c) s = .next (startBackwashRequest ⟨o, some 15#8, .startBackwash c⟩ c s) :=
    exec_ready (c := .startBackwash o c) rfl ready
  have stop : exec (.stopBackwash o c) s = .next (stopBackwashRequest ⟨o, some 16#8, .stopBackwash c⟩ c s) :=
    exec_ready (c := .stopBackwash o c) rfl ready
  rw [start, stop]
  refine ⟨fun unused => ?_, fun x named cfg refused => ?_, fun x named cfg kind idle => ?_, fun beyond => ?_,
    fun named still => ?_, fun named requested => ?_, fun named running => ?_⟩
  · rw [startBackwashRequest_unused unused, reply_eq_answer]
  · rw [(startBackwashRequest_named named cfg _).1 refused, reply_eq_answer]
  · rw [(startBackwashRequest_named named cfg _).2 kind idle, reply_eq_answer]
    rfl
  · rw [stopBackwashRequest_beyond beyond, reply_eq_answer]
  · rw [stopBackwashRequest_still named still, reply_eq_answer]
  · rw [stopBackwashRequest_moves named (.inl requested), withdraw_requested requested, reply_eq_answer]
    rfl
  · have abortable : a.stage.abortable = true := by
      rcases running with stage | stage | stage | stage <;> rw [stage] <;> rfl
    rw [stopBackwashRequest_moves named (.inr abortable), withdraw_abortable abortable, reply_eq_answer]
    rfl

end Sys2Proof.Machine

namespace Sys2Proof.Machine

/-! ### A line break in the cycles -/

/-- A cycle after a line restart or a load with that cause (R121, R122). -/
def Channel.restarted (cause : Nat) (a : Channel) : Channel :=
  match a.stage with
  | .idle | .aborting => a
  | .requested => { a.idle with cause := cause }
  | .stopping | .reversing | .washing | .rinsing | .restoring => a.abort cause

theorem restarted_still {k : Nat} {a : Channel} (stage : a.stage = .idle ∨ a.stage = .aborting) : a.restarted k = a := by
  unfold Channel.restarted
  rcases stage with stage | stage <;> rw [stage]

theorem restarted_requested {k : Nat} {a : Channel} (stage : a.stage = .requested) :
    a.restarted k = { a.idle with cause := k } := by
  rw [Channel.restarted, stage]

theorem restarted_inCycle {k : Nat} {a : Channel} (stage : a.stage.inCycle = true) : a.restarted k = a.abort k := by
  unfold Channel.restarted
  cases own : a.stage with
  | stopping | reversing | washing | rinsing | restoring => rfl
  | idle | requested | aborting => rw [own] at stage; cases stage

theorem restarted_stage (k : Nat) (a : Channel) : (a.restarted k).stage = .idle ∨ (a.restarted k).stage = .aborting := by
  cases stage : a.stage with
  | idle | aborting => rw [restarted_still (by simp [stage])]; simp [stage]
  | requested => rw [restarted_requested stage]; exact .inl rfl
  | stopping | reversing | washing | rinsing | restoring =>
    rw [restarted_inCycle (by rw [stage]; rfl)]
    exact .inr rfl

theorem restarted_keeps (k : Nat) (a : Channel) :
    (a.restarted k).cfg = a.cfg ∧ (a.restarted k).latch = a.latch ∧ (a.restarted k).count = a.count := by
  unfold Channel.restarted
  cases a.stage <;> exact ⟨rfl, rfl, rfl⟩

/-- A channel whose cycle has left IDLE stands in the table, so that a change of it is seen. -/
theorem channelAt_setChannel_moving {i : Nat} {s : State} (moving : (channelAt s i).stage ≠ .idle)
    (f : Channel → Channel) (j : Nat) :
    channelAt (setChannel i f s) j = if j = i then f (channelAt s j) else channelAt s j := by
  by_cases same : j = i
  · subst same
    have inside : j < s.water.channels.length := by
      by_contra beyond
      rw [channelAt, List.getD_eq_getElem?_getD, List.getElem?_eq_none (Nat.le_of_not_lt beyond)] at moving
      exact moving rfl
    rw [if_pos rfl, setChannel_put, channelAt_putChannel_inside inside]
  · rw [if_neg same, channelAt_setChannel i j f s same]

theorem channelAt_cycleBreak (k i j : Nat) (s : State) :
    channelAt (cycleBreak k i s) j = if j = i then (channelAt s j).restarted k else channelAt s j := by
  have moved (f : Channel → Channel) (moving : (channelAt s i).stage ≠ .idle)
      (moves : f (channelAt s i) = (channelAt s i).restarted k) :
      channelAt (setChannel i f s) j = if j = i then (channelAt s j).restarted k else channelAt s j := by
    rw [channelAt_setChannel_moving moving]
    refine if_ctx_congr Iff.rfl (fun same => ?_) fun _ => rfl
    rw [same, moves]
  unfold cycleBreak
  cases stage : (channelAt s i).stage with
  | idle | aborting =>
    have same : (channelAt s i).restarted k = channelAt s i := restarted_still (by simp [stage])
    by_cases own : j = i
    · rw [if_pos own, own, same]
    · rw [if_neg own]
  | requested => exact moved _ (by simp [stage]) (restarted_requested stage).symm
  | stopping | reversing | washing | rinsing | restoring =>
    exact moved _ (by simp [stage]) (restarted_inCycle (by rw [stage]; rfl)).symm

/-- Each cycle meets the restart once. -/
theorem channelAt_cyclesBroken (k n j : Nat) (s : State) :
    channelAt (eachIx (cycleBreak k) n s) j = if j < n then (channelAt s j).restarted k else channelAt s j := by
  induction n with
  | zero => rw [if_neg (Nat.not_lt_zero j)]; rfl
  | succ n ih =>
    rw [eachIx_succ, channelAt_cycleBreak, ih]
    rcases Nat.lt_trichotomy j n with lt | rfl | gt
    · rw [if_neg lt.ne, if_pos lt, if_pos (by omega)]
    · rw [if_pos rfl, if_neg (lt_irrefl j), if_pos (by omega)]
    · rw [if_neg gt.ne', if_neg (by omega), if_neg (by omega)]

/-! ### Cycles while no node is served -/

/-- No node is ACTIVE and none holds a code. -/
def NodesDown (t : State) : Prop := ∀ n, (nodeAt t n).code = none ∧ (nodeAt t n).state ≠ .active

theorem NodesDown.not_valveHolds {t : State} (down : NodesDown t) (r : ChannelRec) (k : Nat) : ¬ ValveHolds t r k := by
  rintro ⟨n, -, code⟩
  rw [(down n).1] at code
  cases code

theorem NodesDown.not_channelNodeActive {t : State} (down : NodesDown t) (c : Channel) : channelNodeActive t c ≠ true := by
  unfold Machine.channelNodeActive
  cases c.cfg with
  | none => exact Bool.false_ne_true
  | some r =>
    dsimp only [activeOf]
    cases r.node with
    | none => exact Bool.false_ne_true
    | some n => exact fun active => (down n).2 (beq_iff_eq.1 (Bool.and_eq_true_iff.1 active).2)

/-- A settled handling leaves a cycle in IDLE or ABORTING there while every node is down: nothing asks for a cycle, and no
valve reports NORMAL_POS. -/
theorem CyclesFollow.down {s t : State} (follow : CyclesFollow s t) (down : NodesDown t) {i : Nat} (hi : i < 8)
    (still : (channelAt s i).stage = .idle ∨ (channelAt s i).stage = .aborting) :
    (channelAt t i).stage = (channelAt s i).stage ∧ (channelAt t i).timer = (channelAt s i).timer
      ∧ (channelAt t i).cause = (channelAt s i).cause ∧ (channelAt t i).count = (channelAt s i).count := by
  obtain ⟨unused, used⟩ := follow
  cases cfg : (channelAt s i).cfg with
  | none =>
    obtain ⟨stage, timer, cause, count, -⟩ := unused i hi cfg
    exact ⟨stage, timer, cause, count⟩
  | some r =>
    obtain ⟨idle, -, -, ends, -, -, count, -⟩ := used i r hi cfg
    have away : ¬ ValveHolds t r 0 := down.not_valveHolds r 0
    have stays : (channelAt t i).stage = (channelAt s i).stage ∧ (channelAt t i).timer = (channelAt s i).timer
        ∧ (channelAt t i).cause = (channelAt s i).cause := by
      rcases still with stage | stage
      · exact (idle stage).1 fun asks => down.not_channelNodeActive _ asks.1.2
      · exact (ends (.inr stage)).2 away
    obtain ⟨stage, timer, cause⟩ := stays
    exact ⟨stage, timer, cause, count (.inr away)⟩

/-! ### The line break event -/

theorem exec_restartDue {s : State} {c : Instr} (on : s.mode = .on) (running : s.line.state = .running)
    (due : s.line.restartDue = true) (hc : c = .lineBreak ∨ c = .frameStart) : exec c s = .next (enterBreak s) := by
  rcases hc with rfl | rfl
  · exact (whenOn_on breakIfDue on).trans (congrArg Host.Outcome.next (breakIfDue_due running due))
  · exact (whenOn_on framePeriod on).trans (congrArg Host.Outcome.next (framePeriod_due running due))

theorem nodeAt_beyond {s : State} {n : Nat} (beyond : s.nodes.recs.length ≤ n) : nodeAt s n = .blank := by
  rw [nodeAt, List.getD_eq_getElem?_getD, List.getElem?_eq_none beyond]
  rfl

theorem lineBreak_down {n : Node} (law : (n.state = .empty ∨ n.state = .provisioned) → n.code = none) :
    n.lineBreak.code = none ∧ n.lineBreak.state ≠ .active := by
  unfold Node.lineBreak
  cases state : n.state with
  | active | stale | dropped => exact ⟨rfl, nofun⟩
  | empty => exact ⟨law (.inl state), by simp [state]⟩
  | provisioned => exact ⟨law (.inr state), by simp [state]⟩

theorem enterBreak_nodesDown {s : State} (law : NodeLaw s) (sized : s.nodes.recs.length = 48) :
    NodesDown (enterBreak s) := by
  intro n
  by_cases inside : n < 48
  · rw [nodeAt_enterBreak s inside]
    refine lineBreak_down fun apart => ?_
    have listed : nodeAt s n ∈ s.nodes.recs := by
      rw [nodeAt, List.getD_eq_getElem _ _ (by omega)]
      exact List.getElem_mem _
    obtain ⟨-, reset, -⟩ := law _ listed
    exact (reset apart).1
  · have settled : SettledFrom (mgmtBreak (nodesBreak (cyclesMoved s))) (enterBreak s) := settle_settled _
    obtain ⟨-, nodes, -⟩ := mgmtBreak_rest (nodesBreak (cyclesMoved s))
    have before : nodeAt (cyclesMoved s) n = nodeAt s n := nodeAt_congr (cyclesMoved_settled s).nodes n
    rw [nodeAt_congr settled.nodes, nodeAt_congr nodes, nodesBreak_eq, nodeAt_nodesBroken, if_neg inside, before,
      nodeAt_beyond (by omega)]
    exact ⟨rfl, by decide⟩

/-- The break ends with every cycle as the restart leaves it: the settling moves none, all nodes being down. -/
theorem channelAt_enterBreak {s : State} (law : NodeLaw s) (sized : s.nodes.recs.length = 48) {i : Nat} (hi : i < 8) :
    let b := channelAt (enterBreak s) i
    let c := (channelAt s i).restarted 8
    b.stage = c.stage ∧ b.timer = c.timer ∧ b.cause = c.cause ∧ b.count = c.count ∧ b.cfg = c.cfg ∧ b.latch = c.latch := by
  intro b c
  have settled : SettledFrom (mgmtBreak (nodesBreak (cyclesMoved s))) (enterBreak s) := settle_settled _
  have follow : CyclesFollow (mgmtBreak (nodesBreak (cyclesMoved s))) (enterBreak s) := settle_cyclesFollow _
  obtain ⟨-, -, -, -, -, water⟩ := mgmtBreak_rest (nodesBreak (cyclesMoved s))
  obtain ⟨-, -, -, -, water', -⟩ := nodesBreak_rest (cyclesMoved s)
  have moved : channelAt (mgmtBreak (nodesBreak (cyclesMoved s))) i = c := by
    rw [channelAt_congr (water.trans water')]
    exact (channelAt_cyclesBroken 8 8 i (lineToBreak s)).trans (if_pos hi)
  have still := follow.down (enterBreak_nodesDown law sized) hi (by rw [moved]; exact restarted_stage 8 _)
  have kept := settled.valve i
  rw [moved] at still kept
  obtain ⟨stage, timer, cause, count⟩ := still
  exact ⟨stage, timer, cause, count, kept⟩

/-- Settles O8: the restart moves every cycle, and the nodes it takes down let none move further. -/
theorem lineBreakMovesTheCycles : Obligations.LineBreakMovesTheCycles := by
  intro s c on running due law sized _ hc
  refine ⟨enterBreak s, exec_restartDue on running due hc, fun i hi => ?_⟩
  obtain ⟨stage, timer, cause, count, cfg, latch⟩ := channelAt_enterBreak law sized hi
  obtain ⟨cfg', latch', count'⟩ := restarted_keeps 8 (channelAt s i)
  refine ⟨fun runs => ?_, fun aborting => ?_, fun requested => ?_, fun idle => ?_, cfg.trans cfg', latch.trans latch',
    count.trans count'⟩
  · have inCycle : (channelAt s i).stage.inCycle = true := by
      rcases runs with own | own | own | own | own <;> rw [own] <;> rfl
    rw [stage, timer, cause, restarted_inCycle inCycle]
    exact ⟨rfl, rfl, rfl⟩
  · rw [stage, timer, cause, restarted_still (.inr aborting)]
    exact ⟨aborting, rfl, rfl⟩
  · rw [stage, cause, restarted_requested requested]
    exact ⟨rfl, rfl⟩
  · rw [stage, cause, restarted_still (.inl idle)]
    exact ⟨idle, rfl⟩

end Sys2Proof.Machine

namespace Sys2Proof.Machine

/-! ### WRITE_LIGHTS -/

theorem lightRefsBad_iff (w : LightWrite) :
    (w.node.any (fun n => decide (47 < n)) || w.motion.any (fun n => decide (47 < n))) = true
      ↔ (∃ n, w.node = some n ∧ 47 < n) ∨ ∃ n ∈ w.motion, 47 < n := by
  simp only [Bool.or_eq_true, Option.any_eq_true, List.any_eq_true, decide_eq_true_eq]

theorem lightStatus_eq (w : LightWrite) (r : LightRec) :
    doneIf (lightClamped w r)
      = if r.onLevel = w.onLevel ∧ r.lateLevel = w.lateLevel ∧ r.lateMin = w.lateMin ∧ r.offMin = w.offMin
          ∧ r.presLevel = w.presLevel ∧ r.presHold = w.presHold ∧ r.upInt = w.upInt ∧ r.upFrac = w.upFrac
          ∧ r.downInt = w.downInt ∧ r.downFrac = w.downFrac then .done
        else .doneClamped := by
  rw [lightClamped, doneIf_kept]
  simp only [Bool.and_eq_true, beq_iff_eq, and_assoc]

/-- The empty value is taken whatever the group held, and only it reaches presence and the evening phase (R124). -/
theorem lightRewrite_none (g : LightGroup) :
    g.rewrite none
      = { g with
          cfg := none, online := false, current := 0, acc := 0, presence := .inactive, hold := 0
          evening := .early } := if_pos rfl

/-- A record with the node index that the group names leaves its level and its online state alone; a group that was
empty names none (R124). -/
theorem lightRewrite_some (r : LightRec) (g : LightGroup) :
    g.rewrite (some r)
      = if g.cfg.map (fun x => x.node) = some r.node then { g with cfg := some r }
        else { g with cfg := some r, online := false, current := 0, acc := 0 } :=
  if_neg Bool.false_ne_true

theorem writeLight_outOfRange {i : Nat} (beyond : 15 < i) (w : Option LightWrite) (s : State) :
    writeLight i w s = (s, .outOfRange) := if_pos beyond

theorem writeLight_none {i : Nat} (named : i ≤ 15) (s : State) :
    writeLight i none s = (settle (setGroup i (LightGroup.rewrite none) s), .done) := if_neg (Nat.not_lt.2 named)

/-- A written value: its mode first, then its references, then the clamps (R124). -/
theorem writeLight_some {i : Nat} (named : i ≤ 15) (w : LightWrite) (s : State) :
    (LightMode.ofNumber w.mode = none → writeLight i (some w) s = (s, .malformed))
      ∧ ∀ mode, LightMode.ofNumber w.mode = some mode →
        writeLight i (some w) s
          = if w.node.any (fun n => decide (47 < n)) || w.motion.any (fun n => decide (47 < n)) then (s, .outOfRange)
            else
              (settle (setGroup i (LightGroup.rewrite (some (clampLight mode w))) s),
                doneIf (lightClamped w (clampLight mode w))) := by
  unfold writeLight
  rw [if_neg (Nat.not_lt.2 named)]
  exact ⟨fun unread => by simp only [unread], fun mode read => by simp only [read]⟩

/-- Settles O32: the tests of R124 in their order, then the clamped record or the empty value in the group, and
everything settled after it. -/
theorem writeLightsFollowsItsRule : Obligations.WriteLightsFollowsItsRule := by
  intro o i s ready
  have run : ∀ {w : Option LightWrite} {t : State} {st : Status}, writeLight i w s = (t, st) →
      exec (.writeLights o i w) s = .next (writeAnswer o st t) :=
    fun {w _ _} => exec_written (e := .lights i w) rfl ready
  refine ⟨fun beyond w => run (writeLight_outOfRange beyond w s), fun named => run ?_, fun w named => ?_⟩
  · rw [writeLight_none named, funext lightRewrite_none]
  · obtain ⟨unread, read⟩ := writeLight_some named w s
    refine ⟨fun h => run (unread h), fun mode known => ?_⟩
    intro bad r kept status
    have refs := lightRefsBad_iff w
    have written := read mode known
    refine ⟨fun h => run (written.trans (if_pos (refs.2 h))), fun good => run ?_⟩
    rw [written, if_neg (mt refs.1 good), lightStatus_eq, funext (lightRewrite_some _)]
    rfl

end Sys2Proof.Machine

namespace Sys2Proof.Machine

/-! ### WRITE_LOADS -/

theorem namedBeyond_iff (ix : Option Nat) :
    ix.any (fun n => decide (47 < n)) = true ↔ ∃ n, ix = some n ∧ 47 < n := by
  simp only [Option.any_eq_true, decide_eq_true_eq]

/-- The load an accepted write leaves: its request and its grant wait for the pass (R139, step 4). -/
def clampLoad (w : LoadWrite) (l : Load) : Load :=
  { l with
    cls := min w.cls 3, minDraw := min (min w.minDraw 4000) (min w.fullDraw 4000), fullDraw := min w.fullDraw 4000
    node := w.node }

theorem loadStatus_eq (w : LoadWrite) (cls full low : Nat) :
    doneIf (!(cls == w.cls && full == w.fullDraw && low == w.minDraw))
      = if cls = w.cls ∧ full = w.fullDraw ∧ low = w.minDraw then .done else .doneClamped := by
  rw [doneIf_kept]
  simp only [Bool.and_eq_true, beq_iff_eq, and_assoc]

theorem writeLoad_outOfRange {i : Nat} (beyond : 27 < i) (w : Option LoadWrite) (s : State) :
    writeLoad i w s = (s, .outOfRange) := if_pos beyond

theorem writeLoad_none {i : Nat} (named : i ≤ 27) (s : State) : writeLoad i none s = (s, .malformed) :=
  if_neg (Nat.not_lt.2 named)

/-- A written value: its reference first, then the clamps (R139). -/
theorem writeLoad_some {i : Nat} (named : i ≤ 27) (w : LoadWrite) (s : State) :
    writeLoad i (some w) s
      = if w.node.any (fun n => decide (47 < n)) then (s, .outOfRange)
        else
          (settle { s with power := { s.power with loads := s.power.loads.modify i (clampLoad w) } },
            doneIf
              (!(min w.cls 3 == w.cls && min w.fullDraw 4000 == w.fullDraw
                && min (min w.minDraw 4000) (min w.fullDraw 4000) == w.minDraw))) :=
  if_neg (Nat.not_lt.2 named)

/-- Settles O33: the tests of R139 in their order, then the clamped record in the load and everything settled after it. -/
theorem writeLoadsFollowsItsRule : Obligations.WriteLoadsFollowsItsRule := by
  intro o i s ready
  have run : ∀ {w : Option LoadWrite} {t : State} {st : Status}, writeLoad i w s = (t, st) →
      exec (.writeLoads o i w) s = .next (writeAnswer o st t) :=
    fun {w _ _} => exec_written (e := .loads i w) rfl ready
  refine ⟨fun beyond w => run (writeLoad_outOfRange beyond w s), fun named => run (writeLoad_none named s),
    fun w named => ?_⟩
  intro bad cls full low status
  have refs : w.node.any (fun n => decide (47 < n)) = true ↔ bad := namedBeyond_iff w.node
  have written := writeLoad_some named w s
  refine ⟨fun h => run (written.trans (if_pos (refs.2 h))), fun good => run ?_⟩
  rw [written, if_neg (mt refs.1 good), loadStatus_eq]
  rfl

end Sys2Proof.Machine

namespace Sys2Proof.Machine

/-! ### WRITE_SITE -/

theorem siteRefsBad_iff (w : SiteWrite) :
    (w.weather.any (fun n => decide (47 < n)) || w.level.any (fun n => decide (47 < n))
        || w.supply.any (fun n => decide (47 < n))) = true
      ↔ (∃ n, w.weather = some n ∧ 47 < n) ∨ (∃ n, w.level = some n ∧ 47 < n) ∨ ∃ n, w.supply = some n ∧ 47 < n := by
  simp only [Bool.or_eq_true, namedBeyond_iff, or_assoc]

theorem siteStatus_eq (w : SiteWrite) (x : Site) :
    doneIf (siteClamped w x)
      = if x.privileged = w.privileged ∧ x.budget = w.budget ∧ x.dusk = w.dusk ∧ x.dawn = w.dawn
          ∧ w.staleLimit = 8 ∧ w.dropLimit = 250 then .done
        else .doneClamped := by
  rw [siteClamped, doneIf_kept]
  simp only [Bool.and_eq_true, beq_iff_eq, and_assoc]

theorem writeSite_outOfRange {i : Nat} (beyond : 0 < i) (w : Option SiteWrite) (s : State) :
    writeSite i w s = (s, .outOfRange) := if_pos beyond

theorem writeSite_none (s : State) : writeSite 0 none s = (s, .malformed) := if_neg (Nat.lt_irrefl 0)

/-- A written value: its references first, then the clamps (R159). -/
theorem writeSite_some (w : SiteWrite) (s : State) :
    writeSite 0 (some w) s
      = if w.weather.any (fun n => decide (47 < n)) || w.level.any (fun n => decide (47 < n))
            || w.supply.any (fun n => decide (47 < n)) then (s, .outOfRange)
        else (settle (replaceSite (clampSite w) s), doneIf (siteClamped w (clampSite w))) :=
  if_neg (Nat.lt_irrefl 0)

/-- Settles O34: the tests of R159 in their order, then the clamped record, with the run and the contexts that follow it,
and everything settled after it. -/
theorem writeSiteFollowsItsRule : Obligations.WriteSiteFollowsItsRule := by
  intro o i s ready
  have run : ∀ {j : Nat} {w : Option SiteWrite} {t : State} {st : Status}, writeSite j w s = (t, st) →
      exec (.writeSite o j w) s = .next (writeAnswer o st t) :=
    fun {j w _ _} => exec_written (e := .site j w) rfl ready
  refine ⟨fun beyond w => run (writeSite_outOfRange beyond w s), run (writeSite_none s), fun w => ?_⟩
  intro bad x kept status old second
  have refs := siteRefsBad_iff w
  have written := writeSite_some w s
  refine ⟨fun h => run (written.trans (if_pos (refs.2 h))), fun good => run ?_⟩
  rw [written, if_neg (mt refs.1 good), siteStatus_eq]
  rfl

end Sys2Proof.Machine

namespace Sys2Proof.Machine

/-! ### RESTORE SUPPLY -/

/-- FOLDBACK of the usable supply node, by the record the site names (R145, R147). -/
theorem foldback_named (s : State) :
    foldback s = true
      ↔ ∃ n x, s.mgmt.site.supply = some n ∧ (nodeAt s n).ident = some x ∧ x.kind = .supply
        ∧ (nodeAt s n).state = .active ∧ (nodeAt s n).code = some 2 := by
  rw [foldback_iff]
  constructor
  · rintro ⟨_, ⟨n, x, named, rfl, ident, kind, active⟩, code⟩
    exact ⟨n, x, named, ident, kind, active, code⟩
  · rintro ⟨n, x, named, ident, kind, active, code⟩
    exact ⟨_, ⟨n, x, named, rfl, ident, kind, active⟩, code⟩

theorem restoreRequest_reset {s : State} (shed : s.power.shed = false) (r : Request) :
    restoreRequest r s = reply r .done { s with power := { s.power with run := 0 } } :=
  if_pos (by rw [shed]; rfl)

theorem restoreRequest_set {s : State} (shed : s.power.shed = true) (r : Request) :
    restoreRequest r s
      = if foldback s then reply r .wrongState s
        else reply r .done (settle { s with power := { s.power with shed := false, cause := none, run := 0 } }) :=
  if_neg (by rw [shed]; decide)

theorem supplyUsable_of_foldback {s : State} (folds : foldback s = true) : supplyUsable s = true := by
  obtain ⟨n, live, -⟩ := (foldback_iff s).1 folds
  exact (supplyUsable_iff s).2 ⟨n, live⟩

theorem dropRun_usable {s : State} (usable : supplyUsable s = true) : dropRun s = s := by
  rw [dropRun, if_pos usable]

/-- A node that is not usable holds no FOLDBACK: only the run is dropped (R145). -/
theorem formShed_unusable {s : State} (unusable : ¬ supplyUsable s = true) :
    formShed s = { s with power := { s.power with run := 0 } } := by
  have calm : ¬ foldback (dropRun s) = true := fun folds => unusable (supplyUsable_of_foldback (s := s) folds)
  rw [formShed, if_neg calm, dropRun, if_neg unusable]

theorem formShed_usable {s : State} (usable : supplyUsable s = true) :
    formShed s = if foldback s then setShed .foldback s else s := by
  rw [formShed, dropRun_usable usable]

theorem setShed_set {s : State} (shed : s.power.shed = true) (cause : ShedCause) : setShed cause s = s := if_pos shed

/-- A notice whose detail may be unstated joins the list, and only a free detail spends a free value (log 14). -/
theorem postDetail_joins (k : NoticeKind) (x detail : Option Nat) (s : State) :
    ∃ d, (∀ m, detail = some m → d = m)
      ∧ postDetail k x detail s
        = { s with notices := s.notices.join (noticeNow s k x d), free := (postDetail k x detail s).free } := by
  cases detail with
  | none => exact ⟨(Config.freeDetail s.free).toNat, nofun, rfl⟩
  | some m => exact ⟨m, fun _ same => Option.some.inj same, rfl⟩

/-- The shed state set anew, with its cause and its notice (R146). -/
theorem setShed_reset {s : State} (shed : s.power.shed = false) (cause : ShedCause) :
    ∃ detail, (∀ d, s.power.measured = some d → detail = d)
      ∧ setShed cause s
        = { s with
            power := { s.power with shed := true, cause := some cause }
            notices := s.notices.join (noticeNow s .overloadShed s.mgmt.site.supply detail)
            free := (setShed cause s).free } := by
  rw [setShed, if_neg (by rw [shed]; decide)]
  exact postDetail_joins ..

/-- Settles O46: the request by the shed state and then by the supply node, and the forming of the shed state by the same
node. -/
theorem restoreSupplyEndsTheShedState : Obligations.RestoreSupplyEndsTheShedState := by
  refine ⟨fun o s ready => ?_, fun s => ?_⟩
  · intro folds
    have run : exec (.restoreSupply o) s = .next (restoreRequest ⟨o, some 18#8, .restoreSupply⟩ s) :=
      exec_ready (c := .restoreSupply o) rfl ready
    have judged : foldback s = true ↔ folds := foldback_named s
    rw [run]
    refine ⟨fun reset => ?_, fun shed held => ?_, fun shed ended => ?_⟩
    · rw [restoreRequest_reset reset, reply_eq_answer]
    · rw [restoreRequest_set shed, if_pos (judged.2 held), reply_eq_answer]
    · rw [restoreRequest_set shed, if_neg (mt judged.1 ended), reply_eq_answer]
  · intro usable folds
    have served : supplyUsable s = true ↔ usable := supplyUsable_iff s
    have judged : foldback s = true ↔ folds := foldback_iff s
    refine ⟨fun h => formShed_unusable (mt served.1 h), fun h kept => ?_, fun held reset => ?_⟩
    · rw [formShed_usable (served.2 h)]
      rcases kept with calm | shed
      · exact if_neg (mt judged.1 calm)
      · rw [setShed_set shed, ite_self]
    · have formed : formShed s = setShed .foldback s :=
        (formShed_usable (supplyUsable_of_foldback (judged.2 held))).trans (if_pos (judged.2 held))
      rw [formed]
      exact setShed_reset reset .foldback

end Sys2Proof.Machine

namespace Sys2Proof.Machine

/-! ### Draws, cap levels and requests -/

theorem drawAt_ceiling (full v : Nat) : full * v ≤ 255 * drawAt full v ∧ 255 * drawAt full v < full * v + 255 := by
  unfold drawAt
  omega

theorem drawAt_top (full : Nat) : drawAt full 255 = full := by
  unfold drawAt
  omega

theorem drawAt_level_zero (full : Nat) : drawAt full 0 = 0 := by rw [drawAt, Nat.mul_zero]

theorem drawAt_full_zero (v : Nat) : drawAt 0 v = 0 := by rw [drawAt, Nat.zero_mul]

theorem capLevel_full_zero (g : Nat) : capLevel 0 g = 255 := rfl

theorem capLevel_pos {full : Nat} (pos : 0 < full) (g : Nat) : capLevel full g = min (g * 255 / full) 255 :=
  if_neg (Nat.ne_of_gt pos)

/-- The cap level is the highest level whose draw fits the grant (R138). -/
theorem drawAt_le_iff {full g v : Nat} (level : v ≤ 255) : drawAt full v ≤ g ↔ v ≤ capLevel full g := by
  refine ⟨fun fits => ?_, drawAt_le full g v⟩
  rcases Nat.eq_zero_or_pos full with rfl | pos
  · exact level
  · have floor : v * full ≤ g * 255 := by
      have ceiling := (drawAt_ceiling full v).1
      rw [Nat.mul_comm] at ceiling
      omega
    rw [capLevel_pos pos]
    exact le_min ((Nat.le_div_iff_mul_le pos).2 floor) level

section
variable {s : State} {i : Nat}

/-- A channel whose load has a full draw of 0 hands over 0, in use or not (R138, R140). -/
theorem ChannelLaw.reqDraw_zero (law : ChannelLaw s) (idle : (loadAt s i).fullDraw = 0) :
    (channelAt s i).reqDraw = 0 := by
  rw [channelAt, List.getD_eq_getElem?_getD]
  cases at_i : s.water.channels[i]? with
  | none => rfl
  | some c =>
    rw [Option.getD_some]
    obtain ⟨empty, inUse⟩ := law i c at_i
    cases cfg : c.cfg with
    | none => exact (empty cfg).2.2.2.2
    | some r =>
      obtain ⟨-, -, -, -, -, -, halted, formed⟩ := inUse r cfg
      by_cases runs : (c.state = .running ∨ c.state = .backwash) ∧ r.kind ≠ .valve
      · have draw : c.reqDraw = drawAt (loadAt s i).fullDraw c.reqLevel :=
          (Classical.em _).elim (fun stopped => (formed runs 0 (fun _ => rfl) (absurd stopped)).2.2)
            (fun flows => (formed runs _ (fun stopped => absurd stopped flows) (fun _ => rfl)).2.2)
        rw [draw, idle, drawAt_full_zero]
      · exact (halted runs).2.2

/-- A light group whose load has a full draw of 0 hands over 0, online or not (R138, R140). -/
theorem GroupLaw.reqDraw_zero (law : GroupLaw s) (idle : (loadAt s (8 + i)).fullDraw = 0) :
    (groupAt s i).reqDraw = 0 := by
  rw [groupAt, List.getD_eq_getElem?_getD]
  cases at_i : s.light[i]? with
  | none => rfl
  | some g =>
    obtain ⟨-, -, -, -, -, draw, -⟩ := law i g at_i
    rw [Option.getD_some, draw, idle, drawAt_full_zero, ite_self]

/-- Of whatever owner, a load with a full draw of 0 requests 0 once the results stand (R138). -/
theorem ResultLaws.request_zero (laws : ResultLaws s) (idle : (loadAt s i).fullDraw = 0) :
    (loadAt s i).request = 0 := by
  cases at_i : s.power.loads[i]? with
  | none => rw [loadAt, List.getD_eq_getElem?_getD, at_i]; rfl
  | some l =>
    have load : loadAt s i = l := by rw [loadAt, List.getD_eq_getElem?_getD, at_i]; rfl
    obtain ⟨channel, group, dock⟩ := laws.requests i l at_i
    rw [load]
    rcases Nat.lt_or_ge i 8 with low | low
    · rw [channel low, laws.channels.reqDraw_zero idle]
    · rcases Nat.lt_or_ge i 24 with high | high
      · have shifted : 8 + (i - 8) = i := by omega
        rw [group low high, laws.groups.reqDraw_zero (by rw [shifted, idle])]
      · obtain ⟨sampled, unsampled⟩ := dock high
        by_cases fed : ∃ n w, LiveNode s l.node .dock n ∧ n.code ≠ some 2 ∧ n.sample = some w
        · obtain ⟨n, w, live, healthy, sample⟩ := fed
          rw [sampled n w live healthy sample, ← load, idle, Nat.min_zero]
        · exact unsampled fun n w live healthy sample => fed ⟨n, w, live, healthy, sample⟩

end

/-- A charger that one dock load names is sent that load's grant (R138, R141). -/
theorem dockCommand_only {n j : Nat} {s : State} (hj : j < 4)
    (only : ∀ k, k < 4 → ((loadAt s (24 + k)).node = some n ↔ k = j)) :
    commandBytes .dock n s = beBytes 2 (loadAt s (24 + j)).grant := by
  obtain ⟨k, hk, named, -, command⟩ := dockCommand_some hj ((only j hj).2 rfl)
  obtain rfl := (only k hk).1 named
  exact command

/-- Settles O53: the two formulas, what follows of them at a full draw of 0, and the dock loads. -/
theorem drawsAndCapLevels : Obligations.DrawsAndCapLevels :=
  ⟨drawAt_ceiling, fun full => ⟨drawAt_level_zero full, drawAt_top full⟩, fun _ g pos => capLevel_pos pos g,
    fun _ _ _ => drawAt_le_iff, fun full g => drawAt_le full g _ le_rfl,
    fun g v => ⟨drawAt_full_zero v, capLevel_full_zero g⟩,
    fun s _ _ => (rounds_results 40 s).request_zero, fun _ _ _ => dockCommand_only⟩

end Sys2Proof.Machine

namespace Sys2Proof.Machine

/-! ### The request queue -/

section
variable {s : State}

theorem place_room (room : s.mgmt.queue.length < 4) (r : Request) :
    place r s = { s with mgmt := { s.mgmt with queue := s.mgmt.queue ++ [r] } } := if_pos room

theorem place_held (full : s.mgmt.queue.length = 4) (free : s.mgmt.heldReq = none) (r : Request) :
    place r s = { s with mgmt := { s.mgmt with heldReq := some r } } := by
  rw [place, if_neg (by omega), free]

theorem place_overrun {lost : Request} (full : s.mgmt.queue.length = 4) (held : s.mgmt.heldReq = some lost)
    (r : Request) :
    place r s
      = post .queueOverrun (some lost.origin.address) lost.origin.number
          { s with mgmt := { s.mgmt with heldReq := some r, overrun := inc16 s.mgmt.overrun } } := by
  rw [place, if_neg (by omega), held]

theorem serveUpTo_busy (n : Nat) (busy : s.mgmt.proc ≠ .idle) : serveUpTo n s = s := by
  cases n with
  | zero => rfl
  | succ n =>
    rw [serveUpTo]
    cases proc : s.mgmt.proc with
    | idle => exact absurd proc busy
    | sending | forwarding | waiting => rfl

/-- An IDLE processor takes the oldest request and goes on with those left (R153). -/
theorem serveUpTo_takes {r : Request} {q : List Request} (n : Nat) (idle : s.mgmt.proc = .idle)
    (queue : s.mgmt.queue = r :: q) : serveUpTo (n + 1) s = serveUpTo n (process r (takeOldest q s)) := by
  rw [serveUpTo, idle, queue]

/-- Placed in an empty queue and taken from it at once, a request leaves the queue as it was (R152). -/
theorem takeOldest_place (queue : s.mgmt.queue = []) (held : s.mgmt.heldReq = none) (r : Request) :
    takeOldest [] (place r s) = s := by
  obtain ⟨mode, line, nodes, pos, zone, water, light, power, mgmt, notices, store, free, pending⟩ := s
  obtain ⟨site, ctx1, ctx2, joinCtx, q, h, rest⟩ := mgmt
  cases queue
  cases held
  rfl

/-- Whatever the part's mode, a request that finds the processor IDLE and none waiting is processed (R153). -/
theorem arrive_idle (idle : s.mgmt.proc = .idle) (queue : s.mgmt.queue = []) (held : s.mgmt.heldReq = none)
    (r : Request) : arrive r s = serveUpTo 5 (process r s) := by
  have room : s.mgmt.queue.length < 4 := by rw [queue]; decide
  have still : (place r s).mgmt.proc = .idle := by rw [place_room room]; exact idle
  have waits : (place r s).mgmt.queue = [r] := by rw [place_room room, queue]; rfl
  calc arrive r s = serveUpTo 5 (process r (takeOldest [] (place r s))) := serveUpTo_takes 5 still waits
    _ = serveUpTo 5 (process r s) := by rw [takeOldest_place queue held]

theorem exec_busy {c : Instr} {r : Request} (on : s.mode = .on) (asks : asRequest c = some r)
    (busy : s.mgmt.proc ≠ .idle) : exec c s = .next (place r s) := by
  rw [exec_asRequest asks, whenOn_on _ on, arrive_busy busy]

theorem fragmentGone_lastOfResponse {f : Fragment} (sending : s.mgmt.proc = .sending [f]) :
    fragmentGone (.outgoing f) s = serve { s with mgmt := { s.mgmt with proc := .idle } } := by
  rw [fragmentGone, outgoingGone, sending]

end

/-- Settles O18: an arrival at a busy processor by the place it finds, the end of a response by the queue it finds. -/
theorem busyProcessorQueuesTheRequest : Obligations.BusyProcessorQueuesTheRequest := by
  refine ⟨fun c r s on asks busy => ?_, fun f s sending => ?_⟩
  · rw [exec_busy on asks busy]
    refine ⟨fun room => ?_, fun full free => ?_, fun lost full held => ?_⟩
    · rw [place_room room]
    · rw [place_held full free]
    · rw [place_overrun full held]
      rfl
  · rw [fragmentGone_lastOfResponse sending]
    refine ⟨fun none => serveUpTo_empty 6 none, fun r q queue => ?_⟩
    intro t
    have taken : serve { s with mgmt := { s.mgmt with proc := .idle } } = serveUpTo 5 t := serveUpTo_takes 5 rfl queue
    rw [taken]
    exact ⟨rfl, serveUpTo_busy 5⟩

end Sys2Proof.Machine

namespace Sys2Proof.Machine

/-! ### READ STATUS -/

theorem flag_eq (b : Bool) : flag b = [if b then 0x01#8 else 0x00#8] := by cases b <;> rfl

theorem isOpen_eq (s : State) : isOpen s = decide (s.mgmt.site.privileged = []) := by
  rw [isOpen]
  cases s.mgmt.site.privileged <;> rfl

theorem b1_eq (v : Nat) : b1 v = [BitVec.ofNat 8 v] := rfl

/-- Settles O19: the status view byte by byte, at a state where no request waits. -/
theorem readStatusGivesTheStatusView : Obligations.ReadStatusGivesTheStatusView := by
  intro o s ready
  rw [exec_ready (c := .readStatus o) rfl ready]
  obtain ⟨-, -, queue, held⟩ := ready
  refine congrArg (fun body => Host.Outcome.next (answer o 1#8 .done body s)) ?_
  simp only [statusView, flag_eq, isOpen_eq, decide_eq_true_eq, b1_eq, activeCount, List.countP_eq_length_filter,
    queue, held, List.append_assoc]
  cases s.line.state <;> rfl

end Sys2Proof.Machine

namespace Sys2Proof.Machine

/-! ### Reads refused -/

section
variable {space table first : Nat} {t : Table} {s : State}

theorem readEntries_noSpace (none : 1 < space) (r : Request) (count : Nat) :
    readEntries r space table first count s = reply r .malformed s := if_pos none

theorem readEntries_noTable (known : space ≤ 1) (none : Table.ofNumber table = none) (r : Request) (count : Nat) :
    readEntries r space table first count s = reply r .noSuchTable s := by
  rw [readEntries, if_neg (Nat.not_lt.2 known), none]

/-- The tests of a read of a known table (R155, R156, R157, R170). -/
theorem readEntries_named (known : space ≤ 1) (named : Table.ofNumber table = some t) (r : Request) (count : Nat) :
    readEntries r space table first count s
      = if space = 1 ∧ t.inImage = false then reply r .noSuchTable s
        else if space = 1 ∧ s.store.writing.isSome = true then reply r .busy (countBusy s)
        else if space = 1 ∧ s.store.imageValid = false then reply r .wrongState s
        else if t.size < first then reply r .outOfRange s
        else readTable r space table first (max count 1) t (doneIf (count == 0)) s := by
  rw [readEntries, if_neg (Nat.not_lt.2 known), named]

end

/-- Settles O20: the read by the first test it fails. -/
theorem readsAreRefusedInOrder : Obligations.ReadsAreRefusedInOrder := by
  intro o c k space table first count s ready asks
  obtain ⟨b, run⟩ := exec_read ready asks
  rw [run]
  refine ⟨fun none => ?_, fun known none => ?_, fun t named => ⟨?_, ?_, ?_, ?_⟩⟩
  · rw [readEntries_noSpace none, reply_eq_answer]
  · rw [readEntries_noTable known none, reply_eq_answer]
  · rintro rfl notHeld
    rw [readEntries_named le_rfl named, if_pos ⟨rfl, notHeld⟩, reply_eq_answer]
  · rintro rfl held writing
    rw [readEntries_named le_rfl named, if_neg (by simp [held]), if_pos ⟨rfl, writing⟩, reply_eq_answer]
    rfl
  · rintro rfl held idle invalid
    rw [readEntries_named le_rfl named, if_neg (by simp [held]), if_neg (by simp [idle]), if_pos ⟨rfl, invalid⟩,
      reply_eq_answer]
  · rintro (rfl | ⟨rfl, held, idle, valid⟩) beyond
    · rw [readEntries_named (Nat.zero_le 1) named, if_neg (by simp), if_neg (by simp), if_neg (by simp), if_pos beyond,
        reply_eq_answer]
    · rw [readEntries_named le_rfl named, if_neg (by simp [held]), if_neg (by simp [idle]), if_neg (by simp [valid]),
        if_pos beyond, reply_eq_answer]

end Sys2Proof.Machine

namespace Sys2Proof.Machine

/-! ### WRITE ENTRIES -/

theorem readEntry_isSome {t : Table} {len : Nat} (written : t.written = some len) (i : Nat) (bs : List Byte) :
    (readEntry t i bs).isSome = true := by
  cases t with
  | site | slotmap | nodes | joiners | loops | mowers | zones | channels | shows | steps | lights | loads => rfl
  | nodeChanges | mowerState | zoneState | channelState | lightState | grants | counters => cases written

/-- The entries of a WRITE ENTRIES, each read from its own place in the bytes (R158). -/
theorem readWritten_eq (t : Table) (len n i : Nat) (bs : List Byte) :
    readWritten t len n i bs
      = (List.range n).filterMap (fun j => readEntry t (i + j) ((bs.drop (j * len)).take len)) := by
  induction n generalizing i bs with
  | zero => rfl
  | succ n ih =>
    have shifted : ∀ j, readEntry t (i + 1 + j) (((bs.drop len).drop (j * len)).take len)
        = readEntry t (i + (j + 1)) ((bs.drop ((j + 1) * len)).take len) := fun j => by
      rw [List.drop_drop, Nat.add_assoc, Nat.add_comm 1 j, Nat.add_mul, Nat.one_mul, Nat.add_comm len]
    rw [readWritten, ih, List.range_succ_eq_map, List.filterMap_cons, List.filterMap_map]
    simp only [shifted, Nat.zero_mul, List.drop_zero, Nat.add_zero]
    cases readEntry t i (bs.take len) <;> rfl

theorem readWritten_length {t : Table} {len : Nat} (written : t.written = some len) (n i : Nat) (bs : List Byte) :
    (readWritten t len n i bs).length = n := by
  induction n generalizing i bs with
  | zero => rfl
  | succ n ih =>
    obtain ⟨e, entry⟩ := Option.isSome_iff_exists.1 (readEntry_isSome written i (bs.take len))
    rw [readWritten, entry, List.length_append, ih]
    exact Nat.add_comm 1 n

theorem writeAll_length (es : List EntryWrite) (s : State) : (writeAll es s).2.length = es.length := by
  induction es generalizing s with
  | nil => rfl
  | cons e es ih => exact congrArg (· + 1) (ih _)

theorem taken_iff (st : Status) : st.taken = true ↔ st = .done ∨ st = .doneClamped := by
  rw [Status.taken, Bool.or_eq_true, beq_iff_eq, beq_iff_eq]

/-- With every entry accepted the overall status says whether one was clamped (R155). -/
theorem overall_taken {sts : List Status} (taken : ∀ st ∈ sts, st = .done ∨ st = .doneClamped) :
    overall sts = doneIf (sts.contains .doneClamped) := by
  have none : sts.find? (fun st => !st.taken) = none :=
    List.find?_eq_none.2 fun st mem => by simp [(taken_iff st).2 (taken st mem)]
  rw [overall, none]

/-- The first entry refused gives the overall status (R155). -/
theorem overall_refused {before after : List Status} {st : Status}
    (taken : ∀ x ∈ before, x = .done ∨ x = .doneClamped) (refused : ¬ (st = .done ∨ st = .doneClamped)) :
    overall (before ++ st :: after) = st := by
  have first : (before ++ st :: after).find? (fun x => !x.taken) = some st := by
    have none : before.find? (fun x => !x.taken) = none :=
      List.find?_eq_none.2 fun x mem => by simp [(taken_iff x).2 (taken x mem)]
    have own : (!st.taken) = true := by simpa using mt (taken_iff st).1 refused
    rw [List.find?_append, none, Option.none_or]
    exact List.find?_cons_of_pos own
  rw [overall, first]

section
variable {space table first count : Nat} {bytes : List Byte}

theorem writeBytesRequest_noSpace (none : 1 < space) (r : Request) (s : State) :
    writeBytesRequest r space table first count bytes s = reply r .malformed s := if_pos none

theorem writeBytesRequest_noTable (known : space ≤ 1) (none : Table.ofNumber table = none) (r : Request) (s : State) :
    writeBytesRequest r space table first count bytes s = reply r .noSuchTable s := by
  rw [writeBytesRequest, if_neg (Nat.not_lt.2 known), none]

theorem writeBytesRequest_stored {t : Table} (named : Table.ofNumber table = some t) (r : Request) (s : State) :
    writeBytesRequest r 1 table first count bytes s = reply r .notPermitted s := by
  rw [writeBytesRequest, if_neg (Nat.lt_irrefl 1), named]
  exact if_pos rfl

theorem writeBytesRequest_view {t : Table} (named : Table.ofNumber table = some t) (view : t.written = none)
    (r : Request) (s : State) : writeBytesRequest r 0 table first count bytes s = reply r .notPermitted s := by
  simp [writeBytesRequest, named, view]

theorem writeBytesRequest_working {t : Table} {len : Nat} (named : Table.ofNumber table = some t)
    (written : t.written = some len) (r : Request) (s : State) :
    writeBytesRequest r 0 table first count bytes s
      = if bytes.length ≠ count * len then reply r .malformed s
        else writeRequest r (readWritten t len count first bytes) s := by
  simp [writeBytesRequest, named, written]

end

/-- Settles O23: the request by the first test it fails, the entries by their places in the bytes, the overall status by
the first one refused. -/
theorem writeEntriesReportsEachEntry : Obligations.WriteEntriesReportsEachEntry := by
  refine ⟨fun o space table first count bytes s ready => ?_, fun e es s => rfl, fun sts => ⟨?_, ?_, ?_⟩⟩
  · have run : exec (.writeEntries o space table first count bytes) s
        = .next (writeBytesRequest ⟨o, some 4#8, .writeEntries space table first count bytes⟩ space table first count
            bytes s) := exec_ready (c := .writeEntries o space table first count bytes) rfl ready
    dsimp only
    rw [run]
    refine ⟨fun none => ?_, fun known none => ?_, fun t named => ⟨?_, ?_, ?_⟩⟩
    · rw [writeBytesRequest_noSpace none, reply_eq_answer]
    · rw [writeBytesRequest_noTable known none, reply_eq_answer]
    · rintro rfl
      rw [writeBytesRequest_stored named, reply_eq_answer]
    · rintro rfl view
      rw [writeBytesRequest_view named view, reply_eq_answer]
    · rintro len rfl written
      rw [writeBytesRequest_working named written]
      refine ⟨fun unfit => ?_, fun fit => ?_⟩
      · rw [if_pos unfit, reply_eq_answer]
      · have length := readWritten_length written count first bytes
        rw [if_neg (not_not.2 fit), ← readWritten_eq]
        refine ⟨length, (writeAll_length _ s).trans length, ?_⟩
        rw [writeRequest, respond_eq_answer]
        rfl
  · intro done
    have none : ¬ Status.doneClamped ∈ sts := fun mem => nomatch done _ mem
    rw [overall_taken fun st mem => .inl (done st mem)]
    simp [doneIf, none]
  · intro taken clamped
    rw [overall_taken taken]
    simp [doneIf, clamped]
  · rintro before st after rfl taken notDone notClamped
    exact overall_refused taken (not_or.2 ⟨notDone, notClamped⟩)

end Sys2Proof.Machine

namespace Sys2Proof.Machine

/-! ### TAKE NOTICES -/

/-- Settles O35: the notices as they stand at the head of the list, and the tail they join. -/
theorem takeNoticesRemovesUpToFour : Obligations.TakeNoticesRemovesUpToFour := by
  delta Obligations.TakeNoticesRemovesUpToFour
  intro stamp bytes
  have spelled : bytes = noticeBytes := funext fun n => by
    obtain ⟨kind, subject, minute, frame, detail⟩ := n
    cases subject <;> cases minute <;> rfl
  refine ⟨fun o s ready => ?_, fun n l room => if_pos room⟩
  intro l
  have run : exec (.takeNotices o) s = .next (takeNotices ⟨o, some 5#8, .takeNotices⟩ s) :=
    exec_ready (c := .takeNotices o) rfl ready
  have left : (l.drop 4).length = l.length - 4 := List.length_drop
  have cleared : (if l.isEmpty then 0 else s.notices.overflow) = if l = [] then 0 else s.notices.overflow := by
    simp only [List.isEmpty_iff]
  rw [run, spelled, ← left, ← cleared]
  rfl

end Sys2Proof.Machine

namespace Sys2Proof.Machine

/-! ### Assembly of messages -/

section
variable {openState : Bool} {h : Handed} {ctx : Option Assembly} {a : Assembly}

theorem closeAssembly_last (last : h.frag.last = true) (counted : Nat) :
    closeAssembly h.frag counted a
      = { ctx := none, counted := counted, message := some (a.payload, h.frag.index == 0) } := if_pos last

theorem closeAssembly_more (more : h.frag.last = false) (counted : Nat) :
    closeAssembly h.frag counted a
      = if h.frag.index = 7 then { ctx := none, counted := counted + 1, message := none }
        else { ctx := some a, counted := counted, message := none } := by
  rw [closeAssembly, if_neg (by simp [more])]

theorem assemble_long (long : 12 < h.frag.length) :
    assemble openState h ctx = { ctx := ctx, counted := 1, message := none } := if_pos long

/-- Index 0 begins a message, whatever the context held (R150). -/
theorem assemble_begins (short : h.frag.length ≤ 12) (first : h.frag.index = 0) :
    assemble openState h ctx
      = closeAssembly h.frag (if ctx.isSome then 1 else 0)
          { address := h.address, serial := h.serial, number := h.frag.number, next := 1, payload := h.frag.payload } :=
  (if_neg (Nat.not_lt.2 short)).trans (if_pos first)

theorem assemble_empty (short : h.frag.length ≤ 12) (later : 1 ≤ h.frag.index) :
    assemble openState h none = { ctx := none, counted := 1, message := none } :=
  (if_neg (Nat.not_lt.2 short)).trans (if_neg (Nat.ne_of_gt later))

/-- A later fragment at a context that holds a message: taken if it fits, else discarded with the message, but without it
when another sender's message stands there in the open state (R150). -/
theorem assemble_later (short : h.frag.length ≤ 12) (later : 1 ≤ h.frag.index) :
    assemble openState h (some a)
      = if fits h a then
          closeAssembly h.frag 0 { a with next := a.next + 1, payload := a.payload ++ h.frag.payload }
        else if openState && !(a.address == h.address && a.serial == h.serial) then
          { ctx := some a, counted := 1, message := none }
        else { ctx := none, counted := 1, message := none } :=
  (if_neg (Nat.not_lt.2 short)).trans (if_neg (Nat.ne_of_gt later))

theorem fits_iff (h : Handed) (a : Assembly) :
    fits h a = true
      ↔ a.address = h.address ∧ a.serial = h.serial ∧ a.number = h.frag.number ∧ a.next = h.frag.index := by
  simp only [fits, Bool.and_eq_true, beq_iff_eq, and_assoc]

theorem otherSender_iff (h : Handed) (a : Assembly) :
    (openState && !(a.address == h.address && a.serial == h.serial)) = true
      ↔ openState = true ∧ (a.address ≠ h.address ∨ a.serial ≠ h.serial) := by
  rw [Bool.and_eq_true, Bool.not_eq_true', Bool.and_eq_false_iff, beq_eq_false_iff_ne, beq_eq_false_iff_ne]

theorem assemble_fitting (short : h.frag.length ≤ 12) (later : 1 ≤ h.frag.index) (fit : fits h a = true) :
    assemble openState h (some a)
      = closeAssembly h.frag 0 { a with next := a.next + 1, payload := a.payload ++ h.frag.payload } := by
  rw [assemble_later short later, if_pos fit]

/-- In the open state the message of another sender stays (R150). -/
theorem assemble_otherSender (short : h.frag.length ≤ 12) (later : 1 ≤ h.frag.index) (opened : openState = true)
    (other : a.address ≠ h.address ∨ a.serial ≠ h.serial) :
    assemble openState h (some a) = { ctx := some a, counted := 1, message := none } := by
  have unfit : ¬ fits h a = true := fun fit => by
    obtain ⟨address, serial, -⟩ := (fits_iff h a).1 fit
    exact other.elim (· address) (· serial)
  rw [assemble_later short later, if_neg unfit, if_pos ((otherSender_iff h a).2 ⟨opened, other⟩)]

/-- What does not fit is discarded together with the message it was sent to (R150). -/
theorem assemble_unfit (short : h.frag.length ≤ 12) (later : 1 ≤ h.frag.index) (unfit : ¬ fits h a = true)
    (own : openState = false ∨ (a.address = h.address ∧ a.serial = h.serial)) :
    assemble openState h (some a) = { ctx := none, counted := 1, message := none } := by
  have noOther : ¬ (openState = true ∧ (a.address ≠ h.address ∨ a.serial ≠ h.serial)) := by
    rcases own with closed | ⟨address, serial⟩
    · simp [closed]
    · simp [address, serial]
  rw [assemble_later short later, if_neg unfit, if_neg (mt (otherSender_iff h a).1 noOther)]

end

end Sys2Proof.Machine

namespace Sys2Proof.Machine

/-! ### Fragments routed by their sender -/

theorem readJoin_none {message : List Byte} (other : ∀ kind, message ≠ [0x20#8, kind]) : readJoin message = none := by
  match message with
  | [] | [_] | _ :: _ :: _ :: _ => rfl
  | [k, kind] =>
    refine if_neg fun join => other kind ?_
    rw [show k = 0x20#8 from BitVec.eq_of_toNat_eq join]

theorem joinMessage_join (h : Handed) (single : Bool) (kind : Byte) (s : State) :
    joinMessage h single [0x20#8, kind] s = joinNode h.serial kind.toNat s := rfl

theorem unprivileged_status (o : Origin) (s : State) :
    unprivileged o true [0x01#8] s = arrive ⟨o, some 1#8, .readStatus⟩ s := rfl

theorem unprivileged_refused {whole : Bool} {message : List Byte} (refused : whole = false ∨ message ≠ [0x01#8])
    (o : Origin) (s : State) :
    unprivileged o whole message s
      = arrive { origin := o, kind := message.head?, body := .refusal }
          { s with mgmt := { s.mgmt with notPermitted := inc16 s.mgmt.notPermitted } } := by
  refine if_neg fun status => ?_
  obtain ⟨single, read⟩ := (Bool.and_eq_true ..).mp status
  rcases refused with part | other
  · rw [part] at single
    cases single
  · exact other (eq_of_beq read)

/-- A message of address 63 that is no JOIN is a request in the open state, and else a sender's without privilege (R150,
R151). -/
theorem joinMessage_other {message : List Byte} (other : ∀ kind, message ≠ [0x20#8, kind]) (h : Handed)
    (single : Bool) (s : State) :
    joinMessage h single message s
      = if s.mgmt.site.privileged = [] then arrive (readRequest h.origin message) s
        else unprivileged h.origin single message s := by
  simp only [joinMessage, readJoin_none other, isOpen_eq, decide_eq_true_eq]

/-- What a fragment leaves of a context's message: the state without one, or what its completion makes of it. -/
def Assembled.complete (x : Assembled) (t : State) (f : List Byte → Bool → State → State) : State :=
  x.message.elim t (fun m => f m.1 m.2 t)

theorem toFirst_eq (h : Handed) (s : State) :
    let x := assemble (decide (s.mgmt.site.privileged = [])) h s.mgmt.ctx1
    toFirst h s
      = x.complete
          { s with
            mgmt :=
              { s.mgmt with
                ctx1 := x.ctx, discarded := if x.counted = 0 then s.mgmt.discarded else inc16 s.mgmt.discarded } }
          (fun m _ => arrive (readRequest h.origin m)) := by
  simp only [toFirst, isOpen_eq, countDiscards_assemble, Assembled.complete]
  cases (assemble (decide (s.mgmt.site.privileged = [])) h s.mgmt.ctx1).message <;> rfl

theorem toSecond_eq (h : Handed) (s : State) :
    let x := assemble (decide (s.mgmt.site.privileged = [])) h s.mgmt.ctx2
    toSecond h s
      = x.complete
          { s with
            mgmt :=
              { s.mgmt with
                ctx2 := x.ctx, discarded := if x.counted = 0 then s.mgmt.discarded else inc16 s.mgmt.discarded } }
          (fun m _ => arrive (readRequest h.origin m)) := by
  simp only [toSecond, isOpen_eq, countDiscards_assemble, Assembled.complete]
  cases (assemble (decide (s.mgmt.site.privileged = [])) h s.mgmt.ctx2).message <;> rfl

theorem toJoin_eq (h : Handed) (s : State) :
    let x := assemble (decide (s.mgmt.site.privileged = [])) h s.mgmt.joinCtx
    toJoin h s
      = x.complete
          { s with
            mgmt :=
              { s.mgmt with
                joinCtx := x.ctx, discarded := if x.counted = 0 then s.mgmt.discarded else inc16 s.mgmt.discarded } }
          (fun m single => joinMessage h single m) := by
  simp only [toJoin, isOpen_eq, countDiscards_assemble, Assembled.complete]
  cases (assemble (decide (s.mgmt.site.privileged = [])) h s.mgmt.joinCtx).message <;> rfl

section
variable {h : Handed} {s : State}

theorem routeBySender_join (join : h.address = 63) : routeBySender h s = toJoin h s := if_pos join

theorem routeBySender_first (low : 1 ≤ h.address) (high : h.address ≤ 62)
    (served : s.mgmt.site.privileged = [] ∨ s.mgmt.site.privileged.head? = some h.address) :
    routeBySender h s = toFirst h s := by
  rw [routeBySender, if_neg (by omega), if_neg (by omega)]
  by_cases unnamed : s.mgmt.site.privileged = []
  · exact if_pos (by rw [isOpen_eq, decide_eq_true unnamed])
  · have first : servedFirst s.mgmt.site.privileged = some h.address := served.resolve_left unnamed
    rw [if_pos first, ite_self]

/-- No context 1 for an address that the site record names neither by being open nor in the first place (R149). -/
theorem routeBySender_notFirst (low : 1 ≤ h.address) (high : h.address ≤ 62) (named : s.mgmt.site.privileged ≠ [])
    (other : s.mgmt.site.privileged.head? ≠ some h.address) :
    routeBySender h s
      = if servedSecond s.mgmt.site.privileged = some h.address then toSecond h s
        else if h.frag.index = 0 then unprivileged h.origin h.frag.last h.frag.payload s
        else s := by
  have closed : ¬ isOpen s = true := by rwa [isOpen_eq, decide_eq_true_eq]
  rw [routeBySender, if_neg (by omega), if_neg (by omega), if_neg closed]
  exact if_neg other

theorem servedSecond_mem {l : List Nat} {b : Nat} (second : servedSecond l = some b) : b ∈ l := by
  match l with
  | [] | [_] => cases second
  | a :: c :: l =>
    rw [servedSecond] at second
    split at second
    · cases second
    · cases second
      simp

theorem routeBySender_second (low : 1 ≤ h.address) (high : h.address ≤ 62) {a : Nat} {l : List Nat}
    (names : s.mgmt.site.privileged = a :: h.address :: l) (other : a ≠ h.address) :
    routeBySender h s = toSecond h s := by
  have second : servedSecond s.mgmt.site.privileged = some h.address := by
    rw [names]
    exact if_neg other
  rw [routeBySender_notFirst low high (by simp [names]) (by simpa [names] using other), if_pos second]

theorem routeBySender_absent (low : 1 ≤ h.address) (high : h.address ≤ 62) (named : s.mgmt.site.privileged ≠ [])
    (absent : h.address ∉ s.mgmt.site.privileged) :
    routeBySender h s
      = if h.frag.index = 0 then unprivileged h.origin h.frag.last h.frag.payload s else s := by
  have notFirst : s.mgmt.site.privileged.head? ≠ some h.address := fun first => absent (List.mem_of_head? first)
  rw [routeBySender_notFirst low high named notFirst, if_neg (mt servedSecond_mem absent)]

end

end Sys2Proof.Machine

namespace Sys2Proof.Machine

/-! ### Refusals and routing -/

theorem exec_refusal {s : State} (ready : Ready s) (o : Origin) (kind : Byte) :
    exec (.notPermittedRefusal o kind) s
      = .next
          (answer o kind .notPermitted []
            { s with mgmt := { s.mgmt with notPermitted := inc16 s.mgmt.notPermitted } }) := by
  have waits : Ready { s with mgmt := { s.mgmt with notPermitted := inc16 s.mgmt.notPermitted } } := ready
  refine (whenOn_on
    (fun u =>
      arrive ⟨o, some kind, .refusal⟩ { u with mgmt := { u.mgmt with notPermitted := inc16 u.mgmt.notPermitted } })
    ready.1).trans (congrArg Host.Outcome.next ?_)
  rw [arrive_ready waits]
  exact reply_eq_answer o kind .refusal .notPermitted _

/-- Settles O49: refusals at an idle processor, a fragment by its sender, a context by what it holds. -/
theorem refusedRequestsAreAnswered : Obligations.RefusedRequestsAreAnswered := by
  refine ⟨fun o kind s ready => ⟨exec_refusal ready o kind, exec_ready (c := .unknownRequest o kind) rfl ready⟩,
    fun s slot bids w f on running won passes => ?_, fun h u sending waiting => ?_, fun openState h ctx => ?_,
    fun r s idle queue held => ?_⟩
  · refine (whenOn_on (managementSlot bids) on).trans (congrArg Host.Outcome.next ?_)
    rw [managementSlot_running running won, passes]
  · have unclaimed : route h u = routeBySender h u := route_unclaimed sending waiting
    dsimp only
    rw [unclaimed]
    refine ⟨fun join => ?_, fun low high served => ?_, fun low high served => ?_,
      fun low high named _ absent => ?_⟩
    · rw [routeBySender_join join, toJoin_eq]
      generalize assemble _ h u.mgmt.joinCtx = x
      refine ⟨fun none => ?_, fun kind single message => ?_, fun message single completed other => ?_⟩
      · rw [Assembled.complete, none]
        rfl
      · rw [Assembled.complete, message]
        exact joinMessage_join h single kind _
      · rw [Assembled.complete, completed, Option.elim_some, joinMessage_other other]
        refine ⟨fun unnamed => if_pos unnamed, fun named whole status => ?_, fun named refused => ?_⟩
        · refine (if_neg named).trans ?_
          rw [whole, status]
          exact unprivileged_status h.origin _
        · exact (if_neg named).trans (unprivileged_refused refused h.origin _)
    · rw [routeBySender_first low high served, toFirst_eq]
      generalize assemble _ h u.mgmt.ctx1 = x
      obtain ⟨ctx, counted, _ | ⟨m, single⟩⟩ := x <;> rfl
    · obtain ⟨a, l, names, other⟩ := served
      have named : u.mgmt.site.privileged ≠ [] := by simp [names]
      rw [routeBySender_second low high names other, toSecond_eq, decide_eq_false named]
      generalize assemble _ h u.mgmt.ctx2 = x
      obtain ⟨ctx, counted, _ | ⟨m, single⟩⟩ := x <;> rfl
    · rw [routeBySender_absent low high named absent]
      refine ⟨fun later => if_neg later, fun first last status => ?_, fun first refused => ?_⟩
      · rw [if_pos first, last, status]
        exact unprivileged_status h.origin u
      · rw [if_pos first]
        exact unprivileged_refused refused h.origin u
  · dsimp only
    refine ⟨assemble_long, fun short first => ?_, fun short later empty => ?_, fun a short later holds => ?_⟩
    · have lost : (if ctx.isSome then 1 else 0) = if ctx = none then 0 else 1 := by cases ctx <;> rfl
      rw [assemble_begins short first, lost]
      refine ⟨fun last => ?_, fun more => ?_⟩
      · rw [closeAssembly_last last, first]
        rfl
      · rw [closeAssembly_more more, if_neg (by rw [first]; decide)]
    · rw [empty]
      exact assemble_empty short later
    · subst holds
      rw [← fits_iff]
      refine ⟨fun fit last => ?_, fun fit more full => ?_, fun fit more room => ?_, fun unfit own => ?_,
        fun opened other => ?_⟩
      · rw [assemble_fitting short later fit, closeAssembly_last last, beq_eq_false_iff_ne.2 (Nat.ne_of_gt later)]
      · rw [assemble_fitting short later fit, closeAssembly_more more, if_pos full]
      · rw [assemble_fitting short later fit, closeAssembly_more more, if_neg room]
      · exact assemble_unfit short later unfit own
      · exact assemble_otherSender short later opened other
  · rw [arrive_idle idle queue held]
    exact ⟨rfl, serveUpTo_busy 5⟩

end Sys2Proof.Machine

namespace Sys2Proof.Machine

/-! ### SAVE TABLES -/

theorem saveRequest_writing {s : State} (writing : s.store.writing.isSome = true) (r : Request) :
    saveRequest r s = reply r .busy (countBusy s) := if_pos writing

theorem saveRequest_idle {s : State} (idle : s.store.writing = none) (r : Request) :
    saveRequest r s = reply r .accepted (beginSave s) := if_neg (by simp [idle])

/-- A save begun leaves the image its tables and its save count: only the identity and the cleared mark are in it until
the completion (R169; log 24). -/
theorem beginSave_eq (s : State) :
    beginSave s
      = { s with
          store :=
            { s.store with
              image := { s.store.image with identity := Config.imageIdentity, mark := false }
              writing := some (.save (workingTables s) (inc16 s.store.image.saveCount)) } } := rfl

/-- Settles O37: the request by the write it finds in progress or not; the copy is the working tables, field by field. -/
theorem saveTablesCopiesTheTables : Obligations.SaveTablesCopiesTheTables := by
  intro o s ready copy
  have run : exec (.saveTables o) s = .next (saveRequest ⟨o, some 7#8, .saveTables⟩ s) :=
    exec_ready (c := .saveTables o) rfl ready
  have copied : copy = workingTables s := rfl
  refine ⟨fun writing => ?_, fun idle => ?_⟩
  · rw [run, saveRequest_writing writing, reply_eq_answer, countBusy]
  · rw [run, saveRequest_idle idle, reply_eq_answer, beginSave_eq, copied]

end Sys2Proof.Machine

namespace Sys2Proof.Machine

/-! ### The queue of commands -/

/-- Settles O1: by the queue, empty or not. -/
theorem stepRunsTheFrontOfTheQueue : Obligations.StepRunsTheFrontOfTheQueue := by
  intro s
  refine ⟨fun c rest waits => ?_, fun idle => ?_⟩
  · rw [step, waits]
  · rw [step, idle]

end Sys2Proof.Machine

namespace Sys2Proof.Machine

/-! ### What settling forms -/

/-- Settles O55: the frame and the moves of a settled handling, and the laws and results that its last round leaves. -/
theorem settlingFormsTheResults : Obligations.SettlingFormsTheResults := by
  intro s
  have laws : SettledLaws (settle s) := rounds_laws 40 s
  have results : ResultLaws (settle s) := rounds_results 40 s
  exact
    ⟨settle_settled s, settle_handled s, rounds_showsFollow 40 s, settle_groupsFollow s, settle_shedFollow s,
      round_levels s, round_notices s, laws.condition, laws.occupancy, laws.permit, laws.discharge, results.zones,
      results.channels, results.groups, results.requests, results.grants, results.shed, laws.power, laws.output,
      laws.light⟩

/-! ### The reset state -/

/-- Start-up with a store never saved ends in the reset state itself (log 1). -/
theorem startUp_reset : startUp State.reset = State.reset := by decide +kernel

theorem reset_keepouts : KeepoutLaws State.reset := startUp_reset ▸ keepoutLaws_invariant.startUp_settled State.reset

theorem reset_powers : PowerLaws State.reset := startUp_reset ▸ powerLaws_invariant.startUp_settled State.reset

theorem reset_lists : ListLaws State.reset where
  queue := ⟨Nat.zero_le 4, nofun⟩
  notices := show 1 ≤ 16 by decide
  pairs := List.forall_mem_replicate.2 (.inr ⟨nofun, by decide⟩)

theorem reset_tables : TableLaws State.reset where
  line := ⟨.blank 64, .blank 64, rfl, rfl⟩
  nodes := ⟨List.forall_mem_replicate.2 (.inr (provision_fits none)), rfl, Nat.zero_le 4⟩
  pos := ⟨rfl, rfl⟩
  zone := ⟨rfl, by constructor <;> rfl⟩
  water := ⟨rfl, rfl, rfl⟩
  light := rfl
  loads := rfl
  answers := Nat.zero_le 8
  store := ⟨blank_sized.1, blank_sized.2, nofun⟩

/-- Settles O56: the reset state is what start-up leaves, and so is settled; its tables hold one blank record each. -/
theorem resetKeepsTheLaws : Obligations.ResetKeepsTheLaws := by
  unfold Obligations.ResetKeepsTheLaws
  intro s
  obtain ⟨condition, occupancy, permit, discharge⟩ := reset_keepouts
  obtain ⟨power, output, light⟩ := reset_powers
  obtain ⟨queue, notices, capture⟩ := (listLaws_iff s).1 reset_lists
  obtain ⟨slot, node, size⟩ := (tableLaws_iff s).1 reset_tables
  refine
    ⟨⟨condition, occupancy, permit, permit.hold, discharge, power, output, light, queue, notices, capture, slot, node, size⟩,
      rfl, rfl, rfl, ?_, rfl, rfl, ?_, ?_, ?_, ?_, ?_, ?_, ?_⟩
  any_goals exact List.forall_mem_replicate.2 (.inr (by decide))
  decide

end Sys2Proof.Machine

namespace Sys2Proof.Machine

/-! ### What every command leaves of the queue of commands -/

theorem ite_pending {s a b : State} {c : Prop} [Decidable c] (ha : a.pending = s.pending) (hb : b.pending = s.pending) :
    (if c then a else b).pending = s.pending := by
  split <;> assumption

theorem place_pending (r : Request) (s : State) : (place r s).pending = s.pending := by
  refine ite_pending rfl ?_
  cases s.mgmt.heldReq <;> rfl

theorem serveUpTo_pending (n : Nat) (s : State) : (serveUpTo n s).pending = s.pending := by
  induction n generalizing s with
  | zero => rfl
  | succ n ih =>
    unfold serveUpTo
    split
    · exact (ih _).trans (process_within _ _).pending
    · rfl

theorem arrive_pending (r : Request) (s : State) : (arrive r s).pending = s.pending :=
  (serveUpTo_pending 6 _).trans (place_pending r s)

theorem unprivileged_pending (o : Origin) (whole : Bool) (m : List Byte) (s : State) :
    (unprivileged o whole m s).pending = s.pending :=
  ite_pending (arrive_pending _ s) (arrive_pending _ _)

theorem toFirst_pending (h : Handed) (s : State) : (toFirst h s).pending = s.pending := by
  unfold toFirst
  dsimp only
  split
  · rfl
  · exact arrive_pending _ _

theorem toSecond_pending (h : Handed) (s : State) : (toSecond h s).pending = s.pending := by
  unfold toSecond
  dsimp only
  split
  · rfl
  · exact arrive_pending _ _

theorem joinMessage_pending (h : Handed) (single : Bool) (m : List Byte) (s : State) :
    (joinMessage h single m s).pending = s.pending := by
  unfold joinMessage
  split
  · exact (joinNode_within _ _ s).pending
  · exact ite_pending (arrive_pending _ s) (unprivileged_pending _ _ _ s)

theorem toJoin_pending (h : Handed) (s : State) : (toJoin h s).pending = s.pending := by
  unfold toJoin
  dsimp only
  split
  · rfl
  · exact joinMessage_pending _ _ _ _

theorem toReply_pending (h : Handed) (f : Forwarding) (n : Nat) (s : State) : (toReply h f n s).pending = s.pending := by
  unfold toReply
  dsimp only
  split
  · rfl
  · exact (answerForward_within _ _ _).pending

theorem routeBySender_pending (h : Handed) (s : State) : (routeBySender h s).pending = s.pending :=
  ite_pending (toJoin_pending h s) (ite_pending rfl (ite_pending (toFirst_pending h s) (ite_pending (toFirst_pending h s)
    (ite_pending (toSecond_pending h s) (ite_pending (unprivileged_pending _ _ _ s) rfl)))))

theorem route_pending (h : Handed) (s : State) : (route h s).pending = s.pending := by
  unfold route
  cases s.mgmt.proc with
  | forwarding f frags => exact ite_pending rfl (routeBySender_pending h s)
  | waiting f n => exact ite_pending (toReply_pending h f n s) (routeBySender_pending h s)
  | idle | sending => exact routeBySender_pending h s

theorem managementSlot_pending (bids : List Bid) (s : State) : (managementSlot bids s).pending = s.pending := by
  refine ite_pending rfl ?_
  cases contend bids with
  | none => rfl
  | some w =>
    dsimp only
    split
    · rfl
    · exact route_pending _ _

theorem forwardFrame_pending (s : State) : (forwardFrame s).pending = s.pending := by
  unfold forwardFrame
  cases s.mgmt.proc with
  | waiting f n => exact ite_pending (endForward_within f s).pending rfl
  | idle | sending | forwarding => rfl

theorem clockFrame_pending (s : State) : (clockFrame s).pending = s.pending :=
  ite_pending rfl (ite_pending (minuteChanged_within _).pending rfl)

theorem settled_pending {s t : State} (h : t.pending = s.pending) : (settle t).pending = s.pending :=
  (settle_within t).pending.trans h

theorem rampAll_pending (s : State) : (rampAll s).pending = s.pending := rfl

theorem frameEvent_pending (s : State) : (frameEvent s).pending = s.pending := by
  rw [frameEvent, clockFrame_pending, forwardFrame_pending, rampAll_pending]
  exact settled_pending (frameTimers_within s).pending

theorem fragmentGone_pending (o : Offer) (s : State) : (fragmentGone o s).pending = s.pending := by
  cases o with
  | restart | answer | nothing => rfl
  | outgoing f =>
    show (outgoingGone s).pending = s.pending
    unfold outgoingGone
    split
    · rfl
    · exact serveUpTo_pending 6 _
    · rfl
    · unfold beginWait
      split
      · exact (answerForward_within _ _ s).pending
      · rfl
    all_goals rfl

theorem beginFrame_pending (n : Nat) (s : State) : (beginFrame n s).pending = s.pending := by
  rw [beginFrame_eq, fragmentGone_pending, frameEvent_pending, headed_eq]

theorem enterBreak_pending (s : State) : (enterBreak s).pending = s.pending := (enterBreak_after s).pending

theorem framePeriod_pending (s : State) : (framePeriod s).pending = s.pending := by
  unfold framePeriod
  split
  · exact ite_pending (enterBreak_pending s) (beginFrame_pending _ s)
  · rfl
  · exact ite_pending (beginFrame_pending 0 s) rfl

theorem outcome_within (n : Nat) (h : Heard) (s : State) : Within s (outcome n h s) := by
  cases h with
  | good noisy w => exact goodSample_within n noisy w s
  | failed => exact changeNode_within n (Node.miss true) s
  | silence => exact changeNode_within n (Node.miss false) s

theorem nodeSlot_pending (slot : Nat) (heard : Option (List Sampled)) (s : State) :
    (nodeSlot slot heard s).pending = s.pending := by
  refine ite_pending rfl ?_
  cases servedIn slot s with
  | none => rfl
  | some served => exact (outcome_within _ _ _).pending

theorem cutOff_pending (s : State) : (cutOff s).pending = s.pending := by rw [(cutOff_frame s).1]

theorem startUp_pending (s : State) : (startUp s).pending = s.pending :=
  (settle_within _).pending.trans (ite_pending rfl rfl)

theorem stopPart_pending (m : Mode) (s : State) : (stopPart m s).pending = s.pending := by rw [stopPart_frame]

theorem completeWrite_pending (good : Bool) (s : State) : (completeWrite good s).pending = s.pending := by
  unfold completeWrite
  split <;> rfl

theorem cycleStep_pending (c : Nat) (s : State) : (cycleStep c s).pending = s.pending := (cycleStep_later c s).base.pending

theorem cycleStart_pending (c : Nat) (s : State) : (cycleStart c s).pending = s.pending :=
  (cycleStart_later c s).base.pending

theorem forwardExpiry_pending (s : State) : (forwardExpiry s).pending = s.pending := by
  unfold forwardExpiry
  cases s.mgmt.proc with
  | waiting f n => exact ite_pending (endForward_within f s).pending rfl
  | idle | sending | forwarding => rfl

theorem debounceExpiry_pending (i : Nat) (s : State) : (debounceExpiry i s).pending = s.pending :=
  ite_pending (setMower_pending ..) rfl

theorem showExpiry_pending (i : Nat) (s : State) : (showExpiry i s).pending = s.pending :=
  ite_pending (settled_pending (setPlayer_pending ..)) rfl

theorem holdExpiry_pending (g : Nat) (s : State) : (holdExpiry g s).pending = s.pending :=
  ite_pending (settled_pending (setGroup_pending ..)) rfl

theorem startCondition_pending (c : Nat) (s : State) : (startCondition c s).pending = s.pending :=
  ite_pending (settled_pending (cycleStart_pending c s)) rfl

theorem minuteExpiry_pending (s : State) : (minuteExpiry s).pending = s.pending :=
  ite_pending (minuteChanged_within _).pending rfl

theorem stageExpiry_pending (st : Stage) (c : Nat) (s : State) : (stageExpiry st c s).pending = s.pending :=
  ite_pending (settled_pending (stageFrame_within c s).pending) rfl

theorem stageTest_pending (st : Stage) (c : Nat) (s : State) : (stageTest st c s).pending = s.pending :=
  ite_pending (settled_pending (cycleStep_pending c s)) rfl

theorem whenOn_answers {f : State → State} (hf : ∀ s, (f s).pending = s.pending) (s : State) :
    ∃ t, whenOn f s = .next t ∧ t.pending = s.pending := ⟨_, rfl, ite_pending (hf s) rfl⟩

theorem whenRunning_answers {f : State → State} (hf : ∀ s, (f s).pending = s.pending) (s : State) :
    ∃ t, whenOn (whenRunning f) s = .next t ∧ t.pending = s.pending :=
  whenOn_answers (fun t => ite_pending (hf t) rfl) s

/-- Settles O2: a request by its arrival, any other command by the operation it names. -/
theorem everyCommandKeepsTheQueue : Obligations.EveryCommandKeepsTheQueue := by
  intro c s
  cases request : asRequest c with
  | some r =>
    rw [exec_asRequest request]
    exact whenOn_answers (arrive_pending r) s
  | none =>
    cases c with
    | resetAsserted => exact ⟨_, rfl, ite_pending rfl (stopPart_pending .held s)⟩
    | startUp => exact ⟨_, rfl, (startUp_pending _).trans (cutOff_pending s)⟩
    | lossOfSupply => exact ⟨_, rfl, stopPart_pending .off s⟩
    | frameStart => exact whenOn_answers framePeriod_pending s
    | lineBreak => exact whenOn_answers (fun t => ite_pending (enterBreak_pending t) rfl) s
    | lineResume => exact whenOn_answers (fun t => ite_pending (beginFrame_pending 0 t) rfl) s
    | nodeSlotEnd slot heard => exact whenOn_answers (nodeSlot_pending slot heard) s
    | managementSlotEnd slot bids => exact whenOn_answers (managementSlot_pending bids) s
    | notPermittedRefusal o k => exact whenOn_answers (f := fun t => arrive { origin := o, kind := some k, body := .refusal }
        { t with mgmt := { t.mgmt with notPermitted := inc16 t.mgmt.notPermitted } }) (fun t => arrive_pending _ _) s
    | forwardTimeout => exact whenRunning_answers forwardExpiry_pending s
    | dockDebounceExpiry m => exact whenRunning_answers (debounceExpiry_pending m) s
    | showStepEnd i => exact whenRunning_answers (showExpiry_pending i) s
    | holdTimerExpiry g => exact whenRunning_answers (holdExpiry_pending g) s
    | minuteAdvance => exact whenRunning_answers minuteExpiry_pending s
    | backwashStopping c => exact whenOn_answers (startCondition_pending c) s
    | stoppingEnd c => exact whenRunning_answers (stageExpiry_pending .stopping c) s
    | valveTimeout c => exact whenRunning_answers (stageExpiry_pending .reversing c) s
    | washingEnd c => exact whenRunning_answers (stageExpiry_pending .washing c) s
    | rinsingEnd c => exact whenRunning_answers (stageExpiry_pending .rinsing c) s
    | restoringTimeout c => exact whenRunning_answers (stageExpiry_pending .restoring c) s
    | abortingTimeout c => exact whenRunning_answers (stageExpiry_pending .aborting c) s
    | valveBackwashPos c => exact whenOn_answers (stageTest_pending .reversing c) s
    | restoreNormalPos c => exact whenOn_answers (stageTest_pending .restoring c) s
    | abortNormalPos c => exact whenOn_answers (stageTest_pending .aborting c) s
    | storeCompletion good => exact whenOn_answers (completeWrite_pending good) s
    | _ => cases request

end Sys2Proof.Machine

namespace Sys2Proof.Machine

/-! ### The vernier computation -/

/-- The bounds of the period count and of the residual: beat and period are below 4096 ticks (R43). -/
theorem periodCount_bounds {n1 beat p1 : Nat} (hb : beat < 4096) (hp : p1 < 4096) (hn : 4 ≤ n1) :
    let d : Int := (beat * n1 : Int) - p1
    (d + 2048) / 4096 ≤ n1 ∧ -1 ≤ (d + 2048) / 4096 ∧ -2048 ≤ d - (d + 2048) / 4096 * 4096
      ∧ d - (d + 2048) / 4096 * 4096 ≤ 2047 := by
  intro d
  have product : beat * n1 ≤ 4095 * n1 := Nat.mul_le_mul_right n1 (by omega)
  have cast : d = ((beat * n1 : Nat) : Int) - p1 := by simp only [d, Nat.cast_mul]
  omega

/-- The whole periods around the loop and the ticks into one make a position below L (R43). -/
theorem vernierPosition {n1 p1 : Nat} (hp : p1 < 4096) (hn : 4 ≤ n1) (k : Int) :
    (((k % n1).toNat * 4096 + p1 : Nat) : Int) = k % n1 * 4096 + p1 ∧ (k % n1).toNat * 4096 + p1 < n1 * 4096 := by
  have low : 0 ≤ k % n1 := Int.emod_nonneg k (by omega)
  have high : k % n1 < n1 := Int.emod_lt_of_pos k (by omega)
  omega

theorem vernier_eq (n1 p1 p2 : Nat) :
    let d := vernierDiff n1 p1 p2
    let k := periodCount d
    vernier n1 p1 p2 = { residual := d - k * 4096, computed := (k % (n1 : Int)).toNat * 4096 + p1 } := rfl

theorem vernierDiff_eq {p2 : Nat} (hp : p2 < 4096) (n1 p1 : Nat) :
    vernierDiff n1 p1 p2 = (((p1 + 4096 - p2) % 4096 : Nat) * n1 : Int) - p1 := by
  have beat : beatPhase p1 p2 = (p1 + 4096 - p2) % 4096 := by
    rw [beatPhase, circSub, Nat.mod_eq_of_lt hp, ← Nat.add_sub_assoc hp.le]
  rw [vernierDiff, beat, Nat.cast_mul]

theorem residualSlip_iff (l : LoopRec) (v : Vernier) :
    residualSlip l v = true ↔ (l.tolerance : Int) < v.residual ∨ v.residual < -(l.tolerance : Int) := by
  rw [residualSlip, decide_eq_true_iff]
  omega

/-! ### The judgment of a sample -/

/-- The jump check passes unless both the raw position and its frame are known and too far off (R45). -/
theorem withinJump_iff (l : LoopRec) (frame computed : Nat) (m : Mower) :
    withinJump l frame computed m = true
      ↔ ∀ raw last, m.raw = some raw → m.lastFrame = some last →
        circDist l.length computed raw ≤ l.jump * elapsed frame last := by
  unfold withinJump
  cases m.raw <;> cases m.lastFrame <;> simp

section Judge

variable {l : LoopRec} {frame : Nat} {v : Vernier} {m : Mower}

theorem judge_tracked (st : m.state = .tracked) :
    judge l frame v m
      = if ¬ residualSlip l v = true ∧ withinJump l frame v.computed m = true then
          { mower := m.accept l frame v.computed, slip := false, lost := false }
        else { mower := { m.countSlip with slip := 1, state := .slipping }, slip := true, lost := false } := by
  simp only [judge, st, Bool.and_eq_true, Bool.not_eq_true', Bool.not_eq_true]

theorem judge_slipping (st : m.state = .slipping) :
    judge l frame v m
      = if ¬ residualSlip l v = true ∧ withinJump l frame v.computed m = true then
          { mower := { m.accept l frame v.computed with slip := 0, state := .tracked }, slip := false, lost := false }
        else if m.slip ≤ 1 then
          { mower := { m.countSlip with slip := m.slip + 1 }, slip := true, lost := false }
        else { mower := m.countSlip.lose, slip := true, lost := true } := by
  simp only [judge, st, Bool.and_eq_true, Bool.not_eq_true', Bool.not_eq_true]

theorem judge_acquiring (st : m.state = .acquiring) :
    judge l frame v m
      = if residualSlip l v then { mower := { m.countSlip with acquire := 0 }, slip := true, lost := false }
        else if m.acquire = 0 then
          { mower := { m.accept l frame v.computed with acquire := 1 }, slip := false, lost := false }
        else if withinJump l frame v.computed m then
          { mower := { m.accept l frame v.computed with acquire := 0, state := .tracked }, slip := false, lost := false }
        else { mower := m.accept l frame v.computed, slip := false, lost := false } := by
  simp only [judge, st]

theorem judge_lost (st : m.state = .lost) :
    judge l frame v m
      = if residualSlip l v then { mower := m.countSlip, slip := true, lost := false }
        else
          { mower := { m.accept l frame v.computed with state := .acquiring, acquire := 1 }, slip := false, lost := false } := by
  simp only [judge, st]

theorem judge_unreferenced (st : m.state = .unreferenced) :
    judge l frame v m
      = if residualSlip l v then { mower := m.countSlip, slip := true, lost := false }
        else { mower := m.accept l frame v.computed, slip := false, lost := false } := by
  simp only [judge, st]

end Judge

/-! ### A sample at its mower -/

theorem mowerAt_some {s : State} {i : Nat} {m : Mower} (found : s.pos.mowers[i]? = some m) : mowerAt s i = m := by
  rw [mowerAt, List.getD_eq_getElem?_getD, found, Option.getD_some]

/-- A field of one bit is set exactly where the bit is. -/
theorem contentField_bit (w : Content) (n : Nat) : (contentField w n n == 1) = w.getLsbD n := by
  rw [contentField, Nat.add_sub_cancel_left, Nat.pow_one, BitVec.getLsbD, Nat.testBit_eq_decide_div_mod_eq,
    Bool.beq_eq_decide_eq]

theorem contentField_phases (w : Content) :
    contentField w 31 20 = w.toNat / 1048576 ∧ contentField w 19 8 = w.toNat / 256 % 4096 :=
  ⟨contentField_top w, rfl⟩

/-! ### Marker events -/

section Marker

variable {i : Nat} {l : LoopRec} {s : State}

theorem markerEvent_locked (locked : (mowerAt s i).locked = true) : markerEvent i l false s = s := by
  simp [markerEvent, locked]

theorem markerEvent_first (free : (mowerAt s i).locked = false) (absent : (mowerAt s i).capA = none) :
    markerEvent i l false s = setMower i (fun m => { m with capA := (mowerAt s i).raw }) s := by
  simp [markerEvent, free, absent]

theorem markerEvent_second {a b : Nat} (free : (mowerAt s i).locked = false) (first : (mowerAt s i).capA = some a)
    (raw : (mowerAt s i).raw = some b) :
    markerEvent i l false s = spacingCheck i l a b (setMower i (fun m => { m with capB := some b, locked := true }) s) := by
  simp [markerEvent, free, first, raw]

theorem absDiff_eq (a b : Nat) : absDiff a b = if a ≤ b then b - a else a - b := by
  unfold absDiff
  split <;> omega

theorem spacingError_eq (l : LoopRec) (a b : Nat) :
    let measured := (b + (l.length - a % l.length)) % l.length
    spacingError l a b
      = min (if measured ≤ l.spacing then l.spacing - measured else measured - l.spacing)
          (if measured ≤ l.length - l.spacing then l.length - l.spacing - measured
            else measured - (l.length - l.spacing)) := by
  simp only [spacingError, absDiff_eq, circSub]

theorem setMower_setMower (i : Nat) (f g : Mower → Mower) (s : State) :
    setMower i f (setMower i g s) = setMower i (f ∘ g) s := by
  simp only [setMower, List.modify_modify_eq]

theorem setMower_post (i : Nat) (f : Mower → Mower) (k : NoticeKind) (x : Option Nat) (d : Nat) (s : State) :
    setMower i f (post k x d s) = post k x d (setMower i f s) := rfl

theorem mowerAt_setMower {i : Nat} {m : Mower} {s : State} (found : s.pos.mowers[i]? = some m) (f : Mower → Mower) :
    mowerAt (setMower i f s) i = f m := by
  rw [mowerAt, setMower, List.getD_eq_getElem?_getD, List.getElem?_modify_eq, found]
  rfl

/-- What a spacing check leaves of its mower: verified where it passes; where it fails, LOST from the states that hold a
position, and not verified in any (R59). -/
theorem spacingCheck_eq (a b : Nat) :
    spacingCheck i l a b s
      = if spacingError l a b ≤ l.spacingTol then setMower i (fun m => { m with verified := true }) s
        else
          let t :=
            post .referenceMismatch (some i) (min (spacingError l a b) 65535)
              (setMower i (fun m => { m with mismatches := inc16 m.mismatches, verified := false }) s)
          if (mowerAt s i).state = .tracked ∨ (mowerAt s i).state = .slipping ∨ (mowerAt s i).state = .acquiring then
            post .mowerLost (some i) 2 (setMower i Mower.lose t)
          else t := by
  unfold spacingCheck
  cases (mowerAt s i).state <;> rfl

end Marker

/-! ### Dock events -/

section Dock

variable {i : Nat} {l : LoopRec} {s : State}

theorem dockEvent_still {slip : Bool}
    (still : (mowerAt s i).raw = none ∨ (mowerAt s i).debounce ≠ 0 ∨ l.dockPreset = false ∨ slip = true) :
    dockEvent i l slip s = s := by
  cases raw : (mowerAt s i).raw with
  | none => simp only [dockEvent, raw]
  | some b =>
    simp only [dockEvent, raw]
    exact if_pos (by simpa [raw, or_assoc] using still)

theorem dockEvent_presets {raw : Nat} (found : (mowerAt s i).raw = some raw) (stopped : (mowerAt s i).debounce = 0)
    (preset : l.dockPreset = true) :
    dockEvent i l false s
      = askOffsetWrite i l (setMower i (fun m => { m.preset l.length raw l.dock with debounce := 50 }) s) := by
  simp [dockEvent, found, stopped, preset]

end Dock

/-- Settles O54: the bounds of the computation, the judgment by the mower's state, and the two events by the mower they
find (R43 to R51, R53, R56 to R59, R62 to R64). -/
theorem vernierFindsThePosition : Obligations.VernierFindsThePosition := by
  refine ⟨?_, ?_, ?_, ?_⟩
  · intro n1 p1 p2 hn hp1 hp2 beat d k
    have diff : vernierDiff n1 p1 p2 = d := vernierDiff_eq hp2 n1 p1
    have found : vernier n1 p1 p2 = { residual := d - k * 4096, computed := (k % (n1 : Int)).toNat * 4096 + p1 } := by
      rw [vernier_eq, diff]
      rfl
    obtain ⟨top, bottom, low, high⟩ := periodCount_bounds (Nat.mod_lt _ (by decide) : beat < 4096) hp1 hn
    obtain ⟨computed, below⟩ := vernierPosition hp1 hn k
    rw [found]
    exact ⟨top, bottom, rfl, low, high, computed, below, fun l => residualSlip_iff l _⟩
  · intro l frame v m L bad since near accepted slipped passes slips
    have close : withinJump l frame v.computed m = true ↔ near := withinJump_iff l frame v.computed m
    have taken : m.accept l frame v.computed = accepted := rfl
    have unfit : bad ∨ ¬ near → ¬ (¬ bad ∧ withinJump l frame v.computed m = true) := by
      rw [close]
      tauto
    refine ⟨fun st => ⟨fun sound near => ?_, fun fails => ?_⟩,
      fun st => ⟨fun sound near => ?_, fun fails few => ?_, fun fails many => ?_⟩,
      fun st => ⟨fun slip => ?_, fun sound first => ?_, fun sound later near => ?_, fun sound later far => ?_⟩,
      fun st => ⟨fun slip => ?_, fun sound => ?_⟩, fun st => ⟨fun slip => ?_, fun sound => ?_⟩⟩
    · exact (judge_tracked st).trans (if_pos ⟨sound, close.2 near⟩)
    · exact (judge_tracked st).trans (if_neg (unfit fails))
    · exact (judge_slipping st).trans (if_pos ⟨sound, close.2 near⟩)
    · exact (judge_slipping st).trans ((if_neg (unfit fails)).trans (if_pos few))
    · exact (judge_slipping st).trans ((if_neg (unfit fails)).trans (if_neg (Nat.not_le.2 many)))
    · exact (judge_acquiring st).trans (if_pos slip)
    · exact (judge_acquiring st).trans ((if_neg sound).trans (if_pos first))
    · exact (judge_acquiring st).trans ((if_neg sound).trans ((if_neg later).trans (if_pos (close.2 near))))
    · exact (judge_acquiring st).trans ((if_neg sound).trans ((if_neg later).trans (if_neg (mt close.1 far))))
    · exact (judge_lost st).trans (if_pos slip)
    · exact (judge_lost st).trans (if_neg sound)
    · exact (judge_unreferenced st).trans (if_pos slip)
    · exact (judge_unreferenced st).trans (if_neg sound)
  · intro i w u m found l v j judged marked docked
    have held : mowerAt u i = m := mowerAt_some found
    have lost : (if j.lost then post .mowerLost (some i) 1 (setMower i (fun _ => j.mower) u)
        else setMower i (fun _ => j.mower) u) = judged := by
      rw [setMower_eq]
      cases said : j.lost <;> simp only [judged, said] <;> rfl
    have phases := contentField_phases w
    simp only [mowerSample, held, phases, contentField_bit]
    exact (setMower_eq ..).trans (by rw [lost])
  · intro i l u m found L put
    have held : mowerAt u i = m := mowerAt_some found
    have set : ∀ f, setMower i f u = put (f m) := fun f => by rw [setMower_eq, held]
    refine ⟨set _, ?_, ?_, ?_, ?_, ?_⟩
    · exact fun locked => markerEvent_locked (by rw [held, locked])
    · exact fun free absent => (markerEvent_first (by rw [held, free]) (by rw [held, absent])).trans (by rw [set, held])
    · intro a b free first raw measured differs error pair failed mismatch placed
      have second : markerEvent i l false u
          = spacingCheck i l a b (setMower i (fun m => { m with capB := some b, locked := true }) u) :=
        markerEvent_second (by rw [held, free]) (by rw [held, first]) (by rw [held, raw])
      have size : spacingError l a b = error := spacingError_eq l a b
      have state : (mowerAt (setMower i (fun m => { m with capB := some b, locked := true }) u) i).state = m.state := by
        rw [mowerAt_setMower found]
      rw [spacingCheck_eq, size, state] at second
      refine ⟨fun passes => ?_, fun misses held => ?_, fun misses unheld => ?_⟩
      · rw [second, if_pos passes, setMower_setMower, set]
        rfl
      · rw [second, if_neg (Nat.not_le.2 misses), if_pos held, setMower_post, setMower_setMower, setMower_setMower, set]
        rfl
      · rw [second, if_neg (Nat.not_le.2 misses), if_neg unheld, setMower_setMower, set]
        rfl
    · exact fun slip still => dockEvent_still (by rw [held]; exact still)
    · intro raw found stopped preset offset away preset'
      have asks := dockEvent_presets (i := i) (l := l) (s := u) (by rw [held, found]) (by rw [held, stopped]) preset
      have presets : { m.preset l.length raw l.dock with debounce := 50 } = preset' := by
        simp only [Mower.preset, preset', found]
        rfl
      refine ⟨fun plain => ?_, fun persist writing => ?_, fun persist idle => ?_⟩
      · rw [asks, askOffsetWrite_plain plain, set, presets]
      · rw [asks, askOffsetWrite_writing persist writing, set, ← presets]
      · rw [asks, askOffsetWrite_idle persist idle, set, presets]
        rfl

end Sys2Proof.Machine

namespace Sys2Proof.Machine

/-! ### The record a good sample leaves -/

theorem contentField_low (w : Content) : contentField w 3 0 = w.toNat % 16 := by simp [contentField]

theorem codeTaken_eq (kind : NodeKind) (w : Content) :
    codeTaken kind w = if kind.lastCode < w.toNat % 16 then 0 else w.toNat % 16 := by
  rw [codeTaken, contentField_low]

/-- Confirmation touches the code, the candidate and the change list alone (R28). -/
theorem confirm_rest (code frame : Nat) (n : Node) :
    n.confirm code frame
      = { n with
          code := (n.confirm code frame).code, cand := (n.confirm code frame).cand
          changes := (n.confirm code frame).changes } := by
  unfold Node.confirm
  split
  · rfl
  · split <;> rfl

/-- What confirmation and the counts leave of the record (R11, R26, R27). -/
theorem takeSample_fields (kind : NodeKind) (noisy : Bool) (w : Content) (frame : Nat) (n : Node) :
    let m := n.takeSample kind noisy w frame
    m.ident = n.ident ∧ m.state = .active ∧ m.missed = 0 ∧ m.answerPending = false
      ∧ m.noise = (if noisy then inc16 n.noise else n.noise)
      ∧ m.checkErr = (if kind.lastCode < w.toNat % 16 then inc16 n.checkErr else n.checkErr)
      ∧ m.rejoin = n.rejoin ∧ m.sample = some (sampleTaken kind w) ∧ m.lastFrame = some frame := by
  unfold Node.takeSample
  rw [confirm_rest, contentField_low]
  exact ⟨rfl, rfl, rfl, rfl, rfl, rfl, rfl, rfl, rfl⟩

/-- The code a good sample confirms, or makes the candidate (R28). -/
theorem takeSample_code {kind : NodeKind} {w : Content} {code : Nat} (taken : codeTaken kind w = code) (noisy : Bool)
    (frame : Nat) (n : Node) :
    let m := n.takeSample kind noisy w frame
    (n.code = some code → m.code = n.code ∧ m.cand = none ∧ m.changes = n.changes)
      ∧ (n.code ≠ some code → n.cand = some code →
        m.code = some code ∧ m.cand = none
          ∧ m.changes = enterChange { old := n.code, new := code, frame := frame } n.changes)
      ∧ (n.code ≠ some code → n.cand ≠ some code → m.code = n.code ∧ m.cand = some code ∧ m.changes = n.changes) := by
  subst taken
  refine ⟨fun same => ?_, fun new second => ?_, fun new first => ?_⟩
  · simp [Node.takeSample, Node.confirm, same]
  · simp [Node.takeSample, Node.confirm, new, second]
  · simp [Node.takeSample, Node.confirm, new, first]

/-- The list holds two changes, the latest of them the new one (R29). -/
theorem enterChange_eq (c : Change) (l : List Change) :
    enterChange c l = match l with
      | [] => [c]
      | a :: _ => [a, c] := by
  match l with
  | [] | [a] | a :: b :: l => rfl

theorem nodeAt_of_ident {s : State} {n : Nat} {x : NodeIdent} (hx : (nodeAt s n).ident = some x) :
    n < s.nodes.recs.length :=
  nodeAt_lt fun blank => nomatch (congrArg Node.ident blank).symm.trans hx

theorem setNode_eq (n : Nat) (m : Node) (s : State) :
    setNode n (fun _ => m) s = { s with nodes := { s.nodes with recs := s.nodes.recs.set n m } } := by
  rw [setNode, modify_eq_set_getD _ _ _ Node.blank]

/-- The report of a served record that a good sample finds: the mowers bound to a MOWER node that was STALE leave STALE
(R52). -/
theorem reportToMowers_served {n : Nat} {x : NodeIdent} {before after : Node} (ident : after.ident = some x)
    (served : before.state = .active ∨ before.state = .stale) (active : after.state = .active) (s : State) :
    reportToMowers n before after s
      = { s with
          pos :=
            { s.pos with
              mowers :=
                s.pos.mowers.map
                  (fun q =>
                    if q.node = some n ∧ x.kind = .mower ∧ before.state = .stale ∧ q.state = .stale then
                      { q with state := if q.offsetValid then .acquiring else .unreferenced, acquire := 0 }
                    else q) } } := by
  unfold reportToMowers
  refine congrArg (fun l => { s with pos := { s.pos with mowers := l } }) (List.map_congr_left fun q _ => ?_)
  have kind : after.kindIs .mower = decide (x.kind = .mower) := by simp [Node.kindIs, ident, beq_eq_decide]
  rw [kind, active]
  by_cases bound : q.node = some n
  · rcases served with st | st <;> by_cases mower : x.kind = .mower <;> by_cases stale : q.state = .stale <;>
      simp [bound, st, mower, stale, Mower.nodeFound]
  · simp [bound]

/-! ### A good sample in its slot -/

/-- The record of a good sample taken, and the change of state reported to the mowers (R21, R26). -/
def sampled (n : Nat) (kind : NodeKind) (noisy : Bool) (w : Content) (s : State) : State :=
  let new := (nodeAt s n).takeSample kind noisy w s.line.frame
  reportToMowers n (nodeAt s n) new (setNode n (fun _ => new) s)

theorem sampled_eq {n : Nat} {x : NodeIdent} {s : State} (hx : (nodeAt s n).ident = some x)
    (served : (nodeAt s n).state = .active ∨ (nodeAt s n).state = .stale) (noisy : Bool) (w : Content) :
    sampled n x.kind noisy w s
      = { s with
          nodes := { s.nodes with recs := s.nodes.recs.set n ((nodeAt s n).takeSample x.kind noisy w s.line.frame) }
          pos :=
            { s.pos with
              mowers :=
                s.pos.mowers.map
                  (fun q =>
                    if q.node = some n ∧ x.kind = .mower ∧ (nodeAt s n).state = .stale ∧ q.state = .stale then
                      { q with state := if q.offsetValid then .acquiring else .unreferenced, acquire := 0 }
                    else q) } } := by
  obtain ⟨ident, active, -⟩ := takeSample_fields x.kind noisy w s.line.frame (nodeAt s n)
  rw [sampled, reportToMowers_served (ident.trans hx) served active, setNode_eq]

/-- A confirmed change of the code is reported, what follows is settled, and the sample is handed over (R32). -/
theorem goodSample_eq {n : Nat} {x : NodeIdent} {s : State} (hx : (nodeAt s n).ident = some x) (noisy : Bool)
    (w : Content) :
    let new := (nodeAt s n).takeSample x.kind noisy w s.line.frame
    goodSample n noisy w s
      = handOver n x.kind w
          (settle
            (if new.code = (nodeAt s n).code then sampled n x.kind noisy w s
              else codeReport n x.kind (nodeAt s n).code (codeTaken x.kind w) (sampled n x.kind noisy w s))) := by
  intro new
  obtain ⟨same, second, first⟩ := takeSample_code (kind := x.kind) (w := w) rfl noisy s.line.frame (nodeAt s n)
  have shown : (nodeAt s n).takeSample x.kind noisy w s.line.frame = new := rfl
  unfold goodSample
  rw [hx]
  dsimp only
  rw [shown]
  congr 2
  by_cases kept : new.code = (nodeAt s n).code
  · rw [if_pos kept]
    cases code : new.code with
    | none => rfl
    | some c => exact if_pos (code.symm.trans kept)
  · have confirmed : new.code = some (codeTaken x.kind w) := by
      by_cases known : (nodeAt s n).code = some (codeTaken x.kind w)
      · exact absurd (same known).1 kept
      · by_cases candidate : (nodeAt s n).cand = some (codeTaken x.kind w)
        · exact (second known candidate).1
        · exact absurd (first known candidate).1 kept
    rw [if_neg kept, confirmed]
    exact if_neg (confirmed ▸ kept)

/-- What the named bits of two words have in common, as the statements spell it (R176). -/
theorem sameContent_of {kind : NodeKind} {v w : Content}
    (high : v.toNat / 2 ^ kind.lowBit * 2 ^ kind.lowBit = w.toNat / 2 ^ kind.lowBit * 2 ^ kind.lowBit)
    (code : v.toNat % 16 = w.toNat % 16) : SameContent kind v w :=
  ⟨Nat.eq_of_mul_eq_mul_right (Nat.two_pow_pos _) high, code⟩

theorem nodeSlot_same {slot : Nat} {one other : Option (List Sampled)} {p : Placement} {x : NodeIdent} {noisy : Bool}
    {v w : Content} {s : State} (placed : placementFor slot s = some p) (hx : (nodeAt s p.node).ident = some x)
    (first : judgeHeard x.address p.node one = .good noisy v)
    (second : judgeHeard x.address p.node other = .good noisy w) (same : SameContent x.kind v w) :
    nodeSlot slot one s = nodeSlot slot other s := by
  unfold nodeSlot
  by_cases served : (nodeAt s p.node).served = true
  · have found : servedIn slot s = some (p.node, x) := servedIn_of_placement placed ((served_iff _).1 served) hx
    simp only [found, first, second, outcome]
    rw [goodSample_same (s := setDown slot _ s) hx same]
  · have none : servedIn slot s = none := by simp only [servedIn, placed, served, Bool.false_eq_true, if_false]
    simp only [none]

/-! ### The reports of a confirmed code -/

/-- The notices that join `l` where each index below `count` that is `named` posts one, in increasing index (log 34). -/
def postsEach (count : Nat) (named : Nat → Bool) (notice : Nat → Notice) (l : Notices) : Notices :=
  (List.range count).foldl (fun l i => if named i then l.join (notice i) else l) l

theorem postsEach_succ (count : Nat) (named : Nat → Bool) (notice : Nat → Notice) (l : Notices) :
    postsEach (count + 1) named notice l
      = if named count then (postsEach count named notice l).join (notice count) else postsEach count named notice l := by
  simp only [postsEach, List.range_succ, List.foldl_append, List.foldl_cons, List.foldl_nil]

/-- MOWER_STUCK of the mowers below `k`. -/
def stuckBelow (n : Nat) (old : Option Nat) (k : Nat) (u : State) : State :=
  eachIx (fun i t => if (mowerAt t i).node == some n then postDetail .mowerStuck (some i) old t else t) k u

/-- The detail of the MOWER_STUCK of mower `i`: the code confirmed before, and a free value where there was none (log 14). -/
def stuckDetail (n : Nat) (old : Option Nat) (u : State) (i : Nat) : Nat :=
  old.getD (Config.freeDetail (stuckBelow n old i u).free).toNat

theorem stuckBelow_posts (n : Nat) (old : Option Nat) (u : State) (k : Nat) :
    stuckBelow n old k u
      = { u with
          notices :=
            postsEach k (fun i => (mowerAt u i).node == some n)
              (fun i => noticeNow u .mowerStuck (some i) (stuckDetail n old u i)) u.notices
          free := (stuckBelow n old k u).free } := by
  induction k with
  | zero => rfl
  | succ k ih =>
    have next : stuckBelow n old (k + 1) u
        = if (mowerAt (stuckBelow n old k u) k).node == some n then
            postDetail .mowerStuck (some k) old (stuckBelow n old k u)
          else stuckBelow n old k u := eachIx_succ _ k u
    have mower : mowerAt (stuckBelow n old k u) k = mowerAt u k := by rw [ih]; rfl
    rw [postsEach_succ, next, mower]
    split
    · have posts : postDetail .mowerStuck (some k) old (stuckBelow n old k u)
          = { post .mowerStuck (some k) (stuckDetail n old u k) (stuckBelow n old k u) with
              free := (postDetail .mowerStuck (some k) old (stuckBelow n old k u)).free } := by
        cases old <;> rfl
      rw [posts, ih]
      rfl
    · exact ih

/-- The channels whose record is of a kind in `kinds` and names node `n`. -/
def namesNode (kinds : List ChannelKind) (n : Nat) (c : Channel) : Bool :=
  c.cfg.any (fun r => kinds.contains r.kind && r.node == some n)

/-- The fault latches of the channels below `k` that name node `n`. -/
def latchedBelow (kinds : List ChannelKind) (kind : NoticeKind) (detail n k : Nat) (u : State) : State :=
  eachIx (latchFault kinds kind detail n) k u

theorem latchedBelow_posts (kinds : List ChannelKind) (kind : NoticeKind) (detail n : Nat) (u : State) (k : Nat) :
    let t := latchedBelow kinds kind detail n k u
    t = { u with
          water := { u.water with channels := t.water.channels }
          notices :=
            postsEach k (fun i => namesNode kinds n (channelAt u i)) (fun i => noticeNow u kind (some i) detail) u.notices }
      ∧ ∀ i,
        channelAt t i
          = if i < k ∧ namesNode kinds n (channelAt u i) = true then { channelAt u i with latch := true }
            else channelAt u i := by
  induction k with
  | zero => exact ⟨rfl, fun i => (if_neg (fun h => Nat.not_lt_zero i h.1)).symm⟩
  | succ k ih =>
    obtain ⟨rest, channels⟩ := ih
    have next : latchedBelow kinds kind detail n (k + 1) u
        = latchFault kinds kind detail n k (latchedBelow kinds kind detail n k u) := eachIx_succ _ k u
    generalize latchedBelow kinds kind detail n k u = t at rest channels next
    have same : channelAt t k = channelAt u k := (channels k).trans (if_neg (fun h => Nat.lt_irrefl k h.1))
    have tested : ((channelAt t k).cfg.any (fun r => kinds.contains r.kind && r.node == some n))
        = namesNode kinds n (channelAt u k) := by rw [same, namesNode]
    rw [next, latchFault, tested, postsEach_succ]
    by_cases named : namesNode kinds n (channelAt u k) = true
    · obtain ⟨r, cfg, -⟩ := (Option.any_eq_true ..).1 named
      rw [if_pos named, if_pos named]
      refine ⟨by rw [rest]; rfl, fun i => ?_⟩
      show channelAt (setChannel k (fun c => { c with latch := true }) t) i = _
      by_cases self : i = k
      · subst self
        rw [channelAt_setChannel_self i _ t r (same ▸ cfg), same, if_pos ⟨Nat.lt_succ_self i, named⟩]
      · rw [channelAt_setChannel k i _ t self, channels]
        exact if_congr (and_congr_left fun _ => by omega) rfl rfl
    · rw [if_neg named, if_neg named]
      refine ⟨rest, fun i => ?_⟩
      rw [channels]
      refine if_congr ⟨fun h => ⟨Nat.lt_succ_of_lt h.1, h.2⟩, fun h => ⟨?_, h.2⟩⟩ rfl rfl
      exact Nat.lt_of_le_of_ne (Nat.lt_succ_iff.1 h.1) fun same => named (same ▸ h.2)

/-- The latches of a confirmed fault code: each channel that names the node, with its notice (R91, R118). -/
theorem latched_spec {kinds : List ChannelKind} {n : Nat} {names : Channel → Bool}
    (same : ∀ c, namesNode kinds n c = names c) (kind : NoticeKind) (detail : Nat) (u : State) :
    let t := latchedBelow kinds kind detail n 8 u
    t = { u with water := { u.water with channels := t.water.channels }, notices := t.notices }
      ∧ (∀ i, i < 8 →
        channelAt t i = if names (channelAt u i) then { channelAt u i with latch := true } else channelAt u i)
      ∧ t.notices
        = postsEach 8 (fun i => names (channelAt u i)) (fun i => noticeNow u kind (some i) detail) u.notices := by
  obtain ⟨rest, channels⟩ := latchedBelow_posts kinds kind detail n u 8
  simp only [same] at rest channels
  have notices := congrArg State.notices rest
  refine ⟨by rw [notices]; exact rest, fun i inside => ?_, notices⟩
  exact (channels i).trans (if_congr (and_iff_right inside) rfl rfl)

theorem lampFault_posts (n code : Nat) (u : State) :
    lampFault n code u
      = { u with
          notices :=
            postsEach 16 (fun g => (groupAt u g).cfg.any (fun r => r.node == some n))
              (fun g => noticeNow u .lampFault (some g) code) u.notices } := by
  unfold lampFault
  generalize 16 = k
  induction k with
  | zero => rfl
  | succ k ih =>
    rw [eachIx_succ, ih, postsEach_succ]
    by_cases lit : (groupAt u k).cfg.any (fun r => r.node == some n) = true
    · rw [if_pos lit]
      exact if_pos lit
    · rw [if_neg lit]
      exact if_neg lit

/-- The channels that a PUMP node feeds are the FILTER and FOUNTAIN channels that name it, those of a VALVE node the VALVE
channels (R88, R91, R118). -/
theorem namesNode_pump (n : Nat) (c : Channel) :
    namesNode [.filter, .fountain] n c = c.cfg.any (fun r => r.kind != .valve && r.node == some n) := by
  unfold namesNode
  congr 1
  funext r
  cases r.kind <;> rfl

theorem namesNode_valve (n : Nat) (c : Channel) :
    namesNode [.valve] n c = c.cfg.any (fun r => r.kind == .valve && r.node == some n) := by
  unfold namesNode
  congr 1
  funext r
  cases r.kind <;> rfl

/-! ### The hand-overs -/

/-- A channel is RUNNING by the last row of R90, where none before it holds. -/
theorem channelStateOf_running {u : State} {c : Channel} {r : ChannelRec} (cfg : c.cfg = some r) :
    channelStateOf u c = .running
      ↔ r.node.isNone = false ∧ c.latch = false
        ∧ (channelNodeActive u c && (codeOf u r.node r.kind.nodeKind).isSome) = true
        ∧ (r.kind == .filter && c.stage.inCycle) = false := by
  have tested : (!channelNodeActive u c || (codeOf u r.node r.kind.nodeKind).isNone)
      = !(channelNodeActive u c && (codeOf u r.node r.kind.nodeKind).isSome) := by
    rw [Bool.not_and, Option.not_isSome]
  simp only [channelStateOf, cfg, tested]
  generalize (channelNodeActive u c && (codeOf u r.node r.kind.nodeKind).isSome) = healthy
  generalize (r.kind == .filter && c.stage.inCycle) = washes
  cases r.node.isNone <;> cases c.latch <;> cases healthy <;> cases washes <;> decide

/-- A sample is taken by the monitor of a FILTER channel that is RUNNING with its cycle IDLE or REQUESTED (R108). -/
theorem filterTakes_iff (u : State) (c : Channel) :
    (c.kindIs .filter && channelStateOf u c == .running && (c.stage == .idle || c.stage == .requested)) = true
      ↔ ∃ r, c.cfg = some r ∧ r.kind = .filter ∧ c.latch = false ∧ (c.stage = .idle ∨ c.stage = .requested)
        ∧ ∃ y, LiveNode u r.node .pump y ∧ y.code ≠ none := by
  cases cfg : c.cfg with
  | none => simp [Channel.kindIs, cfg]
  | some r =>
    have kind : c.kindIs .filter = true ↔ r.kind = .filter := by simp [Channel.kindIs, cfg]
    simp only [Bool.and_eq_true, Bool.or_eq_true, beq_iff_eq, kind, channelStateOf_running cfg]
    rw [← Bool.and_eq_true, channelHealthy_iff u c r cfg]
    constructor
    · rintro ⟨⟨filter, -, latch, live, -⟩, stage⟩
      rw [if_neg (by rw [filter]; decide)] at live
      exact ⟨r, rfl, filter, latch, stage, live⟩
    · rintro ⟨q, same, filter, latch, stage, y, live, code⟩
      cases same
      have named : r.node.isNone = false := by
        obtain ⟨k, x, node, -⟩ := live
        rw [node]
        rfl
      have still : (r.kind == .filter && c.stage.inCycle) = false := by
        rcases stage with st | st <;> rw [st] <;> exact Bool.and_false _
      rw [if_neg (by rw [filter]; decide)]
      exact ⟨⟨filter, named, latch, ⟨y, live, code⟩, still⟩, stage⟩

theorem contentField_differential (w : Content) :
    differential w = w.toNat / 4194304 - w.toNat / 4096 % 1024 := by
  have top : contentField w 31 22 = w.toNat / 4194304 := by
    have := w.isLt
    unfold contentField
    omega
  rw [differential, top]
  rfl

theorem contentField_draw (w : Content) : contentField w 31 19 = w.toNat / 524288 := by
  have := w.isLt
  unfold contentField
  omega

/-- The monitor of a channel that takes the sample: F smoothed, the clogged flag formed, a setting posted (R108, R109). -/
theorem filterSample_takes {i : Nat} {w : Content} {u : State} {r : ChannelRec} (cfg : (channelAt u i).cfg = some r)
    (takes : ((channelAt u i).kindIs .filter && channelStateOf u (channelAt u i) == .running
      && ((channelAt u i).stage == .idle || (channelAt u i).stage == .requested)) = true) :
    let c := { channelAt u i with filt := some (smooth (channelAt u i).filt (differential w)) }
    let formed := putChannel i { c with clogged := cloggedOf r c } u
    filterSample i w u
      = if (cloggedOf r c && !c.clogged) = true then post .filterClogged (some i) c.smoothed formed else formed := by
  intro c formed
  have inside : i < u.water.channels.length := by
    by_contra beyond
    rw [channelAt, List.getD_eq_getElem?_getD, List.getElem?_eq_none (Nat.not_lt.1 beyond)] at cfg
    cases cfg
  unfold filterSample
  simp only [takes, if_true]
  rw [setChannel_put]
  exact formClogged_putChannel inside (c := c) cfg

theorem supplySample_eq (w : Content) (u : State) :
    let draw := w.toNat / 524288
    let run := if u.mgmt.site.budget < draw then min 3 (u.power.run + 1) else 0
    let t := { u with power := { u.power with measured := some draw, run := run } }
    supplySample w u = if run = 3 then setShed .overrun t else t := by
  simp only [supplySample, contentField_draw]

/-- Settles O13: the record by its update, the reports by the code and the records that name the node, the hand-overs by
the kind's block. -/
theorem goodSampleUpdatesTheRecord : Obligations.GoodSampleUpdatesTheRecord := by
  unfold Obligations.GoodSampleUpdatesTheRecord
  intro named
  have kept : ∀ (k : NodeKind) (w : Content), w.toNat / 2 ^ k.lowBit * 2 ^ k.lowBit = named k w := fun k w => by
    have none : w.toNat / 2 ^ 32 * 2 ^ 32 = 0 := by rw [Nat.div_eq_of_lt w.isLt, Nat.zero_mul]
    match k with
    | .mower | .pump | .dock | .supply => rfl
    | .gateway | .valve | .light | .weather | .level | .motion => exact none
  refine ⟨?_, ?_, ?_, ?_, ?_, ?_⟩
  · intro s slot heard p x noisy w on running placed served hx judged
    let u := setDown slot (halfBytes x.address (commandBytes x.kind p.node s)) s
    let new := (nodeAt s p.node).takeSample x.kind noisy w s.line.frame
    have taken : exec (.nodeSlotEnd slot heard) s = .next (goodSample p.node noisy w u) := by
      refine (whenOn_on (nodeSlot slot heard) on).trans (congrArg Host.Outcome.next ?_)
      simp only [nodeSlot, running, reduceCtorEq, if_false, servedIn_of_placement placed served hx, judged, outcome]
      rfl
    have report : ReportFrom (setNode p.node (fun _ => new) u) (goodSample p.node noisy w u) :=
      goodSample_report (s := u) hx noisy w
    have record : nodeAt (goodSample p.node noisy w u) p.node = new := by
      rw [nodeAt_congr report.nodes, nodeAt_setNode, if_pos ⟨rfl, nodeAt_of_ident (s := u) hx⟩]
    have others : ∀ k, k ≠ p.node → nodeAt (goodSample p.node noisy w u) k = nodeAt s k := fun k other => by
      rw [nodeAt_congr report.nodes, nodeAt_setNode, if_neg (fun same => other same.1.symm)]
      rfl
    refine ⟨_, taken, ?_⟩
    intro n m beyond code
    have coded : codeTaken x.kind w = code := codeTaken_eq x.kind w
    have sample : sampleTaken x.kind w = BitVec.ofNat 32 (named x.kind w + code) := by
      rw [sampleTaken, kept, coded]
    obtain ⟨ident, state, missed, pending, noise, errors, rejoin, held, frame⟩ :=
      takeSample_fields x.kind noisy w s.line.frame n
    obtain ⟨same, second, first⟩ := takeSample_code coded noisy s.line.frame n
    have updated : m = new := record
    rw [updated]
    refine ⟨ident, state, missed, pending, noise, errors, rejoin, held.trans (congrArg some sample), frame, same,
      fun unknown candidate => ?_, first, others, report.line, report.mgmt, report.dockAll, ?_⟩
    · obtain ⟨known, none, changes⟩ := second unknown candidate
      exact ⟨known, none, changes.trans (enterChange_eq _ _)⟩
    · intro found taken
      have reported : sampled p.node x.kind noisy w u = taken := by
        refine (sampled_eq (s := u) hx served noisy w).trans ?_
        simp only [taken, report.line]
        rfl
      have handed := goodSample_eq (s := u) hx noisy w
      rw [reported, coded] at handed
      exact handed
  · intro s slot one other p x noisy v w placed hx first second high code
    have same : SameContent x.kind v w := sameContent_of (by rw [kept, kept, high]) code
    by_cases on : s.mode = .on
    · exact (whenOn_on (nodeSlot slot one) on).trans
        ((congrArg Host.Outcome.next (nodeSlot_same placed hx first second same)).trans
          (whenOn_on (nodeSlot slot other) on).symm)
    · exact (whenOn_off (nodeSlot slot one) on).trans (whenOn_off (nodeSlot slot other) on).symm
  · intro n code old u posts pumped valved lit
    refine ⟨⟨stuckDetail n old u, fun d i confirmed => by rw [stuckDetail, confirmed, Option.getD_some], ?_, ?_⟩,
      fun other => if_neg other, fun faulty => ?_, ?_, fun other => if_neg other, fun faulty => ?_, fun faulty named => ?_,
      fun other => if_neg (fun h => other h.2), ?_, ?_⟩
    · have posted := stuckBelow_posts n old u 4
      have notices := congrArg State.notices posted
      show stuckBelow n old 4 u = { u with notices := (stuckBelow n old 4 u).notices, free := (stuckBelow n old 4 u).free }
      rw [notices]
      exact posted
    · exact congrArg State.notices (stuckBelow_posts n old u 4)
    · have run : codeReport n .pump old code u = latchedBelow [.filter, .fountain] .pumpFault code n 8 u := if_neg faulty
      rw [run]
      obtain ⟨rest, channels, notices⟩ := latched_spec (names := pumped) (namesNode_pump n) .pumpFault code u
      exact ⟨rest, channels, notices⟩
    · have run : codeReport n .valve old 3 u = latchedBelow [.valve] .valveJammed 1 n 8 u := rfl
      rw [run]
      obtain ⟨rest, channels, notices⟩ := latched_spec (names := valved) (namesNode_valve n) .valveJammed 1 u
      exact ⟨rest, channels, notices⟩
    · exact (if_neg faulty).trans (lampFault_posts n code u)
    · exact if_pos ⟨faulty, named⟩
    · rintro k (rfl | rfl | rfl) <;> rfl
    · rintro k (rfl | rfl | rfl | rfl | rfl) <;> rfl
  · intro n w u
    refine ⟨?_, rfl, rfl, ?_⟩
    · show mowerSamples n w u = _
      unfold mowerSamples eachIx
      congr 1
      funext v i
      refine if_congr ?_ rfl rfl
      simp [Mower.samples]
    · rintro k (rfl | rfl | rfl | rfl | rfl | rfl | rfl) <;> rfl
  · intro i w u c takes
    refine ⟨fun none => ?_, fun r fits => ?_⟩
    · exact if_neg fun taken => by
        obtain ⟨r, fits⟩ := (filterTakes_iff u c).1 taken
        exact none r fits
    · intro d f on
      have taken := filterSample_takes (w := w) fits.1 ((filterTakes_iff u c).2 ⟨r, fits⟩)
      have smoothed : smooth (channelAt u i).filt (differential w) = f := by
        rw [contentField_differential]
        rfl
      have formed : cloggedOf r { channelAt u i with filt := some f } = on := by
        obtain ⟨-, monitored⟩ := cloggedOf_cases r { c with filt := some f }
        obtain ⟨set, clear⟩ := monitored f rfl
        by_cases flagged : c.clogged = true
        · exact (set flagged).trans (if_pos flagged).symm
        · exact (clear (Bool.eq_false_iff.2 flagged)).trans (if_neg flagged).symm
      rw [taken]
      simp only [smoothed, formed]
      by_cases posts : (on && !c.clogged) = true
      · rw [if_pos posts, if_pos posts]
        rfl
      · rw [if_neg posts, if_neg posts]
        rfl
  · intro w u draw run
    refine ⟨fun still => ?_, fun third unshed => ?_⟩
    · rw [supplySample_eq]
      by_cases third : run = 3
      · exact (if_pos third).trans (setShed_set (s := { u with power := { u.power with measured := some draw, run := run } })
          (still.resolve_left (not_not_intro third)) .overrun)
      · exact if_neg third
    · rw [supplySample_eq, if_pos third]
      exact if_neg (by rw [unshed]; decide)

end Sys2Proof.Machine

namespace Sys2Proof.Machine

/-! ### The first round after start-up -/

/-- No node is ACTIVE and the clock is invalid: what start-up leaves to the blocks (R18, R36, R161). -/
structure Unserved (s : State) : Prop where
  nodes : ∀ n, (nodeAt s n).state ≠ .active
  clock : s.mgmt.clock.valid = false

/-- Other blocks' results move; nodes and clock stay. -/
theorem Unserved.of {s t : State} (h : Unserved s) (nodes : t.nodes = s.nodes) (mgmt : t.mgmt = s.mgmt) : Unserved t where
  nodes := fun n => by rw [nodeAt_congr nodes]; exact h.nodes n
  clock := mgmt ▸ h.clock

theorem activeOf_unserved {s : State} (h : Unserved s) (ix : Option Nat) (k : NodeKind) : activeOf s ix k = false := by
  cases ix with
  | none => rfl
  | some n =>
    have inactive : ((nodeAt s n).state == .active) = false := beq_eq_false_iff_ne.2 (h.nodes n)
    rw [activeOf, inactive, Bool.and_false]

theorem liveCode_unserved {s : State} (h : Unserved s) (ix : Option Nat) (k : NodeKind) : liveCode s ix k = none := by
  rw [liveCode, activeOf_unserved h, if_neg Bool.false_ne_true]

theorem channelNodeActive_unserved {s : State} (h : Unserved s) (c : Channel) : channelNodeActive s c = false := by
  unfold channelNodeActive
  cases c.cfg with
  | none => rfl
  | some r => exact activeOf_unserved h _ _

theorem mapIx_eq_map {α β : Type} {f : Nat → α → β} {g : α → β} {l : List α} (same : ∀ i, ∀ a ∈ l, f i a = g a) (k : Nat) :
    mapIx f k l = l.map g := by
  refine List.ext_getElem? fun i => ?_
  rw [mapIx_getElem?, List.getElem?_map]
  cases at_ : l[i]? with
  | none => rfl
  | some a => exact congrArg some (same _ a (List.mem_of_getElem? at_))

theorem mapIx_eq_self {α : Type} {f : Nat → α → α} {l : List α} (same : ∀ i, ∀ a ∈ l, f i a = a) (k : Nat) :
    mapIx f k l = l := (mapIx_eq_map same k).trans (List.map_id' l)

theorem map_eq_self {α : Type} {f : α → α} {l : List α} (same : ∀ a ∈ l, f a = a) : l.map f = l :=
  (List.map_congr_left same).trans (List.map_id' l)

/-- No weather and no level node is ACTIVE: no rain, no dry condition, the pond level unknown (R98, R99). -/
theorem formConditions_unserved {s : State} (h : Unserved s)
    (unknown : s.water = { s.water with pond := none, rain := false, dry := false }) : formConditions s = s := by
  have pond : s.water.pond = none := by rw [unknown]
  have shows : s.water.shows.map (Player.weather false false) = s.water.shows := map_eq_self fun p _ => rfl
  simp only [formConditions, rainNow, dryNow, pondNow, liveCode_unserved h, pond, postUnknown, Option.any_none,
    Bool.false_and, shows]
  exact congrArg (fun w => { s with water := w }) unknown.symm

/-- Without a valid position no keepout set has a member, and no KEEPOUT_ENTRY is posted (R78). -/
theorem formKeepouts_unplaced {s : State} (unplaced : ∀ i, (mowerAt s i).positionValid = false) :
    formKeepouts s
      = { s with zone := { s.zone with keep := [[], [], [], []], permits := permitsOf s [[], [], [], []] } } := by
  have sets : keepoutSets s = [[], [], [], []] := by
    have empty : ∀ i, keepoutSet s (mowerAt s i) (s.zone.occ.getD i []) = [] := fun i => by
      rw [keepoutSet, unplaced i, if_neg Bool.false_ne_true]
    simp only [keepoutSets, empty]
    rfl
  have none : ∀ (z m : Nat), (([[], [], [], []] : List (List Nat)).getD m []).contains z = false := fun z m => by
    rcases m with _ | _ | _ | _ | m <;> rfl
  have posts : postEntries s.zone.keep [[], [], [], []] s = s := by
    simp only [postEntries, none, Bool.false_and, Bool.false_eq_true, if_false]
    exact eachIx_keeps (P := (· = s)) (fun z t same => eachIx_keeps (P := (· = s)) (fun m u same => same) 4 same) 32 rfl
  simp only [formKeepouts, sets, posts]

/-- The channel shows no fault, no level, no cycle and no monitor result: as start-up leaves it, its state and its
requested level aside (R87, R107). -/
def Channel.AtRest (c : Channel) : Prop :=
  c = { Channel.blank with cfg := c.cfg, state := c.state, requested := c.requested }

theorem Channel.AtRest.stage {c : Channel} (h : c.AtRest) : c.stage = .idle := congrArg Channel.stage h

theorem Channel.AtRest.filt {c : Channel} (h : c.AtRest) : c.filt = none := congrArg Channel.filt h

theorem Channel.AtRest.clogged {c : Channel} (h : c.AtRest) : c.clogged = false := congrArg Channel.clogged h

theorem Channel.AtRest.latch {c : Channel} (h : c.AtRest) : c.latch = false := congrArg Channel.latch h

theorem Channel.AtRest.reqDraw {c : Channel} (h : c.AtRest) : c.reqDraw = 0 := congrArg Channel.reqDraw h

/-- A channel at rest whose results have been formed with no node ACTIVE (R90, R93). -/
def Channel.powered (c : Channel) : Channel :=
  { c with
    state := if c.cfg.any (fun x => x.node.isSome) then .held else .off
    requested := (c.cfg.map (fun x => if x.kind = .filter then x.day else 0)).getD 0 }

theorem Channel.AtRest.powered {c : Channel} (h : c.AtRest) : c.powered.AtRest := by
  unfold Channel.powered
  rw [h]
  rfl

/-- Every channel rests and no show plays (R87, R107). -/
structure AtRest (s : State) : Prop where
  channels : ∀ c ∈ s.water.channels, c.AtRest
  shows : ∀ p ∈ s.water.shows, p.state = .idle

theorem AtRest.channelAt {s : State} (h : AtRest s) (i : Nat) : (channelAt s i).AtRest := by
  unfold Machine.channelAt
  rw [List.getD_eq_getElem?_getD]
  cases at_ : s.water.channels[i]? with
  | none => rfl
  | some c => exact h.channels c (List.mem_of_getElem? at_)

theorem AtRest.of {s t : State} (h : AtRest s) (water : t.water = s.water) : AtRest t where
  channels := by rw [water]; exact h.channels
  shows := by rw [water]; exact h.shows

theorem AtRest.powered {s : State} (h : AtRest s) :
    AtRest { s with water := { s.water with channels := s.water.channels.map Channel.powered } } where
  channels := fun c mem => by
    obtain ⟨d, inside, rfl⟩ := List.mem_map.1 mem
    exact (h.channels d inside).powered
  shows := h.shows

theorem formMonitors_atRest {s : State} (h : AtRest s) : formMonitors false s = s := by
  have stays : ∀ c ∈ s.water.channels, (c.monitored s).autoRequest = c := fun c mem => by
    have rest := h.channels c mem
    have monitored : c.monitored s = c := by
      unfold Channel.monitored
      split
      · rfl
      · rw [← rest.filt, ← rest.clogged]
    rw [monitored, Channel.autoRequest]
    split
    · rfl
    · rw [rest.clogged, Bool.and_false, Bool.false_and, Bool.false_and, if_neg Bool.false_ne_true]
  simp only [formMonitors, Bool.false_eq_true, if_false, map_eq_self stays]

theorem formCycles_atRest {s : State} (h : AtRest s) : formCycles s = s := by
  have stays : ∀ i, cycleStep i s = s := fun i => by
    simp only [cycleStep, (h.channelAt i).stage]
    split <;> rfl
  exact eachIx_keeps (P := (· = s)) (fun i t same => same ▸ stays i) 8 rfl

theorem formStarts_atRest {s : State} (h : AtRest s) : formStarts s = s := by
  have stays : ∀ i, cycleStart i s = s := fun i => by
    simp only [cycleStart, (h.channelAt i).stage]
    split <;> rfl
  exact eachIx_keeps (P := (· = s)) (fun i t same => same ▸ stays i) 8 rfl

/-- The state of a channel at rest: HELD for its inactive node, OFF without one (R90). -/
theorem channelStateOf_atRest {s : State} (unserved : Unserved s) {c : Channel} (rest : c.AtRest) :
    channelStateOf s c = if c.cfg.any (fun x => x.node.isSome) then .held else .off := by
  cases cfg : c.cfg with
  | none => simp only [channelStateOf, cfg, Option.any_none, Bool.false_eq_true, if_false]
  | some r =>
    cases node : r.node with
    | none => simp [channelStateOf, cfg, node]
    | some n => simp [channelStateOf, cfg, node, rest.latch, channelNodeActive_unserved unserved]

/-- The requested level of a channel at rest: the day level of a FILTER, the clock being invalid, and 0 for a FOUNTAIN that
no PLAYING show lists and a VALVE that no cycle commands (R93). -/
theorem requestedOf_atRest {s : State} (unserved : Unserved s) (h : AtRest s) (i : Nat) {c : Channel} (rest : c.AtRest) :
    requestedOf s i c = (c.cfg.map (fun x => if x.kind = .filter then x.day else 0)).getD 0 := by
  have shown : showLevel s i = 0 := by
    have none : ∀ p ∈ s.water.shows, p.levelFor i = none := fun p mem => by
      unfold Player.levelFor
      rw [h.shows p mem]
      cases p.cfg <;> rfl
    rw [showLevel, List.findSome?_eq_none_iff.2 none, Option.getD_none]
  have commanded : valveCommanded s i = false := by
    refine List.any_eq_false.2 fun c mem => ?_
    rw [(h.channels c mem).stage]
    simp [Stage.commandsValve]
  have day : ∀ r, isNight s r = false := fun r => by rw [isNight, unserved.clock, Bool.false_and]
  cases cfg : c.cfg with
  | none => simp only [requestedOf, cfg, Option.map_none, Option.getD_none]
  | some r =>
    simp only [requestedOf, cfg, shown, commanded, rest.stage, day]
    cases kind : r.kind <;> simp [Stage.inCycle, kind]

/-- A channel that does not run has no output and no request (R95). -/
theorem formLevel_still (s : State) (i : Nat) {c : Channel} (still : channelStateOf s c = .held ∨ channelStateOf s c = .off) :
    formLevel s i c
      = { c with
          state := channelStateOf s c, requested := requestedOf s i c, output := 0, reqLevel := 0, reqDraw := 0 } := by
  have runs : (channelStateOf s c == .running || channelStateOf s c == .backwash) = false := by
    rcases still with st | st <;> rw [st] <;> rfl
  cases cfg : c.cfg with
  | none => simp only [formLevel, cfg]
  | some r => simp only [formLevel, cfg, runs, Bool.false_and, Bool.false_eq_true, if_false]

theorem formLevel_atRest {s : State} (unserved : Unserved s) (h : AtRest s) (i : Nat) {c : Channel} (rest : c.AtRest) :
    formLevel s i c = c.powered := by
  have still : channelStateOf s c = .held ∨ channelStateOf s c = .off := by
    rw [channelStateOf_atRest unserved rest]
    split
    · exact .inl rfl
    · exact .inr rfl
  rw [formLevel_still s i still, channelStateOf_atRest unserved rest, requestedOf_atRest unserved h i rest]
  unfold Channel.powered
  rw [rest]
  rfl

theorem formLevels_atRest {s : State} (unserved : Unserved s) (h : AtRest s) :
    formLevels s = { s with water := { s.water with channels := s.water.channels.map Channel.powered } } := by
  have same : mapIx (formLevel s) 0 s.water.channels = s.water.channels.map Channel.powered :=
    mapIx_eq_map (g := Channel.powered) (fun i c mem => formLevel_atRest unserved h i (h.channels c mem)) 0
  rw [formLevels, same]

/-- The supply node is not ACTIVE and no overload run is under way: nothing to shed (R145, R146). -/
theorem formShed_unserved {s : State} (unserved : Unserved s) (run : s.power.run = 0) : formShed s = s := by
  have unusable : supplyUsable s = false := activeOf_unserved unserved _ _
  have dropped : dropRun s = s := by
    unfold dropRun
    rw [unusable, if_neg Bool.false_ne_true, ← run]
  have none : foldback s = false := by rw [foldback, liveCode_unserved unserved]; rfl
  rw [formShed, dropped, none, if_neg Bool.false_ne_true]

/-- No load asks for and none is granted anything (R148). -/
def Unasked (s : State) : Prop := ∀ l ∈ s.power.loads, l.request = 0 ∧ l.grant = 0

theorem takeRequests_unasked {s : State} (unserved : Unserved s) (unasked : Unasked s)
    (channels : ∀ i, (channelAt s i).reqDraw = 0) (groups : ∀ i, (groupAt s i).reqDraw = 0) : takeRequests s = s := by
  have docks : ∀ l, dockRequest s l = 0 := fun l => by
    unfold dockRequest
    cases l.node with
    | none => rfl
    | some n => simp only [activeOf_unserved unserved, Bool.false_and, Bool.false_eq_true, if_false]
  have zero : ∀ i l, requestOf s i l = 0 := fun i l => by
    unfold requestOf
    rw [channels, groups, docks, ite_self, ite_self]
  have stays : mapIx (fun i l => { l with request := requestOf s i l }) 0 s.power.loads = s.power.loads :=
    mapIx_eq_self (fun i l mem => by rw [zero, ← (unasked l mem).1]) 0
  rw [takeRequests, stays]

theorem passClass_unasked (shed : Bool) (k budget : Nat) {loads : List Load}
    (unasked : ∀ l ∈ loads, l.request = 0 ∧ l.grant = 0) : passClass shed k (budget, loads) = (budget, loads) := by
  have outside : ∀ l ∈ loads, l.inClass k = false := fun l mem => by
    rw [Load.inClass, Load.eligible, (unasked l mem).1]
    exact Bool.and_false _
  have served : serveClass shed budget k loads = loads := by
    refine map_eq_self fun l mem => ?_
    have grant : classGrant shed loads budget k l = l.grant := by
      simp only [classGrant, outside l mem, (unasked l mem).2, Bool.not_false, if_true, ite_self]
    rw [grant, ite_self]
  have sum : classSum k loads = 0 := by
    refine List.sum_eq_zero fun n mem => ?_
    obtain ⟨l, inside, rfl⟩ := List.mem_map.1 mem
    exact (unasked l (List.mem_of_mem_filter inside)).2
  simp only [passClass, served, sum, Nat.sub_zero]

theorem allocate_unasked {s : State} (unasked : Unasked s) :
    allocate s = { s with power := { s.power with remainder := s.mgmt.site.budget } } := by
  have cleared : s.power.loads.map (fun l => { l with grant := 0 }) = s.power.loads :=
    map_eq_self fun l mem => by rw [← (unasked l mem).2]
  have pass : passLoads s.power.shed s.mgmt.site.budget s.power.loads = (s.mgmt.site.budget, s.power.loads) := by
    simp only [passLoads, cleared, passClass_unasked _ _ _ unasked]
  rw [allocate, pass]

/-- A light group as start-up leaves it before its results are formed, the zone flag handed to an empty record (R136). -/
def LightGroup.provided (flag : Bool) (r : Option LightRec) : LightGroup :=
  { LightGroup.blank with cfg := r, presence := if r.isNone && flag then .active else .inactive }

/-- A light group at the end of start-up: offline at level 0 under the cap of a grant of 0, darkness by the mode, presence by
the zone flag (R126, R128, R130, R133, R136). -/
def LightGroup.powered (flag : Bool) (cap : Nat) (r : Option LightRec) : LightGroup :=
  let lit := r.any (fun x => x.mode != .off)
  let scheduled := (r.map (fun x => if x.mode = .off then 0 else x.onLevel)).getD 0
  let target := if lit && flag then max scheduled ((r.map (fun x => x.presLevel)).getD 0) else scheduled
  { LightGroup.blank with
    cfg := r, dark := lit, presence := if flag then .active else .inactive
    scheduled := scheduled, target := target, aim := min target cap, cap := cap }

theorem handed_blank (flag : Bool) (r : Option LightRec) :
    LightGroup.handed false flag { LightGroup.blank with cfg := r } = LightGroup.provided flag r := by
  cases r <;> cases flag <;> rfl

theorem darkNow_unserved {s : State} (unserved : Unserved s) (off : Bool) : darkNow s off = !off := by
  rw [darkNow, liveCode_unserved unserved, unserved.clock]
  rfl

/-- A light group with its inputs formed, no node being ACTIVE (R124 to R128). -/
def LightGroup.entered (flag : Bool) (r : Option LightRec) : LightGroup :=
  { LightGroup.blank with
    cfg := r, dark := r.any (fun x => x.mode != .off), presence := if flag then .active else .inactive }

theorem formInputs_provided {s : State} (unserved : Unserved s) {i : Nat} {flag : Bool}
    (flagged : s.zone.presence.getD i false = flag) (r : Option LightRec) :
    formInputs s i (LightGroup.provided flag r) = LightGroup.entered flag r := by
  unfold formInputs
  rw [darkNow_unserved unserved]
  cases r with
  | none => cases flag <;> rfl
  | some r =>
    have source : sourceHolds s i r = flag := by
      simp only [sourceHolds, flagged, liveCode_unserved unserved]
      exact (congrArg (flag || ·) (List.any_eq_false.2 fun _ _ => Bool.false_ne_true)).trans (Bool.or_false flag)
    have offline : onlineOf s (LightGroup.provided flag (some r)) = false := activeOf_unserved unserved _ _
    have early : ∀ b : Bool, (if b then .early else (LightGroup.provided flag (some r)).evening) = Evening.early :=
      fun b => ite_self _
    simp only [offline, early]
    show presenceMove (sourceHolds s i r) r.presHold _ = _
    rw [source]
    cases flag <;> rfl

theorem scheduledOf_entered {s : State} (unserved : Unserved s) (flag : Bool) (r : Option LightRec) :
    scheduledOf s (LightGroup.entered flag r) = (r.map (fun x => if x.mode = .off then 0 else x.onLevel)).getD 0 := by
  cases r with
  | none => rfl
  | some r => cases mode : r.mode <;> simp [scheduledOf, LightGroup.entered, LightGroup.blank, mode, unserved.clock]

theorem targetOf_entered (scheduled : Nat) (flag : Bool) (r : Option LightRec) (empty : r = none → scheduled = 0) :
    targetOf scheduled (LightGroup.entered flag r)
      = if r.any (fun x => x.mode != .off) && flag then max scheduled ((r.map (fun x => x.presLevel)).getD 0)
        else scheduled := by
  cases r with
  | none => rfl
  | some r => cases flag <;> rfl

/-- An offline group at level 0 takes its aim and nothing else (R125, R132). -/
theorem reaim_offline (fresh : Bool) (aim : Nat) {g : LightGroup} (offline : g.online = false) (acc : g.acc = 0) :
    g.reaim fresh aim = { g with aim := aim } := by
  have kept : (if senseLost g.aim aim g.current then 0 else g.acc) = g.acc := by rw [acc, ite_self]
  unfold LightGroup.reaim
  rw [kept, offline]
  cases g.cfg <;> rfl

theorem formGroup_provided {s : State} (unserved : Unserved s) {i : Nat} {flag : Bool}
    (flagged : s.zone.presence.getD i false = flag) (r : Option LightRec) :
    formGroup s i (LightGroup.provided flag r) = LightGroup.powered flag 255 r := by
  have target := targetOf_entered ((r.map (fun x => if x.mode = .off then 0 else x.onLevel)).getD 0) flag r
    (fun empty => by rw [empty]; rfl)
  simp only [formGroup, formInputs_provided unserved flagged, scheduledOf_entered unserved, target]
  exact reaim_offline _ _ rfl rfl

/-- A grant of 0 leaves a cap of 0 where the group draws at all (R133, R138). -/
theorem deliverGroup_powered {s : State} {i : Nat} (grant : (loadAt s (8 + i)).grant = 0) (flag : Bool) (old : Nat)
    (r : Option LightRec) :
    deliverGroup s i (LightGroup.powered flag old r)
      = LightGroup.powered flag (if (loadAt s (8 + i)).fullDraw = 0 then 255 else 0) r := by
  have cap : capLevel (loadAt s (8 + i)).fullDraw (loadAt s (8 + i)).grant
      = if (loadAt s (8 + i)).fullDraw = 0 then 255 else 0 := by
    rw [grant, capLevel, Nat.zero_mul, Nat.zero_div, Nat.zero_min]
  unfold deliverGroup
  rw [cap]
  exact reaim_offline _ _ rfl rfl

/-- A part whose tables start-up has filled, before its results are formed (R173, steps 2 and 3). -/
structure Filled (lights : List (Option LightRec)) (s : State) : Prop where
  unserved : Unserved s
  unknown : s.water = { s.water with pond := none, rain := false, dry := false }
  rest : AtRest s
  unplaced : ∀ i, (mowerAt s i).positionValid = false
  unflagged : ∀ i, s.zone.presence.getD i false = false
  lights : s.light = lights.map (fun r => { LightGroup.blank with cfg := r })
  unasked : Unasked s
  run : s.power.run = 0

theorem mapIx_mapIx {α β γ : Type} (f : Nat → α → β) (g : Nat → β → γ) (l : List α) (k : Nat) :
    mapIx g k (mapIx f k l) = mapIx (fun i a => g i (f i a)) k l := by
  refine List.ext_getElem? fun i => ?_
  simp only [mapIx_getElem?, Option.map_map]
  rfl

theorem mapIx_of_map {α β γ : Type} (f : α → β) (g : Nat → β → γ) (l : List α) (k : Nat) :
    mapIx g k (l.map f) = mapIx (fun i a => g i (f a)) k l := by
  refine List.ext_getElem? fun i => ?_
  simp only [mapIx_getElem?, List.getElem?_map, Option.map_map]
  rfl

/-- The light groups at the end of start-up under the zone flags and the caps given. -/
def poweredLights (flags : List Bool) (cap : Nat → Nat) (lights : List (Option LightRec)) : List LightGroup :=
  mapIx (fun i r => LightGroup.powered (flags.getD i false) (cap i) r) 0 lights

theorem poweredLights_reqDraw {flags : List Bool} {cap : Nat → Nat} {lights : List (Option LightRec)} {s : State}
    (shown : s.light = poweredLights flags cap lights) (i : Nat) : (groupAt s i).reqDraw = 0 := by
  unfold groupAt
  rw [shown, poweredLights, List.getD_eq_getElem?_getD, mapIx_getElem?]
  cases lights[i]? <;> rfl

theorem formOccupancy_filled {lights : List (Option LightRec)} {s : State} (h : Filled lights s) :
    (formOccupancy s).light
      = mapIx (fun i r => LightGroup.provided ((formOccupancy s).zone.presence.getD i false) r) 0 lights := by
  have given : (formOccupancy s).light
      = mapIx (fun i g => g.handed (s.zone.presence.getD i false) ((formOccupancy s).zone.presence.getD i false)) 0
          s.light := rfl
  simp only [given, h.lights, mapIx_of_map, h.unflagged, handed_blank]

theorem formGroups_provided {lights : List (Option LightRec)} {s : State} (unserved : Unserved s)
    (given : s.light = mapIx (fun i r => LightGroup.provided (s.zone.presence.getD i false) r) 0 lights) :
    formGroups s = { s with light := poweredLights s.zone.presence (fun _ => 255) lights } := by
  have formed : ∀ i r,
      formGroup s i (LightGroup.provided (s.zone.presence.getD i false) r)
        = LightGroup.powered (s.zone.presence.getD i false) 255 r := fun i r => formGroup_provided unserved rfl r
  simp only [formGroups, given, mapIx_mapIx, formed, poweredLights]

/-- The cap that a grant of 0 gives group `i` (R138). -/
def capUngranted (s : State) (i : Nat) : Nat := if (loadAt s (8 + i)).fullDraw = 0 then 255 else 0

theorem deliverGroups_powered {lights : List (Option LightRec)} {s : State} (unasked : Unasked s)
    (given : s.light = poweredLights s.zone.presence (fun _ => 255) lights) :
    deliverGroups s = { s with light := poweredLights s.zone.presence (capUngranted s) lights } := by
  have grant : ∀ i, (loadAt s i).grant = 0 := fun i => by
    unfold loadAt
    rw [List.getD_eq_getElem?_getD]
    cases at_ : s.power.loads[i]? with
    | none => rfl
    | some l => exact (unasked l (List.mem_of_getElem? at_)).2
  have delivered : ∀ i r,
      deliverGroup s i (LightGroup.powered (s.zone.presence.getD i false) 255 r)
        = LightGroup.powered (s.zone.presence.getD i false) (capUngranted s i) r := fun i r =>
    deliverGroup_powered (grant _) _ _ r
  simp only [deliverGroups, given, poweredLights, mapIx_mapIx, delivered]

theorem formGrants_powered {lights : List (Option LightRec)} {s : State} (unserved : Unserved s) (rest : AtRest s)
    (unasked : Unasked s) (formed : s.water.channels.map Channel.powered = s.water.channels)
    (given : s.light = poweredLights s.zone.presence (fun _ => 255) lights) :
    formGrants s
      = { s with
          light := poweredLights s.zone.presence (capUngranted s) lights
          power := { s.power with remainder := s.mgmt.site.budget } } := by
  have taken : takeRequests s = s :=
    takeRequests_unasked unserved unasked (fun i => (rest.channelAt i).reqDraw) (poweredLights_reqDraw given)
  have delivered := deliverGroups_powered (s := { s with power := { s.power with remainder := s.mgmt.site.budget } })
    unasked given
  rw [formGrants, taken, allocate_unasked unasked, delivered]
  refine Eq.trans (formLevels_atRest (unserved.of rfl rfl) (rest.of rfl)) ?_
  rw [formed]
  rfl

/-- The zone results of the first round: every keepout set empty (R173). -/
def zoneAtStart (s : State) : ZoneMon :=
  { (formOccupancy s).zone with
    keep := [[], [], [], []], permits := permitsOf (formOccupancy s) [[], [], [], []] }

/-- The first round forms the results that need no node, and moves no stage and no grant. -/
theorem round_filled {lights : List (Option LightRec)} {s : State} (h : Filled lights s) :
    round false s
      = { s with
          zone := zoneAtStart s
          water := { s.water with channels := s.water.channels.map Channel.powered }
          light := poweredLights (zoneAtStart s).presence (capUngranted s) lights
          power := { s.power with remainder := s.mgmt.site.budget } } := by
  have lights := formOccupancy_filled h
  have zone : { formOccupancy s with zone := zoneAtStart s }
      = { s with zone := zoneAtStart s, light := (formOccupancy s).light } := rfl
  have monitors : formMonitors false (formOccupancy s) = formOccupancy s := formMonitors_atRest (h.rest.of rfl)
  have cycles : formCycles (formOccupancy s) = formOccupancy s := formCycles_atRest (h.rest.of rfl)
  have keepouts : formKeepouts (formOccupancy s) = { formOccupancy s with zone := zoneAtStart s } :=
    formKeepouts_unplaced h.unplaced
  have presence : (zoneAtStart s).presence = (formOccupancy s).zone.presence := rfl
  rw [← presence] at lights
  have again : (s.water.channels.map Channel.powered).map Channel.powered = s.water.channels.map Channel.powered :=
    List.map_map.trans (List.map_congr_left fun _ _ => rfl)
  generalize zoneAtStart s = z at *
  show formGrants (formResults false s) = _
  rw [formResults, formConditions_unserved h.unserved h.unknown, monitors, cycles, keepouts, zone]
  generalize (formOccupancy s).light = l at lights
  have levels : formLevels { s with zone := z, light := l }
      = { s with
          zone := z, light := l
          water := { s.water with channels := s.water.channels.map Channel.powered } } :=
    formLevels_atRest (h.unserved.of rfl rfl) (h.rest.of rfl)
  rw [levels]
  refine Eq.trans (congrArg formGrants (congrArg formShed (formGroups_provided (h.unserved.of rfl rfl) lights))) ?_
  refine Eq.trans (congrArg formGrants (formShed_unserved (h.unserved.of rfl rfl) h.run)) ?_
  exact formGrants_powered (h.unserved.of rfl rfl) (h.rest.powered.of rfl) h.unasked again rfl

theorem poweredLights_cfg (flags : List Bool) (cap : Nat → Nat) (lights : List (Option LightRec)) :
    (poweredLights flags cap lights).map LightGroup.cfg = lights :=
  (mapIx_map _ LightGroup.cfg id (fun _ _ => rfl) 0 lights).trans (List.map_id lights)

/-- The first round is quiet, and the handling ends with it (R112, R142). -/
theorem settle_filled {lights : List (Option LightRec)} {s : State} (h : Filled lights s) : settle s = round false s := by
  classical
  have formed := round_filled h
  have rest : AtRest (round false s) := by
    rw [formed]
    exact h.rest.powered.of rfl
  have starts : nextRound s = round false s := formStarts_atRest rest
  have quiet : Quiet s := by
    unfold Quiet
    rw [starts, formed]
    exact ⟨List.map_map.trans (List.map_congr_left fun _ _ => rfl), rfl⟩
  rw [settle_eq, rounds_succ, if_pos quiet]

/-! ### The tables filled -/

theorem startState_positionValid (node : Option Nat) (valid : Bool) :
    (startState node valid == .tracked || startState node valid == .slipping) = false := by
  cases node <;> cases valid <;> rfl

theorem startState_eq (node : Option Nat) (valid : Bool) :
    startState node valid = if node.isNone then .unused else if valid then .acquiring else .unreferenced := by
  cases node <;> rfl

theorem fillTables_filled (t : Tables) (s : State) : Filled t.lights (fillTables t s) where
  unserved :=
    { nodes := fun n => by
        show ((t.nodes.map Node.provision).getD n Node.blank).state ≠ .active
        rw [List.getD_eq_getElem?_getD, List.getElem?_map]
        cases t.nodes[n]? with
        | none => decide
        | some x => cases x <;> simp [Node.provision]
      clock := rfl }
  unknown := rfl
  rest :=
    { channels := fun c mem => by
        obtain ⟨r, -, rfl⟩ := List.mem_map.1 mem
        rfl
      shows := fun p mem => by
        obtain ⟨r, -, rfl⟩ := List.mem_map.1 mem
        rfl }
  unplaced := fun i => by
    simp only [mowerAt, fillTables, List.getD_eq_getElem?_getD, List.getElem?_map]
    cases t.mowers[i]? with
    | none => rfl
    | some m => exact startState_positionValid m.node m.offsetValid
  unflagged := fun i => by
    show (List.replicate 16 false).getD i false = false
    rw [List.getD_eq_getElem?_getD, List.getElem?_replicate]
    split <;> rfl
  lights := rfl
  unasked := fun l mem => by
    obtain ⟨r, -, rfl⟩ := List.mem_map.1 mem
    exact ⟨rfl, rfl⟩
  run := rfl

theorem Filled.noticed {lights : List (Option LightRec)} {s : State} (h : Filled lights s) (l : Notices) :
    Filled lights { s with notices := l } where
  unserved := h.unserved.of rfl rfl
  unknown := h.unknown
  rest := h.rest.of rfl
  unplaced := h.unplaced
  unflagged := h.unflagged
  lights := h.lights
  unasked := h.unasked
  run := h.run

/-- The one notice of start-up (R173, step 2). -/
def startNotices (image : Image) : Notices :=
  { list :=
      if image.valid then []
      else
        [{ kind := .storeInvalid, subject := none, minute := none, frame := 0
           detail := if image.identity = Config.imageIdentity then 2 else 1 }]
    overflow := 0 }

theorem postInvalid_fillTables (t : Tables) (s : State) :
    postInvalid (fillTables t s) = { fillTables t s with notices := startNotices s.store.image } := by
  unfold startNotices
  by_cases valid : s.store.image.valid = true
  · rw [if_pos valid]
    exact if_pos valid
  · rw [if_neg valid]
    exact if_neg valid

/-- Settles O4: the first round after the tables are filled is the whole handling, and every result of it is explicit. -/
theorem startUpFillsTheTables : Obligations.StartUpFillsTheTables := by
  refine ⟨congrArg Host.Outcome.next startUp_reset, fun s => ?_⟩
  obtain ⟨frame, uncut⟩ := cutOff_frame s
  have image : (cutOff s).store.image = { s.store.image with saveCount := (cutOff s).store.image.saveCount } :=
    congrArg (fun u : State => u.store.image) frame
  refine ⟨startUp (cutOff s), (cutOff s).store.image, rfl, image, fun unwritten => (uncut unwritten).1, ?_⟩
  intro good tables
  let x : State := { fillTables tables (cutOff s) with notices := startNotices (cutOff s).store.image }
  have filled : Filled tables.lights x := (fillTables_filled tables (cutOff s)).noticed _
  have started : startUp (cutOff s) = settle x := congrArg settle (postInvalid_fillTables tables (cutOff s))
  have laws : SettledLaws (settle x) := rounds_laws 40 x
  have results : ResultLaws (settle x) := rounds_results 40 x
  have ended := (settle_filled filled).trans (round_filled filled)
  rw [started]
  refine ⟨congrArg State.mode ended, congrArg State.line ended, congrArg State.nodes ended, ?_,
    congrArg (fun u : State => u.zone.zones) ended, congrArg (fun u : State => u.zone.dockAll) ended,
    congrArg (fun u : State => u.zone.keep) ended, laws.occupancy, laws.permit, results.zones, ?_, ?_, ?_,
    congrArg State.power ended, congrArg State.mgmt ended, congrArg State.notices ended, ?_, ?_⟩
  · refine (congrArg State.pos ended).trans (congrArg (fun l => ({ loops := tables.loops, mowers := l } : Position)) ?_)
    exact List.map_congr_left fun m _ => by rw [startState_eq]
  · refine (congrArg State.water ended).trans (congrArg (fun l => { x.water with channels := l }) ?_)
    exact List.map_map
  · exact (congrArg (fun u : State => u.light.map LightGroup.cfg) ended).trans (poweredLights_cfg _ _ _)
  · intro i r at_ lit flag scheduled target cap
    have flags : (zoneAtStart x).presence = (settle x).zone.presence :=
      (congrArg (fun u : State => u.zone.presence) ended).symm
    have loads : loadAt x = loadAt (settle x) := funext fun k => (congrArg (fun u : State => loadAt u k) ended).symm
    have lights := congrArg State.light ended
    rw [flags] at lights
    unfold groupAt
    rw [lights, List.getD_eq_getElem?_getD, poweredLights, mapIx_getElem?, at_, Nat.zero_add, capUngranted, loads]
    rfl
  · refine (congrArg State.store ended).trans ?_
    show { (cutOff s).store with imageValid := good, writing := none, busyCount := 0 } = _
    rw [frame]
  · have waiting : (cutOff s).pending = s.pending := by rw [frame]
    exact (congrArg State.pending ended).trans waiting

end Sys2Proof.Machine

namespace Sys2Proof.Machine

/-! ### The slot map of a load -/

/-- The first `n` entries of an image's map have been taken into the next map: each entry is the image's or free, those left
free are counted, and an overlap-free image leaves none (R9). -/
structure SlotsTaken (image : List (Option Placement)) (n : Nat) (x : List (Option Placement) × Nat) : Prop where
  size : x.1.length = 64
  entry : ∀ i, x.1.getD i none = image.getD i none ∨ x.1.getD i none = none
  left : x.2 = ((List.range n).filter (fun i => decide (x.1.getD i none ≠ image.getD i none))).length
  all : OverlapFree image → ∀ i, i < n → x.1.getD i none = image.getD i none

theorem getD_set_none (l : List (Option Placement)) (n i : Nat) (p : Placement) (inside : n < l.length) :
    (l.set n (some p)).getD i none = if i = n then some p else l.getD i none := by
  simp only [List.getD_eq_getElem?_getD, List.getElem?_set]
  by_cases same : i = n
  · rw [if_pos same.symm, if_pos same, if_pos inside]
    rfl
  · rw [if_neg (Ne.symm same), if_neg same]

/-- Entry `n` of the image's map, taken, leaves the other entries as they are, and counts where it is left free. -/
theorem loadSlot_at {image : List (Option Placement)} {n : Nat} {x : List (Option Placement) × Nat} (inside : n < x.1.length)
    (entry : ∀ i, x.1.getD i none = image.getD i none ∨ x.1.getD i none = none) :
    let y := loadSlot image x n
    y.1.length = x.1.length ∧ (∀ i, i ≠ n → y.1.getD i none = x.1.getD i none)
      ∧ (y.1.getD n none = image.getD n none ∧ y.2 = x.2
        ∨ y.1.getD n none = none ∧ y.1.getD n none ≠ image.getD n none ∧ y.2 = x.2 + 1 ∧ ¬ OverlapFree image) := by
  intro y
  have shown : y = loadSlot image x n := rfl
  unfold loadSlot at shown
  cases own : image.getD n none with
  | none =>
    rw [own] at shown
    have same : x.1.getD n none = none := (entry n).elim (fun h => h.trans own) id
    exact ⟨by rw [shown], fun i _ => by rw [shown], .inl ⟨by rw [shown]; exact same, by rw [shown]⟩⟩
  | some p =>
    rw [own] at shown
    dsimp only at shown
    by_cases kept : x.1.getD n none = some p
    · rw [if_pos kept] at shown
      exact ⟨by rw [shown], fun i _ => by rw [shown], .inl ⟨by rw [shown]; exact kept, by rw [shown]⟩⟩
    · rw [if_neg kept] at shown
      by_cases meets : overlapsOther n p x.1 = true
      · rw [if_pos meets] at shown
        have free : x.1.getD n none = none := (entry n).resolve_left fun h => kept (h.trans own)
        refine ⟨by rw [shown], fun i _ => by rw [shown], .inr ⟨by rw [shown]; exact free, ?_, by rw [shown], ?_⟩⟩
        · rw [shown, free]
          exact nofun
        · obtain ⟨j, q, other, at_, overlaps⟩ := (overlapsOther_iff n p x.1).1 meets
          have found : x.1.getD j none = some q := by rw [List.getD_eq_getElem?_getD, at_]; rfl
          have imaged : image.getD j none = some q :=
            ((entry j).resolve_right fun h => nomatch found.symm.trans h).symm.trans found
          have entries : ∀ {k : Nat} {r : Placement}, image.getD k none = some r → image[k]? = some (some r) :=
            fun {k r} h => by
              rw [List.getD_eq_getElem?_getD] at h
              cases at_ : image[k]? with
              | none => rw [at_] at h; cases h
              | some o => rw [at_] at h; exact congrArg some h
          intro free
          have apart := free n j p q (Ne.symm other) (entries own) (entries imaged)
          rw [overlaps] at apart
          cases apart
      · rw [if_neg meets] at shown
        refine ⟨by rw [shown, List.length_set], fun i other => ?_, .inl ⟨?_, by rw [shown]⟩⟩
        · rw [shown, getD_set_none _ _ _ _ inside, if_neg other]
        · rw [shown, getD_set_none _ _ _ _ inside, if_pos rfl]

theorem filter_range_succ (p : Nat → Bool) (n : Nat) :
    ((List.range (n + 1)).filter p).length = ((List.range n).filter p).length + if p n then 1 else 0 := by
  rw [List.range_succ, List.filter_append, List.length_append]
  cases at_ : p n <;> simp [at_]

theorem SlotsTaken.succ {image : List (Option Placement)} {n : Nat} {x : List (Option Placement) × Nat}
    (h : SlotsTaken image n x) (inside : n < 64) : SlotsTaken image (n + 1) (loadSlot image x n) := by
  obtain ⟨size, others, own⟩ := loadSlot_at (n := n) (x := x) (h.size ▸ inside) h.entry
  generalize loadSlot image x n = y at size others own
  have before : (List.range n).filter (fun i => decide (y.1.getD i none ≠ image.getD i none))
      = (List.range n).filter (fun i => decide (x.1.getD i none ≠ image.getD i none)) :=
    List.filter_congr fun i mem => by rw [others i (List.mem_range.1 mem).ne]
  refine ⟨size.trans h.size, fun i => ?_, ?_, fun free i below => ?_⟩
  · by_cases same : i = n
    · subst same
      exact own.imp (·.1) (·.1)
    · rw [others i same]
      exact h.entry i
  · rw [filter_range_succ, before, ← h.left]
    rcases own with ⟨taken, count⟩ | ⟨-, differs, count, -⟩
    · rw [count, if_neg (by rw [taken]; simp)]
      rfl
    · rw [count, if_pos (by simpa using differs)]
  · rcases Nat.lt_succ_iff_lt_or_eq.1 below with earlier | rfl
    · rw [others i earlier.ne]
      exact h.all free i earlier
    · rcases own with ⟨taken, -⟩ | ⟨-, -, -, overlaps⟩
      · exact taken
      · exact absurd free overlaps

theorem loadSlots_taken (image : List (Option Placement)) {next : List (Option Placement)} (size : next.length = 64) :
    SlotsTaken image 64 (loadSlots image next) := by
  have start : SlotsTaken image 0 (mapIx (fun i p => if p = image.getD i none then p else none) 0 next, 0) := by
    refine ⟨(mapIx_length ..).trans size, fun i => ?_, rfl, fun _ i none => absurd none (Nat.not_lt_zero i)⟩
    simp only [List.getD_eq_getElem?_getD, mapIx_getElem?, Nat.zero_add]
    cases next[i]? with
    | none => exact .inr rfl
    | some p =>
      by_cases same : p = image[i]?.getD none
      · exact .inl ((if_pos same).trans same)
      · exact .inr (if_neg same)
  have steps : ∀ n, n ≤ 64 →
      SlotsTaken image n
        ((List.range n).foldl (loadSlot image)
          (mapIx (fun i p => if p = image.getD i none then p else none) 0 next, 0)) := by
    intro n
    induction n with
    | zero => exact fun _ => start
    | succ n ih =>
      intro bound
      rw [List.range_succ, List.foldl_append]
      exact (ih (Nat.le_of_succ_le bound)).succ bound
  rw [loadSlots_eq]
  exact steps 64 (le_refl 64)

/-- The next map after a load and the entries left free, for an image of the table's size (R9). -/
theorem loadSlots_spec {image next : List (Option Placement)} (sized : image.length = 64) (size : next.length = 64)
    (free : OverlapFree next) :
    let map := (loadSlots image next).1
    let left := (loadSlots image next).2
    OverlapFree map ∧ (∀ i, i < 64 → map.getD i none = image.getD i none ∨ map.getD i none = none)
      ∧ left = ((List.range 64).filter (fun i => decide (map.getD i none ≠ image.getD i none))).length
      ∧ (OverlapFree image → map = image ∧ left = 0) := by
  intro map left
  have taken : SlotsTaken image 64 (map, left) := loadSlots_taken image size
  refine ⟨(loadSlots_keeps image free size).1, fun i _ => taken.entry i, taken.left, fun apart => ⟨?_, ?_⟩⟩
  · refine List.ext_getElem (taken.size.trans sized.symm) fun i inside inside' => ?_
    have same := taken.all apart i (taken.size ▸ inside)
    rwa [List.getD_eq_getElem _ _ inside, List.getD_eq_getElem _ _ inside'] at same
  · refine taken.left.trans (List.length_eq_zero_iff.2 (List.filter_eq_nil_iff.2 fun i mem => ?_))
    rw [taken.all apart i (List.mem_range.1 mem)]
    simp

end Sys2Proof.Machine

namespace Sys2Proof.Machine

/-! ### What the steps of a load leave alone -/

/-- What no step of a load moves but the one it is for: the line, the nodes, the mowers, the zone records, the management
state, the store (R172). -/
structure Outer (s t : State) : Prop where
  line : t.line = s.line
  nodes : t.nodes = s.nodes
  pos : t.pos = s.pos
  zones : t.zone.zones = s.zone.zones
  dockAll : t.zone.dockAll = s.zone.dockAll
  mgmt : t.mgmt = s.mgmt
  store : t.store = s.store

theorem Outer.refl (s : State) : Outer s s := by constructor <;> rfl

theorem Outer.trans {s t u : State} (a : Outer s t) (b : Outer t u) : Outer s u :=
  ⟨b.line.trans a.line, b.nodes.trans a.nodes, b.pos.trans a.pos, b.zones.trans a.zones, b.dockAll.trans a.dockAll,
    b.mgmt.trans a.mgmt, b.store.trans a.store⟩

theorem SettledFrom.outer {s t : State} (h : SettledFrom s t) : Outer s t :=
  ⟨h.line, h.nodes, h.pos, h.zones, h.dockAll, h.mgmt, h.store⟩

theorem settleDeferred_settled (s : State) : SettledFrom s (settleDeferred s) := rounds_settled true 40 s

/-- The written fields of the loads apart, a load of the tables forms results only in its step 9. -/
theorem loadPass_outer (x : Tables) (s : State) : Outer s (loadPass x s) :=
  ((((formMonitors_later false s).trans (formLevels_last _).later).base.outer).trans (by constructor <;> rfl)).trans
    (loadPass_later x s).base.outer

theorem formClogged_later (i : Nat) (s : State) : LaterFrom s (formClogged i s) := by
  unfold formClogged
  dsimp only
  split
  · exact setChannel_later i (fun c => { c with filt := none, clogged := false }) (fun _ => ⟨rfl, rfl⟩) s
  · next r _ =>
    have flagged := setChannel_later i (fun c => { c with clogged := cloggedOf r (channelAt s i) }) (fun _ => ⟨rfl, rfl⟩) s
    split
    · exact flagged.trans (post_last ..).later
    · exact flagged

theorem dropCycle_later (i : Nat) (s : State) : LaterFrom s (dropCycle i s) := by
  unfold dropCycle
  split
  · exact (setChannel_later i Channel.idle (fun _ => ⟨rfl, rfl⟩) s).trans (post_last ..).later
  · exact .refl s

/-- The records of step 7 in their places, before the flags and the cycles follow. -/
def putWater (t : Tables) (s : State) : State :=
  { s with
    water :=
      { s.water with
        channels := mapIx (fun i c => c.rewrite (t.channels.getD i none)) 0 s.water.channels
        shows := mapIx (fun i (p : Player) => { p with cfg := t.shows.getD i none }) 0 s.water.shows
        steps := t.steps } }

theorem loadWater_eq (t : Tables) (s : State) :
    loadWater t s = eachIx dropCycle 8 (eachIx formClogged 8 (putWater t s)) := rfl

theorem loadWater_later (t : Tables) (s : State) : LaterFrom (putWater t s) (loadWater t s) := by
  rw [loadWater_eq]
  exact (LaterFrom.eachIx formClogged_later 8 _).trans (.eachIx dropCycle_later 8 _)

theorem loadWater_outer (t : Tables) (s : State) : Outer s (loadWater t s) :=
  (show Outer s (putWater t s) by constructor <;> rfl).trans (loadWater_later t s).base.outer

/-! ### The records after their steps -/

/-- Step 4 up to record `n` (R35). -/
def nodesLoaded (t : Tables) (n : Nat) (s : State) : State :=
  eachIx
    (fun i u =>
      let new := (nodeAt u i).loadIdent (t.nodes.getD i none)
      reportToMowers i (nodeAt u i) new (setNode i (fun _ => new) u))
    n s

theorem nodesLoaded_succ (t : Tables) (n : Nat) (s : State) :
    nodesLoaded t (n + 1) s
      = let u := nodesLoaded t n s
        let new := (nodeAt u n).loadIdent (t.nodes.getD n none)
        reportToMowers n (nodeAt u n) new (setNode n (fun _ => new) u) := eachIx_succ _ n s

/-- The counters of a mower that a load keeps (R172, step 5). -/
def Mower.counters (m : Mower) : Nat × Nat × Nat := (m.slips, m.missedMarkers, m.mismatches)

theorem nodeLost_counters (m : Mower) : m.nodeLost.counters = m.counters := by
  unfold Mower.nodeLost
  split <;> rfl

theorem nodeFound_counters (m : Mower) : m.nodeFound.counters = m.counters := by
  unfold Mower.nodeFound
  split <;> rfl

theorem reportToMowers_counters (n : Nat) (before after : Node) (s : State) :
    (reportToMowers n before after s).pos.mowers.map Mower.counters = s.pos.mowers.map Mower.counters := by
  show (s.pos.mowers.map _).map Mower.counters = _
  rw [List.map_map]
  refine List.map_congr_left fun m _ => ?_
  show Mower.counters (if m.node = some n then _ else m) = m.counters
  split
  · split
    · exact nodeLost_counters m
    · split
      · exact nodeFound_counters m
      · rfl
  · rfl

theorem nodesLoaded_spec (t : Tables) (n : Nat) (s : State) :
    let u := nodesLoaded t n s
    u = { s with nodes := { s.nodes with recs := u.nodes.recs }, pos := { s.pos with mowers := u.pos.mowers } }
      ∧ u.nodes.recs.length = s.nodes.recs.length
      ∧ u.pos.mowers.map Mower.counters = s.pos.mowers.map Mower.counters
      ∧ ∀ i,
        nodeAt u i
          = if i < n ∧ i < s.nodes.recs.length then (nodeAt s i).loadIdent (t.nodes.getD i none) else nodeAt s i := by
  induction n with
  | zero => exact ⟨rfl, rfl, rfl, fun i => (if_neg fun h => Nat.not_lt_zero i h.1).symm⟩
  | succ n ih =>
    obtain ⟨frame, size, counters, records⟩ := ih
    rw [nodesLoaded_succ]
    generalize nodesLoaded t n s = u at frame size counters records
    refine ⟨?_, (List.length_modify ..).trans size, (reportToMowers_counters ..).trans counters, fun i => ?_⟩
    · dsimp only
      rw [frame]
      rfl
    · have same : nodeAt u n = nodeAt s n := (records n).trans (if_neg fun h => Nat.lt_irrefl n h.1)
      show nodeAt (setNode n (fun _ => (nodeAt u n).loadIdent (t.nodes.getD n none)) u) i = _
      rw [nodeAt_setNode, size]
      by_cases own : n = i
      · subst own
        rw [same]
        exact if_congr (and_congr_left fun _ => iff_of_true rfl (Nat.lt_succ_self n)) rfl rfl
      · rw [if_neg fun h => own h.1, records]
        exact if_congr (and_congr_left fun _ => by omega) rfl rfl

/-- Step 4: the records take the image's identities, and what else it moves is the joiners and the mowers (R35). -/
theorem loadNodes_spec (t : Tables) (s : State) :
    let u := loadNodes t s
    u = { s with
          nodes := { s.nodes with recs := u.nodes.recs, joiners := u.nodes.joiners }
          pos := { s.pos with mowers := u.pos.mowers } }
      ∧ u.pos.mowers.map Mower.counters = s.pos.mowers.map Mower.counters
      ∧ ∀ i,
        nodeAt u i
          = if i < 48 ∧ i < s.nodes.recs.length then (nodeAt s i).loadIdent (t.nodes.getD i none) else nodeAt s i := by
  obtain ⟨frame, -, counters, records⟩ := nodesLoaded_spec t 48 s
  have shown : loadNodes t s
      = { nodesLoaded t 48 s with
          nodes :=
            { (nodesLoaded t 48 s).nodes with
              joiners :=
                (nodesLoaded t 48 s).nodes.joiners.filter
                  (fun j =>
                    !((nodesLoaded t 48 s).nodes.recs.any (fun n => n.ident.any (fun x => x.serial == j.serial)))) } } :=
    rfl
  rw [shown]
  generalize nodesLoaded t 48 s = u at frame counters records
  refine ⟨?_, counters, records⟩
  dsimp only
  rw [frame]

theorem loadNodes_water (t : Tables) (s : State) : (loadNodes t s).water = s.water := by
  obtain ⟨frame, -⟩ := loadNodes_spec t s
  rw [frame]

theorem loadIdent_eq (x : Option NodeIdent) (n : Node) :
    n.loadIdent x
      = if n.ident = x then n
        else { Node.blank with ident := x, state := if x.isSome then .provisioned else .empty } := rfl

end Sys2Proof.Machine

namespace Sys2Proof.Machine

/-! ### Cycles while a load defers its requests -/

/-- The channel is FILTER with an ACTIVE pump node: its monitor keeps F (R108). -/
def monitorLive (s : State) (c : Channel) : Bool := c.kindIs .filter && channelNodeActive s c

/-- The valve node of the channel's cycle holds NORMAL_POS (R115, R117). -/
def cycleHome (s : State) (c : Channel) : Bool := c.cfg.any (fun r => valveCode s r == some 0)

theorem cycleHome_iff (s : State) (c : Channel) : cycleHome s c = true ↔ ∃ r, c.cfg = some r ∧ ValveHolds s r 0 := by
  unfold cycleHome
  rw [Option.any_eq_true]
  exact exists_congr fun r => and_congr_right fun _ => valveCode_iff s r 0

/-- A cycle in IDLE or ABORTING after rounds without requests: an ABORTING one ends where its valve is home, and F is unset
while the monitor is not live (R108, R117). -/
def Cycle.halted (live home : Bool) (c : Cycle) : Cycle :=
  let m := if live then c else { c with filt := none, clogged := false }
  if c.stage == .aborting && home then { m with stage := .idle, timer := 0 } else m

theorem halted_halted (l l' h h' : Bool) (c : Cycle) :
    (c.halted l h).halted l' h' = c.halted (l && l') (h || h') := by
  obtain ⟨stage, timer, cause, count, filt, clogged⟩ := c
  unfold Cycle.halted
  cases aborts : stage == .aborting <;> cases l <;> cases l' <;> cases h <;> cases h' <;> simp [aborts]

theorem halted_rest (l h : Bool) (c : Cycle) : (c.halted l h).cause = c.cause ∧ (c.halted l h).count = c.count := by
  unfold Cycle.halted
  cases l <;> cases c.stage == .aborting && h <;> exact ⟨rfl, rfl⟩

theorem halted_filt (l h : Bool) (c : Cycle) : (c.halted l h).filt = if l then c.filt else none := by
  unfold Cycle.halted
  cases l <;> cases c.stage == .aborting && h <;> rfl

theorem halted_stage (l h : Bool) {c : Cycle} (broken : c.stage = .idle ∨ c.stage = .aborting) :
    (c.halted l h).stage = if h then .idle else c.stage := by
  unfold Cycle.halted
  rcases broken with stage | stage <;> rw [stage] <;> cases l <;> cases h <;> simp [stage]

theorem halted_timer (l : Bool) (c : Cycle) : (c.halted l false).timer = c.timer := by
  unfold Cycle.halted
  rw [Bool.and_false]
  cases l <;> rfl

/-- The nodes, and the records of the channels, stand as they stood. -/
structure Feeds (s t : State) : Prop where
  nodes : ∀ n, nodeAt t n = nodeAt s n
  cfgs : ∀ j, (channelAt t j).cfg = (channelAt s j).cfg

theorem Feeds.trans {s t u : State} (a : Feeds s t) (b : Feeds t u) : Feeds s u :=
  ⟨fun n => (b.nodes n).trans (a.nodes n), fun j => (b.cfgs j).trans (a.cfgs j)⟩

theorem Feeds.of {s t : State} (nodes : t.nodes.recs = s.nodes.recs) (channels : t.water.channels = s.water.channels) :
    Feeds s t :=
  ⟨fun n => by rw [nodeAt, nodes]; rfl, fun j => by rw [channelAt, channels]; rfl⟩

theorem SettledFrom.feeds {s t : State} (h : SettledFrom s t) : Feeds s t :=
  ⟨nodeAt_congr h.nodes, fun j => (SettledFrom.valve h j).1⟩

theorem settleDeferred_feeds {s t : State} (h : Feeds s t) : Feeds s (settleDeferred t) :=
  h.trans (settleDeferred_settled t).feeds

/-- Every node stands as it stood, or holds no code and is not ACTIVE. -/
def NodesShrink (s t : State) : Prop :=
  ∀ n, nodeAt t n = nodeAt s n ∨ ((nodeAt t n).code = none ∧ (nodeAt t n).state ≠ .active)

theorem monitorLive_shrinks {s t : State} (h : NodesShrink s t) (c : Channel) (live : monitorLive t c = true) :
    monitorLive s c = true := by
  unfold monitorLive channelNodeActive at live ⊢
  rw [Bool.and_eq_true] at live ⊢
  refine ⟨live.1, ?_⟩
  cases cfg : c.cfg with
  | none => rw [cfg] at live; exact live.2
  | some r =>
    rw [cfg] at live
    have active := live.2
    dsimp only at active ⊢
    unfold activeOf at active ⊢
    cases node : r.node with
    | none => rw [node] at active; cases active
    | some n =>
      rw [node] at active
      dsimp only at active ⊢
      rcases h n with same | ⟨-, down⟩
      · rwa [same] at active
      · rw [Bool.and_eq_true, beq_iff_eq] at active
        exact absurd active.2 down

theorem cycleHome_shrinks {s t : State} (h : NodesShrink s t) (cfgs : ∀ j, (channelAt t j).cfg = (channelAt s j).cfg)
    (c : Channel) (home : cycleHome t c = true) : cycleHome s c = true := by
  obtain ⟨r, cfg, n, ⟨v, y, valve, kind, node, ident, valveKind⟩, code⟩ := (cycleHome_iff t c).1 home
  have same : nodeAt t n = nodeAt s n := (h n).resolve_right fun down => nomatch down.1.symm.trans code
  rw [same] at ident code
  rw [cfgs] at valve
  exact (cycleHome_iff s c).2 ⟨r, cfg, n, ⟨v, y, valve, kind, node, ident, valveKind⟩, code⟩

theorem Feeds.inputs {s t : State} (h : Feeds s t) (c : Channel) :
    monitorLive t c = monitorLive s c ∧ cycleHome t c = cycleHome s c := by
  have back : ∀ n, nodeAt s n = nodeAt t n := fun n => (h.nodes n).symm
  constructor <;> rw [Bool.eq_iff_iff]
  · exact ⟨monitorLive_shrinks (fun n => .inl (h.nodes n)) c, monitorLive_shrinks (fun n => .inl (back n)) c⟩
  · exact ⟨cycleHome_shrinks (fun n => .inl (h.nodes n)) h.cfgs c,
      cycleHome_shrinks (fun n => .inl (back n)) (fun j => (h.cfgs j).symm) c⟩

theorem monitorLive_nodes {s t : State} (nodes : ∀ n, nodeAt t n = nodeAt s n) (c : Channel) :
    monitorLive t c = monitorLive s c :=
  Bool.eq_iff_iff.2
    ⟨monitorLive_shrinks (fun n => .inl (nodes n)) c, monitorLive_shrinks (fun n => .inl (nodes n).symm) c⟩

theorem monitorLive_congr {s : State} {c d : Channel} (cfg : d.cfg = c.cfg) : monitorLive s d = monitorLive s c := by
  unfold monitorLive Channel.kindIs channelNodeActive
  rw [cfg]

theorem cycleHome_congr {s : State} {c d : Channel} (cfg : d.cfg = c.cfg) : cycleHome s d = cycleHome s c := by
  rw [cycleHome, cycleHome, cfg]

theorem formMonitors_deferred (s : State) (i : Nat) :
    channelAt (formMonitors true s) i = (channelAt s i).monitored s := by
  simp only [channelAt, formMonitors, if_true, List.getD_eq_getElem?_getD, List.getElem?_map]
  cases s.water.channels[i]? <;> rfl

theorem monitored_cycle (s : State) (c : Channel) :
    (c.monitored s).cycle
      = if monitorLive s c then c.cycle else { c.cycle with filt := none, clogged := false } := by
  unfold Channel.monitored
  rw [← monitorLive]
  cases monitorLive s c <;> rfl

/-- One step of a cycle in IDLE or ABORTING (R117). -/
theorem cycleStep_broken (i : Nat) {s : State} (broken : (channelAt s i).stage = .idle ∨ (channelAt s i).stage = .aborting) :
    (channelAt (cycleStep i s) i).cycle
      = if ((channelAt s i).stage == .aborting && cycleHome s (channelAt s i)) = true then
          { (channelAt s i).cycle with stage := .idle, timer := 0 }
        else (channelAt s i).cycle := by
  cases cfg : (channelAt s i).cfg with
  | none =>
    have away : cycleHome s (channelAt s i) = false := by rw [cycleHome, cfg]; rfl
    have stays : cycleStep i s = s := by
      unfold cycleStep
      dsimp only
      rw [cfg]
    rw [stays, away, Bool.and_false, if_neg Bool.false_ne_true]
  | some r =>
    have home : cycleHome s (channelAt s i) = (settingOf s i r).home := by rw [cycleHome, cfg]; rfl
    rw [cycleStep_cycle i s r cfg, home]
    have own := Channel.cycle_stage (channelAt s i)
    rcases broken with stage | stage <;> rw [stage] at own <;> simp [Cycle.move, own, stage]

theorem round_true (s : State) : round true s = formResults true s := if_pos rfl

/-- One round without requests in a cycle in IDLE or ABORTING. -/
theorem round_deferred_cycle {i : Nat} (hi : i < 8) {s : State}
    (broken : (channelAt s i).stage = .idle ∨ (channelAt s i).stage = .aborting) :
    (channelAt (round true s) i).cycle
      = (channelAt s i).cycle.halted (monitorLive s (channelAt s i)) (cycleHome s (channelAt s i)) := by
  have own : channelAt (formOccupancy (formConditions s)) i = channelAt s i := rfl
  have before : SettledFrom s (formOccupancy (formConditions s)) :=
    (formConditions_settled s).trans (formOccupancy_settled _)
  rw [round_true, formResults]
  generalize formOccupancy (formConditions s) = u at own before ⊢
  have monitors := formMonitors_later true u
  obtain ⟨v, first, -, same, moved⟩ := formCycles_at i hi (formMonitors true u)
  have live : monitorLive u (channelAt s i) = monitorLive s (channelAt s i) := (before.feeds.inputs _).1
  have home : cycleHome v (channelAt v i) = cycleHome s (channelAt s i) := by
    have cfg : (channelAt v i).cfg = (channelAt s i).cfg :=
      (SettledFrom.valve ((before.trans monitors.base).trans first.base) i).1
    rw [cycleHome_congr cfg]
    exact (((before.trans monitors.base).trans first.base).feeds.inputs _).2
  have monitored : (channelAt v i).cycle
      = if monitorLive s (channelAt s i) then (channelAt s i).cycle
        else { (channelAt s i).cycle with filt := none, clogged := false } := by
    rw [same, formMonitors_deferred, own, monitored_cycle, live]
  have stage : (channelAt v i).stage = (channelAt s i).stage := by
    rw [← Channel.cycle_stage, monitored]
    split <;> rfl
  rw [(formEnd_last _).cycleEq i, formKeepouts_channel, moved, cycleStep_broken i (stage.symm ▸ broken), home, stage,
    monitored]
  rfl

/-- A deferred settling in a cycle in IDLE or ABORTING. -/
theorem rounds_deferred_cycle (n : Nat) {i : Nat} (hi : i < 8) {s : State}
    (broken : (channelAt s i).stage = .idle ∨ (channelAt s i).stage = .aborting) :
    (channelAt (rounds true n s) i).cycle
      = (channelAt s i).cycle.halted (monitorLive s (channelAt s i)) (cycleHome s (channelAt s i)) := by
  induction n generalizing s with
  | zero => exact round_deferred_cycle hi broken
  | succ n ih =>
    have first := round_deferred_cycle hi broken
    have settled := round_settled true s
    have cfg : (channelAt (round true s) i).cfg = (channelAt s i).cfg := (SettledFrom.valve settled i).1
    have stage : (channelAt (round true s) i).stage = .idle ∨ (channelAt (round true s) i).stage = .aborting := by
      rw [← Channel.cycle_stage, first, halted_stage _ _ broken]
      split
      · exact .inl rfl
      · exact broken
    have next := ih stage
    rw [first, monitorLive_congr cfg, cycleHome_congr cfg, (settled.feeds.inputs _).1, (settled.feeds.inputs _).2,
      halted_halted, Bool.and_self, Bool.or_self] at next
    simp only [rounds, startTest, if_true]
    split
    · exact first
    · exact next

theorem settleDeferred_cycle {i : Nat} (hi : i < 8) {s : State}
    (broken : (channelAt s i).stage = .idle ∨ (channelAt s i).stage = .aborting) :
    (channelAt (settleDeferred s) i).cycle
      = (channelAt s i).cycle.halted (monitorLive s (channelAt s i)) (cycleHome s (channelAt s i)) :=
  rounds_deferred_cycle 40 hi broken

end Sys2Proof.Machine

namespace Sys2Proof.Machine

/-! ### The states of a load -/

/-- A load after its step 3 (R172). -/
def siteLoaded (x : Tables) (s : State) : State :=
  settleDeferred (replaceSite x.site (settleDeferred (haltShows (settleDeferred (cyclesBreak 9 s)))))

/-- A load after its step 4. -/
def nodesSettled (x : Tables) (s : State) : State := settleDeferred (loadNodes x (siteLoaded x s))

/-- A load after its step 6. -/
def zonesLoaded (x : Tables) (s : State) : State := settleDeferred (loadZones x (loadMowers x (nodesSettled x s)))

/-- A load after its step 8. -/
def lightsLoaded (x : Tables) (s : State) : State :=
  settleDeferred (loadLights x (settleDeferred (loadWater x (zonesLoaded x s))))

/-- A load after its step 9, the slot map apart. -/
def loaded (x : Tables) (s : State) : State := settle (loadPass x (lightsLoaded x s))

theorem loadTables_loaded (x : Tables) (s : State) :
    loadTables x s
      = ({ loaded x s with line := { (loaded x s).line with next := (loadSlots x.slots (loaded x s).line.next).1 } },
        (loadSlots x.slots (loaded x s).line.next).2) := by
  simp only [loadTables, loaded, lightsLoaded, zonesLoaded, nodesSettled, siteLoaded]

/-! ### What moves a cycle during a load -/

theorem haltShows_feeds (s : State) : Feeds s (haltShows s) := .of rfl rfl

theorem replaceSite_feeds (x : Site) (s : State) : Feeds s (replaceSite x s) := .of rfl rfl

theorem loadRoutes_feeds (x : Tables) (s : State) : Feeds s (loadZones x (loadMowers x s)) := .of rfl rfl

theorem haltShows_channel (s : State) (i : Nat) : channelAt (haltShows s) i = channelAt s i := rfl

theorem replaceSite_channel (x : Site) (s : State) (i : Nat) : channelAt (replaceSite x s) i = channelAt s i := rfl

theorem loadRoutes_channel (x : Tables) (s : State) (i : Nat) :
    channelAt (loadZones x (loadMowers x s)) i = channelAt s i := rfl

theorem loadNodes_shrink (x : Tables) (s : State) : NodesShrink s (loadNodes x s) := by
  obtain ⟨-, -, records⟩ := loadNodes_spec x s
  intro n
  rw [records]
  split
  · rw [loadIdent_eq]
    split
    · exact .inl rfl
    · refine .inr ⟨rfl, ?_⟩
      cases x.nodes.getD n none <;> exact nofun
  · exact .inl rfl

/-! ### A cycle up to step 6 -/

/-- Channel `i` holds the record and the latch of `c`, and its cycle is that of `c` halted. -/
structure HaltedAs (c : Channel) (live home : Bool) (u : State) (i : Nat) : Prop where
  cfg : (channelAt u i).cfg = c.cfg
  latch : (channelAt u i).latch = c.latch
  cycle : (channelAt u i).cycle = c.cycle.halted live home

theorem HaltedAs.start {u : State} {i : Nat} : HaltedAs (channelAt u i) true false u i where
  cfg := rfl
  latch := rfl
  cycle := by
    unfold Cycle.halted
    rw [Bool.and_false]
    rfl

theorem HaltedAs.broken {c : Channel} {live home : Bool} {u : State} {i : Nat} (h : HaltedAs c live home u i)
    (broken : c.stage = .idle ∨ c.stage = .aborting) :
    (channelAt u i).stage = .idle ∨ (channelAt u i).stage = .aborting := by
  rw [← Channel.cycle_stage, h.cycle, halted_stage _ _ broken]
  split
  · exact .inl rfl
  · exact broken

/-- A step that leaves the channel alone, and the deferred settling after it. -/
theorem HaltedAs.step {c : Channel} {live home : Bool} {u v : State} {i : Nat} (h : HaltedAs c live home u i) (hi : i < 8)
    (broken : c.stage = .idle ∨ c.stage = .aborting) (same : channelAt v i = channelAt u i) :
    HaltedAs c (live && monitorLive v c) (home || cycleHome v c) (settleDeferred v) i := by
  obtain ⟨cfg, latch⟩ := SettledFrom.valve (settleDeferred_settled v) i
  refine ⟨(cfg.trans (congrArg _ same)).trans h.cfg, (latch.trans (congrArg _ same)).trans h.latch, ?_⟩
  rw [settleDeferred_cycle hi (same.symm ▸ h.broken broken), same, monitorLive_congr h.cfg, cycleHome_congr h.cfg, h.cycle,
    halted_halted]

/-- The steps 1 to 6 in one cycle: a running one is taken to ABORTING with cause 9, and from there to IDLE where its valve
is home; F stays where the monitor is live with the loaded nodes too (R108, R117, R121, R172). -/
theorem zonesLoaded_cycle {x : Tables} {s : State} {i : Nat} (hi : i < 8) :
    let c := (channelAt s i).restarted 9
    HaltedAs c (monitorLive (zonesLoaded x s) c) (cycleHome s c) (zonesLoaded x s) i := by
  intro c
  have broken : c.stage = .idle ∨ c.stage = .aborting := restarted_stage 9 _
  have start : channelAt (cyclesBreak 9 s) i = c := (channelAt_cyclesBroken 9 8 i s).trans (if_pos hi)
  have begin : HaltedAs c true false (cyclesBreak 9 s) i := start ▸ HaltedAs.start
  have f0 : Feeds s (cyclesBreak 9 s) := (cyclesBreak_later 9 s).base.feeds
  have f1 := (settleDeferred_feeds f0).trans (haltShows_feeds _)
  have f2 := (settleDeferred_feeds f1).trans (replaceSite_feeds x.site _)
  have f3 := settleDeferred_feeds f2
  have h1 := begin.step hi broken rfl
  have h2 := h1.step hi broken (haltShows_channel _ i)
  have h3 := h2.step hi broken (replaceSite_channel x.site _ i)
  unfold zonesLoaded nodesSettled siteLoaded
  generalize settleDeferred (replaceSite x.site (settleDeferred (haltShows (settleDeferred (cyclesBreak 9 s))))) = s3
    at f3 h3 ⊢
  have h4 := h3.step hi broken (channelAt_congr (loadNodes_water x s3) i)
  have h6 := h4.step hi broken (loadRoutes_channel x _ i)
  have f4 := (settleDeferred_settled (loadNodes x s3)).feeds.trans (loadRoutes_feeds x _)
  have same := ((settleDeferred_feeds f4).inputs c).1
  have fewer : monitorLive (loadNodes x s3) c = true → monitorLive s c = true := fun live => by
    rw [← (f3.inputs c).1]
    exact monitorLive_shrinks (loadNodes_shrink x _) c live
  have stays : cycleHome (loadNodes x s3) c = true → cycleHome s c = true := fun home => by
    rw [← (f3.inputs c).2]
    exact cycleHome_shrinks (loadNodes_shrink x _)
      (fun j => congrArg Channel.cfg (channelAt_congr (loadNodes_water x s3) j)) c home
  rw [(f0.inputs c).1, (f0.inputs c).2, (f1.inputs c).1, (f1.inputs c).2, (f2.inputs c).1, (f2.inputs c).2,
    (f4.inputs c).1, (f4.inputs c).2] at h6
  rw [same]
  have live : (((((true && monitorLive s c) && monitorLive s c) && monitorLive s c) && monitorLive (loadNodes x s3) c)
      && monitorLive (loadNodes x s3) c) = monitorLive (loadNodes x s3) c := by
    cases at_ : monitorLive (loadNodes x s3) c with
    | false => simp
    | true => simp [fewer at_]
  have home : (((((false || cycleHome s c) || cycleHome s c) || cycleHome s c) || cycleHome (loadNodes x s3) c)
      || cycleHome (loadNodes x s3) c)
      = cycleHome s c := by
    cases at_ : cycleHome (loadNodes x s3) c with
    | false => simp
    | true => simp [stays at_]
  rw [live, home] at h6
  exact h6

end Sys2Proof.Machine

namespace Sys2Proof.Machine

/-! ### A cycle in the steps 7 and 8 -/

theorem putWater_channel (t : Tables) {s : State} {i : Nat} (inside : i < s.water.channels.length) :
    channelAt (putWater t s) i = (channelAt s i).rewrite (t.channels.getD i none) := by
  simp [channelAt, putWater, List.getD_eq_getElem?_getD, mapIx_getElem?, List.getElem?_eq_getElem inside]

/-- The channel `c` with another clogged flag, and with F unset too where its record is empty (R109). -/
def Reflagged (c b : Channel) : Prop :=
  ∃ flag filt, b = { c with clogged := flag, filt := filt } ∧ (c.cfg ≠ none → filt = c.filt)

theorem Reflagged.refl (c : Channel) : Reflagged c c := ⟨c.clogged, c.filt, rfl, fun _ => rfl⟩

theorem Reflagged.trans {a b c : Channel} (h : Reflagged a b) (g : Reflagged b c) : Reflagged a c := by
  obtain ⟨_, filt, rfl, kept⟩ := h
  obtain ⟨flag, filt', rfl, kept'⟩ := g
  exact ⟨flag, filt', rfl, fun used => (kept' used).trans (kept used)⟩

theorem formClogged_reflags (j i : Nat) (s : State) : Reflagged (channelAt s i) (channelAt (formClogged j s) i) := by
  unfold formClogged
  dsimp only
  cases cfg : (channelAt s j).cfg with
  | none =>
    dsimp only
    rw [channelAt_setChannel_blank j i (fun c => { c with filt := none, clogged := false }) rfl]
    split
    · next own =>
      refine ⟨false, none, rfl, fun used => ?_⟩
      rw [own] at used
      exact absurd cfg used
    · exact .refl _
  | some r =>
    dsimp only
    have flagged : ∀ on, Reflagged (channelAt s i) (channelAt (setChannel j (fun c => { c with clogged := on }) s) i) :=
      fun on => by
        by_cases own : i = j
        · subst own
          rw [channelAt_setChannel_self i _ s r cfg]
          exact ⟨on, (channelAt s i).filt, rfl, fun _ => rfl⟩
        · rw [channelAt_setChannel j i _ s own]
          exact .refl _
    split
    · exact flagged _
    · exact flagged _

theorem formClogged_each_reflags (n i : Nat) (s : State) :
    Reflagged (channelAt s i) (channelAt (eachIx formClogged n s) i) :=
  eachIx_keeps (P := fun u => Reflagged (channelAt s i) (channelAt u i))
    (fun j u before => before.trans (formClogged_reflags j i u)) n (.refl _)

/-- A cycle whose channel is FILTER no more is IDLE (R121). -/
def Channel.dropped (c : Channel) : Channel := if c.stage != .idle && !c.kindIs .filter then c.idle else c

theorem channelAt_dropCycle (i j : Nat) (s : State) :
    channelAt (dropCycle i s) j = if j = i then (channelAt s j).dropped else channelAt s j := by
  unfold dropCycle
  by_cases drops : ((channelAt s i).stage != .idle && !(channelAt s i).kindIs .filter) = true
  · rw [if_pos drops]
    have moving : (channelAt s i).stage ≠ .idle := by
      rw [Bool.and_eq_true, bne_iff_ne] at drops
      exact drops.1
    refine (channelAt_setChannel_moving moving Channel.idle j).trans ?_
    refine if_ctx_congr Iff.rfl (fun own => ?_) fun _ => rfl
    rw [own]
    exact (if_pos drops).symm
  · rw [if_neg drops]
    split
    · next own =>
      rw [own]
      exact (if_neg drops).symm
    · rfl

theorem channelAt_cyclesDropped (n j : Nat) (s : State) :
    channelAt (eachIx dropCycle n s) j = if j < n then (channelAt s j).dropped else channelAt s j := by
  induction n with
  | zero => rw [if_neg (Nat.not_lt_zero j)]; rfl
  | succ n ih =>
    rw [eachIx_succ, channelAt_dropCycle, ih]
    rcases Nat.lt_trichotomy j n with lt | rfl | gt
    · rw [if_neg lt.ne, if_pos lt, if_pos (by omega)]
    · rw [if_pos rfl, if_neg (lt_irrefl j), if_pos (by omega)]
    · rw [if_neg gt.ne', if_neg (by omega), if_neg (by omega)]

/-- Step 7 in one channel: the record taken, the flag formed again, a cycle that is no FILTER's dropped (R91, R109, R121). -/
theorem loadWater_channel (t : Tables) {s : State} {i : Nat} (hi : i < 8) (inside : i < s.water.channels.length) :
    ∃ b, Reflagged ((channelAt s i).rewrite (t.channels.getD i none)) b ∧ channelAt (loadWater t s) i = b.dropped := by
  have flagged := formClogged_each_reflags 8 i (putWater t s)
  rw [putWater_channel t inside] at flagged
  refine ⟨_, flagged, ?_⟩
  rw [loadWater_eq, channelAt_cyclesDropped, if_pos hi]

theorem dropped_rest (c : Channel) :
    c.dropped.cfg = c.cfg ∧ c.dropped.latch = c.latch ∧ c.dropped.count = c.count ∧ c.dropped.cause = c.cause
      ∧ c.dropped.filt = c.filt := by
  unfold Channel.dropped
  split <;> exact ⟨rfl, rfl, rfl, rfl, rfl⟩

theorem dropped_filter {c : Channel} (filter : c.kindIs .filter = true) : c.dropped = c := by
  rw [Channel.dropped, filter, Bool.not_true, Bool.and_false, if_neg Bool.false_ne_true]

theorem dropped_other {c : Channel} (other : c.kindIs .filter = false) : c.dropped.stage = .idle := by
  unfold Channel.dropped
  rw [other]
  split
  · rfl
  · next still => simpa using still

/-- A record of the same kind and node index keeps latch and F, another unsets them (R91, R108). -/
theorem rewrite_spec (r : Option ChannelRec) (c : Channel) :
    let b := c.rewrite r
    let same := c.cfg.map (fun q => (q.kind, q.node)) = r.map (fun q => (q.kind, q.node))
    b.cfg = r ∧ b.latch = (if same then c.latch else false) ∧ b.filt = (if same then c.filt else none)
      ∧ b.stage = c.stage ∧ b.timer = c.timer ∧ b.cause = c.cause ∧ b.count = c.count := by
  intro b same
  have shown : b = c.rewrite r := rfl
  unfold Channel.rewrite at shown
  by_cases kept : same
  · rw [if_pos kept] at shown
    rw [shown, if_pos kept, if_pos kept]
    exact ⟨rfl, rfl, rfl, rfl, rfl, rfl, rfl⟩
  · rw [if_neg kept] at shown
    rw [shown, if_neg kept, if_neg kept]
    exact ⟨rfl, rfl, rfl, rfl, rfl, rfl, rfl⟩

theorem loadLights_channel (x : Tables) (s : State) (i : Nat) : channelAt (loadLights x s) i = channelAt s i := rfl

theorem loadLights_feeds (x : Tables) (s : State) : Feeds s (loadLights x s) := .of rfl rfl

/-- The steps 7 and 8 in one cycle. -/
theorem lightsLoaded_cycle {x : Tables} {s : State} {i : Nat} (hi : i < 8)
    (broken : (channelAt (loadWater x (zonesLoaded x s)) i).stage = .idle
      ∨ (channelAt (loadWater x (zonesLoaded x s)) i).stage = .aborting) :
    let e := channelAt (loadWater x (zonesLoaded x s)) i
    HaltedAs e (monitorLive (lightsLoaded x s) e) (cycleHome (lightsLoaded x s) e) (lightsLoaded x s) i := by
  intro e
  unfold lightsLoaded
  generalize shown : loadWater x (zonesLoaded x s) = u at broken
  have own : e = channelAt u i := congrArg (channelAt · i) shown
  have first := (own ▸ HaltedAs.start : HaltedAs e true false u i).step hi (own ▸ broken) rfl
  have second := first.step hi (own ▸ broken) (loadLights_channel x _ i)
  have f1 := (settleDeferred_settled u).feeds.trans (loadLights_feeds x _)
  have f2 := settleDeferred_feeds f1
  rw [(f1.inputs e).1, (f1.inputs e).2, Bool.true_and, Bool.and_self, Bool.false_or, Bool.or_self] at second
  rw [(f2.inputs e).1, (f2.inputs e).2]
  exact second

end Sys2Proof.Machine

namespace Sys2Proof.Machine

/-! ### A cycle before step 9 -/

/-- The record of a load is of the kind and the node index of the channel's own (R91, R108). -/
def SameWiring (a b : Option ChannelRec) : Prop := a.map (fun r => (r.kind, r.node)) = b.map (fun r => (r.kind, r.node))

theorem monitorLive_wired {s : State} {c d : Channel} (same : SameWiring c.cfg d.cfg) :
    monitorLive s c = monitorLive s d := by
  unfold SameWiring at same
  unfold monitorLive Channel.kindIs channelNodeActive
  cases old : c.cfg with
  | none =>
    rw [old] at same
    rw [Option.map_eq_none_iff.1 same.symm]
  | some r =>
    rw [old] at same
    obtain ⟨q, new, wired⟩ := Option.map_eq_some_iff.1 same.symm
    obtain ⟨kind, node⟩ := Prod.mk.inj wired
    rw [new]
    simp only [Option.any_some, kind, node]

theorem restarted_load (a : Channel) :
    let c := a.restarted 9
    c.cfg = a.cfg ∧ c.latch = a.latch ∧ c.count = a.count ∧ c.filt = a.filt
      ∧ c.cause = (if a.stage = .idle ∨ a.stage = .aborting then a.cause else 9)
      ∧ ((a.stage = .idle ∨ a.stage = .requested) → c.stage = .idle)
      ∧ (¬ (a.stage = .idle ∨ a.stage = .requested) →
        c.stage = .aborting ∧ c.timer = if a.stage = .aborting then a.timer else 250) := by
  intro c
  have shown : c = a.restarted 9 := rfl
  unfold Channel.restarted at shown
  cases stage : a.stage <;> rw [stage] at shown <;> rw [shown] <;> simp [Channel.idle, Channel.abort, stage]

/-- What the steps 1 to 8 make of channel `i` with the record `new`: the latch and F by the record, the cycle halted (R91,
R108, R121). -/
structure CycleLoaded (s : State) (new : Option ChannelRec) (z : State) (i : Nat) : Prop where
  cfg : (channelAt z i).cfg = new
  latch : SameWiring (channelAt s i).cfg new → (channelAt z i).latch = (channelAt s i).latch
  unlatched : ¬ SameWiring (channelAt s i).cfg new → (channelAt z i).latch = false
  count : (channelAt z i).count = (channelAt s i).count
  cause : (channelAt z i).cause
    = if (channelAt s i).stage = .idle ∨ (channelAt s i).stage = .aborting then (channelAt s i).cause else 9
  filt : SameWiring (channelAt s i).cfg new → monitorLive z (channelAt z i) = true →
    (channelAt z i).filt = (channelAt s i).filt
  unset : (¬ SameWiring (channelAt s i).cfg new ∨ monitorLive z (channelAt z i) = false) → (channelAt z i).filt = none
  broken : (channelAt z i).stage = .idle ∨ (channelAt z i).stage = .aborting
  dropped : (channelAt z i).kindIs .filter = false → (channelAt z i).stage = .idle
  ended : ((channelAt s i).stage = .idle ∨ (channelAt s i).stage = .requested ∨ cycleHome s (channelAt s i) = true
    ∨ cycleHome z (channelAt z i) = true) → (channelAt z i).stage = .idle
  aborts : ¬ ((channelAt s i).stage = .idle ∨ (channelAt s i).stage = .requested) → cycleHome s (channelAt s i) = false →
    cycleHome z (channelAt z i) = false → (channelAt z i).kindIs .filter = true →
      (channelAt z i).stage = .aborting
        ∧ (channelAt z i).timer = if (channelAt s i).stage = .aborting then (channelAt s i).timer else 250

theorem lightsLoaded_nodes (x : Tables) (s : State) (n : Nat) :
    nodeAt (lightsLoaded x s) n = nodeAt (zonesLoaded x s) n := by
  have water := (loadWater_outer x (zonesLoaded x s)).trans (settleDeferred_settled _).outer
  have lights : ∀ u, Outer u (loadLights x u) := fun u => by constructor <;> rfl
  exact nodeAt_congr ((water.trans (lights _)).trans (settleDeferred_settled _).outer).nodes n

theorem HaltedAs.filt {c : Channel} {live home : Bool} {u : State} {i : Nat} (h : HaltedAs c live home u i) :
    (channelAt u i).filt = if live then c.filt else none :=
  (congrArg Cycle.filt h.cycle).trans (halted_filt _ _ _)

theorem HaltedAs.rest {c : Channel} {live home : Bool} {u : State} {i : Nat} (h : HaltedAs c live home u i) :
    (channelAt u i).cause = c.cause ∧ (channelAt u i).count = c.count := by
  obtain ⟨cause, count⟩ := halted_rest live home c.cycle
  exact ⟨(congrArg Cycle.cause h.cycle).trans cause, (congrArg Cycle.count h.cycle).trans count⟩

theorem HaltedAs.stage {c : Channel} {live home : Bool} {u : State} {i : Nat} (h : HaltedAs c live home u i)
    (broken : c.stage = .idle ∨ c.stage = .aborting) : (channelAt u i).stage = if home then .idle else c.stage :=
  (congrArg Cycle.stage h.cycle).trans (halted_stage _ _ broken)

theorem HaltedAs.timer {c : Channel} {live : Bool} {u : State} {i : Nat} (h : HaltedAs c live false u i) :
    (channelAt u i).timer = c.timer :=
  (congrArg Cycle.timer h.cycle).trans (halted_timer _ _)

/-- What step 7 makes of a channel `d` with the record `new` (R91, R108, R121). -/
structure Rewired (d : Channel) (new : Option ChannelRec) (e : Channel) : Prop where
  cfg : e.cfg = new
  latch : SameWiring d.cfg new → e.latch = d.latch
  unlatched : ¬ SameWiring d.cfg new → e.latch = false
  count : e.count = d.count
  cause : e.cause = d.cause
  filt : SameWiring d.cfg new → new ≠ none → e.filt = d.filt
  unset : ¬ SameWiring d.cfg new → new ≠ none → e.filt = none
  kept : e.kindIs .filter = true → e.stage = d.stage ∧ e.timer = d.timer
  dropped : e.kindIs .filter = false → e.stage = .idle

theorem loadWater_rewires (t : Tables) {s : State} {i : Nat} (hi : i < 8) (inside : i < s.water.channels.length) :
    Rewired (channelAt s i) (t.channels.getD i none) (channelAt (loadWater t s) i) := by
  obtain ⟨b, ⟨flag, filt, rfl, kept⟩, water⟩ := loadWater_channel t hi inside
  obtain ⟨cfgD, latchD, filtD, stageD, timerD, causeD, countD⟩ := rewrite_spec (t.channels.getD i none) (channelAt s i)
  rw [water]
  generalize t.channels.getD i none = new at *
  generalize channelAt s i = d at *
  obtain ⟨cfg, latch, count, cause, filtE⟩ := dropped_rest { d.rewrite new with clogged := flag, filt := filt }
  rw [cfgD] at kept
  refine ⟨cfg.trans cfgD, fun same => latch.trans (latchD.trans (if_pos same)),
    fun other => latch.trans (latchD.trans (if_neg other)), count.trans countD, cause.trans causeD,
    fun same used => filtE.trans ((kept used).trans (filtD.trans (if_pos same))),
    fun other used => filtE.trans ((kept used).trans (filtD.trans (if_neg other))), fun filter => ?_, fun other => ?_⟩
  · have kind : Channel.kindIs { d.rewrite new with clogged := flag, filt := filt } .filter = true := by
      rw [← filter, Channel.kindIs, Channel.kindIs, cfg]
    rw [dropped_filter kind]
    exact ⟨stageD, timerD⟩
  · refine dropped_other ?_
    rw [← other, Channel.kindIs, Channel.kindIs, cfg]

theorem monitorLive_filter {s : State} {c : Channel} (live : monitorLive s c = true) : c.kindIs .filter = true := by
  rw [monitorLive, Bool.and_eq_true] at live
  exact live.1

theorem filter_used {c : Channel} (filter : c.kindIs .filter = true) : c.cfg ≠ none := fun empty => by
  rw [Channel.kindIs, empty] at filter
  cases filter

theorem kindIs_congr {c d : Channel} (cfg : c.cfg = d.cfg) (k : ChannelKind) : c.kindIs k = d.kindIs k := by
  rw [Channel.kindIs, Channel.kindIs, cfg]

theorem lightsLoaded_spec {x : Tables} {s : State} {i : Nat} (hi : i < 8)
    (inside : i < (zonesLoaded x s).water.channels.length) :
    CycleLoaded s (x.channels.getD i none) (lightsLoaded x s) i := by
  obtain ⟨cfgC, latchC, countC, filtC, causeC, waits, runs⟩ := restarted_load (channelAt s i)
  have brokenC := restarted_stage 9 (channelAt s i)
  have six := zonesLoaded_cycle (x := x) (s := s) hi
  have nodes := lightsLoaded_nodes x s
  have seven := loadWater_rewires x hi inside
  have brokenD := six.broken brokenC
  have brokenE : (channelAt (loadWater x (zonesLoaded x s)) i).stage = .idle
      ∨ (channelAt (loadWater x (zonesLoaded x s)) i).stage = .aborting := by
    cases filter : (channelAt (loadWater x (zonesLoaded x s)) i).kindIs .filter with
    | true => rw [(seven.kept filter).1]; exact brokenD
    | false => exact .inl (seven.dropped filter)
  have eight := lightsLoaded_cycle (x := x) hi brokenE
  have liveC (c : Channel) : monitorLive (zonesLoaded x s) c = monitorLive (lightsLoaded x s) c :=
    (monitorLive_nodes nodes c).symm
  have homeC : cycleHome s ((channelAt s i).restarted 9) = cycleHome s (channelAt s i) := cycleHome_congr cfgC
  dsimp only at six eight
  rw [homeC, liveC] at six
  have stageD := six.stage brokenC
  have filtD := six.filt
  have timerD : cycleHome s (channelAt s i) = false →
      (channelAt (zonesLoaded x s) i).timer = ((channelAt s i).restarted 9).timer := fun away => by
    rw [away] at six
    exact six.timer
  obtain ⟨causeD, countD⟩ := six.rest
  have cfgD := six.cfg.trans cfgC
  have latchD := six.latch.trans latchC
  clear six
  have liveE := monitorLive_congr (s := lightsLoaded x s) eight.cfg
  have homeE := cycleHome_congr (s := lightsLoaded x s) eight.cfg
  have kindE : (channelAt (lightsLoaded x s) i).kindIs .filter
      = (channelAt (loadWater x (zonesLoaded x s)) i).kindIs .filter := kindIs_congr eight.cfg .filter
  have stageE := eight.stage brokenE
  have timerE : cycleHome (lightsLoaded x s) (channelAt (loadWater x (zonesLoaded x s)) i) = false →
      (channelAt (lightsLoaded x s) i).timer = (channelAt (loadWater x (zonesLoaded x s)) i).timer := fun away => by
    rw [away] at eight
    exact eight.timer
  obtain ⟨causeE, countE⟩ := eight.rest
  have filtE := eight.filt
  have brokenB := eight.broken brokenE
  have latchE := eight.latch
  have cfgE := eight.cfg
  clear eight
  have wired (same : SameWiring (channelAt s i).cfg (x.channels.getD i none)) :
      monitorLive (lightsLoaded x s) ((channelAt s i).restarted 9)
        = monitorLive (lightsLoaded x s) (channelAt (loadWater x (zonesLoaded x s)) i) :=
    monitorLive_wired (by rw [cfgC, seven.cfg]; exact same)
  rw [← cfgD] at wired
  refine ⟨cfgE.trans seven.cfg, ?_, ?_, ?_, ?_, ?_, ?_, brokenB, ?_, ?_, ?_⟩
  · exact fun same => latchE.trans ((seven.latch (cfgD.symm ▸ same)).trans latchD)
  · exact fun other => latchE.trans (seven.unlatched (cfgD.symm ▸ other))
  · exact countE.trans (seven.count.trans (countD.trans countC))
  · exact causeE.trans (seven.cause.trans (causeD.trans causeC))
  · rw [liveE]
    intro same live
    rw [← cfgD] at same
    have used : x.channels.getD i none ≠ none := seven.cfg ▸ filter_used (monitorLive_filter live)
    rw [filtE, if_pos live, seven.filt same used, filtD, if_pos ((wired same).trans live), filtC]
  · rw [liveE]
    rintro (other | dead)
    · rw [← cfgD] at other
      rw [filtE]
      split
      · next live => exact seven.unset other (seven.cfg ▸ filter_used (monitorLive_filter live))
      · rfl
    · rw [filtE, dead, if_neg Bool.false_ne_true]
  · rw [kindE]
    intro other
    rw [stageE, seven.dropped other, ite_self]
  · rw [homeE]
    intro ends
    cases filter : (channelAt (loadWater x (zonesLoaded x s)) i).kindIs .filter with
    | false => rw [stageE, seven.dropped filter, ite_self]
    | true =>
      rw [stageE, (seven.kept filter).1, stageD]
      rcases ends with idle | requested | home | home
      · rw [waits (.inl idle), ite_self, ite_self]
      · rw [waits (.inr requested), ite_self, ite_self]
      · rw [if_pos home, ite_self]
      · rw [if_pos home]
  · rw [homeE, kindE]
    intro moving away away' filter
    obtain ⟨aborting, timer⟩ := runs moving
    obtain ⟨stage, time⟩ := seven.kept filter
    refine ⟨?_, ?_⟩
    · rw [stageE, away', if_neg Bool.false_ne_true, stage, stageD, away, if_neg Bool.false_ne_true, aborting]
    · rw [timerE away', time, timerD away, timer]

end Sys2Proof.Machine

namespace Sys2Proof.Machine

/-! ### A cycle in step 9 -/

theorem settleDeferred_condition (s : State) : ConditionLaw (settleDeferred s) := by
  have each : ∀ u, ConditionLaw (round true u) := fun u => by
    rw [round_true, formResults]
    exact (formLater true _).condition ((formConditions_law u).congr rfl rfl rfl rfl rfl)
  exact rounds_last each 40 s

theorem pondNow_congr {s t : State} (nodes : t.nodes = s.nodes) (mgmt : t.mgmt = s.mgmt) : pondNow t = pondNow s := by
  rw [pondNow, pondNow, liveCode_congr nodes, mgmt]

/-- The pass of step 9 with its grants delivered, before the test of R112. -/
def passGranted (x : Tables) (s : State) : State := formGrants (loadLoads x (formLevels (formMonitors false s)))

theorem loadPass_eq (x : Tables) (s : State) : loadPass x s = formStarts (passGranted x s) := rfl

theorem loadLoads_channel (x : Tables) (s : State) (i : Nat) : channelAt (loadLoads x s) i = channelAt s i := rfl

theorem passGranted_valve (x : Tables) (s : State) (j : Nat) :
    (channelAt (passGranted x s) j).cfg = (channelAt s j).cfg
      ∧ (channelAt (passGranted x s) j).latch = (channelAt s j).latch := by
  obtain ⟨cfg, latch⟩ := SettledFrom.valve (formGrants_last (loadLoads x (formLevels (formMonitors false s)))).later.base j
  obtain ⟨cfg', latch'⟩ := SettledFrom.valve ((formMonitors_later false s).trans (formLevels_last _).later).base j
  rw [loadLoads_channel] at cfg latch
  exact ⟨cfg.trans cfg', latch.trans latch'⟩

theorem passGranted_pond (x : Tables) (s : State) : (passGranted x s).water.pond = s.water.pond :=
  (formGrants_last (loadLoads x (formLevels (formMonitors false s)))).later.pond.trans
    ((formMonitors_later false s).trans (formLevels_last _).later).pond

theorem passGranted_cycle (x : Tables) (s : State) (i : Nat) :
    (channelAt (passGranted x s) i).cycle = (channelAt (formMonitors false s) i).cycle := by
  rw [passGranted, (formGrants_last _).cycleEq i, loadLoads_channel, (formLevels_last _).cycleEq i]

theorem formMonitors_empty (s : State) {i : Nat} (empty : (channelAt s i).cfg = none) :
    (channelAt (formMonitors false s) i).cycle = { (channelAt s i).cycle with filt := none, clogged := false } := by
  simp only [channelAt, formMonitors, List.getD_eq_getElem?_getD, List.getElem?_map] at *
  cases at_ : s.water.channels[i]? with
  | none => rfl
  | some c =>
    rw [at_] at empty
    have cfg : c.cfg = none := empty
    simp [Channel.monitored, Channel.kindIs, Channel.autoRequest, Channel.cycle, cfg]

/-- What the pass of step 9 and the settling after it make of a cycle in IDLE or ABORTING (R108, R109, R112, R117). -/
structure CyclePassed (c : Channel) (t : State) (i : Nat) : Prop where
  cfg : (channelAt t i).cfg = c.cfg
  latch : (channelAt t i).latch = c.latch
  count : (channelAt t i).count = c.count
  filt : (channelAt t i).stage ≠ .stopping → monitorLive t (channelAt t i) = true → (channelAt t i).filt = c.filt
  unset : monitorLive t (channelAt t i) = false → (channelAt t i).filt = none
  idle : c.stage = .idle → (∀ r, c.cfg = some r → r.kind = .filter → r.auto = false) →
    (channelAt t i).stage = .idle ∧ (channelAt t i).cause = c.cause
  aborting : c.stage = .aborting → cycleHome t (channelAt t i) = false →
    (channelAt t i).stage = .aborting ∧ (channelAt t i).timer = c.timer ∧ (channelAt t i).cause = c.cause

theorem loadPass_empty {x : Tables} {s : State} {i : Nat} (hi : i < 8) (empty : (channelAt s i).cfg = none) :
    CyclePassed (channelAt s i) (settle (loadPass x s)) i := by
  obtain ⟨cfgV, latchV⟩ := passGranted_valve x s i
  have still : channelAt (loadPass x s) i = channelAt (passGranted x s) i :=
    (formStarts_at i hi (passGranted x s)).1 (cfgV.trans empty)
  obtain ⟨cfgT, latchT⟩ := SettledFrom.valve (settle_settled (loadPass x s)) i
  have follows := (settle_cyclesFollow (loadPass x s)).1 i hi
  rw [still] at follows cfgT latchT
  obtain ⟨stage, timer, cause, count, filt, -⟩ := follows (cfgV.trans empty)
  have cycle := (passGranted_cycle x s i).trans (formMonitors_empty s empty)
  have stageV : (channelAt (passGranted x s) i).stage = (channelAt s i).stage := congrArg Cycle.stage cycle
  have timerV : (channelAt (passGranted x s) i).timer = (channelAt s i).timer := congrArg Cycle.timer cycle
  have causeV : (channelAt (passGranted x s) i).cause = (channelAt s i).cause := congrArg Cycle.cause cycle
  have countV : (channelAt (passGranted x s) i).count = (channelAt s i).count := congrArg Cycle.count cycle
  refine ⟨cfgT.trans cfgV, latchT.trans latchV, count.trans countV, fun _ live => ?_, fun _ => filt, fun idle _ => ?_,
    fun aborts _ => ?_⟩
  · exact absurd ((cfgT.trans cfgV).trans empty) (filter_used (monitorLive_filter live))
  · exact ⟨stage.trans (stageV.trans idle), cause.trans causeV⟩
  · exact ⟨stage.trans (stageV.trans aborts), timer.trans timerV, cause.trans causeV⟩

/-- The setting of a cycle is the same after the pass and at the end of the load. -/
theorem loadPass_setting {x : Tables} {s : State} (law : ConditionLaw s) (i : Nat) (r : ChannelRec) :
    settingOf (settle (loadPass x s)) i r = settingOf (passGranted x s) i r := by
  have later : SettledFrom (passGranted x s) (settle (loadPass x s)) :=
    (formStarts_later (passGranted x s)).base.trans (settle_settled _)
  refine later.setting ?_ i r
  have laws : SettledLaws (settle (loadPass x s)) := rounds_laws 40 (loadPass x s)
  have outer := (loadPass_outer x s).trans (settle_settled _).outer
  obtain ⟨-, -, pond⟩ := laws.condition
  obtain ⟨-, -, pondS⟩ := law
  rw [pond, passGranted_pond, pondS, pondNow_congr outer.nodes outer.mgmt]

/-- The monitor and the automatic request in a cycle in IDLE or ABORTING (R108, R109). -/
theorem monitored_broken (k : Setting) {c : Cycle} (broken : c.stage = .idle ∨ c.stage = .aborting) :
    let m := c.monitored k
    m.count = c.count ∧ m.filt = (if k.live then c.filt else none)
      ∧ (c.stage = .aborting → m.stage = .aborting ∧ m.timer = c.timer ∧ m.cause = c.cause)
      ∧ (c.stage = .idle → (k.live = true → k.auto = false) → m.stage = .idle ∧ m.cause = c.cause)
      ∧ (m.stage = .idle ∨ m.stage = .requested ∨ m.stage = .aborting) := by
  obtain ⟨stage, timer, cause, count, filt, clogged⟩ := c
  obtain ⟨live, auto, abort, home, away, stop, wash⟩ := k
  dsimp only at broken
  rcases broken with rfl | rfl <;> cases live <;> cases auto <;> cases clogged <;> simp [Cycle.monitored]

theorem monitorLive_setting {s : State} {i : Nat} {r : ChannelRec} (used : (channelAt s i).cfg = some r) :
    monitorLive s (channelAt s i) = (settingOf s i r).live := by
  rw [monitorLive, Channel.kindIs, used]
  rfl

theorem loadPass_live (x : Tables) (s : State) (i : Nat) :
    monitorLive (settle (loadPass x s)) (channelAt (settle (loadPass x s)) i) = monitorLive s (channelAt s i) := by
  have outer := (loadPass_outer x s).trans (settle_settled _).outer
  have valve := (passGranted_valve x s i).1
  have later : SettledFrom (passGranted x s) (settle (loadPass x s)) :=
    (formStarts_later (passGranted x s)).base.trans (settle_settled _)
  rw [monitorLive_congr ((SettledFrom.valve later i).1.trans valve)]
  exact monitorLive_nodes (nodeAt_congr outer.nodes) _

/-- A cycle that starts in the test after the pass is in STOPPING at the end of the load: no cause of R116 holds (R112). -/
theorem loadPass_starts {x : Tables} {s : State} (law : ConditionLaw s) {i : Nat} (hi : i < 8) {r : ChannelRec}
    (usedV : (channelAt (passGranted x s) i).cfg = some r) (starts : StartConditions (passGranted x s) i r)
    (stopping : (channelAt (loadPass x s) i).stage = .stopping) :
    (channelAt (settle (loadPass x s)) i).stage = .stopping := by
  have cfgP := (SettledFrom.valve (formStarts_later (passGranted x s)).base i).1
  rw [← loadPass_eq] at cfgP
  obtain ⟨-, -, -, -, runs, -⟩ := (settle_cyclesFollow (loadPass x s)).2 i r hi (cfgP.trans usedV)
  have none : ∀ k, ¬ AbortCause (settle (loadPass x s)) (channelAt (settle (loadPass x s)) i) r k := fun k cause => by
    have found := ((settingOf_iff (settle (loadPass x s)) i r).2.2.2 k).2 cause
    rw [loadPass_setting law, mayStop_sound usedV starts] at found
    cases found
  obtain ⟨-, calm⟩ := runs (.inl stopping)
  obtain ⟨-, stays⟩ := calm none
  obtain ⟨stage, -⟩ := stays (.inl (by rw [stopping]; decide))
  exact stage.trans stopping

theorem loadPass_used {x : Tables} {s : State} (law : ConditionLaw s) {i : Nat} (hi : i < 8) {r : ChannelRec}
    (used : (channelAt s i).cfg = some r)
    (broken : (channelAt s i).stage = .idle ∨ (channelAt s i).stage = .aborting) :
    CyclePassed (channelAt s i) (settle (loadPass x s)) i := by
  obtain ⟨cfgV, latchV⟩ := passGranted_valve x s i
  have usedV := cfgV.trans used
  have cycle := (passGranted_cycle x s i).trans (formMonitors_cycle s i r used)
  obtain ⟨starts, stays⟩ := formStarts_cycle i hi (passGranted x s) r usedV
  rw [← loadPass_eq] at starts stays
  obtain ⟨cfgP, latchP⟩ := SettledFrom.valve (formStarts_later (passGranted x s)).base i
  rw [← loadPass_eq] at cfgP latchP
  obtain ⟨cfgT, latchT⟩ := SettledFrom.valve (settle_settled (loadPass x s)) i
  have follows := (settle_cyclesFollow (loadPass x s)).2 i r hi (cfgP.trans usedV)
  have started := loadPass_starts law hi usedV
  have liveP := loadPass_live x s i
  rw [monitorLive_setting used] at liveP
  obtain ⟨countM, filtM, abortM, idleM, stageM⟩ := monitored_broken (settingOf s i r) (c := (channelAt s i).cycle) broken
  have auto : (settingOf s i r).auto = r.auto := rfl
  have liveKind : (settingOf s i r).live = true → r.kind = .filter := fun live => ((settingOf_iff s i r).1.1 live).1
  have home : cycleHome (settle (loadPass x s)) (channelAt (settle (loadPass x s)) i) = true
      ↔ ValveHolds (settle (loadPass x s)) r 0 := by
    rw [cycleHome, cfgT, cfgP, usedV]
    exact valveCode_iff _ r 0
  have liveT : (r.kind = .filter ∧ channelNodeActive (settle (loadPass x s)) (channelAt (settle (loadPass x s)) i) = true)
      ↔ (settingOf s i r).live = true := by
    rw [← liveP, monitorLive, Channel.kindIs, cfgT, cfgP, usedV, Bool.and_eq_true, Option.any_some, beq_iff_eq]
  dsimp only at follows
  rw [liveT, ← home] at follows
  rw [cycle] at starts stays
  rw [← Channel.cycle_stage, cycle] at starts stays
  generalize settingOf s i r = k at *
  generalize settle (loadPass x s) = t at *
  generalize channelAt (loadPass x s) i = p at *
  generalize channelAt (passGranted x s) i = v at *
  obtain ⟨fromIdle, -, -, fromAborting, -, -, count, filtLive, filtDead⟩ := follows
  have dead : monitorLive t (channelAt t i) = false → (channelAt t i).filt = none := fun dead => by
    rw [liveP] at dead
    exact (filtDead (.inl (by rw [dead]; decide))).1
  by_cases begins : ((channelAt s i).cycle.monitored k).stage = .requested ∧ StartConditions (passGranted x s) i r
  · obtain ⟨requested, conditions⟩ := begins
    have cycleP := starts requested conditions
    have stageP : p.stage = .stopping := congrArg Cycle.stage cycleP
    have countP : p.count = ((channelAt s i).cycle.monitored k).count := congrArg Cycle.count cycleP
    have stopping := started conditions stageP
    refine ⟨cfgT.trans (cfgP.trans cfgV), latchT.trans (latchP.trans latchV), ?_, fun moved _ => absurd stopping moved, dead,
      fun idle manual => ?_, fun aborts _ => ?_⟩
    · exact (count (.inl (by rw [stageP]; decide))).trans (countP.trans countM)
    · obtain ⟨still, -⟩ := idleM idle fun live => auto.trans (manual r used (liveKind live))
      rw [requested] at still
      cases still
    · obtain ⟨still, -⟩ := abortM aborts
      rw [requested] at still
      cases still
  · have cycleP := stays (not_and_or.1 begins)
    have stageP : p.stage = ((channelAt s i).cycle.monitored k).stage := congrArg Cycle.stage cycleP
    have timerP : p.timer = ((channelAt s i).cycle.monitored k).timer := congrArg Cycle.timer cycleP
    have causeP : p.cause = ((channelAt s i).cycle.monitored k).cause := congrArg Cycle.cause cycleP
    have countP : p.count = ((channelAt s i).cycle.monitored k).count := congrArg Cycle.count cycleP
    have filtP : p.filt = ((channelAt s i).cycle.monitored k).filt := congrArg Cycle.filt cycleP
    have unrestored : p.stage ≠ .restoring := by
      rw [stageP]
      rcases stageM with stage | stage | stage <;> rw [stage] <;> decide
    refine ⟨cfgT.trans (cfgP.trans cfgV), latchT.trans (latchP.trans latchV), ?_, fun moved live => ?_, dead,
      fun idle manual => ?_, fun aborts away => ?_⟩
    · exact (count (.inl unrestored)).trans (countP.trans countM)
    · rw [liveP] at live
      exact (filtLive live (.inr moved)).1.trans (filtP.trans (filtM.trans (if_pos live)))
    · have manual' : k.live = true → k.auto = false := fun live => auto.trans (manual r used (liveKind live))
      obtain ⟨still, cause⟩ := idleM idle manual'
      obtain ⟨stage, -, cause'⟩ := (fromIdle (stageP.trans still)).1 fun asks => by
        rw [← auto, manual' asks.1] at asks
        exact Bool.false_ne_true asks.2.2
      exact ⟨stage.trans (stageP.trans still), cause'.trans (causeP.trans cause)⟩
    · obtain ⟨still, timer, cause⟩ := abortM aborts
      obtain ⟨stage, timer', cause'⟩ := (fromAborting (.inr (stageP.trans still))).2 (by rw [away]; decide)
      exact ⟨stage.trans (stageP.trans still), timer'.trans (timerP.trans timer), cause'.trans (causeP.trans cause)⟩

end Sys2Proof.Machine

namespace Sys2Proof.Machine

/-! ### What a load leaves of the tables -/

/-- The tables keep their sizes. -/
structure SameSizes (s t : State) : Prop where
  mowers : t.pos.mowers.length = s.pos.mowers.length
  channels : t.water.channels.length = s.water.channels.length
  shows : t.water.shows.length = s.water.shows.length
  light : t.light.length = s.light.length
  loads : t.power.loads.length = s.power.loads.length

theorem SameSizes.trans {s t u : State} (a : SameSizes s t) (b : SameSizes t u) : SameSizes s u :=
  ⟨b.mowers.trans a.mowers, b.channels.trans a.channels, b.shows.trans a.shows, b.light.trans a.light,
    b.loads.trans a.loads⟩

theorem length_of_map {α β : Type} {f : α → β} {l l' : List α} (same : l'.map f = l.map f) : l'.length = l.length := by
  have sizes := congrArg List.length same
  rwa [List.length_map, List.length_map] at sizes

theorem SettledFrom.sizes {s t : State} (h : SettledFrom s t) : SameSizes s t :=
  ⟨by rw [h.pos], length_of_map h.channels, length_of_map h.shows, length_of_map h.lights, length_of_map h.loads⟩

theorem haltShows_sizes (s : State) : SameSizes s (haltShows s) := ⟨rfl, rfl, List.length_map .., rfl, rfl⟩

theorem replaceSite_sizes (x : Site) (s : State) : SameSizes s (replaceSite x s) := ⟨rfl, rfl, rfl, rfl, rfl⟩

theorem loadNodes_sizes (x : Tables) (s : State) : SameSizes s (loadNodes x s) := by
  obtain ⟨frame, counters, -⟩ := loadNodes_spec x s
  generalize loadNodes x s = u at frame counters
  refine ⟨length_of_map counters, ?_, ?_, ?_, ?_⟩ <;> rw [frame]

theorem loadRoutes_sizes (x : Tables) (s : State) : SameSizes s (loadZones x (loadMowers x s)) :=
  ⟨mapIx_length .., rfl, rfl, rfl, rfl⟩

theorem settleDeferred_sizes {s t : State} (h : SameSizes s t) : SameSizes s (settleDeferred t) :=
  h.trans (settleDeferred_settled t).sizes

theorem siteLoaded_sizes (x : Tables) (s : State) : SameSizes s (siteLoaded x s) := by
  have broken := settleDeferred_sizes (cyclesBreak_later 9 s).base.sizes
  have halted := settleDeferred_sizes (broken.trans (haltShows_sizes _))
  exact settleDeferred_sizes (halted.trans (replaceSite_sizes x.site _))

theorem nodesSettled_sizes (x : Tables) (s : State) : SameSizes s (nodesSettled x s) :=
  settleDeferred_sizes ((siteLoaded_sizes x s).trans (loadNodes_sizes x _))

theorem zonesLoaded_sizes (x : Tables) (s : State) : SameSizes s (zonesLoaded x s) :=
  settleDeferred_sizes ((nodesSettled_sizes x s).trans (loadRoutes_sizes x _))

/-! ### Line, site, nodes, mowers, zones -/

theorem haltShows_outer (s : State) : Outer s (haltShows s) := by constructor <;> rfl

theorem loadLights_outer (x : Tables) (s : State) : Outer s (loadLights x s) := by constructor <;> rfl

/-- The management state with a site record replaced, whatever the other blocks hold (R159). -/
theorem Outer.replaceSite {s t : State} (h : Outer s t) (x : Site) : Outer (replaceSite x s) (replaceSite x t) where
  line := h.line
  nodes := h.nodes
  pos := h.pos
  zones := h.zones
  dockAll := h.dockAll
  mgmt := by
    unfold Machine.replaceSite
    rw [h.mgmt]
  store := h.store

theorem settleDeferred_outer {s t : State} (h : Outer s t) : Outer s (settleDeferred t) :=
  h.trans (settleDeferred_settled t).outer

theorem siteLoaded_outer (x : Tables) (s : State) : Outer (replaceSite x.site s) (siteLoaded x s) := by
  have broken := settleDeferred_outer (cyclesBreak_later 9 s).base.outer
  have halted := settleDeferred_outer (broken.trans (haltShows_outer _))
  exact settleDeferred_outer (halted.replaceSite x.site)

theorem lightsLoaded_outer (x : Tables) (s : State) : Outer (zonesLoaded x s) (lightsLoaded x s) := by
  have water := settleDeferred_outer (loadWater_outer x (zonesLoaded x s))
  exact settleDeferred_outer (water.trans (loadLights_outer x _))

theorem loaded_outer (x : Tables) (s : State) :
    Outer (loadZones x (loadMowers x (nodesSettled x s))) (loaded x s) := by
  have zones := settleDeferred_outer (Outer.refl (loadZones x (loadMowers x (nodesSettled x s))))
  have lights := zones.trans (lightsLoaded_outer x s)
  exact (lights.trans (loadPass_outer x _)).trans (settle_settled _).outer

theorem nodesSettled_outer (x : Tables) (s : State) : Outer (loadNodes x (siteLoaded x s)) (nodesSettled x s) :=
  settleDeferred_outer (.refl _)

/-- What a load keeps and what it replaces outside the water, the lights and the loads (R35, R46, R68, R159, R172). -/
structure LoadFrame (x : Tables) (s t : State) : Prop where
  line : t.line = s.line
  store : t.store = s.store
  dockAll : t.zone.dockAll = s.zone.dockAll
  mgmt : t.mgmt = (replaceSite x.site s).mgmt
  zones : t.zone.zones = x.zones
  loops : t.pos.loops = x.loops
  overflow : t.nodes.overflow = s.nodes.overflow
  nodes : ∀ i, i < 48 → i < s.nodes.recs.length → nodeAt t i = (nodeAt s i).loadIdent (x.nodes.getD i none)
  mowers : ∀ i m, i < s.pos.mowers.length → x.mowers[i]? = some m → mowerAt t i = (mowerAt s i).load m

theorem load_counters {m : MowerImage} {a b : Mower} (same : a.counters = b.counters) : a.load m = b.load m := by
  obtain ⟨slips, same⟩ := Prod.mk.inj same
  obtain ⟨missed, mismatches⟩ := Prod.mk.inj same
  unfold Mower.load
  rw [slips, missed, mismatches]

theorem loadMowers_at {x : Tables} {s : State} {i : Nat} {m : MowerImage} (inside : i < s.pos.mowers.length)
    (image : x.mowers[i]? = some m) : mowerAt (loadMowers x s) i = (mowerAt s i).load m := by
  simp only [mowerAt, loadMowers, List.getD_eq_getElem?_getD, mapIx_getElem?, List.getElem?_eq_getElem inside,
    Option.map_some, Option.getD_some, Nat.zero_add, image]

theorem loaded_frame (x : Tables) (s : State) : LoadFrame x s (loaded x s) := by
  have site := siteLoaded_outer x s
  obtain ⟨frame, counters, records⟩ := loadNodes_spec x (siteLoaded x s)
  have nodes := nodesSettled_outer x s
  have last := loaded_outer x s
  have sizes := nodesSettled_sizes x s
  generalize loaded x s = t at *
  generalize nodesSettled x s = u at *
  generalize loadNodes x (siteLoaded x s) = w at *
  generalize siteLoaded x s = v at *
  have lineW : w.line = v.line := by rw [frame]
  have storeW : w.store = v.store := by rw [frame]
  have flagW : w.zone.dockAll = v.zone.dockAll := by rw [frame]
  have mgmtW : w.mgmt = v.mgmt := by rw [frame]
  have overflowW : w.nodes.overflow = v.nodes.overflow := by rw [frame]
  have nodesT : t.nodes = w.nodes := last.nodes.trans nodes.nodes
  exact
    { line := last.line.trans (nodes.line.trans (lineW.trans site.line))
      store := last.store.trans (nodes.store.trans (storeW.trans site.store))
      dockAll := last.dockAll.trans (nodes.dockAll.trans (flagW.trans site.dockAll))
      mgmt := last.mgmt.trans (nodes.mgmt.trans (mgmtW.trans site.mgmt))
      zones := last.zones
      loops := congrArg Position.loops last.pos
      overflow := (congrArg NodeTable.overflow nodesT).trans (overflowW.trans (congrArg NodeTable.overflow site.nodes))
      nodes := fun i hi inside => by
        have same : nodeAt v i = nodeAt s i := nodeAt_congr site.nodes i
        have size : v.nodes.recs.length = s.nodes.recs.length := by rw [site.nodes]; rfl
        rw [nodeAt_congr nodesT, records, if_pos ⟨hi, size ▸ inside⟩, same]
      mowers := fun i m inside image => by
        have moved : mowerAt t i = mowerAt (loadMowers x u) i := mowerAt_congr last.pos i
        have kept : (mowerAt u i).counters = (mowerAt s i).counters := by
          rw [mowerAt_congr nodes.pos i]
          exact (map_getD Mower.counters counters i Mower.blank).trans (congrArg Mower.counters (mowerAt_congr site.pos i))
        rw [moved, loadMowers_at (sizes.mowers ▸ inside) image, load_counters kept] }

end Sys2Proof.Machine

namespace Sys2Proof.Machine

/-! ### Channels, shows, groups, loads -/

theorem mapIx_map_eq {α β γ : Type} {f : Nat → α → β} {g : β → γ} {l : List α} {m : List γ} (size : l.length = m.length)
    (same : ∀ i a c, l[i]? = some a → m[i]? = some c → g (f i a) = c) : (mapIx f 0 l).map g = m := by
  refine List.ext_getElem? fun i => ?_
  rw [List.getElem?_map, mapIx_getElem?, Nat.zero_add]
  by_cases inside : i < l.length
  · have own := List.getElem?_eq_getElem inside
    have image := List.getElem?_eq_getElem (size ▸ inside : i < m.length)
    rw [own, image]
    exact congrArg some (same i _ _ own image)
  · rw [List.getElem?_eq_none (Nat.not_lt.1 inside), List.getElem?_eq_none (size ▸ Nat.not_lt.1 inside)]
    rfl

theorem getD_of_getElem? {α : Type} {l : List (Option α)} {i : Nat} {a : Option α} (at_ : l[i]? = some a) :
    l.getD i none = a := by
  rw [List.getD_eq_getElem?_getD, at_]
  rfl

theorem lightRewrite_cfg (r : Option LightRec) (g : LightGroup) : (g.rewrite r).cfg = r := by
  unfold LightGroup.rewrite
  split
  · next empty => exact (Option.isNone_iff_eq_none.1 empty).symm
  · split <;> rfl

/-- Step 9 after its loads are in place. -/
theorem loadPass_settled (x : Tables) (s : State) :
    SettledFrom (loadLoads x (formLevels (formMonitors false s))) (settle (loadPass x s)) :=
  (loadPass_later x s).base.trans (settle_settled _)

theorem handing_settled (s : State) : SettledFrom s (formLevels (formMonitors false s)) :=
  ((formMonitors_later false s).trans (formLevels_last _).later).base

/-- The records of the water, the lights and the loads after a load whose tables have the sizes of the image's (R172). -/
structure LoadTaken (x : Tables) (t : State) : Prop where
  channels : t.water.channels.map Channel.cfg = x.channels
  shows : t.water.shows.map Player.cfg = x.shows
  steps : t.water.steps = x.steps
  lights : t.light.map LightGroup.cfg = x.lights
  loads : t.power.loads.map (fun l => (l.cls, l.minDraw, l.fullDraw, l.node))
    = x.loads.map (fun l => (l.cls, l.minDraw, l.fullDraw, l.node))

theorem map_of_map {α β γ : Type} {f : α → β} {l l' : List α} (same : l'.map f = l.map f) (g : β → γ) :
    l'.map (fun a => g (f a)) = l.map (fun a => g (f a)) := by
  have mapped := congrArg (List.map g) same
  rwa [List.map_map, List.map_map] at mapped

theorem SettledFrom.cfgs {s t : State} (h : SettledFrom s t) :
    t.water.channels.map Channel.cfg = s.water.channels.map Channel.cfg :=
  map_of_map h.channels Prod.fst

theorem SettledFrom.showCfgs {s t : State} (h : SettledFrom s t) :
    t.water.shows.map Player.cfg = s.water.shows.map Player.cfg :=
  map_of_map h.shows Prod.fst

theorem putWater_channels {x : Tables} {s : State} (size : s.water.channels.length = x.channels.length) :
    (putWater x s).water.channels.map Channel.cfg = x.channels :=
  mapIx_map_eq size fun i a c _ image => by rw [rewrite_cfg, getD_of_getElem? image]

theorem putWater_shows {x : Tables} {s : State} (size : s.water.shows.length = x.shows.length) :
    (putWater x s).water.shows.map Player.cfg = x.shows :=
  mapIx_map_eq size fun _ _ _ _ image => getD_of_getElem? image

theorem loadLights_cfgs {x : Tables} {s : State} (size : s.light.length = x.lights.length) :
    (loadLights x s).light.map LightGroup.cfg = x.lights :=
  mapIx_map_eq size fun i a c _ image => by rw [lightRewrite_cfg, getD_of_getElem? image]

theorem loadLoads_cfgs {x : Tables} {s : State} (size : s.power.loads.length = x.loads.length) :
    (loadLoads x s).power.loads.map (fun l => (l.cls, l.minDraw, l.fullDraw, l.node))
      = x.loads.map (fun l => (l.cls, l.minDraw, l.fullDraw, l.node)) := by
  refine mapIx_map_eq (size.trans (List.length_map _).symm) fun i a c _ image => ?_
  rw [List.getElem?_map] at image
  obtain ⟨l, at_, rfl⟩ := Option.map_eq_some_iff.1 image
  rw [at_]

theorem putWater_sizes (x : Tables) (s : State) : SameSizes s (putWater x s) :=
  ⟨rfl, mapIx_length .., mapIx_length .., rfl, rfl⟩

theorem loadLights_sizes (x : Tables) (s : State) : SameSizes s (loadLights x s) :=
  ⟨rfl, rfl, rfl, mapIx_length .., rfl⟩

theorem loaded_taken {x : Tables} {s : State} (sized : SizeLaw s) (fits : TablesSized x) : LoadTaken x (loaded x s) := by
  have sizes := zonesLoaded_sizes x s
  unfold loaded lightsLoaded
  generalize zonesLoaded x s = z at sizes
  have water : SettledFrom (putWater x z) (settleDeferred (loadWater x z)) :=
    (loadWater_later x z).base.trans (settleDeferred_settled _)
  have sizes7 := (sizes.trans (putWater_sizes x z)).trans water.sizes
  generalize settleDeferred (loadWater x z) = u at water sizes7
  have lights : SettledFrom (loadLights x u) (settleDeferred (loadLights x u)) := settleDeferred_settled _
  have sizes8 := (sizes7.trans (loadLights_sizes x u)).trans lights.sizes
  generalize settleDeferred (loadLights x u) = v at lights sizes8
  have handing := handing_settled v
  have sizes9 := sizes8.trans handing.sizes
  have passed := loadPass_settled x v
  generalize settle (loadPass x v) = t at passed
  generalize formLevels (formMonitors false v) = w at handing sizes9 passed
  obtain ⟨-, -, -, -, -, -, -, -, -, -, -, -, -, channels, shows, -, light, loads, -⟩ := sized
  obtain ⟨-, -, -, -, -, channelsX, showsX, -, lightsX, loadsX⟩ := fits
  exact
    { channels :=
        passed.cfgs.trans
          (handing.cfgs.trans
            (lights.cfgs.trans
              (water.cfgs.trans (putWater_channels (sizes.channels.trans (channels.trans channelsX.symm))))))
      shows :=
        passed.showCfgs.trans
          (handing.showCfgs.trans
            (lights.showCfgs.trans
              (water.showCfgs.trans (putWater_shows (sizes.shows.trans (shows.trans showsX.symm))))))
      steps := passed.steps.trans (handing.steps.trans (lights.steps.trans water.steps))
      lights :=
        passed.lights.trans
          (handing.lights.trans
            (lights.lights.trans (loadLights_cfgs (sizes7.light.trans (light.trans lightsX.symm)))))
      loads := passed.loads.trans (loadLoads_cfgs (sizes9.loads.trans (loads.trans loadsX.symm))) }

/-! ### Shows -/

/-- Every show is IDLE. -/
def ShowsIdle (s : State) : Prop := ∀ p ∈ s.water.shows, p.state = .idle

theorem ShowsIdle.later {s t : State} (h : ShowsIdle s) (players : t.water.shows = s.water.shows) : ShowsIdle t := by
  unfold ShowsIdle
  rw [players]
  exact h

theorem weather_idle (rain dry : Bool) {p : Player} (idle : p.state = .idle) : (p.weather rain dry).state = .idle := by
  unfold Player.weather
  rw [idle, show (ShowState.idle == .playing) = false from rfl, show (ShowState.idle == .paused) = false from rfl,
    Bool.and_false, Bool.and_false, if_neg Bool.false_ne_true, if_neg Bool.false_ne_true, idle]

theorem formConditions_idle {s : State} (h : ShowsIdle s) : ShowsIdle (formOccupancy (formConditions s)) := by
  intro p mem
  obtain ⟨q, inside, rfl⟩ := List.mem_map.1 (show p ∈ s.water.shows.map _ from mem)
  exact weather_idle _ _ (h q inside)

theorem formResults_idle (d : Bool) {s : State} (h : ShowsIdle s) : ShowsIdle (formResults d s) := by
  rw [formResults]
  exact (formConditions_idle h).later (formLater d _).players

theorem round_idle (d : Bool) {s : State} (h : ShowsIdle s) : ShowsIdle (round d s) := by
  unfold round
  split
  · exact formResults_idle true h
  · exact (formResults_idle false h).later (formGrants_last _).later.players

theorem rounds_idle (d : Bool) (n : Nat) {s : State} (h : ShowsIdle s) : ShowsIdle (rounds d n s) := by
  induction n generalizing s with
  | zero => exact round_idle d h
  | succ n ih =>
    simp only [rounds]
    split
    · exact round_idle d h
    · exact ih ((round_idle d h).later (startTest_later d _).players)

theorem settleDeferred_idle {s : State} (h : ShowsIdle s) : ShowsIdle (settleDeferred s) := rounds_idle true 40 h

theorem settle_idle {s : State} (h : ShowsIdle s) : ShowsIdle (settle s) := rounds_idle false 40 h

theorem haltShows_idle (s : State) : ShowsIdle (haltShows s) := by
  intro p mem
  obtain ⟨q, -, rfl⟩ := List.mem_map.1 (show p ∈ s.water.shows.map Player.halt from mem)
  unfold Player.halt
  split
  · next idle => exact beq_iff_eq.1 idle
  · rfl

theorem replaceSite_idle (x : Site) {s : State} (h : ShowsIdle s) : ShowsIdle (replaceSite x s) := h

theorem loadNodes_idle (x : Tables) {s : State} (h : ShowsIdle s) : ShowsIdle (loadNodes x s) :=
  h.later (congrArg Water.shows (loadNodes_water x s))

theorem loadRoutes_idle (x : Tables) {s : State} (h : ShowsIdle s) : ShowsIdle (loadZones x (loadMowers x s)) := h

theorem loadLights_idle (x : Tables) {s : State} (h : ShowsIdle s) : ShowsIdle (loadLights x s) := h

theorem loadWater_idle (x : Tables) {s : State} (h : ShowsIdle s) : ShowsIdle (loadWater x s) := by
  have put : ShowsIdle (putWater x s) := forall_mem_mapIx (fun i p mem => h p mem) 0
  exact put.later (loadWater_later x s).players

theorem loadPass_idle (x : Tables) {s : State} (h : ShowsIdle s) : ShowsIdle (loadPass x s) :=
  (h.later ((formMonitors_later false s).trans (formLevels_last _).later).players).later
    (t := loadPass x s) (loadPass_later x s).players

/-- No show runs after a load: step 2 stops each, and no later step starts one (R172). -/
theorem loaded_idle (x : Tables) (s : State) : ShowsIdle (loaded x s) := by
  have halted := settleDeferred_idle (haltShows_idle (settleDeferred (cyclesBreak 9 s)))
  have site : ShowsIdle (siteLoaded x s) := settleDeferred_idle (replaceSite_idle x.site halted)
  have nodes : ShowsIdle (nodesSettled x s) := settleDeferred_idle (loadNodes_idle x site)
  have zones : ShowsIdle (zonesLoaded x s) := settleDeferred_idle (loadRoutes_idle x nodes)
  have water := settleDeferred_idle (loadWater_idle x zones)
  have lights : ShowsIdle (lightsLoaded x s) := settleDeferred_idle (loadLights_idle x water)
  exact settle_idle (loadPass_idle x lights)

end Sys2Proof.Machine

namespace Sys2Proof.Machine

/-! ### A channel after a load -/

theorem loadPass_feeds (x : Tables) (s : State) : Feeds s (settle (loadPass x s)) := by
  have outer := (loadPass_outer x s).trans (settle_settled _).outer
  have later : SettledFrom (passGranted x s) (settle (loadPass x s)) :=
    (formStarts_later (passGranted x s)).base.trans (settle_settled _)
  exact ⟨nodeAt_congr outer.nodes, fun j => (SettledFrom.valve later j).1.trans (passGranted_valve x s j).1⟩

theorem loadPass_passed {x : Tables} {s : State} (law : ConditionLaw s) {i : Nat} (hi : i < 8)
    (broken : (channelAt s i).stage = .idle ∨ (channelAt s i).stage = .aborting) :
    CyclePassed (channelAt s i) (settle (loadPass x s)) i := by
  cases cfg : (channelAt s i).cfg with
  | none => exact loadPass_empty hi cfg
  | some r => exact loadPass_used law hi cfg broken

/-- The cycle, the latch and F of a channel after a load, the channels being as many as their table holds (R91, R108, R109,
R121; log 15). -/
theorem loaded_cycle {x : Tables} {s : State} {i : Nat} (hi : i < 8) (inside : i < s.water.channels.length) :
    let t := loaded x s
    let a := channelAt s i
    let b := channelAt t i
    let new := x.channels.getD i none
    let same := a.cfg.map (fun r => (r.kind, r.node)) = new.map (fun r => (r.kind, r.node))
    let waits := a.stage = .idle ∨ a.stage = .requested
    let cause := if a.stage = .idle ∨ a.stage = .aborting then a.cause else 9
    let ends := (∃ r, a.cfg = some r ∧ ValveHolds s r 0) ∨ ∃ r, new = some r ∧ ValveHolds t r 0
    b.latch = (if same then a.latch else false) ∧ b.count = a.count
      ∧ (b.stage ≠ .stopping →
        b.filt = if same ∧ b.kindIs .filter = true ∧ channelNodeActive t b = true then a.filt else none)
      ∧ ((∀ r, new = some r → r.kind ≠ .filter) → b.stage = .idle ∧ b.cause = cause)
      ∧ ∀ r, new = some r → r.kind = .filter →
        (¬ waits → ¬ ends →
            b.stage = .aborting ∧ b.timer = (if a.stage = .aborting then a.timer else 250) ∧ b.cause = cause)
          ∧ (r.auto = false → (waits ∨ ends) → b.stage = .idle ∧ b.cause = cause) := by
  intro t a b new same waits cause ends
  have before : CycleLoaded s new (lightsLoaded x s) i :=
    lightsLoaded_spec hi ((zonesLoaded_sizes x s).channels.symm ▸ inside)
  have law : ConditionLaw (lightsLoaded x s) := settleDeferred_condition _
  have after : CyclePassed (channelAt (lightsLoaded x s) i) t i := loadPass_passed law hi before.broken
  have live : monitorLive t b = monitorLive (lightsLoaded x s) (channelAt (lightsLoaded x s) i) := loadPass_live x _ i
  have home : cycleHome t b = cycleHome (lightsLoaded x s) (channelAt (lightsLoaded x s) i) :=
    (cycleHome_congr after.cfg).trans ((loadPass_feeds x _).inputs _).2
  have cfg : b.cfg = new := after.cfg.trans before.cfg
  have reads : ends ↔ cycleHome s a = true ∨ cycleHome t b = true := by
    rw [cycleHome_iff, cycleHome_iff, cfg]
  have kind : (channelAt (lightsLoaded x s) i).kindIs .filter = b.kindIs .filter := (kindIs_congr after.cfg _).symm
  obtain ⟨cfgL, latch, unlatched, count, causeL, filt, unset, -, dropped, ended, aborts⟩ := before
  obtain ⟨-, latchT, countT, filtT, unsetT, idleT, abortingT⟩ := after
  rw [← live] at filt unset
  rw [← home] at ended aborts
  rw [kind] at dropped aborts
  generalize channelAt (lightsLoaded x s) i = d at *
  have filterOf : ∀ {r}, new = some r → b.kindIs .filter = (r.kind == .filter) := fun {r} own => by
    rw [Channel.kindIs, cfg, own, Option.any_some]
  refine ⟨?_, countT.trans count, fun moved => ?_, fun other => ?_, fun r own filter => ⟨fun moving away => ?_, ?_⟩⟩
  · by_cases wired : same
    · exact (latchT.trans (latch wired)).trans (if_pos wired).symm
    · exact (latchT.trans (unlatched wired)).trans (if_neg wired).symm
  · cases lives : monitorLive t b with
    | false =>
      refine (unsetT lives).trans (if_neg fun kept => ?_).symm
      rw [monitorLive, kept.2.1, kept.2.2] at lives
      cases lives
    | true =>
      have parts := lives
      rw [monitorLive, Bool.and_eq_true] at parts
      by_cases wired : same
      · exact ((filtT moved lives).trans (filt wired lives)).trans (if_pos ⟨wired, parts⟩).symm
      · exact ((filtT moved lives).trans (unset (.inl wired))).trans (if_neg fun kept => wired kept.1).symm
  · have none : b.kindIs .filter = false := by
      cases own : new with
      | none => rw [Channel.kindIs, cfg, own]; rfl
      | some r => rw [filterOf own]; exact beq_eq_false_iff_ne.2 (other r own)
    obtain ⟨stage, same⟩ := idleT (dropped none) fun r own filter => absurd filter (other r (cfgL.symm.trans own))
    exact ⟨stage, same.trans causeL⟩
  · rw [reads, not_or, Bool.not_eq_true, Bool.not_eq_true] at away
    obtain ⟨stage, timer⟩ := aborts moving away.1 away.2 ((filterOf own).trans (beq_iff_eq.2 filter))
    obtain ⟨stageT, timerT, same⟩ := abortingT stage away.2
    exact ⟨stageT, timerT.trans timer, same.trans causeL⟩
  · intro manual halts
    rw [reads] at halts
    have idle : d.stage = .idle := ended (by
      rcases halts with (idle | requested) | homeS | homeT
      exacts [.inl idle, .inr (.inl requested), .inr (.inr (.inl homeS)), .inr (.inr (.inr homeT))])
    obtain ⟨stage, same⟩ := idleT idle fun q owns _ => by
      have sameRec : some r = some q := own.symm.trans (cfgL.symm.trans owns)
      rw [← Option.some.inj sameRec, manual]
    exact ⟨stage, same.trans causeL⟩

end Sys2Proof.Machine

namespace Sys2Proof.Machine

/-! ### The load as a request -/

theorem loadRequest_writing {s : State} (writing : s.store.writing.isSome = true) (r : Request) :
    loadRequest r s = reply r .busy (countBusy s) := if_pos writing

theorem loadRequest_invalid {s : State} (writing : s.store.writing = none) (invalid : s.store.imageValid = false)
    (r : Request) : loadRequest r s = reply r .wrongState s := by
  rw [loadRequest, writing, invalid]
  rfl

theorem loadRequest_loads {s : State} (writing : s.store.writing = none) (valid : s.store.imageValid = true)
    (r : Request) :
    loadRequest r s
      = respond r .done (b1 (loadTables s.store.image.tables s).2) (loadTables s.store.image.tables s).1 := by
  rw [loadRequest, writing, valid]
  rfl

theorem exec_loadTables (o : Origin) {s : State} (ready : Ready s) :
    exec (.loadTables o) s = .next (loadRequest ⟨o, some 8#8, .loadTables⟩ s) :=
  exec_ready (c := .loadTables o) rfl ready

theorem load_eq (m : MowerImage) (a : Mower) :
    a.load m
      = { Mower.blank with
          node := m.node, loop := m.loop, offset := m.offset, offsetValid := m.offsetValid
          state := if m.node.isNone then .unused else if m.offsetValid then .acquiring else .unreferenced
          slips := a.slips, missedMarkers := a.missedMarkers, mismatches := a.mismatches } := by
  rw [Mower.load, startState_eq]

/-- The steps of a load one after another (R172). -/
theorem loaded_steps (x : Tables) (s : State) :
    settle
        (loadPass x
          (s |> cyclesBreak 9 |> settleDeferred |> haltShows |> settleDeferred |> replaceSite x.site |> settleDeferred
            |> loadNodes x |> settleDeferred |> loadMowers x |> loadZones x |> settleDeferred
            |> loadWater x |> settleDeferred |> loadLights x |> settleDeferred))
      = loaded x s := by
  simp only [loaded, lightsLoaded, zonesLoaded, nodesSettled, siteLoaded]

/-- Settles O39: the answers by the store, the records by the step that replaces them, the cycles by the steps' halts and the
pass, the slot map entry by entry. -/
theorem loadTablesReplacesTheTables : Obligations.LoadTablesReplacesTheTables := by
  intro o s ready
  rw [exec_loadTables o ready]
  refine ⟨fun writing => ?_, fun writing invalid => ?_, fun writing valid sized free => ?_, fun x u loads light loadsX => ?_⟩
  · rw [loadRequest_writing writing]
    rfl
  · rw [loadRequest_invalid writing invalid]
    rfl
  · rw [loadRequest_loads writing valid, loadTables_loaded]
    have sizes := sized
    obtain ⟨-, next, recs, -, -, mowers, -, -, -, -, -, -, -, channels, -, -, -, -, -, fits, -⟩ := sizes
    have frame := loaded_frame s.store.image.tables s
    have taken := loaded_taken sized fits
    have idle := loaded_idle s.store.image.tables s
    have cycles (i : Nat) (hi : i < 8) := loaded_cycle (x := s.store.image.tables) hi (channels.symm ▸ hi)
    have steps := loaded_steps s.store.image.tables s
    obtain ⟨sizeX, -⟩ := fits
    generalize loaded s.store.image.tables s = z at *
    have nextZ : z.line.next = s.line.next := congrArg Line.next frame.line
    have slots := loadSlots_spec sizeX (nextZ.symm ▸ next) (nextZ.symm ▸ free)
    have line (map : List (Option Placement)) : { z.line with next := map } = { s.line with next := map } := by
      rw [frame.line]
    have site : z.mgmt.site = s.store.image.tables.site := by rw [frame.mgmt]; rfl
    have clock : z.mgmt.clock = s.mgmt.clock := by rw [frame.mgmt]; rfl
    have queue : z.mgmt.queue = s.mgmt.queue := by rw [frame.mgmt]; rfl
    have readPtr : z.mgmt.readPtr = s.mgmt.readPtr := by rw [frame.mgmt]; rfl
    have discarded : z.mgmt.discarded = s.mgmt.discarded := by rw [frame.mgmt]; rfl
    have overrun : z.mgmt.overrun = s.mgmt.overrun := by rw [frame.mgmt]; rfl
    have notPermitted : z.mgmt.notPermitted = s.mgmt.notPermitted := by rw [frame.mgmt]; rfl
    refine ⟨_, _, rfl, rfl, ?_⟩
    intro x
    obtain ⟨apart, entries, left, whole⟩ := slots
    refine ⟨site, fun i hi => ?_, frame.loops, fun i m hi image => ?_, frame.zones, taken.channels, taken.shows,
      taken.steps, idle, cycles, taken.lights, taken.loads, ?_, apart, entries, left, whole, ?_, frame.dockAll, clock, queue,
      readPtr, frame.store, frame.overflow, discarded, overrun, notPermitted⟩
    · exact (frame.nodes i hi (recs.symm ▸ hi)).trans (loadIdent_eq _ _)
    · exact (frame.mowers i m (mowers.symm ▸ hi) image).trans (load_eq m _)
    · intro stepped v
      have same : v = z := steps
      rw [same]
      exact ⟨rfl, rfl, rfl⟩
    · exact line _
  · exact ⟨loadPass_power x u loads loadsX, loadPass_lights x u light⟩

end Sys2Proof.Machine
